-- ==== Sys2Proof/Word.lean ====
section
/-! DEFINITION. The words of the part's partners (bytes, lane words, audio values) and `Bank`, a fixed number of
like things (chapters' "four lanes", "32 stores", "96 destinations"), read and written by number. -/

namespace Sys2Proof

/-- A byte of a control-line frame (chapter 11). -/
abbrev Byte := BitVec 8

/-- A word of a lane line: ten bits (Figure 1-1; for picture words see assumption 18). -/
abbrev LaneWord := BitVec 10

/-- A sample value: 24-bit two's complement (00_scope.md, 3.4). -/
abbrev Value := BitVec 24

/-- `n` things of one kind, numbered from 0. -/
structure Bank (α : Type) (n : Nat) where
  list : List α
  size : list.length = n
deriving DecidableEq, Repr

namespace Bank

variable {α β : Type} {n : Nat}

/-- Thing number `i`. -/
def get (b : Bank α n) (i : Fin n) : α :=
  b.list[i.val]'(by rw [b.size]; exact i.isLt)

/-- The bank with thing number `i` replaced. -/
def set (b : Bank α n) (i : Fin n) (x : α) : Bank α n :=
  ⟨b.list.set i.val x, by rw [List.length_set, b.size]⟩

/-- The bank with `f` applied to thing number `i`. -/
def upd (b : Bank α n) (i : Fin n) (f : α → α) : Bank α n :=
  b.set i (f (b.get i))

/-- The bank whose thing number `i` is `f i`. -/
def tab (f : Fin n → α) : Bank α n :=
  ⟨List.ofFn f, List.length_ofFn⟩

/-- `n` copies of one thing. -/
def fill (n : Nat) (x : α) : Bank α n :=
  ⟨List.replicate n x, List.length_replicate⟩

/-- `f` applied to every thing. -/
def map (f : α → β) (b : Bank α n) : Bank β n :=
  ⟨b.list.map f, by rw [List.length_map, b.size]⟩

/-- `f` applied to every thing and its number. -/
def mapIdx (f : Fin n → α → β) (b : Bank α n) : Bank β n :=
  tab fun i => f i (b.get i)

end Bank

end Sys2Proof
end

