-- ==== Sys2Proof/Syntax.lean ====
section
/-! DEFINITION. The commands of the block: one constructor per row of spec/opcode_table.json. Each row is a step of
the part (spec/95_what_each_step_holds.md). Its operands are what reaches the part with it, the choices of order that
the rules leave open, and how far a step is taken between whose accesses other events may fall (assumptions 11 and
33). -/

namespace Sys2Proof

/-- The three control lines (00_scope.md, 3.6). Line C is the engineering line. -/
inductive Line where
  | a
  | b
  | c
deriving DecidableEq, Repr

/-- The blocks of Table 8-5 that PATH_RESET clears something of, in the order of the table. The other rows of the
table keep every item, so handing the reset to them has no effect. The strip stores take it as `strip`. The embed stores
and the builders take it together as `embed`: R136 lets no carriage line fall between the two (assumption 33). -/
inductive ResetBlock where
  | lanes
  | strip
  | catalogue
  | trackMap
  | engine
  | embed
  | monitors
deriving DecidableEq, Repr

/-- What comes with CARRIAGE_LINE. `words`: the words received on the lane since the line start, up to the 280th.
`events`: how many of the accesses that the line's event brings are taken now, one after another; none takes all that
are left. Other events may fall between two of them (R48, R124, R185), and a further CARRIAGE_LINE without words takes
more (assumption 11). -/
structure Arrival where
  words : List LaneWord
  events : Option Nat
deriving DecidableEq, Repr

/-- A PATH_RESET of control line `line` that is handed to `blocks` now, one after another. The command is executed when
it has been handed to all; until then a further PATH_RESET of the line goes on with the same frame, and other events may
fall between two blocks (assumption 33). -/
structure Handing where
  line : Line
  blocks : List ResetBlock
deriving DecidableEq, Repr

/-- The steps of the AB6416, in the order of opcode_table.json. -/
inductive Instr where
  /-- PIN_RESET (R5). `fbk` and `selA selB selC`: the levels of FBK and of the three selects at the end of the reset
  (R162, R167). -/
  | pinReset (fbk selA selB selC : Bool)
  /-- LINE_START (R9) on an input lane. `number`: the number the strobe carries. `words`: the words received on the
  lane since its last LINE_START or CARRIAGE_LINE (R1). `builderFirst`: which of builder and track map takes a
  switch-line event first (R131). -/
  | lineStart (lane : Fin 4) (number : BitVec 11) (words : List LaneWord) (builderFirst : Bool)
  /-- OUTPUT_LINE_START (R2) on an output lane. -/
  | outputLineStart (lane : Fin 4)
  /-- CARRIAGE_LINE (R11), or more accesses of the lane's last one. -/
  | carriageLine (lane : Fin 4) (arrival : Arrival)
  /-- LOSS_TIMER_EXPIRY (R10). -/
  | lossTimerExpiry (lane : Fin 4)
  /-- HOUSE_TICK (R156). `slots`: the 32 slots of the two serial input frames completed at this tick, slot s of port
  p at p*16 + s (R37). `flagsFirst`: the sources whose flag change, if this tick completes their block, is taken before
  the engine's computation (R109). `boundaryFirst`: whether the reference unit counts the tick, and takes a boundary it
  reaches, before the engine's computation (R76). -/
  | houseTick (slots : Bank (BitVec 32) 32) (flagsFirst : List (Fin 96)) (boundaryFirst : Bool)
  /-- HOUSE_FRAME_BOUNDARY (R157). -/
  | houseFrameBoundary
  /-- CROSSFADE_END (R95) of a destination. -/
  | crossfadeEnd (dest : Fin 96)
  /-- SOFT_ENTRY_COMPLETE (R97) of a destination. -/
  | softEntryComplete (dest : Fin 96)
  /-- WINDOW_COMPLETE (R143): the windows completed by one tick, in ascending destination number (R146). -/
  | windowComplete
  /-- CHANNEL_STATUS_BLOCK_COMPLETE (R38) of a source's tracker. -/
  | channelStatusBlockComplete (source : Fin 96)
  /-- WCK_EDGE (R154). `interval`: the time since the opening edge, in picoseconds (assumption 12). -/
  | wckEdge (interval : Nat)
  /-- WCK_MISSING_INTERVAL (R154). -/
  | wckMissingInterval
  /-- REF_LOCK (R155). -/
  | refLock
  /-- REF_HOLDOVER (R155). -/
  | refHoldover
  /-- HFP_PULSE (R158). -/
  | hfpPulse
  /-- FBK_ASSERTED (R162). -/
  | fbkAsserted
  /-- FBK_RELEASED (R162). -/
  | fbkReleased
  /-- SELECT_ASSERTED (R174). -/
  | selectAsserted (line : Line)
  /-- COMMAND_FRAME_END (R168). `bits`: the bits sampled on data in since the line's last event, in order. -/
  | commandFrameEnd (line : Line) (bits : List Bool)
  /-- RESPONSE_DELIVERED (R175). `bits`: the bits sampled on data in since the line's last event, up to the clock
  period that sends the last bit of the check byte. -/
  | responseDelivered (line : Line) (bits : List Bool)
  /-- POLL (R177), like every row below: the execution of the frame at the head of the line's command queue. -/
  | poll (line : Line)
  /-- IDENT (R178). -/
  | ident (line : Line)
  /-- MAP_STAGE (R61). -/
  | mapStage (line : Line)
  /-- MAP_DROP (R63). -/
  | mapDrop (line : Line)
  /-- MAP_TAKE (R66). -/
  | mapTake (line : Line)
  /-- MAP_READ (R86). -/
  | mapRead (line : Line)
  /-- PROTECT (R81). -/
  | protect (line : Line)
  /-- RELEASE (R82). -/
  | release (line : Line)
  /-- FORCE_RELEASE (R83). -/
  | forceRelease (line : Line)
  /-- PLAN_STAGE (R62). -/
  | planStage (line : Line)
  /-- PLAN_READ (R87). -/
  | planRead (line : Line)
  /-- LANE_FORMAT (R15). -/
  | laneFormat (line : Line)
  /-- LANE_STATUS (R17). -/
  | laneStatus (line : Line)
  /-- REF_FORMAT (R160). -/
  | refFormat (line : Line)
  /-- REF_STATUS (R161). -/
  | refStatus (line : Line)
  /-- STORE_STATUS (R55). -/
  | storeStatus (line : Line)
  /-- STORE_CLEAR (R56). -/
  | storeClear (line : Line)
  /-- MON_SET (R148). -/
  | monSet (line : Line)
  /-- METER_READ (R150). -/
  | meterRead (line : Line)
  /-- EVENT_SUBSCRIBE (R180). -/
  | eventSubscribe (line : Line)
  /-- EVENT_FETCH (R182). -/
  | eventFetch (line : Line)
  /-- FAULT_READ (R186). -/
  | faultRead (line : Line)
  /-- FAULT_CLEAR (R186). -/
  | faultClear (line : Line)
  /-- FALLBACK_ARM (R163). -/
  | fallbackArm (line : Line)
  /-- FALLBACK_DISARM (R163). -/
  | fallbackDisarm (line : Line)
  /-- PATH_RESET (R165) of a line, handed to some blocks. -/
  | pathReset (handing : Handing)
deriving DecidableEq, Repr

end Sys2Proof
end

