-- ==== Sys2Proof/Machine/State.lean ====
section
/-! DEFINITION. Everything the part holds, block by block (00_scope.md, Table 0-1), as plain data, and the value of
each item after a pin reset. -/

namespace Sys2Proof.Machine

/-! ### Lane receivers (chapter 1, Table 1-2) -/

/-- Figure 1-2. -/
inductive LaneState where
  | unset
  | seeking
  | running
  | lost
deriving DecidableEq, Repr

/-- The state of one lane receiver (Table 1-2). -/
structure Receiver where
  state : LaneState
  format : Option (Fin 8)
  lastLine : Option (BitVec 11)
  /-- `none` is "awaiting line 1". -/
  expected : Option Nat
  /-- Complete frames, 0..1, in SEEKING. -/
  frames : Nat
  /-- Frame-sequence index. -/
  index : Nat
  /-- Whether the loss timer runs. -/
  timer : Bool
  /-- The line in progress passed the sequence check of R9 (the model's own field, assumption 4). -/
  inFrame : Bool
  accepted : BitVec 16
  checksum : BitVec 16
  malformed : BitVec 16
  gaps : BitVec 16
deriving DecidableEq, Repr

/-- Table 1-2, "After pin reset". -/
def Receiver.reset : Receiver :=
  { state := .unset, format := none, lastLine := none, expected := none, frames := 0, index := 0, timer := false,
    inFrame := false, accepted := 0, checksum := 0, malformed := 0, gaps := 0 }

/-! ### Output lane relays (chapter 1, R1 and R2) -/

/-- One line on its way from input to output: its number, the words received after the strobe, and the area the
embed builder put in place of the first 280 words, if it rebuilt it. -/
structure RelayLine where
  number : BitVec 11
  words : List LaneWord
  rebuilt : Option (List LaneWord)
deriving DecidableEq, Repr

/-- What a lane holds between input and output (R2). `input` is the line in progress on the input; `shown` says that
the output lane already presents it; `waiting` are earlier lines not yet presented, oldest first; `output` is the line
presented while `shown` is clear (assumption 23). -/
structure Relay where
  input : Option RelayLine
  shown : Bool
  waiting : List RelayLine
  output : Option RelayLine
deriving DecidableEq, Repr

/-- R5, R2: after a pin reset nothing is in progress, and the output starts at the next input line start. -/
def Relay.reset : Relay :=
  { input := none, shown := false, waiting := [], output := none }

/-! ### Strip parsers (chapter 2, Table 2-3) -/

/-- A strip parser's record of one group. -/
structure GroupState where
  present : Bool
  lastCount : Option Byte
  pendingD : Bool
  seenFrame : Bool
  seenLine : Bool
deriving DecidableEq, Repr

/-- Table 2-3, "After pin reset". -/
def GroupState.reset : GroupState :=
  { present := false, lastCount := none, pendingD := false, seenFrame := false, seenLine := false }

/-- A packet that passed R22. -/
structure Packet where
  kind : LaneWord
  seq : LaneWord
  len : LaneWord
  payload : List LaneWord
  check : LaneWord
deriving DecidableEq, Repr

/-- What the parser made of a packet that the walk passed (R27). -/
inductive Verdict where
  | accepted
  | checksumFailure
  | duplicate
  | foreign
deriving DecidableEq, Repr

/-- R27: one packet of the walk result. -/
structure WalkEntry where
  start : Nat
  packet : Packet
  verdict : Verdict
deriving DecidableEq, Repr

/-- R27: the result that the parser hands to the embed builder. -/
structure WalkResult where
  entries : List WalkEntry
  ending : Nat
  failed : Bool
deriving DecidableEq, Repr

/-! ### Samples and rate-adaptation stores (chapter 3, Table 3-1) -/

/-- A sample with its four side bits (00_scope.md, 3.4). -/
structure Sample where
  value : Value
  v : Bool
  u : Bool
  c : Bool
  z : Bool
deriving DecidableEq, Repr

/-- A sample of value 0 with V = 1, U = C = Z = 0 (Table 2-4, R40). -/
def Sample.silent : Sample := { value := 0, v := true, u := false, c := false, z := false }

/-- A record of a source history: a sample and the discontinuity mark D. -/
structure Record where
  smp : Sample
  d : Bool
deriving DecidableEq, Repr

/-- Value 0, V = 1, everything else 0 (R34). -/
def Record.silent : Record := { smp := .silent, d := false }

/-- A sample set: channels 1..4 of one group and one D for all four (R40). -/
structure SampleSet where
  ch : Bank Sample 4
  d : Bool
deriving DecidableEq, Repr

/-- The silent set of R40. -/
def SampleSet.silent : SampleSet := { ch := .fill 4 .silent, d := false }

/-- Figures 3-1 and 3-2. A strip store is IDLE, PRIMING or FLOWING, an embed store HOLDING or FLOWING. -/
inductive StoreState where
  | idle
  | priming
  | flowing
  | holding
deriving DecidableEq, Repr

/-- The state of one rate-adaptation store (Table 3-1). -/
structure Store where
  state : StoreState
  /-- Sets held, oldest first. -/
  sets : List SampleSet
  last : SampleSet
  readMark : Bool
  writeMark : Bool
  /-- Reads since correction. -/
  reads : Nat
  /-- The LAST flag. -/
  lastFault : Bool
  /-- The SINCE flags of lines A, B, C. -/
  since : Bank Bool 3
  latch : Bool
  underflows : BitVec 16
  overflows : BitVec 16
  corrections : BitVec 16
deriving DecidableEq, Repr

/-- Table 3-1 after either reset, for a store whose state then is `st`. -/
def Store.reset (st : StoreState) : Store :=
  { state := st, sets := [], last := .silent, readMark := false, writeMark := false, reads := 0, lastFault := false,
    since := .fill 3 false, latch := false, underflows := 0, overflows := 0, corrections := 0 }

/-! ### Source catalogue (chapter 2, R33 to R39) -/

/-- A history: the most recent records, newest first, at most 8,192. Records older than the listed ones are the
record that a reset fills the ring with (R34); the last listed record is not that one (assumption 15). -/
abbrev History := List Record

/-- The state of one channel-status tracker (Table 2-6). -/
structure Tracker where
  collecting : Bool
  pos : Nat
  bit1 : Bool
  flag : Bool
deriving DecidableEq, Repr

/-- Table 2-6 after either reset. -/
def Tracker.reset : Tracker := { collecting := false, pos := 0, bit1 := false, flag := false }

/-- The serial audio ports (R37, R137, R138). Slot s of port p is number p*16 + s. -/
structure Serial where
  /-- An input frame has been started since the pin reset (R37). -/
  inStarted : Bool
  /-- The outputs handed to the output ports at the last tick (R114). -/
  handed : Option (Bank Sample 32)
  /-- The output frame being sent (R137). -/
  sending : Option (Bank Sample 32)
deriving DecidableEq, Repr

/-- R37, R138: at a pin reset no frame has been started and no outputs have been handed. -/
def Serial.reset : Serial := { inStarted := false, handed := none, sending := none }

/-! ### Track map (chapter 4) -/

/-- A gain code: 0..144, or 255, OFF (R57). -/
inductive Gain where
  | code (c : Fin 145)
  | off
deriving DecidableEq, Repr

/-- Destination modes (R57). -/
inductive Mode where
  | pcm
  | data
deriving DecidableEq, Repr

/-- A live entry or a staged entry: the seven fields of R57. -/
structure Entry where
  primary : Fin 98
  secondary : Option (Fin 98)
  gain : Gain
  invert : Bool
  mode : Mode
  delay : Fin 8001
  ramp : Fin 4
deriving DecidableEq, Repr

/-- R57, "After pin reset": SILENT at 0 dB with no delay. -/
def Entry.reset : Entry :=
  { primary := 97, secondary := none, gain := .code 120, invert := false, mode := .pcm, delay := 0, ramp := 1 }

/-- Plan modes (R59). -/
inductive PlanMode where
  | pass
  | strip
  | embed
deriving DecidableEq, Repr

/-- A staged record: an entry or a mode, with its tag and stager (R60). -/
structure Staged (α : Type) where
  body : α
  tag : BitVec 4
  stager : Line
deriving DecidableEq, Repr

/-- What a take item will apply, and to which target (R65). Plan group g is item 96 + g. -/
inductive TakeBody where
  | dest (d : Fin 96) (e : Entry)
  | plan (g : Fin 16) (m : PlanMode)
deriving DecidableEq, Repr

/-- A take item (R65). `held` is the hold mark: HELD, else WAITING. -/
structure TakeItem where
  body : TakeBody
  tag : BitVec 4
  stager : Line
  held : Bool
deriving DecidableEq, Repr

/-! ### Destination engine (chapter 5, Table 5-2) -/

/-- A crossfade in flight: the old entry, the length N and the tick count i (R95). -/
structure Crossfade where
  old : Entry
  len : Nat
  i : Nat
deriving DecidableEq, Repr

/-- The engine's state of one destination (Table 5-2), and three fields of the model's own. -/
structure DestState where
  xfade : Option Crossfade
  /-- Soft-entry step j; `none` is idle. -/
  j : Option Nat
  /-- Soft-entry factor. -/
  e : Nat
  /-- Block counter. -/
  block : Nat
  blocked : Bool
  /-- A trigger of soft entry has been handed since the last tick (R99). -/
  trigger : Bool
  /-- The flagged sources that were weighted at the last tick (for the cause in R116). -/
  blockers : List (Fin 98)
  /-- The catalogue took a PATH_RESET while the destination was blocked (for the cause RESET in R115). -/
  resetMark : Bool
deriving DecidableEq, Repr

/-- Table 5-2, "After pin reset". -/
def DestState.reset : DestState :=
  { xfade := none, j := none, e := 1024, block := 0, blocked := false, trigger := false, blockers := [],
    resetMark := false }

/-! ### Embed builders (chapter 6, Table 6-1) -/

/-- Rebuild phases (R117). -/
inductive Phase where
  | stopped
  | awaiting
  | engaged
deriving DecidableEq, Repr

/-- Bypass states (R132). -/
inductive Bypass where
  | out
  | entering
  | inside
  | leaving
deriving DecidableEq, Repr

/-- The per-lane state of an embed builder (Table 6-1). -/
structure Builder where
  phase : Phase
  /-- Distribution accumulator. -/
  acc : Nat
  bypass : Bypass
deriving DecidableEq, Repr

/-- Table 6-1, "After pin reset". -/
def Builder.reset : Builder := { phase := .stopped, acc := 0, bypass := .out }

/-- The per-group counts of an embed builder (Table 6-1). -/
structure EmbedCount where
  next : Byte
  owed : Nat
deriving DecidableEq, Repr

/-- Table 6-1 after either reset. -/
def EmbedCount.reset : EmbedCount := { next := 0, owed := 0 }

/-! ### Carriage areas in the hands of the parser and the builder (R20 to R28, R118 to R127) -/

/-- A carriage-line event: its line, and the house frame count when it is taken, which stamps the faults of its area
(R28) and its DEFER_LOSS (R126). `no` is the number of the parser's event, `no + 1` that of the builder's: with these
their notices are raised, access by access (assumption 35). -/
structure AreaEvent where
  line : BitVec 11
  stamp : BitVec 16
  no : Nat
deriving DecidableEq, Repr

/-- A walk in progress (R20): the sets of the packets accepted so far that are still to be written, each with its
group; the packets still to be judged, with their positions; the entries of the result so far (R27); where the walk
ends, and whether on a failure of R22. -/
structure Walk where
  sets : List (Fin 16 × SampleSet)
  todo : List (Nat × Packet)
  entries : List WalkEntry
  ending : Nat
  failed : Bool
deriving DecidableEq, Repr

/-- A packet being formed (R124): its group, the reads still to be taken, and the sets read so far. -/
structure Draft where
  group : Fin 4
  left : Nat
  sets : List SampleSet
deriving DecidableEq, Repr

/-- A rebuilding in progress (R123): the line's n, the words used so far, the packet being formed and the groups still
to be dealt with. -/
structure Build where
  n : Nat
  used : List LaneWord
  draft : Option Draft
  groups : List (Fin 4)
deriving DecidableEq, Repr

/-- What is still to be done for a lane's last carriage-line event (the model's own form of the accesses that R48,
R124 and R185 take one by one, assumption 11). -/
inductive LaneWork where
  | idle
  | walking (ev : AreaEvent) (w : Walk)
  | building (ev : AreaEvent) (b : Build)
deriving DecidableEq, Repr

/-! ### Level monitors (chapter 7, Table 7-1) -/

/-- Silence edge select. -/
inductive EdgeSelect where
  | none
  | enter
  | leave
  | both
deriving DecidableEq, Repr

/-- Monitor activity. -/
inductive Activity where
  | idle
  | measuring
  | suspended
deriving DecidableEq, Repr

/-- The state of one level monitor (Table 7-1). -/
structure Monitor where
  enable : Bool
  /-- Silence threshold TS. -/
  silenceAt : Nat
  /-- Overload threshold TO. -/
  overloadAt : Nat
  /-- Silence windows NS. -/
  ns : Nat
  edge : EdgeSelect
  overloadEvent : Bool
  activity : Activity
  ticks : Nat
  peak : Nat
  clip : Bool
  changed : Bool
  pendingChanged : Bool
  silenceCount : Nat
  silent : Bool
  overloaded : Bool
  lastPeak : Nat
  lastClip : Bool
  lastChanged : Bool
  lastOverloaded : Bool
  /-- Peak holds of lines A, B, C. -/
  holds : Bank Nat 3
deriving DecidableEq, Repr

/-- Table 7-1, "After pin reset". -/
def Monitor.reset : Monitor :=
  { enable := false, silenceAt := 2653, overloadAt := 7476353, ns := 300, edge := .none, overloadEvent := false,
    activity := .idle, ticks := 0, peak := 0, clip := false, changed := false, pendingChanged := false,
    silenceCount := 0,
    silent := false, overloaded := false, lastPeak := 0, lastClip := false, lastChanged := false,
    lastOverloaded := false, holds := .fill 3 0 }

/-! ### Reference unit and fallback control (chapter 8) -/

/-- Reference states (R155). -/
inductive RefState where
  | absent
  | locked
  | holdover
deriving DecidableEq, Repr

/-- The state of the reference unit (Table 8-1). -/
structure RefUnit where
  state : RefState
  edgeSeen : Bool
  /-- An edge has opened an interval that is not closed and not judged missing (R154). -/
  intervalOpen : Bool
  good : Nat
  nonGood : Nat
  /-- The most recent good intervals, newest first, in picoseconds (for the mean of R154). -/
  recent : List Nat
  /-- The measured period as 480 times its length, in picoseconds; 1/48,000 s is 10,000,000,000. -/
  period480 : Nat
  format : Fin 8
  /-- HFP state PRESENT. -/
  hfp : Bool
  k : Nat
  t : Nat
  frameCount : BitVec 16
  /-- The last tick reached the end of the frame and its boundary has not been taken (assumption 8). -/
  boundaryDue : Bool
  /-- The house frame count as it stood at the last tick, which stamps the notices of the windows that this tick
  completed (R146; the model's own field, assumption 8). -/
  tickCount : BitVec 16
deriving DecidableEq, Repr

/-- Table 8-1, "After pin reset". -/
def RefUnit.reset : RefUnit :=
  { state := .absent, edgeSeen := false, intervalOpen := false, good := 0, nonGood := 0, recent := [],
    period480 := 10000000000, format := 0, hfp := false, k := 1, t := 0, frameCount := 0, boundaryDue := false,
    tickCount := 0 }

/-- Fallback states (R162). -/
inductive FallbackState where
  | disarmed
  | armed
  | tripped
deriving DecidableEq, Repr

/-- Fallback control: its state and the last level taken on FBK (R162). -/
structure Fallback where
  state : FallbackState
  fbk : Bool
deriving DecidableEq, Repr

/-- R162 after a pin reset that ends with FBK at level `fbk`. -/
def Fallback.reset (fbk : Bool) : Fallback := { state := .disarmed, fbk := fbk }

/-! ### Control line ports (chapter 9, Table 9-1) -/

/-- A queued command frame (R166): code, ticket and parameter bytes. -/
structure Frame where
  code : Byte
  ticket : Byte
  params : List Byte
deriving DecidableEq, Repr

/-- A response in a slot (R172); `status` has bits 6 and 7 as formed at placement (R173). -/
structure Response where
  ticket : Byte
  status : Byte
  payload : List Byte
deriving DecidableEq, Repr

/-- The outgoing copy of R174: its bytes, whether it is a response's (R175), and whether the slot still holds that
response. -/
structure OutCopy where
  bytes : List Byte
  ofResponse : Bool
  current : Bool
deriving DecidableEq, Repr

/-- The state of one control line port (Table 9-1). -/
structure Port where
  /-- Select is asserted. -/
  selected : Bool
  /-- The frame's select was asserted before the pin reset ended, so it is not judged (R167). -/
  skip : Bool
  /-- Bits of the current byte, first received first. -/
  bits : List Bool
  /-- Frame length in complete bytes. -/
  length : Nat
  /-- Stored bytes, at most 28. -/
  stored : List Byte
  copy : Option OutCopy
  /-- Command queue, head first. -/
  queue : List Frame
  slot : Option Response
  delivered : Bool
  drop : Bool
  framing : Bool
deriving DecidableEq, Repr

/-- Table 9-1, "After pin reset"; `sel` is the level of select at the end of the reset. -/
def Port.reset (sel : Bool) : Port :=
  { selected := sel, skip := sel, bits := [], length := 0, stored := [], copy := none, queue := [], slot := none,
    delivered := false, drop := false, framing := false }

/-! ### Event queues and fault captures (chapter 10) -/

/-- The 18 notice kinds (Table 10-2). -/
inductive NoticeKind where
  | takeDone
  | takeRefused
  | takeSuperseded
  | protectForced
  | storeFault
  | dataSlip
  | deferLoss
  | silenceOn
  | silenceOff
  | overload
  | nonpcmBlocked
  | nonpcmCleared
  | laneState
  | groupState
  | laneFault
  | refState
  | fallbackState
  | pathResetDone
deriving DecidableEq, Repr

/-- A notice (Table 10-1); its class is fixed by its kind. -/
structure Notice where
  kind : NoticeKind
  subject : Byte
  detail : BitVec 16
  stamp : BitVec 16
  mark : Bool
deriving DecidableEq, Repr

/-- A notice offered to a queue that has not taken it yet, with the number of the event that raised it. -/
structure Offer where
  event : Nat
  notice : Notice
deriving DecidableEq, Repr

/-- How many of the offers on their way a queue takes at one turn, and in which order (R179): none is all of them in the
order in which they were raised; `some es` is, for each number in the list, the first offer of the event of that
number. The offers of one event are always taken in their order (assumption 35). -/
abbrev Taking := Option (List Nat)

/-- A line's subscription (bit n for class n of Table 11-3) and event queue, oldest notice first. `coming` are the
offers that the queue has still to take, each as an event of its own (R179), in the order in which they were raised;
`turns` says what it takes at its next turns, and at a turn past the end of the list it takes all (the model's own
fields, assumption 35). -/
structure EventQueue where
  subs : BitVec 5
  notices : List Notice
  coming : List Offer
  turns : List Taking
deriving DecidableEq, Repr

/-- R180, R181 after a pin reset; no offer is on its way, and `turns` stands for what comes. -/
def EventQueue.reset (turns : List Taking) : EventQueue := { subs := 31, notices := [], coming := [], turns }

/-- Fault kinds of a lane (R184). -/
inductive FaultKind where
  | seqGap
  | checksum
  | malformed
  | format
  | loss
deriving DecidableEq, Repr

/-- A locked fault capture record (R184); its severity is its kind's. -/
structure Capture where
  kind : FaultKind
  line : BitVec 11
  stamp : BitVec 16
  further : BitVec 8
deriving DecidableEq, Repr

/-! ### The whole part -/

/-- Everything the AB6416 holds. Groups are numbered lane*4 + (group-1), like strip stores and plan groups. -/
structure State where
  lanes : Bank Receiver 4
  relays : Bank Relay 4
  groups : Bank GroupState 16
  strip : Bank Store 16
  embed : Bank Store 16
  hist : Bank History 98
  trackers : Bank Tracker 96
  /-- Tone count, 0..191 (R35). -/
  tone : Nat
  serial : Serial
  live : Bank Entry 96
  /-- The feed plan (R59). -/
  plan : Bank PlanMode 16
  stagedDest : Bank (Option (Staged Entry)) 96
  stagedPlan : Bank (Option (Staged PlanMode)) 16
  /-- The take lists of domains 0..4 (R65). -/
  takes : Bank (List TakeItem) 5
  /-- The protect table (R80). -/
  owners : Bank (Option Line) 112
  engine : Bank DestState 96
  builders : Bank Builder 4
  embCounts : Bank EmbedCount 16
  monitors : Bank Monitor 96
  ref : RefUnit
  fallback : Fallback
  ports : Bank Port 3
  events : Bank EventQueue 3
  /-- The number of the next event that raises notices (the model's own field, assumption 35). -/
  eventNo : Nat
  /-- Fault capture records; `none` is empty (R184). -/
  faults : Bank (Option Capture) 4
  /-- What is left of each lane's last carriage-line event (assumption 11). -/
  work : Bank LaneWork 4
  /-- The blocks that have taken the PATH_RESET under execution (assumption 33). -/
  handed : List ResetBlock
  /-- The model's own counter of draws of free values (assumption 16). -/
  free : Nat
  /-- The commands that wait, first in, first out (assumption 1). -/
  pending : List Instr
deriving DecidableEq, Repr

/-- The part right after a pin reset that ends with FBK and the selects at the given levels (every rule "After pin
reset"), with the turns of the event queues, `free` and `pending`, which are the model's, as given. -/
def State.afterReset (fbk selA selB selC : Bool) (turns : Bank (List Taking) 3) (free : Nat) (pending : List Instr) :
    State :=
  { lanes := .fill 4 .reset
    relays := .fill 4 .reset
    groups := .fill 16 .reset
    strip := .fill 16 (.reset .idle)
    embed := .fill 16 (.reset .holding)
    hist := .fill 98 []
    trackers := .fill 96 .reset
    tone := 0
    serial := .reset
    live := .fill 96 .reset
    plan := .fill 16 .pass
    stagedDest := .fill 96 none
    stagedPlan := .fill 16 none
    takes := .fill 5 []
    owners := .fill 112 none
    engine := .fill 96 .reset
    builders := .fill 4 .reset
    embCounts := .fill 16 .reset
    monitors := .fill 96 .reset
    ref := .reset
    fallback := .reset fbk
    ports := ⟨[.reset selA, .reset selB, .reset selC], rfl⟩
    events := turns.map .reset
    eventNo := 0
    faults := .fill 4 none
    work := .fill 4 .idle
    handed := []
    free := free
    pending := pending }

/-- The machine after reset: FBK and the selects released (assumption 2), nothing waiting, and each event queue takes
all at every turn (assumption 35). -/
def State.reset : State := .afterReset false false false false (.fill 3 []) 0 []

/-- The reasons the block stops with a fault: there is none. Every command has a next state in every state; lane
faults, store faults and refused commands are effects on the state. -/
inductive Fault where
deriving DecidableEq, Repr

/-- The reasons a command has no meaning. -/
inductive Refusal where
  /-- Raised by `exec` for a row of the table that is not modelled (none is left). Safe: the machine stops. -/
  | notModelled (mnemonic : String)
deriving DecidableEq, Repr

end Sys2Proof.Machine
end

