-- ==== Sys2Proof/Machine/Flags.lean ====
section
/-! DEFINITION. Counters that saturate, code numbers of Tables 9-2, 9-3, 11-3 and 11-6, classes and severities, and
flag bytes. -/

namespace Sys2Proof.Machine

/-- One more on a saturating count (00_scope.md, 3.1): it stays at its largest value. -/
def satInc {w : Nat} (c : BitVec w) : BitVec w := if c = BitVec.allOnes w then c else c + 1

/-- A control line's number 0..2 in the banks. -/
def lineIx : Line → Fin 3
  | .a => 0
  | .b => 1
  | .c => 2

/-- Line codes of Table 11-3. -/
def lineCode : Line → Nat
  | .a => 1
  | .b => 2
  | .c => 3

/-- Line or owner codes of Table 11-3: none is 0. -/
def ownerCode : Option Line → Nat
  | none => 0
  | some l => lineCode l

/-- A bit as a number. -/
def bit (b : Bool) : Nat := if b then 1 else 0

/-- Lane state codes of Table 11-3. -/
def LaneState.code : LaneState → Nat
  | .unset => 0
  | .seeking => 1
  | .running => 2
  | .lost => 3

/-- Plan mode codes of Table 11-3. -/
def PlanMode.code : PlanMode → Nat
  | .pass => 0
  | .strip => 1
  | .embed => 2

/-- The plan mode a code names, if it names one. -/
def PlanMode.ofCode? (b : Byte) : Option PlanMode :=
  if b = 0 then some .pass else if b = 1 then some .strip else if b = 2 then some .embed else none

/-- Fault kind codes of Table 11-3. -/
def FaultKind.code : FaultKind → Nat
  | .seqGap => 1
  | .checksum => 2
  | .malformed => 3
  | .format => 4
  | .loss => 5

/-- Severities of R184. -/
def FaultKind.severity : FaultKind → Nat
  | .loss => 5
  | .format => 4
  | .malformed => 3
  | .checksum => 2
  | .seqGap => 1

/-- Reference state codes of Table 11-3. -/
def RefState.code : RefState → Nat
  | .absent => 0
  | .locked => 1
  | .holdover => 2

/-- HFP state codes of Table 11-3. -/
def hfpCode (present : Bool) : Nat := bit present

/-- Fallback state codes of Table 11-3. -/
def FallbackState.code : FallbackState → Nat
  | .disarmed => 0
  | .armed => 1
  | .tripped => 2

/-- Store state codes of Table 11-5 (STORE_STATUS). -/
def StoreState.code : StoreState → Nat
  | .idle => 0
  | .priming => 1
  | .flowing => 2
  | .holding => 0

/-- Activity codes of Table 11-5 (METER_READ). -/
def Activity.code : Activity → Nat
  | .idle => 0
  | .measuring => 1
  | .suspended => 2

/-- Edge select codes of Table 11-5 (MON_SET), two bits. -/
def EdgeSelect.ofBits (b : BitVec 2) : EdgeSelect :=
  if b = 0 then .none else if b = 1 then .enter else if b = 2 then .leave else .both

/-- Notice kind codes of Table 11-6. -/
def NoticeKind.code : NoticeKind → Nat
  | .takeDone => 0x01
  | .takeRefused => 0x02
  | .takeSuperseded => 0x03
  | .protectForced => 0x04
  | .storeFault => 0x10
  | .dataSlip => 0x11
  | .deferLoss => 0x12
  | .silenceOn => 0x20
  | .silenceOff => 0x21
  | .overload => 0x22
  | .nonpcmBlocked => 0x23
  | .nonpcmCleared => 0x24
  | .laneState => 0x30
  | .groupState => 0x31
  | .laneFault => 0x32
  | .refState => 0x40
  | .fallbackState => 0x41
  | .pathResetDone => 0x42

/-- The class of a notice kind (Table 10-2) by its code in Table 11-3: MAP 0, STORE 1, MONITOR 2, LANE 3, SYSTEM 4. -/
def NoticeKind.cls : NoticeKind → Nat
  | .takeDone => 0
  | .takeRefused => 0
  | .takeSuperseded => 0
  | .protectForced => 0
  | .storeFault => 1
  | .dataSlip => 1
  | .deferLoss => 1
  | .silenceOn => 2
  | .silenceOff => 2
  | .overload => 2
  | .nonpcmBlocked => 2
  | .nonpcmCleared => 2
  | .laneState => 3
  | .groupState => 3
  | .laneFault => 3
  | .refState => 4
  | .fallbackState => 4
  | .pathResetDone => 4

/-- Statuses of Table 9-2. -/
inductive Status where
  | ok
  | replaced
  | protected_
  | invalid
  | notAllowed
  | unknown
  | length
  | check
  | notOwner
deriving DecidableEq, Repr

/-- Status codes of Table 11-3. -/
def Status.code : Status → Nat
  | .ok => 0
  | .replaced => 1
  | .protected_ => 2
  | .invalid => 3
  | .notAllowed => 4
  | .unknown => 5
  | .length => 6
  | .check => 7
  | .notOwner => 8

/-- The status byte of R173: code in bits 0..5, overwrite mark in bit 6, dropped-frame mark in bit 7. -/
def statusByte (st : Status) (overwrite dropped : Bool) : Byte :=
  BitVec.ofNat 8 (st.code + bit overwrite * 64 + bit dropped * 128)

/-- The parameter lengths that a command accepts (Table 11-5): `none` where byte 0 is no command code of Table 9-3;
otherwise the smallest and the largest P. POLL alone accepts more than one (R168). -/
def paramLength? (code : Byte) : Option (Nat × Nat) :=
  match code.toNat with
  | 0x01 => some (0, 24)
  | 0x02 => some (0, 0)
  | 0x10 => some (7, 7)
  | 0x11 => some (1, 1)
  | 0x12 => some (1, 1)
  | 0x13 => some (1, 1)
  | 0x14 => some (1, 1)
  | 0x15 => some (1, 1)
  | 0x16 => some (1, 1)
  | 0x18 => some (3, 3)
  | 0x19 => some (1, 1)
  | 0x20 => some (2, 2)
  | 0x21 => some (1, 1)
  | 0x22 => some (1, 1)
  | 0x23 => some (0, 0)
  | 0x30 => some (1, 1)
  | 0x31 => some (1, 1)
  | 0x38 => some (10, 10)
  | 0x39 => some (1, 1)
  | 0x40 => some (1, 1)
  | 0x41 => some (0, 0)
  | 0x48 => some (1, 1)
  | 0x49 => some (1, 1)
  | 0x50 => some (0, 0)
  | 0x51 => some (0, 0)
  | 0x52 => some (0, 0)
  | _ => none

/-- R176: FORCE_RELEASE, LANE_FORMAT, REF_FORMAT, FALLBACK_DISARM and PATH_RESET are reserved to line C. -/
def reservedToC (code : Byte) : Bool :=
  match code.toNat with
  | 0x16 => true
  | 0x20 => true
  | 0x22 => true
  | 0x51 => true
  | 0x52 => true
  | _ => false

end Sys2Proof.Machine
end

