-- ==== Sys2Proof/Machine/Operands.lean ====
section
/-! DEFINITION. The bytes of command parameters and payloads (R188, Tables 11-4 and 11-5): multi-byte fields, most
significant byte first, entries, tag bytes, and the parameters that several commands share. -/

namespace Sys2Proof.Machine

/-- One byte. -/
def byte (n : Nat) : List Byte := [BitVec.ofNat 8 n]

/-- Two bytes, most significant first. -/
def be16 (n : Nat) : List Byte := [BitVec.ofNat 8 (n / 256), BitVec.ofNat 8 n]

/-- Three bytes, most significant first. -/
def be24 (n : Nat) : List Byte := [BitVec.ofNat 8 (n / 65536), BitVec.ofNat 8 (n / 256), BitVec.ofNat 8 n]

/-- The number that bytes spell, most significant first. -/
def ofBytes (bs : List Byte) : Nat := bs.foldl (fun n b => n * 256 + b.toNat) 0

/-- A byte as a number below `n`, or none where it is outside 0..n-1. -/
def below? (n : Nat) (b : Byte) : Option (Fin n) :=
  if h : b.toNat < n then some ⟨b.toNat, h⟩ else none

/-- R188: a tag parameter is a whole byte; a value above 15 is out of range. -/
def tag? (b : Byte) : Option (BitVec 4) := if b.toNat < 16 then some (BitVec.ofNat 4 b.toNat) else none

/-- Gain code of byte 2 of an entry: 0..144, 255 OFF (R57); 145..254 are out of range (R61). -/
def gain? (b : Byte) : Option Gain :=
  if h : b.toNat < 145 then some (.code ⟨b.toNat, h⟩) else if b.toNat = 255 then some .off else none

/-- The code of a gain. -/
def Gain.toCode : Gain → Nat
  | .code c => c.val
  | .off => 255

/-- R61, "DATA entry": a DATA entry has no secondary, gain code 120 and invert no. -/
def Entry.stageable (e : Entry) : Bool :=
  match e.mode with
  | .pcm => true
  | .data => e.secondary.isNone && e.gain == .code 120 && !e.invert

/-- The secondary field of byte 1: 0..97, or 0x7F for absent (Table 11-4). -/
def secondary? (n : Nat) : Option (Option (Fin 98)) :=
  if n = 127 then some none else if h : n < 98 then some (some ⟨n, h⟩) else none

/-- The secondary field of byte 1 of an entry. -/
def secondaryCode : Option (Fin 98) → Nat
  | some x => x.val
  | none => 127

/-- Mode codes of Table 11-4: PCM 0, DATA 1. -/
def Mode.code : Mode → Nat
  | .pcm => 0
  | .data => 1

/-- The mode a bit names. -/
def Mode.ofBit (b : Bool) : Mode := if b then .data else .pcm

/-- R61, R188, Table 11-4: the entry that five bytes spell, or none where a field is out of range, a zero bit is set,
or the DATA rule is broken. -/
def entry? : List Byte → Option Entry
  | [b0, b1, b2, b3, b4] =>
    let dr := b3.toNat * 256 + b4.toNat
    match secondary? (b1.toNat % 128), gain? b2 with
    | some sec, some g =>
      if h : b0.toNat % 128 < 98 ∧ dr % 8192 < 8001 ∧ dr < 32768 then
        let e : Entry :=
          { primary := ⟨b0.toNat % 128, h.1⟩, secondary := sec, gain := g, invert := b0.getLsbD 7,
            mode := .ofBit (b1.getLsbD 7), delay := ⟨dr % 8192, h.2.1⟩,
            ramp := ⟨dr / 8192, by omega⟩ }
        if e.stageable then some e else none
      else none
    | _, _ => none
  | _ => none

/-- Table 11-4: the five bytes of an entry. -/
def entryBytes (e : Entry) : List Byte :=
  [BitVec.ofNat 8 (e.primary.val + bit e.invert * 128),
   BitVec.ofNat 8 (secondaryCode e.secondary + e.mode.code * 128),
   BitVec.ofNat 8 e.gain.toCode] ++ be16 (e.delay.val + e.ramp.val * 8192)

/-- The tag byte of a readout: tag in bits 0..3, stager in bits 4..5, hold mark in bit 6, present in bit 7. -/
def tagByte (tag : BitVec 4) (stager : Line) (held : Bool) : List Byte :=
  byte (tag.toNat + lineCode stager * 16 + bit held * 64 + 128)

/-- Staged entry and tag byte of MAP_READ; zero bytes where absent (R188). -/
def stagedEntryBytes : Option (Staged Entry) → List Byte
  | some r => entryBytes r.body ++ tagByte r.tag r.stager false
  | none => [0, 0, 0, 0, 0, 0]

/-- Staged mode and tag byte of PLAN_READ; zero bytes where absent (R188). -/
def stagedModeBytes : Option (Staged PlanMode) → List Byte
  | some r => byte r.body.code ++ tagByte r.tag r.stager false
  | none => [0, 0]

/-- Take-item entry and tag byte of MAP_READ; zero bytes where there is none. -/
def takeEntryBytes : Option TakeItem → List Byte
  | some { body := .dest _ e, tag, stager, held } => entryBytes e ++ tagByte tag stager held
  | _ => [0, 0, 0, 0, 0, 0]

/-- Take-item mode and tag byte of PLAN_READ; zero bytes where there is none. -/
def takeModeBytes : Option TakeItem → List Byte
  | some { body := .plan _ m, tag, stager, held } => byte m.code ++ tagByte tag stager held
  | _ => [0, 0]

/-- The one parameter byte of a command with P = 1, as a number below `n`. -/
def param1? (n : Nat) : List Byte → Option (Fin n)
  | [b] => below? n b
  | _ => none

/-- An item number 96..111 of a plan group (R62, R87). -/
def planGroup? (b : Byte) : Option (Fin 16) :=
  if h : 96 ≤ b.toNat ∧ b.toNat < 112 then some ⟨b.toNat - 96, by omega⟩ else none

end Sys2Proof.Machine
end

