-- ==== Sys2Proof/Machine/Formats.lean ====
section
/-! DEFINITION. The eight feed formats (Table 1-1), the classes of lines (R4), and house frame lengths (Table 8-3). -/

namespace Sys2Proof.Machine

/-- Lines per frame L of a format (Table 1-1). -/
def linesPerFrame (f : Fin 8) : Nat :=
  match f with
  | 0 => 1125
  | 1 => 1125
  | 2 => 1125
  | 3 => 1125
  | 4 => 750
  | 5 => 750
  | 6 => 625
  | 7 => 525

/-- Sample sets per group per sequence S of a format (Table 1-1). -/
def setsPerSequence (f : Fin 8) : Nat :=
  match f with
  | 0 => 1920
  | 1 => 8008
  | 2 => 960
  | 3 => 4004
  | 4 => 960
  | 5 => 4004
  | 6 => 1920
  | 7 => 8008

/-- Frames per sequence F of a format (Table 1-1). -/
def framesPerSequence (f : Fin 8) : Nat :=
  match f with
  | 0 => 1
  | 1 => 5
  | 2 => 1
  | 3 => 5
  | 4 => 1
  | 5 => 5
  | 6 => 1
  | 7 => 5

/-- Carriage lines per frame C = L - 2 (R3). -/
def carriageLines (f : Fin 8) : Nat := linesPerFrame f - 2

/-- Carriage lines per sequence F*C (R3). -/
def carriagePerSequence (f : Fin 8) : Nat := framesPerSequence f * carriageLines f

/-- Words of a carriage area, W (Figure 1-1). -/
abbrev areaWords : Nat := 280

/-- R4: line 7 is the switch line. -/
def isSwitchLine (n : BitVec 11) : Bool := n.toNat == 7

/-- R4: lines 7 and 8 are the non-carriage lines, every other line is a carriage line. -/
def isCarriageLine (n : BitVec 11) : Bool := n.toNat != 7 && n.toNat != 8

/-- The format a lane works by. A lane that is SEEKING or RUNNING has one; the other case does not arise
(assumption 26). -/
def Receiver.fmt (r : Receiver) : Fin 8 := r.format.getD 0

/-- Length of frame k (1..F) of a house format in house ticks (Table 8-3): boundaries fall at floor(j*S/F). -/
def houseFrameLength (f : Fin 8) (k : Nat) : Nat :=
  k * setsPerSequence f / framesPerSequence f - (k - 1) * setsPerSequence f / framesPerSequence f

end Sys2Proof.Machine
end

