-- ==== Sys2Proof/Machine/Ops.lean ====
section
/-! DEFINITION. Numbers of groups, stores, destinations and items (00_scope.md, 3.5), the updates of one part of the
state, and the two reports every block makes: a notice (R179 to R181) and a lane fault (R184, R185). -/

namespace Sys2Proof.Machine

/-! ### Numbering -/

/-- Group number lane*4 + (group-1), also the number of its strip store and of its plan group less 96. -/
def groupNo (lane g : Fin 4) : Fin 16 := ⟨lane.val * 4 + g.val, by omega⟩

/-- The lane of a group number. -/
def groupLane (g : Fin 16) : Fin 4 := ⟨g.val / 4, by omega⟩

/-- Table 0-3: embed destination of channel c (0..3) of a group. -/
def groupDest (g : Fin 16) (c : Fin 4) : Fin 96 := ⟨g.val * 4 + c.val, by omega⟩

/-- Embed destination number n of a lane: lane*16 + n. -/
def laneDest (lane : Fin 4) (n : Fin 16) : Fin 96 := ⟨lane.val * 16 + n.val, by omega⟩

/-- Local output number 64 + port*16 + slot, for n = port*16 + slot. -/
def localDest (n : Fin 32) : Fin 96 := ⟨64 + n.val, by omega⟩

/-- Table 0-4: item number of a destination. -/
def destItem (d : Fin 96) : Fin 112 := ⟨d.val, by omega⟩

/-- Table 0-4: item number of a plan group. -/
def planItem (g : Fin 16) : Fin 112 := ⟨96 + g.val, by omega⟩

/-- The item a take item is for. -/
def TakeBody.item : TakeBody → Fin 112
  | .dest d _ => destItem d
  | .plan g _ => planItem g

/-- R69: the take domain of an item. -/
def itemDomain (it : Fin 112) : Fin 5 :=
  if h : it.val < 64 then ⟨it.val / 16, by omega⟩
  else if it.val < 96 then 4
  else ⟨(it.val - 96) / 4, by omega⟩

/-- The take domain of a lane. -/
def laneDomain (lane : Fin 4) : Fin 5 := ⟨lane.val, by omega⟩

/-- The four groups, or lanes, in ascending order. -/
def four : List (Fin 4) := [0, 1, 2, 3]

/-! ### Updates of one part of the state -/

namespace State

def updLane (s : State) (l : Fin 4) (f : Receiver → Receiver) : State := { s with lanes := s.lanes.upd l f }
def updRelay (s : State) (l : Fin 4) (f : Relay → Relay) : State := { s with relays := s.relays.upd l f }
def updGroup (s : State) (g : Fin 16) (f : GroupState → GroupState) : State := { s with groups := s.groups.upd g f }
def updStrip (s : State) (g : Fin 16) (f : Store → Store) : State := { s with strip := s.strip.upd g f }
def updEmbed (s : State) (g : Fin 16) (f : Store → Store) : State := { s with embed := s.embed.upd g f }
def updTracker (s : State) (n : Fin 96) (f : Tracker → Tracker) : State := { s with trackers := s.trackers.upd n f }
def updDest (s : State) (d : Fin 96) (f : DestState → DestState) : State := { s with engine := s.engine.upd d f }
def updBuilder (s : State) (l : Fin 4) (f : Builder → Builder) : State := { s with builders := s.builders.upd l f }
def updCount (s : State) (g : Fin 16) (f : EmbedCount → EmbedCount) : State :=
  { s with embCounts := s.embCounts.upd g f }
def updMonitor (s : State) (d : Fin 96) (f : Monitor → Monitor) : State := { s with monitors := s.monitors.upd d f }
def updRef (s : State) (f : RefUnit → RefUnit) : State := { s with ref := f s.ref }
def updPort (s : State) (l : Line) (f : Port → Port) : State := { s with ports := s.ports.upd (lineIx l) f }
def updEvents (s : State) (l : Line) (f : EventQueue → EventQueue) : State :=
  { s with events := s.events.upd (lineIx l) f }
def setFault (s : State) (l : Fin 4) (c : Option Capture) : State := { s with faults := s.faults.set l c }
def setTakes (s : State) (dom : Fin 5) (items : List TakeItem) : State := { s with takes := s.takes.set dom items }
def setOwner (s : State) (it : Fin 112) (o : Option Line) : State := { s with owners := s.owners.set it o }

def setWork (s : State) (l : Fin 4) (w : LaneWork) : State := { s with work := s.work.set l w }
def setHanded (s : State) (bs : List ResetBlock) : State := { s with handed := bs }

/-- The port of a line. -/
def port (s : State) (l : Line) : Port := s.ports.get (lineIx l)

/-- The event queue of a line. -/
def eventQueue (s : State) (l : Line) : EventQueue := s.events.get (lineIx l)

end State

/-! ### Notices (R179 to R183) -/

/-- R181: the tail notice gets its overflow mark set. -/
def markTail : List Notice → List Notice
  | [] => []
  | [n] => [{ n with mark := true }]
  | n :: m :: rest => n :: markTail (m :: rest)

/-- R180: whether a line's subscription includes a notice's class. -/
def EventQueue.subscribed (q : EventQueue) (k : NoticeKind) : Bool := q.subs.getLsbD k.cls

/-- R181: one queue takes the offer of a notice, judged by its subscription as it stands (R180). -/
def EventQueue.offer (q : EventQueue) (n : Notice) : EventQueue :=
  if q.subscribed n.kind then
    if q.notices.length < 32 then { q with notices := q.notices ++ [n] }
    else { q with notices := markTail q.notices }
  else q

/-- R183: the EV output of a line. -/
def EventQueue.ev (q : EventQueue) : Bool := !q.notices.isEmpty

/-- A notice yet to be raised: kind, subject, detail. -/
abbrev Pending := NoticeKind × Nat × Nat

/-- R179: the notice of a kind, subject and detail with its stamp, its overflow mark clear. The bits of a detail to
which Table 11-6 assigns nothing are 0 (assumption 34). -/
def Pending.stamped (n : Pending) (stamp : BitVec 16) : Notice :=
  { kind := n.1, subject := BitVec.ofNat 8 n.2.1, detail := BitVec.ofNat 16 n.2.2, stamp, mark := false }

/-- R179: the notices of event number `no`, with its stamp, are offered to a queue; they are on their way until the
queue takes them. -/
def EventQueue.bring (q : EventQueue) (no : Nat) (stamp : BitVec 16) (ns : List Pending) : EventQueue :=
  { q with coming := q.coming ++ ns.map fun n => { event := no, notice := n.stamped stamp } }

/-- R179: the queue takes the first offer on its way from event number `e`, if there is one. -/
def EventQueue.takeFrom (q : EventQueue) (e : Nat) : EventQueue :=
  match q.coming.find? fun x => x.event == e with
  | some x => ({ q with coming := q.coming.eraseP fun x => x.event == e }).offer x.notice
  | none => q

/-- The queue takes all offers on their way, in the order in which they were raised. -/
def EventQueue.takeAll (q : EventQueue) : EventQueue :=
  (q.coming.map fun x => x.notice).foldl EventQueue.offer { q with coming := [] }

/-- R179: the queue takes offers on their way, each as an event of its own: either of two from different events may be
first, those of one event come in their order. -/
def EventQueue.take (q : EventQueue) (tk : Taking) : EventQueue :=
  match tk with
  | none => q.takeAll
  | some es => es.foldl EventQueue.takeFrom q

/-- R179: the queue's turn to take offers: what `turns` says, or all of them. A queue with none on its way has no turn
(assumption 35). -/
def EventQueue.turn (q : EventQueue) : EventQueue :=
  if q.coming.isEmpty then q
  else
    match q.turns with
    | [] => q.takeAll
    | tk :: ts => { q with turns := ts }.take tk

/-- R179, R181, R183: event number `no` raises notices with its stamp: they are offered to the queue, which then has a
turn. -/
def EventQueue.hear (q : EventQueue) (no : Nat) (stamp : BitVec 16) (ns : List Pending) : EventQueue :=
  if ns.isEmpty then q else (q.bring no stamp ns).turn

/-- R179: event number `no` raises notices with its stamp, in the order of the list: they are offered to the three
queues, and each has a turn. -/
def State.raiseAs (s : State) (no : Nat) (stamp : BitVec 16) (ns : List Pending) : State :=
  { s with events := s.events.map fun q => q.hear no stamp ns }

/-- An event takes the next event number. -/
def State.newEvent (s : State) : State := { s with eventNo := s.eventNo + 1 }

/-- R179: one event raises notices with its stamp, in the order of the list; with none it takes no number. -/
def State.raiseAllAt (s : State) (stamp : BitVec 16) (ns : List Pending) : State :=
  { s.raiseAs s.eventNo stamp ns with eventNo := if ns.isEmpty then s.eventNo else s.eventNo + 1 }

/-- R179: an event taken now raises notices: their stamp is the house frame count as it stands. -/
def State.raiseAll (s : State) (ns : List Pending) : State := s.raiseAllAt s.ref.frameCount ns

/-- R179: an event taken now raises one notice. -/
def State.raise (s : State) (kind : NoticeKind) (subject detail : Nat) : State := s.raiseAll [(kind, subject, detail)]

/-- R179: a line's queue has a turn before a command of that line that reads it, or changes what it takes. -/
def State.takeOffers (s : State) (l : Line) : State := s.updEvents l EventQueue.turn

/-! ### Fault capture (R184, R185) -/

/-- R184: what an offered fault makes of a locked record. -/
def Capture.take (c : Capture) (kind : FaultKind) (line : BitVec 11) (stamp : BitVec 16) : Capture :=
  if c.kind.severity < kind.severity then { kind, line, stamp, further := satInc c.further }
  else { c with further := satInc c.further }

/-- R184: the record after the offer of a fault. -/
def offeredTo (c : Option Capture) (kind : FaultKind) (line : BitVec 11) (stamp : BitVec 16) : Capture :=
  match c with
  | none => { kind, line, stamp, further := 0 }
  | some c => c.take kind line stamp

/-- R185: the LANE_FAULT that the offer of a fault to lane `l`'s record raises, if it finds the record empty. -/
def laneFaultOf (c : Option Capture) (l : Fin 4) (kind : FaultKind) (line : BitVec 11) : List Pending :=
  match c with
  | none => [(.laneFault, l.val, line.toNat + kind.code * 4096)]
  | some _ => []

/-- R184, R185: a fault of lane `l` is offered to the lane's record by the event `ev`, with its line and its stamp; an
empty record captures it and raises LANE_FAULT with that stamp. -/
def State.offerFault (s : State) (l : Fin 4) (kind : FaultKind) (ev : AreaEvent) : State :=
  (s.setFault l (some (offeredTo (s.faults.get l) kind ev.line ev.stamp))).raiseAs ev.no ev.stamp
    (laneFaultOf (s.faults.get l) l kind ev.line)

end Sys2Proof.Machine
end

