-- ==== Sys2Proof/Machine/Ports.lean ====
section
/-! DEFINITION. The control line ports (chapter 9): frames, judgement, the command queue, the response slot, and the
execution of the frame at the head of a queue (R171). -/

namespace Sys2Proof.Machine

/-! ### Bytes of a response (R172 to R174) -/

/-- The check byte: it makes the sum of all bytes a multiple of 256. -/
def checkByte (bs : List Byte) : Byte := 0 - bs.foldl (fun a b => a + b) 0

/-- Bytes closed by their check byte. -/
def closed (bs : List Byte) : List Byte := bs ++ [checkByte bs]

/-- R174: the bytes of a response sent with kind byte `kind`. -/
def Response.bytes (r : Response) (kind : Byte) : List Byte :=
  closed (kind :: r.ticket :: r.status :: BitVec.ofNat 8 r.payload.length :: r.payload)

/-- R174: the outgoing copy that select takes. -/
def Port.outgoing (p : Port) : OutCopy :=
  match p.slot with
  | none => { bytes := closed [0x5A, 0, 0, 0], ofResponse := false, current := true }
  | some r => { bytes := r.bytes (if p.delivered then 0xA6 else 0xA5), ofResponse := true, current := true }

/-- R173: a response is placed in the slot. -/
def Port.place (p : Port) (ticket : Byte) (st : Status) (payload : List Byte) : Port :=
  { p with
    slot := some { ticket, status := statusByte st (p.slot.isSome && !p.delivered) p.drop, payload }
    delivered := false
    drop := false
    copy := p.copy.map fun c => { c with current := false } }

/-! ### Clocking (R166, R174, R175) -/

/-- The byte that eight bits spell, most significant first. -/
def bitsByte (bits : List Bool) : Byte := BitVec.ofNat 8 (bits.foldl (fun n b => 2 * n + bit b) 0)

/-- The number of bits clocked in the frame in progress. -/
def Port.clocked (p : Port) : Nat := p.length * 8 + p.bits.length

/-- R166: a bit is shifted in; eight make a byte, and at most 28 bytes are stored. -/
def Port.shift (p : Port) (b : Bool) : Port :=
  if p.bits.length < 7 then { p with bits := p.bits ++ [b] }
  else
    { p with
      bits := []
      length := p.length + 1
      stored := if p.stored.length < 28 then p.stored ++ [bitsByte (p.bits ++ [b])] else p.stored }

/-- R175: the last bit of a response's check byte has been clocked out, and the slot still holds that response. -/
def Port.delivers (p : Port) : Bool :=
  match p.copy with
  | some c => c.ofResponse && c.current && p.clocked == c.bytes.length * 8
  | none => false

/-- R166, R175: one clock period while select is asserted. A frame that is not to be judged (R167) is not sampled. -/
def Port.clock (p : Port) (b : Bool) : Port :=
  if p.selected && !p.skip then
    { p.shift b with delivered := (p.shift b).delivers || p.delivered }
  else p

/-- Clock periods one after another. -/
def Port.clockAll (p : Port) (bits : List Bool) : Port := bits.foldl Port.clock p

/-- R166, R174: what data out carries in the present clock period: none while select is released, when the port does
not drive it; else the copy's next bit, most significant bit of each byte first, and zeros after the copy. In a frame
whose select was asserted before the pin reset ended there is no copy, and no rule says what the port drives: the
model's choice is 0 (assumption 30). -/
def Port.dataOut (p : Port) : Option Bool :=
  if p.selected then
    match p.copy with
    | some c => some ((c.bytes.getD (p.clocked / 8) 0).getMsbD (p.clocked % 8))
    | none => some false
  else none

/-! ### Frames (R166 to R170, R174) -/

/-- R174: select is asserted; the port takes the outgoing copy and a frame begins. -/
def Port.select (p : Port) : Port :=
  if p.selected then p
  else { p with selected := true, skip := false, bits := [], length := 0, stored := [], copy := some p.outgoing }

/-- No frame in progress (Table 9-1). -/
def Port.noFrame (p : Port) : Port :=
  { p with selected := false, skip := false, bits := [], length := 0, stored := [], copy := none }

/-- What the judgement of a complete frame comes to (R168). -/
inductive Judged where
  | refused (st : Status) (ticket : Byte)
  | passed (f : Frame)
deriving DecidableEq, Repr

/-- R168, check 5: the parameter length is the command's. -/
def lengthFits (p : Nat) (range : Nat × Nat) : Bool := decide (range.1 ≤ p) && decide (p ≤ range.2)

/-- R168: the five checks of a complete frame of `length` bytes that arrived on line `l`. -/
def judgeFrame (l : Line) (stored : List Byte) (length : Nat) : Judged :=
  match stored with
  | code :: ticket :: plen :: rest =>
    if 24 < plen.toNat ∨ length ≠ 4 + plen.toNat then .refused .length ticket
    else if stored.foldl (fun a b => a + b) 0 ≠ 0 then .refused .check ticket
    else
      match paramLength? code with
      | none => .refused .unknown ticket
      | some range =>
        if reservedToC code ∧ l ≠ .c then .refused .notAllowed ticket
        else if lengthFits plen.toNat range then
          .passed { code, ticket, params := rest.take plen.toNat }
        else .refused .invalid ticket
  | [_, ticket] => .refused .length ticket
  | _ => .refused .length 0

/-- R170: a frame is offered to the command queue. -/
def Port.enqueue (p : Port) (f : Frame) : Port :=
  if p.queue.length < 4 then { p with queue := p.queue ++ [f] } else { p with drop := true }

/-- R166, R168 to R170: select is released. -/
def Port.endFrame (p : Port) (l : Line) : Port :=
  if p.selected then
    if p.skip then p.noFrame
    else if p.bits ≠ [] then { p.noFrame with framing := true }
    else if p.length = 0 then p.noFrame
    else
      match judgeFrame l p.stored p.length with
      | .refused st ticket => p.noFrame.place ticket st []
      | .passed f => p.noFrame.enqueue f
  else p

/-! ### Execution (R171) -/

/-- What a block answers to a command: the state after it, a status and a payload. -/
abbrev Answer := State × Status × List Byte

/-- R171, R173: the response is placed and the frame under execution leaves the queue. -/
def State.answer (s : State) (l : Line) (ticket : Byte) (st : Status) (payload : List Byte) : State :=
  s.updPort l fun p => { p.place ticket st payload with queue := p.queue.tail }

/-- R171: the end of an execution: the block's answer is placed; without one the execution goes on. -/
def State.conclude (l : Line) (ticket : Byte) : State × Option (Status × List Byte) → State
  | (s, some (st, payload)) => s.answer l ticket st payload
  | (s, none) => s

/-- R171: the frame at the head of line `l`'s queue is executed, if it is one of code `code`; `f` is the owning
block's taking of the command with the frame's parameters, and gives no answer while the execution goes on. With no
such frame at the head nothing is handed to any block (assumption 3). A reserved code never reaches its block from line
A or B (R176). -/
def State.executePart (s : State) (l : Line) (code : Byte)
    (f : List Byte → State → State × Option (Status × List Byte)) : State :=
  match (s.port l).queue with
  | [] => s
  | fr :: _ =>
    if fr.code = code then
      if reservedToC code ∧ l ≠ .c then s.answer l fr.ticket .notAllowed []
      else State.conclude l fr.ticket (f fr.params s)
    else s

/-- R171: the frame at the head of line `l`'s queue is executed whole. -/
def State.execute (s : State) (l : Line) (code : Byte) (f : List Byte → State → Answer) : State :=
  s.executePart l code fun ps s => ((f ps s).1, some (f ps s).2)

/-- R188: a refusal with INVALID changes nothing and carries no payload. -/
def State.invalid (s : State) : Answer := (s, .invalid, [])

/-- R188: a refusal with PROTECTED names the owner. -/
def State.protectedBy (s : State) (o : Line) : Answer := (s, .protected_, byte (lineCode o))

end Sys2Proof.Machine
end

