-- ==== Sys2Proof/Machine/EventCommands.lean ====
section
/-! DEFINITION. The commands of the event queues (chapter 10): EVENT_SUBSCRIBE and EVENT_FETCH. -/

namespace Sys2Proof.Machine

/-- R180: EVENT_SUBSCRIBE with its parameters; bits 5..7 of the mask name no class. Offers taken after it are judged
against the new set. -/
def eventSubscribeAnswer (line : Line) (params : List Byte) (s : State) : Answer :=
  match params with
  | [m] =>
    if m.toNat < 32 then
      (s.updEvents line fun q => { q with subs := BitVec.ofNat 5 m.toNat }, .ok,
        byte (s.eventQueue line).subs.toNat ++ [m])
    else s.invalid
  | _ => s.invalid

/-- EVENT_SUBSCRIBE (R180), after the offers that reach the queue before it. -/
def execEventSubscribe (line : Line) (s : State) : Host.Outcome State Fault Refusal :=
  .next (s.execute line 0x40 fun ps s => eventSubscribeAnswer line ps (s.takeOffers line))

/-- R182: the payload of EVENT_FETCH for a notice after which `left` are left. Bits 1..7 of the flags byte are 0
(assumption 34). -/
def Notice.payload (n : Notice) (left : Nat) : List Byte :=
  byte n.kind.code ++ byte n.kind.cls ++ [n.subject] ++ be16 n.detail.toNat ++ be16 n.stamp.toNat
    ++ byte (bit n.mark) ++ byte left

/-- R182: EVENT_FETCH at the calling line's queue. -/
def eventFetchAnswer (line : Line) (s : State) : Answer :=
  match (s.eventQueue line).notices with
  | [] => (s, .ok, [])
  | n :: rest => (s.updEvents line fun q => { q with notices := rest }, .ok, n.payload rest.length)

/-- EVENT_FETCH (R182), after the offers that reach the queue before it. -/
def execEventFetch (line : Line) (s : State) : Host.Outcome State Fault Refusal :=
  .next (s.execute line 0x41 fun _ s => eventFetchAnswer line (s.takeOffers line))

end Sys2Proof.Machine
end

