-- ==== Sys2Proof/Machine/Packets.lean ====
section
/-! DEFINITION. The words of carriage packets (Table 11-1, R187), their form checks (R20 to R22), and the packets that
the embed builder forms (R127). -/

namespace Sys2Proof.Machine

/-- The mark (Table 11-1). -/
def markWords : List LaneWord := [0x2A5, 0x15A, 0x3C3]

/-- The audio kind of group 1..4 (Table 11-1). -/
def kindWord (g : Fin 4) : LaneWord := BitVec.ofNat 10 (0x0A1 + g.val)

/-- R21: the group an audio kind names; none for a foreign kind. -/
def kindGroup (k : LaneWord) : Option (Fin 4) :=
  if k = 0x0A1 then some 0
  else if k = 0x0A2 then some 1
  else if k = 0x0A3 then some 2
  else if k = 0x0A4 then some 3
  else none

/-- The number of ones in bits 0..8 of a word. -/
def onesBelow9 (w : LaneWord) : Nat :=
  ((List.range 9).filter fun n => w.getLsbD n).length

/-- R187: the parity of a sequence or length word: an odd number of ones in bits 0..8, and bit 9 zero. -/
def parityOk (w : LaneWord) : Bool := onesBelow9 w % 2 == 1 && !w.getLsbD 9

/-- A value with bit 8 set for odd parity and bit 9 zero (Table 11-1). -/
def withParity (b : Byte) : LaneWord :=
  if parityOk (b.setWidth 10) then b.setWidth 10 else b.setWidth 10 + 256

/-- The eight value bits of a sequence or length word. -/
def wordByte (w : LaneWord) : Byte := w.extractLsb' 0 8

/-- Table 11-1: the sum of words, modulo 1024. -/
def sumWords (ws : List LaneWord) : LaneWord := ws.foldl (fun a w => a + w) 0

/-- The words of a packet, mark included, in the order they occur (Table 2-1). -/
def Packet.words (p : Packet) : List LaneWord :=
  markWords ++ [p.kind, p.seq, p.len] ++ p.payload ++ [p.check]

/-- R187: the value its checksum word should have. -/
def Packet.sum (p : Packet) : LaneWord := sumWords (p.kind :: p.seq :: p.len :: p.payload)

/-- What the parser finds at a position (R20, R22). -/
inductive Found where
  | filler
  | broken
  | packet (p : Packet) (rest : List LaneWord)
deriving DecidableEq, Repr

/-- R22, check 2: an illegal length of an audio packet. -/
def illegalLength (kind len : LaneWord) : Bool :=
  (kindGroup kind).isSome && ((wordByte len).toNat % 12 != 0 || 48 < (wordByte len).toNat)

/-- R20, R22: what stands at the head of the words from the current position to the end of the area. -/
def findPacket : List LaneWord → Found
  | m1 :: m2 :: m3 :: rest =>
    if [m1, m2, m3] = markWords then
      match rest with
      | kind :: seq :: len :: tail =>
        if !parityOk seq || !parityOk len then .broken
        else if illegalLength kind len then .broken
        else
          match tail.drop (wordByte len).toNat with
          | [] => .broken
          | check :: after =>
            .packet { kind, seq, len, payload := tail.take (wordByte len).toNat, check } after
      | _ => .broken
    else .filler
  | _ => .filler

/-- R20, R27: the packets a walk passes, each with its start position, the position at which it ends, and whether it
ended on a failure of R22. `fuel` bounds the number of packets: each takes at least 7 words. -/
def walkFrom (fuel pos : Nat) (ws : List LaneWord) : List (Nat × Packet) × Nat × Bool :=
  match fuel with
  | 0 => ([], pos, false)
  | fuel + 1 =>
    match findPacket ws with
    | .filler => ([], pos, false)
    | .broken => ([], pos, true)
    | .packet p rest =>
      let (ps, ending) := walkFrom fuel (pos + p.words.length) rest
      ((pos, p) :: ps, ending)

/-- The walk of a carriage area from position 0. -/
def walkArea (area : List LaneWord) : List (Nat × Packet) × Nat × Bool := walkFrom (area.length + 1) 0 area

/-! ### Samples in three words (Table 11-1) -/

/-- R187: a channel sample from its three words; bits 8 and 9 of the third are ignored. -/
def wordsSample (w1 w2 w3 : LaneWord) : Sample :=
  { value := w3.extractLsb' 0 4 ++ w2 ++ w1, v := w3.getLsbD 4, u := w3.getLsbD 5, c := w3.getLsbD 6,
    z := w3.getLsbD 7 }

/-- R187: the three words of a channel sample; bits 8 and 9 of the third are 0. -/
def sampleWords (x : Sample) : List LaneWord :=
  [x.value.extractLsb' 0 10, x.value.extractLsb' 10 10,
   (0 : BitVec 2) ++ BitVec.ofBool x.z ++ BitVec.ofBool x.c ++ BitVec.ofBool x.u ++ BitVec.ofBool x.v
     ++ x.value.extractLsb' 20 4]

/-- R26: the sets of a payload in time order, D clear. -/
def payloadSets : List LaneWord → List SampleSet
  | a1 :: a2 :: a3 :: b1 :: b2 :: b3 :: c1 :: c2 :: c3 :: d1 :: d2 :: d3 :: rest =>
    { ch := ⟨[wordsSample a1 a2 a3, wordsSample b1 b2 b3, wordsSample c1 c2 c3, wordsSample d1 d2 d3], rfl⟩,
      d := false } :: payloadSets rest
  | _ => []

/-- The words of a set: channels 1..4, three words each. -/
def setWords (x : SampleSet) : List LaneWord := x.ch.list.flatMap sampleWords

/-- R127: the packet of group `g` with sequence count `seq` that carries the sets. -/
def makePacket (g : Fin 4) (seq : Byte) (sets : List SampleSet) : Packet :=
  let p : Packet :=
    { kind := kindWord g, seq := withParity seq, len := withParity (BitVec.ofNat 8 (12 * sets.length)),
      payload := sets.flatMap setWords, check := 0 }
  { p with check := p.sum }

end Sys2Proof.Machine
end

