-- ==== Sys2Proof/Machine/Stores.lean ====
section
/-! DEFINITION. The rate-adaptation stores (chapter 3): what a write, a read, a correction, a discard, a flush and a
change of state do to one store, and the notices they raise. -/

namespace Sys2Proof.Machine

/-! ### One store -/

/-- R40: the number of sets held. -/
abbrev Store.fill (st : Store) : Nat := st.sets.length

/-- A set with D set if it had it or `m` is set. -/
def SampleSet.orD (x : SampleSet) (m : Bool) : SampleSet := { x with d := x.d || m }

/-- R46: a copy with V = 1 on all four samples and D clear. -/
def SampleSet.invalid (x : SampleSet) : SampleSet :=
  { ch := x.ch.map fun y => { y with v := true }, d := false }

/-- R52: a fault access sets LAST, the three SINCE flags and LATCH, and counts. -/
def Store.faultAccess (st : Store) (overflow : Bool) : Store :=
  { st with
    lastFault := true
    since := .fill 3 true
    latch := true
    underflows := if overflow then st.underflows else satInc st.underflows
    overflows := if overflow then satInc st.overflows else st.overflows }

/-- R44: a write finds 64 sets held, in a state that does not trim. -/
def Store.overflowing (st : Store) : Bool :=
  (st.state == .priming || st.state == .flowing) && 64 ≤ st.fill

/-- A write of a set (R42, R44, R49). -/
def Store.write (st : Store) (x : SampleSet) : Store :=
  match st.state with
  | .idle => st
  | .holding =>
    { st with
      sets := st.sets.drop (st.fill - 31) ++ [x.orD st.writeMark]
      writeMark := false
      lastFault := false }
  | .priming =>
    if st.fill < 64 then
      { st with
        state := if st.fill + 1 = 32 then .flowing else .priming
        sets := st.sets ++ [x.orD st.writeMark]
        reads := if st.fill + 1 = 32 then 0 else st.reads
        writeMark := false
        lastFault := false }
    else { st.faultAccess true with writeMark := true }
  | .flowing =>
    if st.fill < 64 then
      { st with
        sets := st.sets ++ [x.orD st.writeMark]
        writeMark := false
        lastFault := false }
    else { st.faultAccess true with writeMark := true }

/-- How a read is taken (R45 to R47). -/
inductive ReadKind where
  | normal
  | underflow
  | repeated
  | skipped
deriving DecidableEq, Repr

/-- Reads since correction after one more read: it stays at 480 (R45). -/
def readsNext (n : Nat) : Nat := if n < 480 then n + 1 else 480

/-- R46, R47: how a read of a FLOWING store is taken. -/
def Store.readKind (st : Store) : ReadKind :=
  if st.fill = 0 then .underflow
  else if st.reads = 480 ∧ st.fill ≤ 8 then .repeated
  else if st.reads = 480 ∧ 56 ≤ st.fill then .skipped
  else .normal

/-- A normal read of a store whose head is `h` (R45). -/
def Store.readNormal (st : Store) (h : SampleSet) (t : List SampleSet) : Store × SampleSet :=
  ({ st with
      sets := t
      readMark := false
      last := h.orD st.readMark
      reads := readsNext st.reads
      lastFault := false },
    h.orD st.readMark)

/-- A read of a FLOWING store: the store after it and the set returned (R45, R46, R47). A strip store that underflows
goes to PRIMING; an embed store stays FLOWING. -/
def Store.read (isStrip : Bool) (st : Store) : Store × SampleSet :=
  match st.readKind, st.sets with
  | .repeated, _ =>
    ({ st with reads := 0, corrections := satInc st.corrections, lastFault := false }, { st.last with d := false })
  | .skipped, h :: h2 :: t =>
    let x := h2.orD (h.d || st.readMark)
    ({ st with
        sets := t
        readMark := false
        last := x
        reads := 0
        corrections := satInc st.corrections
        lastFault := false },
      x)
  | _, h :: t => st.readNormal h t
  | _, [] =>
    ({ st.faultAccess false with
        state := if isStrip then .priming else st.state
        readMark := true
        reads := if isStrip then 0 else readsNext st.reads },
      st.last.invalid)

/-- R43: a flush. A store that is already IDLE stays as it was. -/
def Store.flush (st : Store) : Store :=
  if st.state = .idle then st
  else { st with state := .idle, sets := [], last := .silent, readMark := false, writeMark := false, reads := 0 }

/-- R42: an IDLE store is opened to PRIMING. -/
def Store.openIdle (st : Store) : Store :=
  if st.state = .idle then { st with state := .priming, sets := [], reads := 0 } else st

/-- R50: an embed store goes to FLOWING; reads since correction return to 0. A FLOWING store stays as it is. -/
def Store.toFlowing (st : Store) : Store :=
  if st.state = .flowing then st else { st with state := .flowing, reads := 0 }

/-- R50: an embed store goes from FLOWING to HOLDING, keeping its sets. -/
def Store.toHolding (st : Store) : Store :=
  if st.state = .flowing then { st with state := .holding } else st

/-- R51: a head discard of k sets. -/
def Store.discard (st : Store) (k : Nat) : Store :=
  { st with sets := st.sets.drop k, readMark := st.readMark || (0 < k && !st.sets.isEmpty) }

/-- R56: STORE_CLEAR of one store. -/
def Store.clear (st : Store) : Store :=
  { st with latch := false, underflows := 0, overflows := 0, corrections := 0 }

/-- R55: the calling line's SINCE flag is cleared. -/
def Store.clearSince (st : Store) (l : Line) : Store := { st with since := st.since.set (lineIx l) false }

/-! ### Stores in the part -/

/-- R54: the DATA destinations whose primary source is stripped from group `g`, in ascending order. -/
def stripSlipDests (s : State) (g : Fin 16) : List (Fin 96) :=
  (List.finRange 96).filter fun d => (s.live.get d).mode == .data && (s.live.get d).primary.val / 4 == g.val

/-- R54: the DATA destinations among the four of group `g`. -/
def embedSlipDests (s : State) (g : Fin 16) : List (Fin 96) :=
  (four.map (groupDest g)).filter fun d => (s.live.get d).mode == .data

/-- R54: the notices of a correction: kind REPEAT 0 or SKIP 1 and the store number. They are in ascending destination
number (assumption 17). -/
def slipNotices (store : Nat) (code : Nat) (ds : List (Fin 96)) : List Pending :=
  ds.map fun d => (.dataSlip, d.val, store + code * 256)

/-- The notices of a read taken as `k` of a store that has number `store` and, before the read, LATCH `latch` (R53,
R54). -/
def readNotices (store : Nat) (latch : Bool) (k : ReadKind) (ds : List (Fin 96)) : List Pending :=
  match k with
  | .normal => []
  | .underflow => if latch then [] else [(.storeFault, store, 0)]
  | .repeated => slipNotices store 0 ds
  | .skipped => slipNotices store 1 ds

/-- R53: the notices of a write. -/
def writeNotices (store : Nat) (st : Store) : List Pending :=
  if st.overflowing && !st.latch then [(.storeFault, store, 1)] else []

/-- The notices of the tick's read of strip store `g` by the catalogue; a store that is not FLOWING is not read
(R33). -/
def State.stripNotices (s : State) (g : Fin 16) : List Pending :=
  let st := s.strip.get g
  if st.state = .flowing then readNotices g.val st.latch st.readKind (stripSlipDests s g) else []

/-- The notices of the tick's write of embed store `g` by the destination engine. -/
def State.embedNotices (s : State) (g : Fin 16) : List Pending := writeNotices (16 + g.val) (s.embed.get g)

/-- A read of embed store `g` by the embed builder. -/
def State.readEmbed (s : State) (g : Fin 16) : State × SampleSet :=
  let st := s.embed.get g
  ((s.updEmbed g fun st => (st.read false).1).raiseAll
      (readNotices (16 + g.val) st.latch st.readKind (embedSlipDests s g)),
    (st.read false).2)

/-- A write of a set to strip store `g` by the strip parser. -/
def State.writeStrip (s : State) (g : Fin 16) (x : SampleSet) : State :=
  (s.updStrip g fun st => st.write x).raiseAll (writeNotices g.val (s.strip.get g))

end Sys2Proof.Machine
end

