-- ==== Sys2Proof/Machine/Strip.lean ====
section
/-! DEFINITION. The strip parsers (R20 to R32): what becomes of each packet of an area, and group presence. -/

namespace Sys2Proof.Machine

/-! ### Reports (R18, R28) -/

/-- R28: one checksum failure is counted and offered. -/
def State.reportChecksum (s : State) (l : Fin 4) (ev : AreaEvent) : State :=
  (s.updLane l fun r => { r with checksum := satInc r.checksum }).offerFault l .checksum ev

/-- R28: one malformed packet is counted and offered. -/
def State.reportMalformed (s : State) (l : Fin 4) (ev : AreaEvent) : State :=
  (s.updLane l fun r => { r with malformed := satInc r.malformed }).offerFault l .malformed ev

/-- R28: one sequence gap is counted and offered. -/
def State.reportGap (s : State) (l : Fin 4) (ev : AreaEvent) : State :=
  (s.updLane l fun r => { r with gaps := satInc r.gaps }).offerFault l .seqGap ev

/-- R25: one accepted packet is counted. -/
def State.reportAccepted (s : State) (l : Fin 4) : State :=
  s.updLane l fun r => { r with accepted := satInc r.accepted }

/-! ### Accepted packets (R25, R26, R29) -/

/-- R25: the packet's count is not the last count plus 1. -/
def GroupState.gap (gs : GroupState) (count : Byte) : Bool :=
  match gs.lastCount with
  | some c => count != c + 1
  | none => false

/-- R25: the sequence count of an accepted packet of group `g`. -/
def State.checkSequence (s : State) (l : Fin 4) (ev : AreaEvent) (g : Fin 16) (count : Byte) : State :=
  let gap := (s.groups.get g).gap count
  let s1 := s.reportAccepted l
  let s2 := if gap then s1.reportGap l ev else s1
  s2.updGroup g fun gs => { gs with lastCount := some count, pendingD := gs.pendingD || gap }

/-- R29, R31: an accepted packet of event number `no` makes an ABSENT group PRESENT, opens an IDLE store, and marks the
frame. -/
def State.markPresent (s : State) (no : Nat) (g : Fin 16) : State :=
  let s1 :=
    if (s.groups.get g).present then s
    else (s.updGroup g fun gs => { gs with present := true, pendingD := true }).raiseAs no s.ref.frameCount
      [(.groupState, g.val, 1)]
  let s2 :=
    if (s1.strip.get g).state = .idle then
      (s1.updStrip g Store.openIdle).updGroup g fun gs => { gs with pendingD := true }
    else s1
  s2.updGroup g fun gs => { gs with seenFrame := true }

/-- R26: one set is written; the first while the pending discontinuity is set carries D and clears it. -/
def State.writeSet (s : State) (g : Fin 16) (x : SampleSet) : State :=
  (s.writeStrip g { x with d := (s.groups.get g).pendingD }).updGroup g fun gs => { gs with pendingD := false }

/-- R26: sets written one after another, each to its group's store. -/
def State.writeSets (s : State) (xs : List (Fin 16 × SampleSet)) : State := xs.foldl (fun s x => s.writeSet x.1 x.2) s

/-- R24, R25, R29: an accepted audio packet of group `g`, before its sets are written. -/
def State.acceptPacket (s : State) (l : Fin 4) (ev : AreaEvent) (g : Fin 16) (p : Packet) : State :=
  ((s.updGroup g fun gs => { gs with seenLine := true }).checkSequence l ev g (wordByte p.seq)).markPresent ev.no g

/-- R21, R23, R24: what the parser makes of a packet that passed R22, and the sets it then writes. -/
def State.judgePacket (s : State) (l : Fin 4) (ev : AreaEvent) (p : Packet) :
    State × Verdict × List (Fin 16 × SampleSet) :=
  match kindGroup p.kind with
  | none => (s, .foreign, [])
  | some c =>
    let g := groupNo l c
    if p.check ≠ p.sum then
      ((s.updGroup g fun gs => { gs with pendingD := true }).reportChecksum l ev, .checksumFailure, [])
    else if (s.groups.get g).seenLine then (s.reportMalformed l ev, .duplicate, [])
    else (s.acceptPacket l ev g p, .accepted, (payloadSets p.payload).map fun x => (g, x))

/-- The packets of an area judged in area order, the sets of each written before the next is judged. -/
def State.judgeAll (s : State) (l : Fin 4) (ev : AreaEvent) : List (Nat × Packet) → State × List WalkEntry
  | [] => (s, [])
  | (pos, p) :: ps =>
    let (s1, v, xs) := s.judgePacket l ev p
    let (s2, es) := (s1.writeSets xs).judgeAll l ev ps
    (s2, { start := pos, packet := p, verdict := v } :: es)

/-- R20: the four "seen this line" marks are clear when a walk begins. -/
def State.clearSeenLine (s : State) (l : Fin 4) : State :=
  four.foldl (fun s c => s.updGroup (groupNo l c) fun gs => { gs with seenLine := false }) s

/-- R22: a walk that ends on a failure reports one malformed packet. -/
def State.endWalk (s : State) (l : Fin 4) (ev : AreaEvent) (failed : Bool) : State :=
  if failed then s.reportMalformed l ev else s

/-- R20: the walk of an area, from its first position. -/
def Walk.start (area : List LaneWord) : Walk :=
  { sets := [], todo := (walkArea area).1, entries := [], ending := (walkArea area).2.1, failed := (walkArea area).2.2 }

/-- R20 to R28: all that is left of a walk, and the result that the parser hands to the builder (R27). -/
def Walk.finish (l : Fin 4) (ev : AreaEvent) (w : Walk) (s : State) : State × WalkResult :=
  let (s1, es) := (s.writeSets w.sets).judgeAll l ev w.todo
  (s1.endWalk l ev w.failed, { entries := w.entries ++ es, ending := w.ending, failed := w.failed })

/-- R20 to R28: the strip parser takes a carriage-line event whole. -/
def State.stripWalk (s : State) (l : Fin 4) (ev : AreaEvent) (area : List LaneWord) : State × WalkResult :=
  (Walk.start area).finish l ev (s.clearSeenLine l)

/-! ### Presence at frame end and at the lane's exit from RUNNING (R30, R13) -/

/-- R30: a PRESENT group becomes ABSENT. -/
def State.makeAbsent (s : State) (g : Fin 16) : State :=
  (s.updGroup g fun gs => { gs with present := false, lastCount := none, pendingD := false }).updStrip g Store.flush

/-- R31: the GROUP_STATE notices of the groups of lane `l` that are PRESENT and that `f` says become ABSENT, in
ascending order (assumption 17). -/
def State.absentNotices (s : State) (l : Fin 4) (f : GroupState → Bool) : List Pending :=
  (four.filter fun c => (s.groups.get (groupNo l c)).present && f (s.groups.get (groupNo l c))).map fun c =>
    (.groupState, (groupNo l c).val, 0)

/-- R30: the review of one group at a frame-end event. -/
def State.reviewGroup (s : State) (g : Fin 16) : State :=
  let s1 :=
    if (s.groups.get g).present && !(s.groups.get g).seenFrame then s.makeAbsent g else s
  s1.updGroup g fun gs => { gs with seenFrame := false }

/-- R30: the parser takes a frame-end event, one event with its notices. -/
def State.parserFrameEnd (s : State) (l : Fin 4) : State :=
  (four.foldl (fun s c => s.reviewGroup (groupNo l c)) s).raiseAll (s.absentNotices l fun gs => !gs.seenFrame)

/-- R13, R30: one group when its lane leaves RUNNING. -/
def State.stopGroup (s : State) (g : Fin 16) : State :=
  let s1 := if (s.groups.get g).present then s.makeAbsent g else s
  (s1.updGroup g fun gs => { gs with lastCount := none, seenFrame := false }).updStrip g Store.flush

/-- R13: the parser and the strip stores when the lane leaves RUNNING. The GROUP_STATE notices are raised with the
LANE_STATE of that event (`State.exitNotices`). -/
def State.parserStop (s : State) (l : Fin 4) : State :=
  four.foldl (fun s c => s.stopGroup (groupNo l c)) s

end Sys2Proof.Machine
end

