-- ==== Sys2Proof/Config.lean ====
section
/-! DEFINITION. What the manual leaves open and the machine still answers: the free values. None has a body, so
nothing in Lean can say what they are. -/

namespace Sys2Proof

/-- R161 reports the deviation of the measured period in whole parts per million and gives no rounding. For a
measured period whose deviation is not a whole number of ppm, `Config.ppmRoundsUp p` says which of the two whole
numbers next to it is reported; `p` is the period as `RefUnit.period480` holds it. DESIGN CHOICE, assumption 13. -/
opaque Config.ppmRoundsUp (period480 : Nat) : Bool

/-- R116 gives NONPCM_CLEARED the cause SOURCE or ROUTE. Where both released the destination at one tick, be it that
some of its sources lost their flags and others their weight, or that its entry became DATA as a flag cleared, the rule
does not say which is reported; `Config.clearedBySource n d` is that choice for destination `d` at the `n`-th tick
(`State.free`). DESIGN CHOICE, assumption 16. -/
opaque Config.clearedBySource (n : Nat) (d : Nat) : Bool

end Sys2Proof
end

