-- ==== Sys2Proof/Machine/Arithmetic.lean ====
section
/-! DEFINITION. The arithmetic of one destination sample (R91 to R105), the generated tone (R35) and the slot layout
(Table 11-2). Everything is exact integer arithmetic with one rounding and one saturation at the end. -/

namespace Sys2Proof.Machine

/-! ### Gain (R92) -/

/-- K(c) for c = 0..39 (R92). -/
def gainTable0 : List Nat :=
  [1049, 1111, 1177, 1246, 1320, 1398, 1481, 1569, 1662, 1760,
   1865, 1975, 2092, 2216, 2347, 2487, 2634, 2790, 2955, 3130,
   3316, 3512, 3720, 3941, 4174, 4422, 4684, 4961, 5255, 5567,
   5897, 6246, 6616, 7008, 7423, 7863, 8329, 8823, 9345, 9899]

/-- K(c) for c = 40..79 (R92). -/
def gainTable1 : List Nat :=
  [10486, 11107, 11765, 12462, 13201, 13983, 14812, 15689, 16619, 17604,
   18647, 19751, 20922, 22162, 23475, 24866, 26339, 27900, 29553, 31304,
   33159, 35124, 37205, 39409, 41745, 44218, 46838, 49614, 52553, 55667,
   58966, 62460, 66161, 70081, 74233, 78632, 83291, 88227, 93454, 98992]

/-- K(c) for c = 80..119 (R92). -/
def gainTable2 : List Nat :=
  [104858, 111071, 117652, 124623, 132008, 139830, 148115, 156892, 166188, 176035,
   186466, 197515, 209218, 221615, 234747, 248657, 263390, 278997, 295529, 313040,
   331589, 351237, 372049, 394094, 417446, 442181, 468382, 496135, 525533, 556673,
   589658, 624597, 661607, 700809, 742335, 786321, 832914, 882267, 934544, 989920]

/-- K(c) for c = 120..144 (R92). -/
def gainTable3 : List Nat :=
  [1048576, 1110708, 1176522, 1246235, 1320079, 1398299, 1481153, 1568917, 1661881, 1760354,
   1864661, 1975149, 2092184, 2216154, 2347469, 2486566, 2633904, 2789972, 2955289, 3130401,
   3315888, 3512367, 3720488, 3940941, 4174456]

/-- R92: K(c) = floor(2^20 * 10^((c-120)/40) + 0.5) for c in 0..144, and 0 for OFF. -/
def gainFactor : Gain → Nat
  | .code c => (gainTable0 ++ gainTable1 ++ gainTable2 ++ gainTable3).getD c.val 0
  | .off => 0

/-! ### The generated tone (R35, R36) -/

/-- 1,056,063 * sin(2 pi i/48) for i = 0..12, rounded to the nearest integer, halves away from zero (R35). -/
def toneQuarter : List Nat :=
  [0, 137844, 273329, 404138, 528032, 642890, 746749, 837831, 914577, 975675, 1020079, 1047028, 1056063]

/-- The TONE value at i = tone count mod 48: a sine's four quarters. -/
def toneValue (count : Nat) : Int :=
  let i := count % 48
  if i ≤ 12 then toneQuarter.getD i 0
  else if i ≤ 24 then toneQuarter.getD (24 - i) 0
  else if i ≤ 36 then - (toneQuarter.getD (i - 24) 0 : Int)
  else - (toneQuarter.getD (48 - i) 0 : Int)

/-- The record of TONE appended with the tone count as it stands (R35). -/
def toneRecord (count : Nat) : Record :=
  { smp := { value := BitVec.ofInt 24 (toneValue count), v := false, u := false, c := false, z := count == 0 },
    d := false }

/-- The record of SILENT (Table 2-4). -/
def silentSource : Record :=
  { smp := { value := 0, v := false, u := false, c := false, z := false }, d := false }

/-! ### One side, crossfade, rounding (R91 to R101) -/

/-- R91: a record counts as its value when V = 0 and as 0 when V = 1. -/
def counted (r : Record) : Int := if r.smp.v then 0 else r.smp.value.toInt

/-- R93: s = a + b, negated by invert; p = s * K. `b` is none when the entry has no secondary. -/
def sideProduct (e : Entry) (a : Record) (b : Option Record) : Int :=
  let s := counted a + (match b with | some r => counted r | none => 0)
  (if e.invert then -s else s) * gainFactor e.gain

/-- R94: r = floor(1024 * i / N). -/
def rampFactor (i n : Nat) : Nat := 1024 * i / n

/-- R94: q = (1024 - r) * p_old + r * p_new. -/
def mix (r : Nat) (pOld pNew : Int) : Int := (1024 - r) * pOld + r * pNew

/-- R101: y = floor((q * e + 2^39) / 2^40), before saturation. -/
def rounded (q : Int) (e : Nat) : Int := (q * e + 2 ^ 39) / 2 ^ 40

/-- R101: the largest and the smallest sample. -/
def saturate (y : Int) : Int := if 8388607 < y then 8388607 else if y < -8388608 then -8388608 else y

/-- R101, R102: whether saturation changes the value (the clamp mark). -/
def clamps (y : Int) : Bool := decide (8388607 < y) || decide (y < -8388608)

/-! ### Slots (Table 11-2) -/

/-- R137: the 32 bits of an output slot, first sent bit highest: value, V, U, C, Z, four bits of 0. -/
def slotBits (x : Sample) : BitVec 32 :=
  x.value ++ BitVec.ofBool x.v ++ BitVec.ofBool x.u ++ BitVec.ofBool x.c ++ BitVec.ofBool x.z ++ (0 : BitVec 4)

/-- R37: the sample of an input slot; the last four bits are ignored. -/
def slotSample (b : BitVec 32) : Sample :=
  { value := b.extractLsb' 8 24, v := b.getLsbD 7, u := b.getLsbD 6, c := b.getLsbD 5, z := b.getLsbD 4 }

end Sys2Proof.Machine
end

