-- ==== Sys2Proof/Machine/Catalogue.lean ====
section
/-! DEFINITION. The source catalogue (R33 to R39): histories, the records of one tick, channel-status trackers. -/

namespace Sys2Proof.Machine

/-! ### Histories (R34) -/

/-- A history without the reset records at its old end, which an unlisted record reads as. -/
def trimSilent : History → History
  | [] => []
  | r :: rest =>
    match trimSilent rest with
    | [] => if r = Record.silent then [] else [r]
    | r2 :: rest2 => r :: r2 :: rest2

/-- R34: the new record takes the place of the oldest of 8,192. -/
def History.append (h : History) (r : Record) : History := trimSilent ((r :: h).take 8192)

/-- The record with `n` records appended after it; past the listed ones, the record of a reset (R34). Before a
tick's append, `n = delay` is the record of age delay + 1 (R90). -/
def History.read (h : History) (n : Nat) : Record := List.getD h n Record.silent

/-- The canonical form of a history: at most 8,192 records, the oldest listed one not the reset record. -/
def History.wf (h : History) : Bool := h.length ≤ 8192 && (trimSilent h == h)

/-! ### The records of a tick (R33, R35, R37) -/

/-- A tick's read of a strip store: the store after it, and the set returned; none for a store that is IDLE or PRIMING,
which is not read (Table 2-4). -/
def Store.tickRead (st : Store) : Store × Option SampleSet :=
  if st.state = .flowing then ((st.read true).1, some (st.read true).2) else (st, none)

/-- Table 2-4: the sets that a tick reads. -/
def State.stripReads (s : State) : Bank (Option SampleSet) 16 := s.strip.map fun st => st.tickRead.2

/-- Table 2-4: one read per FLOWING strip store. -/
def State.readStrips (s : State) : State := { s with strip := s.strip.map fun st => st.tickRead.1 }

/-- The record of channel `c` of a set that the tick read, or of a store that is not FLOWING (Table 2-4). -/
def setRecord (x : Option SampleSet) (c : Fin 4) : Record :=
  match x with
  | some y => { smp := y.ch.get c, d := y.d }
  | none => .silent

/-- R33, Table 2-4: the record appended for source `n`. `sets` are the reads of the 16 strip stores, `slots` the
serial input frames, `started` whether a frame had been started before this tick (R37), `tone` the tone count. -/
def tickRecord (sets : Bank (Option SampleSet) 16) (slots : Bank (BitVec 32) 32) (started : Bool) (tone : Nat)
    (n : Fin 98) : Record :=
  if h : n.val < 64 then setRecord (sets.get ⟨n.val / 4, by omega⟩) ⟨n.val % 4, by omega⟩
  else if h : n.val < 96 then
    if started then { smp := slotSample (slots.get ⟨n.val - 64, by omega⟩), d := false } else .silent
  else if n.val = 96 then toneRecord tone
  else silentSource

/-! ### Trackers (R38, R39) -/

/-- R38: a tracker takes a record. Position 191 is the completion of the block, which `Tracker.complete` takes. -/
def Tracker.step (t : Tracker) (r : Record) : Tracker :=
  if r.smp.z then { t with collecting := true, pos := 0 }
  else if !t.collecting then t
  else if r.d then { t with collecting := false, pos := 0 }
  else { t with pos := t.pos + 1, bit1 := if t.pos = 0 then r.smp.c else t.bit1 }

/-- The tracker has reached position 191 (R38). -/
def Tracker.due (t : Tracker) : Bool := t.collecting && 191 ≤ t.pos

/-- R38, R39: the completion of a block: the flag takes the captured bit 1 and the tracker waits for the next Z. -/
def Tracker.complete (t : Tracker) : Tracker :=
  if t.due then { t with collecting := false, pos := 0, flag := t.bit1 } else t

/-- The non-audio flag of a source; TONE and SILENT have none (R36). -/
def State.nonAudio (s : State) (n : Fin 98) : Bool :=
  if h : n.val < 96 then (s.trackers.get ⟨n.val, h⟩).flag else false

/-- The source number of a tracker. -/
def trackerSource (n : Fin 96) : Fin 98 := ⟨n.val, by omega⟩

/-- R38: every tracker takes the record appended to its source's history. -/
def State.stepTrackers (s : State) (recs : Bank Record 98) : State :=
  { s with trackers := s.trackers.mapIdx fun n t => t.step (recs.get (trackerSource n)) }

/-- R33 to R35, R37: the appends of one tick; the tone count advances and the next input frame starts. -/
def State.appendRecords (s : State) (recs : Bank Record 98) : State :=
  { s with
    hist := s.hist.mapIdx fun n h => h.append (recs.get n)
    tone := if s.tone < 191 then s.tone + 1 else 0
    serial := { s.serial with inStarted := true } }

/-- R38: the completion of every block that is due. -/
def State.completeBlocks (s : State) : State := { s with trackers := s.trackers.map Tracker.complete }

/-- R109: the flag changes, of those the tick completes, that are taken before the engine's computation. -/
def State.completeFlags (s : State) (ns : List (Fin 96)) : State :=
  ns.foldl (fun s n => s.updTracker n Tracker.complete) s

/-- R34, R39, R165: the catalogue takes PATH_RESET; the tone count is kept. A destination that was blocked then leaves
the blocked state with cause RESET (R115), which the engine keeps in mind until its next tick. -/
def State.catalogueReset (s : State) : State :=
  { s with
    hist := .fill 98 []
    trackers := .fill 96 .reset
    engine := s.engine.map fun st => { st with resetMark := st.blocked } }

end Sys2Proof.Machine
end

