-- ==== Sys2Proof/Machine/Engine.lean ====
section
/-! DEFINITION. The destination engine (chapter 5): what one house tick computes for one destination and for all of
them, and what takes, triggers and PATH_RESET do to its state. -/

namespace Sys2Proof.Machine

/-! ### Crossfade and soft entry of one destination -/

/-- R74, R95: a crossfade is in flight until the tick i = N has been computed. -/
def Crossfade.inFlight (x : Crossfade) : Bool := decide (x.i < x.len)

/-- R74: whether a destination has a crossfade in flight. -/
def DestState.crossfading (st : DestState) : Bool :=
  match st.xfade with
  | some x => x.inFlight
  | none => false

/-- R74, R86: the remaining crossfade ticks N - i. -/
def DestState.remaining (st : DestState) : Nat :=
  match st.xfade with
  | some x => x.len - x.i
  | none => 0

/-- R95: i rises by one before the tick's weights are formed; a crossfade that has ended counts no more. -/
def advanceCrossfade : Option Crossfade → Option Crossfade
  | some x => if x.inFlight then some { x with i := x.i + 1 } else none
  | none => none

/-- R95: after the tick with i = N the old entry is discarded. -/
def DestState.endCrossfade (st : DestState) : DestState :=
  match st.xfade with
  | some x => if x.inFlight then st else { st with xfade := none }
  | none => st

/-- R97: after the tick at which j reaches 32, j becomes idle. -/
def DestState.endSoftEntry (st : DestState) : DestState :=
  match st.j with
  | some j => if 32 ≤ j then { st with j := none } else st
  | none => st

/-- R97: j and e at a tick of an unblocked PCM destination; `trig` says that a trigger acts at it. -/
def softEntryStep (trig : Bool) (j : Option Nat) : Option Nat × Nat :=
  if trig then (some 0, 0)
  else
    match j with
    | none => (none, 1024)
    | some n => if n < 32 then (some (n + 1), 32 * (n + 1)) else (none, 1024)

/-- R104: the block counter after a tick. -/
def blockNext (b : Nat) : Nat := if b < 191 then b + 1 else 0

/-! ### One destination at one tick -/

/-- R90: the record an entry's tap selects at this tick, before the tick's append. -/
def State.tap (s : State) (n : Fin 98) (delay : Fin 8001) : Record := (s.hist.get n).read delay.val

/-- The sources of an entry: the primary and, if present, the secondary. -/
def Entry.sources (e : Entry) : List (Fin 98) :=
  match e.secondary with
  | some x => [e.primary, x]
  | none => [e.primary]

/-- R90, R93: the product p of a side at this tick. -/
def State.side (s : State) (e : Entry) : Int :=
  sideProduct e (s.tap e.primary e.delay) (e.secondary.map fun n => s.tap n e.delay)

/-- R94: the ramp factor of a tick; 1024 in steady state, where the live entry has all the weight. -/
def tickRamp : Option Crossfade → Nat
  | some x => rampFactor x.i x.len
  | none => 1024

/-- R98, R106: the entries of the sides whose weight at this tick is not 0. -/
def weightedEntries (live : Entry) (xf : Option Crossfade) : List Entry :=
  (match xf with
    | some x => if tickRamp xf < 1024 then [x.old] else []
    | none => []) ++ (if 0 < tickRamp xf then [live] else [])

/-- R106: the weighted sources of a tick. -/
def weightedSources (live : Entry) (xf : Option Crossfade) : List (Fin 98) :=
  (weightedEntries live xf).flatMap Entry.sources

/-- R98: a record with D = 1 is read from a source of a side with weight. -/
def State.readsMark (s : State) (live : Entry) (xf : Option Crossfade) : Bool :=
  (weightedEntries live xf).any fun e => e.sources.any fun n => (s.tap n e.delay).d

/-- R94: the weighted term q of a tick. -/
def State.weightedTerm (s : State) (live : Entry) (xf : Option Crossfade) : Int :=
  match xf with
  | some x => mix (rampFactor x.i x.len) (s.side x.old) (s.side live)
  | none => 1024 * s.side live

/-- R116: the detail of NONPCM_BLOCKED, the lowest-numbered flagged source. -/
def lowestSource (ns : List (Fin 98)) : Nat := ((ns.map fun n => n.val).min?).getD 0

/-- R116: the cause of NONPCM_CLEARED for a destination that stays PCM. SOURCE (0) when every source that blocked it
still has weight, so that its flag has cleared; ROUTE (1) when every such source still has its flag, so that it has
left the set; RESET (2) after a PATH_RESET. Where both happened at one tick R116 does not say which: a free value
(assumption 16). RESET is reported once the catalogue has taken the reset. Where the engine has taken it before the
catalogue, and its end of the crossfade has taken the flagged old source out, R116 allows RESET and ROUTE: the model's
choice is ROUTE (assumption 16). -/
def State.clearedCause (s : State) (d : Fin 96) (st : DestState) (sources : List (Fin 98)) : Nat :=
  if st.resetMark then 2
  else if st.blockers.all fun n => sources.contains n then 0
  else if st.blockers.all fun n => s.nonAudio n then 1
  else if Config.clearedBySource s.free d.val then 0 else 1

/-- R116: the cause of NONPCM_CLEARED for a blocked destination whose entry became DATA. ROUTE (1) when every source
that blocked it still has its flag; RESET (2) after a PATH_RESET. Where such a source's flag cleared at the same tick
R116 does not say whether SOURCE or ROUTE is reported: a free value (assumption 16). -/
def State.dataCause (s : State) (d : Fin 96) (st : DestState) : Nat :=
  if st.resetMark then 2
  else if st.blockers.all fun n => s.nonAudio n then 1
  else if Config.clearedBySource s.free d.val then 0 else 1

/-- What a tick makes of one destination: its engine state, its output, what its monitor is told besides the value
(R102), and the notices it raises. -/
structure TickOut where
  dest : DestState
  out : Sample
  clamp : Bool
  suspended : Bool
  notices : List Pending
deriving DecidableEq, Repr

/-- R110 to R112: a tick of a DATA destination. NONPCM_CLEARED is raised before DATA_SLIP (assumption 17). -/
def State.dataTick (s : State) (d : Fin 96) (live : Entry) (st : DestState) : TickOut :=
  let rec_ := s.tap live.primary live.delay
  { dest :=
      { xfade := none, j := none, e := 1024, block := blockNext st.block, blocked := false, trigger := false,
        blockers := [], resetMark := false }
    out := rec_.smp
    clamp := false
    suspended := true
    notices :=
      (if st.blocked then [(.nonpcmCleared, d.val, s.dataCause d st)] else [])
        ++ (if rec_.d then [(.dataSlip, d.val, live.primary.val + 2 * 256)] else []) }

/-- R103, R107: a tick of a PCM destination with flagged weighted sources `flagged`. -/
def blockedTick (d : Fin 96) (st : DestState) (xf : Option Crossfade) (flagged : List (Fin 98)) : TickOut :=
  { dest :=
      { xfade := xf, j := none, e := 0, block := blockNext st.block, blocked := true, trigger := false,
        blockers := flagged, resetMark := false }
    out := { value := 0, v := true, u := false, c := st.block == 0, z := st.block == 0 }
    clamp := false
    suspended := true
    notices := if st.blocked then [] else [(.nonpcmBlocked, d.val, lowestSource flagged)] }

/-- R93 to R105, R108: a tick of an unblocked PCM destination. -/
def State.openTick (s : State) (d : Fin 96) (live : Entry) (st : DestState) (xf : Option Crossfade) : TickOut :=
  let je := softEntryStep (st.trigger || st.blocked || s.readsMark live xf) st.j
  let y := rounded (s.weightedTerm live xf) je.2
  { dest :=
      { xfade := xf, j := je.1, e := je.2, block := blockNext st.block, blocked := false, trigger := false,
        blockers := [], resetMark := false }
    out := { value := BitVec.ofInt 24 (saturate y), v := false, u := false, c := st.block == 0, z := st.block == 0 }
    clamp := clamps y
    suspended := false
    notices :=
      if st.blocked then [(.nonpcmCleared, d.val, s.clearedCause d st (weightedSources live xf))] else [] }

/-- R88: the computation of destination `d` at a house tick, from the state as it stands when the tick is taken. -/
def State.destTick (s : State) (d : Fin 96) : TickOut :=
  let live := s.live.get d
  let st := s.engine.get d
  match live.mode with
  | .data => s.dataTick d live st
  | .pcm =>
    let xf := advanceCrossfade st.xfade
    match (weightedSources live xf).filter s.nonAudio with
    | [] => s.openTick d live st xf
    | n :: ns => blockedTick d st xf (n :: ns)

/-- R88: all 96 destinations. -/
def State.destTicks (s : State) : Bank TickOut 96 := .tab fun d => s.destTick d

/-- R89: the engine's state after the tick. -/
def State.applyTicks (s : State) (outs : Bank TickOut 96) : State :=
  { s with engine := outs.map TickOut.dest, free := s.free + 1 }

/-- R116: the engine's notices of a tick, in ascending destination number. -/
def engineNotices (outs : Bank TickOut 96) : List Pending := outs.list.flatMap TickOut.notices

/-! ### Where the samples go (R113, R114, R137, R138) -/

/-- R113: the set of a group. -/
def outputSet (outs : Bank TickOut 96) (g : Fin 16) : SampleSet :=
  { ch := .tab fun c => (outs.get (groupDest g c)).out, d := false }

/-- R113: one set to each of the 16 embed stores. -/
def State.writeEmbeds (s : State) (outs : Bank TickOut 96) : State :=
  { s with embed := s.embed.mapIdx fun g st => st.write (outputSet outs g) }

/-- R114, R137, R138: the ports send the outputs of the tick before and are handed those of this tick. -/
def Serial.tick (x : Serial) (outs : Bank Sample 32) : Serial :=
  { x with sending := some (x.handed.getD (.fill 32 .silent)), handed := some outs }

/-- R137, R166: the bits of a slot in the order they are sent. -/
def sentBits {w : Nat} (b : BitVec w) : List Bool := (List.range w).map b.getMsbD

/-- R137: the 512 bits that follow the frame sync of port `p`: its 16 slots, slot 0 first, 32 bits each. -/
def portFrame (outs : Bank Sample 32) (p : Fin 2) : List Bool :=
  (List.finRange 16).flatMap fun i => sentBits (slotBits (outs.get ⟨p.val * 16 + i.val, by omega⟩))

/-- R137: the frame that serial audio output port `p` sends from one house tick to the next; none before the first
tick after a pin reset. -/
def Serial.frame (x : Serial) (p : Fin 2) : Option (List Bool) := x.sending.map fun outs => portFrame outs p

/-- R114: the outputs of the local destinations. -/
def localOutputs (outs : Bank TickOut 96) : Bank Sample 32 := .tab fun n => (outs.get (localDest n)).out

/-! ### Changes between ticks -/

/-- R98, R99: a trigger handed to a destination; one in DATA mode is not reached. -/
def State.trigger (s : State) (d : Fin 96) : State :=
  match (s.live.get d).mode with
  | .pcm => s.updDest d fun st => { st with trigger := true }
  | .data => s

/-- Triggers handed to several destinations. -/
def State.triggerAll (s : State) (ds : List (Fin 96)) : State := ds.foldl State.trigger s

/-- The four destinations of a group. -/
def groupDests (g : Fin 16) : List (Fin 96) := four.map (groupDest g)

/-- The 16 embed destinations of a lane. -/
def laneDests (l : Fin 4) : List (Fin 96) := (List.finRange 16).map (laneDest l)

/-- R58: the crossfade length of a ramp code. -/
def rampLength (r : Fin 4) : Nat :=
  match r with
  | 0 => 0
  | 1 => 48
  | 2 => 480
  | 3 => 2400

/-- R75: the fields a replacement leaves equal. -/
def sameSound (a b : Entry) : Bool :=
  a.primary == b.primary && a.secondary == b.secondary && a.gain == b.gain && a.invert == b.invert
    && a.delay == b.delay

/-- R75, R95, R96, R112: what the application of entry `new` in place of `old` does to a destination's engine state.
A cut to or from DATA also ends soft entry and drops a trigger that was handed (assumption 25). -/
def DestState.apply (st : DestState) (old new : Entry) : DestState :=
  if old.mode = .data ∨ new.mode = .data then { st with xfade := none, j := none, trigger := false }
  else if sameSound old new then st
  else if new.ramp = 0 then { st with xfade := none }
  else { st with xfade := some { old := old, len := rampLength new.ramp, i := 0 } }

/-- R115: what PATH_RESET does to a destination of mode `m` at once; the rest follows at the next tick. -/
def DestState.pathReset (st : DestState) (m : Mode) : DestState :=
  { st with xfade := none, trigger := if m = .pcm then true else st.trigger }

/-- R115: the engine takes PATH_RESET. -/
def State.engineReset (s : State) : State :=
  { s with engine := s.engine.mapIdx fun d st => st.pathReset (s.live.get d).mode }

end Sys2Proof.Machine
end

