-- ==== Sys2Proof/Machine/Monitors.lean ====
section
/-! DEFINITION. The level monitors (chapter 7). -/

namespace Sys2Proof.Machine

/-- R141: the magnitude of a value; that of -8,388,608 counts as 8,388,607. -/
def magnitude (y : Value) : Nat := min y.toInt.natAbs 8388607

/-- R141, R142: a window opens with no ticks, no peak, CLIP clear, and CHANGED as given. -/
def Monitor.openWindow (m : Monitor) (changed : Bool) : Monitor :=
  { m with ticks := 0, peak := 0, clip := false, changed := changed }

/-- R141: a tick is added to the open window. -/
def Monitor.addTick (m : Monitor) (y : Value) (clamp : Bool) : Monitor :=
  { m with ticks := m.ticks + 1, peak := max m.peak (magnitude y), clip := m.clip || clamp }

/-- R140, R147: a monitor takes a tick. Table 7-1 and R139 do not say what the window tick count, the window peak and
the window marks hold while no window is open: the model's choice is 0 and clear (assumption 29). -/
def Monitor.tick (m : Monitor) (y : Value) (clamp suspended : Bool) : Monitor :=
  match m.activity, suspended with
  | .idle, _ => m
  | .measuring, true => { m.openWindow false with activity := .suspended }
  | .measuring, false => m.addTick y clamp
  | .suspended, true => m
  | .suspended, false =>
    { m.openWindow m.pendingChanged with activity := .measuring, pendingChanged := false }.addTick y clamp

/-- R142: a take application is handed to a monitor. -/
def Monitor.markChanged (m : Monitor) : Monitor :=
  match m.activity with
  | .idle => m
  | .measuring => { m with changed := true }
  | .suspended => { m with pendingChanged := true }

/-- The open window has its 480 ticks (R141). -/
def Monitor.due (m : Monitor) : Bool := m.activity == .measuring && 480 ≤ m.ticks

/-- R143: a window that counts toward silence. -/
def Monitor.quietWindow (m : Monitor) : Bool := decide (m.peak < m.silenceAt) && !m.changed

/-- R144: an overloaded window. -/
def Monitor.loudWindow (m : Monitor) : Bool := decide (m.overloadAt ≤ m.peak) || m.clip

/-- R143: the silence count after a window. -/
def Monitor.nextCount (m : Monitor) : Nat :=
  if m.quietWindow then (if m.silenceCount < m.ns then m.silenceCount + 1 else m.silenceCount) else 0

/-- R143: the silence state after a window. -/
def Monitor.nextSilent (m : Monitor) : Bool :=
  m.quietWindow && (m.silent || decide (m.ns ≤ m.silenceCount + 1))

/-- R143, R144, R146: the notices of a completed window of destination `d`, silence first. -/
def Monitor.windowNotices (m : Monitor) (d : Nat) : List Pending :=
  (if !m.silent && m.nextSilent && (m.edge == .enter || m.edge == .both) then [(.silenceOn, d, m.ns)]
   else if m.silent && !m.nextSilent && (m.edge == .leave || m.edge == .both) then
     [(.silenceOff, d, if m.silenceAt ≤ m.peak then 0 else 1)]
   else [])
  ++ (if m.loudWindow && !m.overloaded && m.overloadEvent then [(.overload, d, if m.clip then 0 else 1)] else [])

/-- R143 to R145: the completion of the open window; the next one opens with no marks. -/
def Monitor.complete (m : Monitor) : Monitor :=
  { m with
    silenceCount := m.nextCount
    silent := m.nextSilent
    overloaded := m.loudWindow
    lastPeak := m.peak
    lastClip := m.clip
    lastChanged := m.changed
    lastOverloaded := m.loudWindow
    holds := m.holds.map fun h => max h m.peak }.openWindow false

/-- The monitor after the completion of its window, if it is due. -/
def Monitor.settle (m : Monitor) : Monitor := if m.due then m.complete else m

/-- The notices of that completion. -/
def Monitor.settleNotices (m : Monitor) (d : Nat) : List Pending := if m.due then m.windowNotices d else []

/-- R143 to R146: the completions of all due windows, with their notices in ascending destination number. All due
windows were completed by the last tick, whose house frame count stamps the notices. Against the notices of the tick's
other blocks they have no order: they are of an event of their own, and a queue may take either first (R179,
assumptions 8 and 35). -/
def State.completeWindows (s : State) : State :=
  { s with monitors := s.monitors.map Monitor.settle }.raiseAllAt s.ref.tickCount
    ((List.finRange 96).flatMap fun d => (s.monitors.get d).settleNotices d.val)

/-- R102, R140, R146: every monitor takes the tick, with the house frame count that stamps a completion. -/
def State.monitorTicks (s : State) (outs : Bank TickOut 96) : State :=
  { s with
    monitors := s.monitors.mapIdx fun d m =>
      m.tick (outs.get d).out.value (outs.get d).clamp (outs.get d).suspended
    ref := { s.ref with tickCount := s.ref.frameCount } }

/-- The six settings of MON_SET (R148). -/
structure MonSettings where
  enable : Bool
  overloadEvent : Bool
  edge : EdgeSelect
  silenceAt : Nat
  overloadAt : Nat
  ns : Nat
deriving DecidableEq, Repr

/-- The settings written (R148). -/
def Monitor.withSettings (m : Monitor) (x : MonSettings) : Monitor :=
  { m with enable := x.enable, silenceAt := x.silenceAt, overloadAt := x.overloadAt, ns := x.ns, edge := x.edge,
           overloadEvent := x.overloadEvent }

/-- R148: the table of effects of MON_SET, by the activity before and the new enable. A monitor that becomes IDLE has no
window: its tick count, peak and window marks are 0 and clear by the model's choice (assumption 29). -/
def Monitor.set (m : Monitor) (x : MonSettings) : Monitor :=
  let m1 := m.withSettings x
  match m.activity, x.enable with
  | .measuring, true =>
    { m1.openWindow false with silenceCount := 0, overloaded := false, pendingChanged := false }
  | .measuring, false =>
    { m1.openWindow false with activity := .idle, silenceCount := 0, silent := false, overloaded := false,
                               pendingChanged := false }
  | .suspended, true => { m1 with silenceCount := 0, overloaded := false, pendingChanged := false }
  | .suspended, false =>
    { m1 with activity := .idle, silenceCount := 0, silent := false, overloaded := false, pendingChanged := false }
  | .idle, true =>
    { m1.openWindow false with activity := .measuring, silenceCount := 0, silent := false, overloaded := false }
  | .idle, false => { m1 with silenceCount := 0 }

/-- R152: a monitor takes PATH_RESET. -/
def Monitor.pathReset (m : Monitor) : Monitor :=
  { m.openWindow false with silenceCount := 0, silent := false, overloaded := false, pendingChanged := false,
                            holds := .fill 3 0 }

/-- R152: the monitors take PATH_RESET. A window that its last tick completed is completed first. -/
def State.monitorsReset (s : State) : State :=
  let s1 := s.completeWindows
  { s1 with monitors := s1.monitors.map Monitor.pathReset }

end Sys2Proof.Machine
end

