-- ==== Sys2Proof/Machine/Embedding.lean ====
section
/-! DEFINITION. Entering and leaving EMBED, bypass, and the builders' part of lane changes and of PATH_RESET (chapter
6, sections 6.1, 6.6 to 6.8). -/

namespace Sys2Proof.Machine

/-- The lane is RUNNING. -/
def State.running (s : State) (l : Fin 4) : Bool := (s.lanes.get l).state == .running

/-- R132: a lane is in bypass while its bypass state is IN or LEAVING. -/
def Bypass.inBypass : Bypass → Bool
  | .out => false
  | .entering => false
  | .inside => true
  | .leaving => true

/-- R77, R129: the lane is RUNNING and not in bypass. -/
def State.canEmbed (s : State) (l : Fin 4) : Bool := s.running l && !(s.builders.get l).bypass.inBypass

/-- R129: a group enters EMBED: its store goes to FLOWING, its counts to 0, and its four destinations get a trigger.
A group whose store is FLOWING is left as it is. -/
def State.enterEmbed (s : State) (g : Fin 16) : State :=
  if (s.embed.get g).state = .flowing then s
  else ((s.updEmbed g Store.toFlowing).updCount g fun _ => .reset).triggerAll (groupDests g)

/-- R130: a group leaves EMBED: its store goes to HOLDING and its owed count to 0. -/
def State.leaveEmbed (s : State) (g : Fin 16) : State :=
  (s.updEmbed g Store.toHolding).updCount g fun c => { c with owed := 0 }

/-- R13, R117, R133: every group of a lane leaves EMBED. -/
def State.holdLane (s : State) (l : Fin 4) : State :=
  four.foldl (fun s g => s.leaveEmbed (groupNo l g)) s

/-- R129: at a switch-line event of a lane that may embed, every group whose mode is EMBED and whose store is HOLDING
enters EMBED. -/
def State.enterLane (s : State) (l : Fin 4) : State :=
  if s.canEmbed l then
    four.foldl (fun s g => if s.plan.get (groupNo l g) = .embed then s.enterEmbed (groupNo l g) else s) s
  else s

/-- R133: the bypass state becomes IN. -/
def State.bypassEnter (s : State) (l : Fin 4) : State :=
  (s.updBuilder l fun b => { b with bypass := .inside }).holdLane l

/-- R134: the bypass state becomes OUT from IN or LEAVING: a trigger for the lane's 16 embed destinations. At a switch
line the EMBED groups then enter (`enterLane`). -/
def State.bypassExit (s : State) (l : Fin 4) : State :=
  (s.updBuilder l fun b => { b with bypass := .out }).triggerAll (laneDests l)

/-- R132: a trip reaches the builder of a lane. In LEAVING, which a lane that is not RUNNING never is, it acts as for
one that is (assumption 26). -/
def State.tripLane (s : State) (l : Fin 4) : State :=
  match (s.builders.get l).bypass with
  | .out => if s.running l then s.updBuilder l fun b => { b with bypass := .entering } else s.bypassEnter l
  | .entering => s
  | .inside => s
  | .leaving => s.updBuilder l fun b => { b with bypass := .inside }

/-- R132: a release reaches the builder of a lane. In ENTERING, which a lane that is not RUNNING never is, it acts as
for one that is (assumption 26). -/
def State.releaseLane (s : State) (l : Fin 4) : State :=
  match (s.builders.get l).bypass with
  | .out => s
  | .entering => s.updBuilder l fun b => { b with bypass := .out }
  | .inside => if s.running l then s.updBuilder l fun b => { b with bypass := .leaving } else s.bypassExit l
  | .leaving => s

/-- R117, R132, R134: the builder takes a switch-line event: its phase becomes ENGAGED, a pending change of bypass is
made, and the EMBED groups whose stores are HOLDING enter. -/
def State.builderSwitchLine (s : State) (l : Fin 4) : State :=
  let s1 := s.updBuilder l fun b => { b with phase := .engaged }
  let s2 :=
    match (s.builders.get l).bypass with
    | .out => s1
    | .entering => s1.bypassEnter l
    | .inside => s1
    | .leaving => s1.bypassExit l
  s2.enterLane l

/-- R117, R132 to R134: the builder takes the lane's exit from RUNNING. -/
def State.builderStop (s : State) (l : Fin 4) : State :=
  let s1 := (s.updBuilder l fun b => { b with phase := .stopped, acc := 0 }).holdLane l
  match (s.builders.get l).bypass with
  | .out => s1
  | .entering => s1.bypassEnter l
  | .inside => s1
  | .leaving => s1.bypassExit l

/-- R41: the strip stores take PATH_RESET. -/
def State.stripReset (s : State) : State := { s with strip := .fill 16 (.reset .idle) }

/-- R41, R136: the embed stores and the builders take PATH_RESET: no group is embedding after it. -/
def State.embedReset (s : State) : State :=
  { s with
    embed := .fill 16 (.reset .holding)
    builders := s.builders.map fun b => { b with acc := 0 }
    embCounts := .fill 16 .reset }

end Sys2Proof.Machine
end

