-- ==== Sys2Proof/Machine/TrackMap.lean ====
section
/-! DEFINITION. The track map (chapter 4): staging, takes, take lists, boundaries and protection. -/

namespace Sys2Proof.Machine

/-! ### Protection (R80) -/

/-- R61 to R63: the item is protected by a line other than `l`; the owner if so. -/
def State.barredBy (s : State) (it : Fin 112) (l : Line) : Option Line :=
  match s.owners.get it with
  | some o => if o = l then none else some o
  | none => none

/-! ### Takes (R65 to R67) -/

/-- The take item of a target in a list, if the list holds one (R65: at most one). -/
def findItem (items : List TakeItem) (it : Fin 112) : Option TakeItem :=
  items.find? fun x => x.body.item == it

/-- R67: the list without the take item of a target. -/
def dropItem (items : List TakeItem) (it : Fin 112) : List TakeItem :=
  items.filter fun x => x.body.item != it

/-- Table 11-6: the detail of TAKE_SUPERSEDED. -/
def supersededDetail (old new : TakeItem) : Nat :=
  old.tag.toNat + lineCode old.stager * 16 + bit old.held * 64 + new.tag.toNat * 256

/-- R66, R67: a take item joins the list of its domain at the tail; one already held for its target is superseded. -/
def State.joinTake (s : State) (x : TakeItem) : State :=
  let dom := itemDomain x.body.item
  s.setTakes dom (dropItem (s.takes.get dom) x.body.item ++ [x])

/-- R67: the TAKE_SUPERSEDED notices of take items that join, in the order in which they join. -/
def State.supersededNotices (s : State) (xs : List TakeItem) : List Pending :=
  xs.filterMap fun x =>
    (findItem (s.takes.get (itemDomain x.body.item)) x.body.item).map fun old =>
      (.takeSuperseded, x.body.item.val, supersededDetail old x)

/-- R66: the staged records with tag `tag` as take items, in ascending order of item number. -/
def State.taggedItems (s : State) (tag : BitVec 4) : List TakeItem :=
  ((List.finRange 96).filterMap fun d =>
    match s.stagedDest.get d with
    | some r => if r.tag = tag then some { body := .dest d r.body, tag := r.tag, stager := r.stager, held := false }
                else none
    | none => none)
  ++ ((List.finRange 16).filterMap fun g =>
    match s.stagedPlan.get g with
    | some r => if r.tag = tag then some { body := .plan g r.body, tag := r.tag, stager := r.stager, held := false }
                else none
    | none => none)

/-- R66: the staged table without the records of a tag. -/
def State.unstageTag (s : State) (tag : BitVec 4) : State :=
  { s with
    stagedDest := s.stagedDest.map fun r => r.filter fun x => x.tag != tag
    stagedPlan := s.stagedPlan.map fun r => r.filter fun x => x.tag != tag }

/-- R66: how many of `items` find a take item of their target in its list. -/
def State.supersedes (s : State) (items : List TakeItem) : Nat :=
  (items.filter fun x => (findItem (s.takes.get (itemDomain x.body.item)) x.body.item).isSome).length

/-- R66, R67: MAP_TAKE of a tag, one event with its notices. No two of the items have one target. -/
def State.takeTag (s : State) (tag : BitVec 4) : State :=
  ((s.taggedItems tag).foldl State.joinTake (s.unstageTag tag)).raiseAll (s.supersededNotices (s.taggedItems tag))

/-! ### Applying (R72 to R78) -/

/-- What a boundary made of a take item (R72); `refused` names the owner of the protection. -/
inductive Deal where
  | refused (owner : Line)
  | held
  | applied
deriving DecidableEq, Repr

/-- R75, R76: a destination take item is applied: the live entry, the engine, then the monitor's window. -/
def State.applyEntry (s : State) (d : Fin 96) (e : Entry) : State :=
  (({ s with live := s.live.set d e }).updDest d fun st => st.apply (s.live.get d) e).updMonitor d
    Monitor.markChanged

/-- R77: a plan group take item is applied. -/
def State.applyMode (s : State) (g : Fin 16) (m : PlanMode) : State :=
  if s.plan.get g = m then s
  else
    let s1 := { s with plan := s.plan.set g m }
    if m = .embed then (if s.canEmbed (groupLane g) then s1.enterEmbed g else s1)
    else if s.plan.get g = .embed then s1.leaveEmbed g
    else s1

/-- R72, R73: what a boundary does with one take item, and what it is then. -/
def State.dealItem (s : State) (x : TakeItem) : State × Deal :=
  match s.barredBy x.body.item x.stager with
  | some o => (s, .refused o)
  | none =>
    match x.body with
    | .dest d e => if (s.engine.get d).crossfading then (s, .held) else (s.applyEntry d e, .applied)
    | .plan g m => (s.applyMode g m, .applied)

/-- R72: a list dealt with in list order: the state after it, the items that stay (HELD), and each item with its
result. -/
def State.dealItems (s : State) : List TakeItem → State × List TakeItem × List (TakeItem × Deal)
  | [] => (s, [], [])
  | x :: xs =>
    let (s1, r) := s.dealItem x
    let (s2, kept, rs) := s1.dealItems xs
    (s2, if r = .held then { x with held := true } :: kept else kept, (x, r) :: rs)

/-- The number of items of a tag with a result. -/
def countDeals (rs : List (TakeItem × Deal)) (tag : BitVec 4) (r : Deal) : Nat :=
  (rs.filter fun x => x.1.tag == tag && x.2 == r).length

/-- R73: the TAKE_REFUSED notices of a boundary, in list order. -/
def refusedNotices (rs : List (TakeItem × Deal)) : List Pending :=
  rs.filterMap fun x =>
    match x.2 with
    | .refused o => some (.takeRefused, x.1.body.item.val, x.1.tag.toNat + lineCode x.1.stager * 16 + lineCode o * 64)
    | .held => none
    | .applied => none

/-- The 16 tags in ascending order. -/
def allTags : List (BitVec 4) := (List.range 16).map (BitVec.ofNat 4)

/-- R78: the TAKE_DONE notices of a boundary. -/
def doneNotices (dom : Fin 5) (rs : List (TakeItem × Deal)) : List Pending :=
  (allTags.filter fun t => countDeals rs t .applied + countDeals rs t .held != 0).map fun t =>
    (.takeDone, t.toNat, dom.val + countDeals rs t .applied * 8 + countDeals rs t .held * 512)

/-- R72, R73, R78: a boundary of a domain, one event with its notices. -/
def State.boundary (s : State) (dom : Fin 5) : State :=
  let (s1, kept, rs) := s.dealItems (s.takes.get dom)
  (s1.setTakes dom kept).raiseAll (refusedNotices rs ++ doneNotices dom rs)

/-! ### Domains (R70, R71, R14) -/

/-- R70: the house frame boundary is a boundary of a lane's domain while the lane is not RUNNING. -/
def State.houseBoundaryOf (s : State) (l : Fin 4) : Bool := !s.running l

/-- R70, R159: the house frame boundary at the track map, of the lane domains that have it and of the house domain. The
spec gives no order between these domains, nor says whether their boundaries are one event: DESIGN CHOICE, the lane
domains in ascending order, then the house domain, each an event of its own (assumption 37). -/
def State.houseBoundary (s : State) : State :=
  (four.foldl (fun s l => if s.houseBoundaryOf l then s.boundary (laneDomain l) else s) s).boundary 4

/-- R79: PATH_RESET sets the hold mark of every HELD take item to WAITING. -/
def State.takesReset (s : State) : State :=
  { s with takes := s.takes.map fun items => items.map fun x => { x with held := false } }

end Sys2Proof.Machine
end

