-- ==== Sys2Proof/Machine/Rebuild.lean ====
section
/-! DEFINITION. The embed builder on a carriage line (R118 to R128): the distribution accumulator, which areas are
rebuilt, the kept packets, the packets sent and the deferrals, each whole and as the accesses that are left of it. -/

namespace Sys2Proof.Machine

/-! ### Distribution (R118, R119) -/

/-- R119: the accumulator a step starts from: 0 at line 1 of frame 0. -/
def stepBase (acc : Nat) (line : BitVec 11) (index : Nat) : Nat := if line.toNat = 1 ∧ index = 0 then 0 else acc

/-- R118: one step of the accumulator: n and the accumulator after it. -/
def accStep (f : Fin 8) (acc : Nat) : Nat × Nat :=
  ((acc + setsPerSequence f) / carriagePerSequence f, (acc + setsPerSequence f) % carriagePerSequence f)

/-- R118, R119: the accumulator of lane `l` steps at a carriage line; the line's n. -/
def State.stepAccumulator (s : State) (l : Fin 4) (line : BitVec 11) : State × Nat :=
  let r := s.lanes.get l
  let step := accStep r.fmt (stepBase (s.builders.get l).acc line r.index)
  (s.updBuilder l fun b => { b with acc := step.2 }, step.1)

/-! ### Which areas are rebuilt (R120) -/

/-- R120: the three conditions. -/
def State.rebuilds (s : State) (l : Fin 4) : Bool :=
  s.running l && (s.builders.get l).phase == .engaged && !(s.builders.get l).bypass.inBypass
    && four.any fun c => s.plan.get (groupNo l c) != .pass

/-- R122: foreign packets and the audio packets of PASS groups are kept. -/
def State.keeps (s : State) (l : Fin 4) (p : Packet) : Bool :=
  match kindGroup p.kind with
  | none => true
  | some c => s.plan.get (groupNo l c) == .pass

/-- R122: the words of the kept packets, in their order. -/
def State.keptWords (s : State) (l : Fin 4) (w : WalkResult) : List LaneWord :=
  (w.entries.filter fun x => s.keeps l x.packet).flatMap fun x => x.packet.words

/-! ### Packets sent and deferrals (R123 to R126) -/

/-- R124: n reads of the group's embed store, one after another. -/
def State.readSets (s : State) (g : Fin 16) : Nat → State × List SampleSet
  | 0 => (s, [])
  | n + 1 =>
    let (s1, x) := s.readEmbed g
    let (s2, xs) := s1.readSets g n
    (s2, x :: xs)

/-- R125: the sequence count a packet carries: one value is skipped when a set was returned with D. -/
def packetCount (next : Byte) (sets : List SampleSet) : Byte := if sets.any fun x => x.d then next + 1 else next

/-- R123: the number of sets of a group's packet. -/
def packetSets (n owed : Nat) : Nat := min 4 (n + owed)

/-- R123: the words of a packet of n sets. -/
def packetWords (n : Nat) : Nat := 7 + 12 * n

/-- R123, R125, R127: a packet of the sets that were read is placed; the words it takes. -/
def State.placePacket (s : State) (l c : Fin 4) (n : Nat) (sets : List SampleSet) : State × List LaneWord :=
  let g := groupNo l c
  let count := packetCount (s.embCounts.get g).next sets
  (s.updCount g fun x => { next := count + 1, owed := n + x.owed - sets.length }, (makePacket c count sets).words)

/-- R123, R124: a packet of `m` sets is sent: the sets are read, and the packet placed. -/
def State.sendPacket (s : State) (l c : Fin 4) (n m : Nat) : State × List LaneWord :=
  let (s1, sets) := s.readSets (groupNo l c) m
  s1.placePacket l c n sets

/-- R126: the n sets of a group are deferred; what exceeds 8 owed sets is given up. DEFER_LOSS has the stamp of the
carriage-line event. -/
def State.deferSets (s : State) (g : Fin 16) (ev : AreaEvent) (n : Nat) : State :=
  let sum := (s.embCounts.get g).owed + n
  if sum ≤ 8 then s.updCount g fun x => { x with owed := sum }
  else
    ((s.updEmbed g fun st => st.discard (sum - 8)).updCount g fun x => { x with owed := 8 }).raiseAs (ev.no + 1)
      ev.stamp [(.deferLoss, 16 + g.val, sum - 8)]

/-- What the builder does for a group at a line. -/
inductive GroupDeal where
  | nothing
  | send (m : Nat)
  | defer
deriving DecidableEq, Repr

/-- R123: what the builder does for group `c` of lane `l` at a line of number n, with `used` words placed so far. -/
def State.groupDeal (s : State) (l c : Fin 4) (n used : Nat) : GroupDeal :=
  let g := groupNo l c
  if s.plan.get g = .embed ∧ (s.embed.get g).state = .flowing then
    let m := packetSets n (s.embCounts.get g).owed
    if m = 0 then .nothing else if used + packetWords m ≤ areaWords then .send m else .defer
  else .nothing

/-- R123: the builder deals with one group; `used` are the words placed so far. -/
def State.dealGroup (s : State) (l c : Fin 4) (ev : AreaEvent) (n : Nat) (used : List LaneWord) :
    State × List LaneWord :=
  match s.groupDeal l c n used.length with
  | .nothing => (s, used)
  | .send m =>
    let (s1, ws) := s.sendPacket l c n m
    (s1, used ++ ws)
  | .defer => (s.deferSets (groupNo l c) ev n, used)

/-- R123: the groups in the order 1, 2, 3, 4. -/
def State.dealGroups (s : State) (l : Fin 4) (ev : AreaEvent) (n : Nat) :
    List (Fin 4) → List LaneWord → State × List LaneWord
  | [], used => (s, used)
  | c :: cs, used =>
    let (s1, used1) := s.dealGroup l c ev n used
    s1.dealGroups l ev n cs used1

/-- R127: filler up to position 279. -/
def fillArea (ws : List LaneWord) : List LaneWord := ws ++ List.replicate (areaWords - ws.length) 0

/-- R2: the area of the line in progress is replaced on the output by a rebuilt one. -/
def Relay.rebuild (r : Relay) (area : List LaneWord) : Relay :=
  { r with input := r.input.map fun x => { x with rebuilt := some area } }

/-- R127: the rebuilt area of the words placed is what the output line carries. -/
def State.placeArea (s : State) (l : Fin 4) (used : List LaneWord) : State :=
  s.updRelay l fun r => r.rebuild (fillArea used)

/-- R118 to R122: the embed builder takes a carriage-line event with the parser's result: the accumulator steps, and
an area that is rebuilt begins with the kept packets. -/
def State.startBuild (s : State) (l : Fin 4) (ev : AreaEvent) (w : WalkResult) : State × Option Build :=
  let (s1, n) := s.stepAccumulator l ev.line
  (s1, if s1.rebuilds l then some { n, used := s1.keptWords l w, draft := none, groups := four } else none)

/-- R124: all that is left of the packet being formed, and the words placed after it. -/
def Build.finishDraft (l : Fin 4) (b : Build) (s : State) : State × List LaneWord :=
  match b.draft with
  | none => (s, b.used)
  | some d =>
    let (s1, xs) := s.readSets (groupNo l d.group) d.left
    let (s2, ws) := s1.placePacket l d.group b.n (d.sets ++ xs)
    (s2, b.used ++ ws)

/-- R123 to R127: all that is left of a rebuilding. -/
def Build.finish (l : Fin 4) (ev : AreaEvent) (b : Build) (s : State) : State :=
  let (s1, used) := b.finishDraft l s
  let (s2, ws) := s1.dealGroups l ev b.n b.groups used
  s2.placeArea l ws

/-- R118 to R127: the embed builder takes a carriage-line event whole. -/
def State.buildLine (s : State) (l : Fin 4) (ev : AreaEvent) (w : WalkResult) : State :=
  match s.startBuild l ev w with
  | (s1, some b) => b.finish l ev s1
  | (s1, none) => s1

end Sys2Proof.Machine
end

