-- ==== Sys2Proof/Machine/AreaWork.lean ====
section
/-! DEFINITION. What a carriage-line event brings, access by access (R20 to R30, R48, R118 to R127): the next access,
some of them, and all that are left (assumption 11). -/

namespace Sys2Proof.Machine

/-- R11, R12, R30: the frame-end event: the parser's review, then the frame-sequence index. -/
def State.frameEnd (s : State) (l : Fin 4) : State :=
  (s.parserFrameEnd l).updLane l fun r =>
    { r with index := if r.index + 1 < framesPerSequence r.fmt then r.index + 1 else 0 }

/-- R11: line L's carriage-line event is followed by the frame-end event. -/
def State.endLine (s : State) (l : Fin 4) (ev : AreaEvent) : State :=
  if ev.line.toNat = linesPerFrame (s.lanes.get l).fmt then s.frameEnd l else s

namespace LaneWork

/-- R11: the event of an area, with nothing of it taken. -/
def start (ev : AreaEvent) (area : List LaneWord) : LaneWork := .walking ev (.start area)

/-- All that is left of a carriage-line event. -/
def finish (l : Fin 4) (w : LaneWork) (s : State) : State :=
  match w with
  | .idle => s
  | .walking ev w =>
    let (s1, r) := w.finish l ev s
    (s1.buildLine l ev r).endLine l ev
  | .building ev b => (b.finish l ev s).endLine l ev

/-- The next access of a walk: a set is written, else a packet is judged, else the walk ends and the builder takes the
result. -/
def advanceWalk (l : Fin 4) (ev : AreaEvent) (w : Walk) (s : State) : State × LaneWork :=
  match w.sets, w.todo with
  | x :: xs, _ => (s.writeSet x.1 x.2, .walking ev { w with sets := xs })
  | [], (pos, p) :: ps =>
    let (s1, v, xs) := s.judgePacket l ev p
    (s1, .walking ev { w with sets := xs, todo := ps,
                              entries := w.entries ++ [{ start := pos, packet := p, verdict := v }] })
  | [], [] =>
    match
      (s.endWalk l ev w.failed).startBuild l ev { entries := w.entries, ending := w.ending, failed := w.failed } with
    | (s1, some b) => (s1, .building ev b)
    | (s1, none) => (s1.endLine l ev, .idle)

/-- The next access of a rebuilding: a set is read, else a packet is placed, else a group is dealt with, else the area
is placed. -/
def advanceBuild (l : Fin 4) (ev : AreaEvent) (b : Build) (s : State) : State × LaneWork :=
  match b.draft, b.groups with
  | some { group, left := k + 1, sets }, _ =>
    let (s1, x) := s.readEmbed (groupNo l group)
    (s1, .building ev { b with draft := some { group, left := k, sets := sets ++ [x] } })
  | some { group, left := 0, sets }, _ =>
    let (s1, ws) := s.placePacket l group b.n sets
    (s1, .building ev { b with used := b.used ++ ws, draft := none })
  | none, c :: cs =>
    match s.groupDeal l c b.n b.used.length with
    | .nothing => (s, .building ev { b with groups := cs })
    | .send m => (s, .building ev { b with draft := some { group := c, left := m, sets := [] }, groups := cs })
    | .defer => (s.deferSets (groupNo l c) ev b.n, .building ev { b with groups := cs })
  | none, [] => ((s.placeArea l b.used).endLine l ev, .idle)

/-- The next access. -/
def advance (l : Fin 4) (w : LaneWork) (s : State) : State × LaneWork :=
  match w with
  | .idle => (s, .idle)
  | .walking ev w => advanceWalk l ev w s
  | .building ev b => advanceBuild l ev b s

/-- The next `k` accesses. -/
def run (l : Fin 4) : Nat → LaneWork → State → State × LaneWork
  | 0, w, s => (s, w)
  | k + 1, w, s =>
    let (s1, w1) := w.advance l s
    run l k w1 s1

/-- The rebuilding of an area is in progress. -/
def isBuilding : LaneWork → Bool
  | .idle => false
  | .walking _ _ => false
  | .building _ _ => true

end LaneWork

/-- The next `events` accesses of `w` are taken, or all, and what is left of it is kept for the lane. -/
def State.workOn (s : State) (l : Fin 4) (w : LaneWork) (events : Option Nat) : State :=
  match events with
  | none => (w.finish l s).setWork l .idle
  | some k => (w.run l k s).1.setWork l (w.run l k s).2

/-- All that is left of the lane's last carriage-line event is taken. -/
def State.finishWork (s : State) (l : Fin 4) : State := s.workOn l (s.work.get l) none

/-- R136: a rebuilding in progress is finished, with the state and the stores as they stand. -/
def State.finishBuild (s : State) (l : Fin 4) : State :=
  if (s.work.get l).isBuilding then s.finishWork l else s

/-- R11: the carriage-line event of line `line` of lane `l`, with its area; the parser's and the builder's taking of it
are an event each. -/
def State.takeArea (s : State) (l : Fin 4) (line : BitVec 11) (area : List LaneWord) (events : Option Nat) : State :=
  (s.newEvent.newEvent.clearSeenLine l).workOn l (.start { line, stamp := s.ref.frameCount, no := s.eventNo } area)
    events

end Sys2Proof.Machine
end

