-- ==== Sys2Proof/Machine/Lanes.lean ====
section
/-! DEFINITION. The lane receivers and the relay from input lane to output lane (chapter 1). -/

namespace Sys2Proof.Machine

/-! ### The relay (R1, R2) -/

/-- The carriage area an output line presents. -/
def RelayLine.area (x : RelayLine) : List LaneWord := x.rebuilt.getD (x.words.take areaWords)

/-- The picture words an output line presents. -/
def RelayLine.picture (x : RelayLine) : List LaneWord := x.words.drop areaWords

/-- R1: the carriage area is complete. -/
def RelayLine.complete (x : RelayLine) : Bool := areaWords ≤ x.words.length

/-- The line that an output lane presents, if any. -/
def Relay.presented (r : Relay) : Option RelayLine := if r.shown then r.input else r.output

/-- R1, R2: a line start begins a new input line; the line it ends goes on waiting for its output, or being
presented. -/
def Relay.begin (r : Relay) (n : BitVec 11) : Relay :=
  let fresh : RelayLine := { number := n, words := [], rebuilt := none }
  match r.input with
  | none => { r with input := some fresh, shown := false }
  | some x =>
    if r.shown then { r with input := some fresh, shown := false, output := some x }
    else { r with input := some fresh, shown := false, waiting := r.waiting ++ [x] }

/-- R1: words received on the line in progress; words before the first line start after a reset belong to none. -/
def Relay.receive (r : Relay) (ws : List LaneWord) : Relay :=
  { r with input := r.input.map fun x => { x with words := x.words ++ ws } }

/-- R2: the output lane presents the next line whose strobe was received. With none it presents no line start. -/
def Relay.present (r : Relay) : Relay :=
  match r.waiting with
  | x :: rest => { r with output := some x, waiting := rest }
  | [] => if r.input.isSome then { r with shown := true } else r

/-- R1, R10: the line in progress is short if a line start came now. -/
def Relay.short (r : Relay) : Bool :=
  match r.input with
  | some x => !x.complete
  | none => false

/-! ### Notices of the lane receiver (R19) -/

/-- R19: LANE_STATE with the state before and after. -/
def laneStateNotice (l : Fin 4) (before after : LaneState) : Pending :=
  (.laneState, l.val, before.code + after.code * 4)

/-- R19: a change of lane state raises LANE_STATE. -/
def State.raiseLaneState (s : State) (l : Fin 4) (before after : LaneState) : State :=
  s.raiseAll [laneStateNotice l before after]

/-- R13, R19: the notices of a lane's exit from RUNNING to `after`: GROUP_STATE of the groups that were PRESENT, then
LANE_STATE (assumption 17). -/
def State.exitNotices (s : State) (l : Fin 4) (after : LaneState) : List Pending :=
  s.absentNotices l (fun _ => true) ++ [laneStateNotice l .running after]

/-! ### Leaving RUNNING (R13) -/

/-- R13: the blocks that work on the lane take its exit from RUNNING; the receiver's index returns to 0. -/
def State.leaveRunning (s : State) (l : Fin 4) : State :=
  ((s.parserStop l).builderStop l).updLane l fun r => { r with index := 0, inFrame := false }

/-- R7: the receiver in SEEKING, awaiting line 1 with no complete frame. -/
def Receiver.seek (r : Receiver) : Receiver := { r with state := .seeking, frames := 0, expected := none }

/-- R9, R10: the lane goes from RUNNING to SEEKING after FORMAT; the notices are those of event number `no`. -/
def State.leaveForFormat (s : State) (l : Fin 4) (no : Nat) : State :=
  (((s.updLane l fun r => { r with state := .seeking }).leaveRunning l).updLane l Receiver.seek).raiseAs no
    s.ref.frameCount (s.exitNotices l .seeking)

/-! ### Alignment (R7, R8) -/

/-- R7: a line start evaluated while awaiting line 1. A number other than 1 leaves the expected line awaiting line 1.
R7 does not say what becomes of a count of 1 then: DESIGN CHOICE, it stays (assumption 36). -/
def Receiver.awaitOne (r : Receiver) (n : Nat) : Receiver := { r with expected := if n = 1 then some 2 else none }

/-- R7: the alignment is broken: no complete frame, and the line start is evaluated as though awaiting line 1. -/
def Receiver.breakAlignment (r : Receiver) (n : Nat) : Receiver := { r with frames := 0 }.awaitOne n

/-- R7, R8: a line start in SEEKING is line L completing the second consecutive complete frame. -/
def Receiver.aligned (r : Receiver) (short : Bool) (n : Nat) : Bool :=
  !short && r.expected == some n && n == linesPerFrame r.fmt && r.frames == 1

/-- R7: a line start in SEEKING; `short` says that the line before it was short. -/
def Receiver.align (r : Receiver) (short : Bool) (n : Nat) : Receiver :=
  if short then r.breakAlignment n
  else
    match r.expected with
    | none => r.awaitOne n
    | some e =>
      if n = e then
        if n = linesPerFrame r.fmt then { r with frames := 1, expected := none }
        else { r with expected := some (n + 1) }
      else r.breakAlignment n

/-- R8, R117: the lane enters RUNNING; its builder awaits the first switch line. -/
def State.enterRunning (s : State) (l : Fin 4) : State :=
  ((s.updLane l fun r =>
      { r with state := .running, frames := 0, expected := none, index := 0, timer := true,
               inFrame := false }).updBuilder l fun b => { b with phase := .awaiting }).raiseLaneState l .seeking
    .running

/-- R7, R8, R10: a line start in SEEKING; the loss timer runs from it. -/
def State.seekLine (s : State) (l : Fin 4) (short : Bool) (n : BitVec 11) : State :=
  if (s.lanes.get l).aligned short n.toNat then s.enterRunning l
  else s.updLane l fun r => { r.align short n.toNat with timer := true }

/-! ### Line events (R11) -/

/-- R11, R14, R131: the switch-line event. The builder and the track map take it in either order. -/
def State.switchLine (s : State) (l : Fin 4) (builderFirst : Bool) : State :=
  if builderFirst then (s.builderSwitchLine l).boundary (laneDomain l)
  else (s.boundary (laneDomain l)).builderSwitchLine l

/-- R1: words arrive on the line in progress of lane `l`. -/
def State.receive (s : State) (l : Fin 4) (ws : List LaneWord) : State := s.updRelay l fun r => r.receive ws

/-- R11: the words `ws` bring the 280th word of a carriage line of a RUNNING lane that passed R9: its line number and
its area. On any other line nothing is raised (R4). -/
def State.areaEvent? (s : State) (l : Fin 4) (ws : List LaneWord) : Option (BitVec 11 × List LaneWord) :=
  match (s.relays.get l).input with
  | none => none
  | some x =>
    if x.words.length < areaWords ∧ areaWords ≤ (x.words ++ ws).length ∧ (s.lanes.get l).state = .running
        ∧ (s.lanes.get l).inFrame ∧ isCarriageLine x.number then
      some (x.number, (x.words ++ ws).take areaWords)
    else none

/-- R1, R11: words arrive that a line start ends; an event that they raise is taken whole. -/
def State.receiveWords (s : State) (l : Fin 4) (ws : List LaneWord) : State :=
  match s.areaEvent? l ws with
  | some (n, area) => (s.receive l ws).takeArea l n area none
  | none => s.receive l ws

/-! ### Line starts (R6 to R10) -/

/-- R9: the line start in RUNNING that the receiver expects. -/
def Receiver.expects (r : Receiver) (n : Nat) : Bool := n == r.expected.getD 1

/-- R9: a line start in sequence in RUNNING becomes the current line. -/
def Receiver.inSequence (r : Receiver) (n : Nat) : Receiver :=
  { r with expected := if n < linesPerFrame r.fmt then some (n + 1) else none, timer := true, inFrame := true }

/-- The number of the line in progress, if it is short (R10). -/
def Relay.shortLine (r : Relay) : Option (BitVec 11) := if r.short then r.input.map RelayLine.number else none

/-- R9, R10: the line number that FORMAT carries, if a line start `n` moves lane `l` out of RUNNING: the short line's,
else the one received out of sequence (assumption 6). -/
def State.formatLine? (s : State) (l : Fin 4) (n : BitVec 11) : Option (BitVec 11) :=
  if (s.lanes.get l).state = .running then
    match (s.relays.get l).shortLine with
    | some m => some m
    | none => if (s.lanes.get l).expects n.toNat then none else some n
  else none

/-- R1, R5: the strobe begins a line on the relay and its number is recorded. -/
def State.beginLine (s : State) (l : Fin 4) (n : BitVec 11) : State :=
  (s.updRelay l fun r => r.begin n).updLane l fun r => { r with lastLine := some n }

/-- R9, R11: a line start in sequence in RUNNING. -/
def State.runLine (s : State) (l : Fin 4) (n : BitVec 11) (builderFirst : Bool) : State :=
  let s1 := s.updLane l fun r => r.inSequence n.toNat
  if isSwitchLine n then s1.switchLine l builderFirst else s1

/-- R1, R5 to R10: a line-start strobe with number `n` on lane `l`. What is left of the last carriage-line event of a
RUNNING lane is taken before the strobe acts, but a FORMAT that the strobe brings is offered first: of the offers of the
receiver and of the parser either may be first (R184, assumption 32). -/
def State.strobe (s : State) (l : Fin 4) (n : BitVec 11) (builderFirst : Bool) : State :=
  match s.formatLine? l n with
  | some m =>
    ((((s.newEvent.offerFault l .format { line := m, stamp := s.ref.frameCount, no := s.eventNo }).finishWork
      l).beginLine l n).leaveForFormat l s.eventNo).seekLine l false n
  | none =>
    match (s.lanes.get l).state with
    | .unset => s.beginLine l n
    | .seeking => (s.beginLine l n).seekLine l (s.relays.get l).short n
    | .running => ((s.finishWork l).beginLine l n).runLine l n builderFirst
    | .lost => (((s.beginLine l n).updLane l Receiver.seek).raiseLaneState l .lost .seeking).seekLine l false n

/-! ### The loss timer (R10) -/

/-- R10: the loss timer of lane `l` expires. LOSS is offered before what is left of the lane's last carriage-line event
is taken (R184, assumption 32). -/
def State.expireTimer (s : State) (l : Fin 4) : State :=
  let r := s.lanes.get l
  if r.timer then
    match r.state with
    | .running =>
      let s1 := (s.newEvent.offerFault l .loss
        { line := r.lastLine.getD 0, stamp := s.ref.frameCount, no := s.eventNo }).finishWork l
      ((s1.updLane l fun r => { r with state := .lost, expected := none, timer := false }).leaveRunning l).raiseAs
        s.eventNo s.ref.frameCount (s1.exitNotices l .lost)
    | .seeking => s.updLane l fun r => { r with frames := 0, expected := none, timer := false }
    | .unset => s
    | .lost => s
  else s

/-! ### LANE_FORMAT (R15) and PATH_RESET (R5, R18) -/

/-- R15: an accepted LANE_FORMAT of lane `l` with format `f`. What is left of the lane's last carriage-line event is
taken before it (assumption 32). -/
def State.setLaneFormat (s : State) (l : Fin 4) (f : Fin 8) : State :=
  let seek (r : Receiver) : Receiver := { r.seek with format := some f, index := 0, timer := false, inFrame := false }
  if (s.lanes.get l).state = .running then
    let s1 := s.finishWork l
    (((s1.updLane l fun r => { r with state := .seeking }).leaveRunning l).updLane l seek).raiseAll
      (s1.exitNotices l .seeking)
  else (s.updLane l seek).raiseLaneState l (s.lanes.get l).state .seeking

/-- R5, R18: the lane receivers take PATH_RESET. -/
def State.lanesReset (s : State) : State :=
  { s with lanes := s.lanes.map fun r => { r with accepted := 0, checksum := 0, malformed := 0, gaps := 0 } }

end Sys2Proof.Machine
end

