-- ==== Sys2Proof/Machine/Reference.lean ====
section
/-! DEFINITION. The reference unit and fallback control (chapter 8). -/

namespace Sys2Proof.Machine

/-! ### The word clock (R154, R155) -/

/-- How an interval that an edge closes is judged (R154), by its length in picoseconds. -/
inductive Judgement where
  | good
  | bad
  | missing
deriving DecidableEq, Repr

/-- R154: good from 20.0 us to 21.7 us, missing from 31.25 us, bad otherwise. -/
def judge (interval : Nat) : Judgement :=
  if 20000000 ≤ interval ∧ interval ≤ 21700000 then .good
  else if interval < 31250000 then .bad
  else .missing

/-- R154, R155: a good interval. -/
def RefUnit.goodInterval (r : RefUnit) (interval : Nat) : RefUnit :=
  let recent := (interval :: r.recent).take 480
  match r.state with
  | .locked => { r with nonGood := 0, recent := recent, period480 := recent.sum }
  | _ => { r with good := r.good + 1, recent := recent }

/-- R155: a bad or a missing interval. -/
def RefUnit.nonGoodInterval (r : RefUnit) : RefUnit :=
  match r.state with
  | .locked => { r with nonGood := r.nonGood + 1 }
  | _ => { r with good := 0 }

/-- R155: the good-interval count has reached 480 out of LOCKED. -/
def RefUnit.lockDue (r : RefUnit) : Bool := r.state != .locked && 480 ≤ r.good

/-- R155: the non-good count has reached 2 in LOCKED. -/
def RefUnit.holdoverDue (r : RefUnit) : Bool := r.state == .locked && 2 ≤ r.nonGood

/-- R155: the reference unit enters LOCKED with the mean of the 480 intervals. -/
def RefUnit.lock (r : RefUnit) : RefUnit :=
  { r with state := .locked, good := 0, nonGood := 0, period480 := r.recent.sum }

/-- R155: the reference unit enters HOLDOVER. -/
def RefUnit.hold (r : RefUnit) : RefUnit := { r with state := .holdover, good := 0, nonGood := 0 }

/-- R155: REF_STATE with subject 0 and the reference states before and after. -/
def State.raiseRefState (s : State) (before after : RefState) : State :=
  s.raise .refState 0 (before.code + after.code * 4)

/-- R155: the entry into LOCKED, if it is due. -/
def State.enterLock (s : State) : State :=
  if s.ref.lockDue then (s.updRef RefUnit.lock).raiseRefState s.ref.state .locked else s

/-- R155: the entry into HOLDOVER, if it is due. -/
def State.enterHoldover (s : State) : State :=
  if s.ref.holdoverDue then (s.updRef RefUnit.hold).raiseRefState s.ref.state .holdover else s

/-- A change of reference state that the last interval brought about and that has not been taken (assumption 8). -/
def State.settleRef (s : State) : State := s.enterLock.enterHoldover

/-- R154: an interval judged good. -/
def State.judgeGood (s : State) (interval : Nat) : State := s.settleRef.updRef fun r => r.goodInterval interval

/-- R154: an interval judged bad or missing. -/
def State.judgeNonGood (s : State) : State := s.settleRef.updRef RefUnit.nonGoodInterval

/-- R154: the judgements an edge makes on the interval it closes. An interval of 31.25 us or more had been judged
missing on the way, once more for each further 20.83 us; more than two such judgements in a row change nothing more
(assumption 12). -/
def State.closeInterval (s : State) (interval : Nat) : State :=
  match judge interval with
  | .good => s.judgeGood interval
  | .bad => s.judgeNonGood
  | .missing => if interval < 31250000 + 20830000 then s.judgeNonGood else s.judgeNonGood.judgeNonGood

/-- R154: a rising WCK edge. -/
def State.wckEdge (s : State) (interval : Nat) : State :=
  (if s.ref.intervalOpen then s.closeInterval interval else s).updRef fun r =>
    { r with edgeSeen := true, intervalOpen := true }

/-- R154: an interval is judged missing; the next edge opens an interval and closes none. None is before the first
edge. -/
def State.wckMissing (s : State) : State :=
  if s.ref.edgeSeen then s.judgeNonGood.updRef fun r => { r with intervalOpen := false } else s

/-- R156: the period of the house tick generator, 480-fold, in picoseconds. -/
def RefUnit.tickPeriod480 (r : RefUnit) : Nat :=
  match r.state with
  | .absent => 10000000000
  | _ => r.period480

/-- R161: the deviation of the measured period in ppm; a fraction of a ppm is rounded by the free value of assumption
13. -/
def periodDeviation (period480 : Nat) : Int :=
  let d : Int := (period480 : Int) - 10000000000
  if d % 10000 = 0 then d / 10000 else d / 10000 + (if Config.ppmRoundsUp period480 then 1 else 0)

/-! ### House frames (R157 to R160) -/

/-- R157: the number of ticks into the frame at which a tick takes a boundary. -/
def RefUnit.frameEnd (r : RefUnit) : Nat := houseFrameLength r.format r.k + (if r.hfp then 48 else 0)

/-- R157: a house tick raises t and compares it; the boundary itself is the next step (assumption 8). -/
def RefUnit.tick (r : RefUnit) : RefUnit := { r with t := r.t + 1, boundaryDue := decide (r.frameEnd ≤ r.t + 1) }

/-- R157, R159: k advances, t returns to 0 and the house frame count advances. -/
def RefUnit.newFrame (r : RefUnit) : RefUnit :=
  { r with
    k := if r.k < framesPerSequence r.format then r.k + 1 else 1
    t := 0
    frameCount := r.frameCount + 1
    boundaryDue := false }

/-- R159: a house frame boundary, handed to the track map with the advanced count. -/
def State.frameBoundary (s : State) : State := (s.updRef RefUnit.newFrame).houseBoundary

/-- R158: a change of the HFP state, with REF_STATE of subject 1. -/
def State.setHfp (s : State) (present : Bool) : State :=
  if s.ref.hfp = present then s
  else (s.updRef fun r => { r with hfp := present }).raise .refState 1 (hfpCode s.ref.hfp + hfpCode present * 4)

/-- R157: the boundary that the last tick reached, if it is due; a frame without its pulse makes HFP ABSENT. -/
def State.settleBoundary (s : State) : State :=
  if s.ref.boundaryDue then (s.setHfp false).frameBoundary else s

/-- R158: a pulse on HFP, judged against t. -/
def State.hfpPulse (s : State) : State :=
  let s1 := s.settleBoundary
  if 480 ≤ s1.ref.t then s1.frameBoundary.setHfp true else s1.setHfp true

/-- R160: REF_FORMAT with format `f`. A boundary that the last tick reached is taken before it. -/
def State.setHouseFormat (s : State) (f : Fin 8) : State :=
  s.settleBoundary.updRef fun r => { r with format := f, k := 1 }

/-! ### Fallback control (R162 to R164) -/

/-- R162: a trip is handed to the four builders. -/
def State.tripAll (s : State) : State := four.foldl State.tripLane s

/-- R162: a release is handed to the four builders. -/
def State.releaseAll (s : State) : State := four.foldl State.releaseLane s

/-- R162: fallback control is in a state. -/
def State.setFallback (s : State) (after : FallbackState) : State :=
  { s with fallback := { s.fallback with state := after } }

/-- R162: FALLBACK_STATE with the states before and after; `cause` is FBK 0, ARM 1 or DISARM 2, `line` the calling
line's code or 0. -/
def fallbackNotice (before after : FallbackState) (cause line : Nat) : Pending :=
  (.fallbackState, 0, before.code + after.code * 4 + cause * 16 + line * 64)

/-- R162: the entry into TRIPPED. -/
def State.trip (s : State) : State := (s.setFallback .tripped).tripAll

/-- R162: FBK becomes asserted. -/
def State.assertFbk (s : State) : State :=
  let s1 := { s with fallback := { s.fallback with fbk := true } }
  match s.fallback.state with
  | .armed => s1.trip.raiseAll [fallbackNotice .armed .tripped 0 0]
  | .disarmed => s1
  | .tripped => s1

/-- R162: FBK becomes released. -/
def State.releaseFbk (s : State) : State := { s with fallback := { s.fallback with fbk := false } }

/-- R162: FALLBACK_ARM from line `l`; with FBK asserted ARMED is passed through at once, with its notice. -/
def State.armFallback (s : State) (l : Line) : State :=
  match s.fallback.state with
  | .disarmed =>
    if s.fallback.fbk then
      s.trip.raiseAll [fallbackNotice .disarmed .armed 1 (lineCode l), fallbackNotice .armed .tripped 0 0]
    else (s.setFallback .armed).raiseAll [fallbackNotice .disarmed .armed 1 (lineCode l)]
  | .armed => s
  | .tripped => s

/-- R162: FALLBACK_DISARM from line `l`. -/
def State.disarmFallback (s : State) (l : Line) : State :=
  match s.fallback.state with
  | .disarmed => s
  | .armed => (s.setFallback .disarmed).raiseAll [fallbackNotice .armed .disarmed 2 (lineCode l)]
  | .tripped => (s.setFallback .disarmed).releaseAll.raiseAll [fallbackNotice .tripped .disarmed 2 (lineCode l)]

end Sys2Proof.Machine
end

