-- ==== Sys2Proof/Machine/HouseCommands.lean ====
section
/-! DEFINITION. The commands of the reference unit and of fallback control, and PATH_RESET (chapter 8). -/

namespace Sys2Proof.Machine

/-- R160: REF_FORMAT with its parameters. -/
def refFormatAnswer (params : List Byte) (s : State) : Answer :=
  match param1? 8 params with
  | some f => (s.setHouseFormat f, .ok, [])
  | none => s.invalid

/-- REF_FORMAT (R160). -/
def execRefFormat (line : Line) (s : State) : Host.Outcome State Fault Refusal :=
  .next (s.execute line 0x22 refFormatAnswer)

/-- R161: the payload of REF_STATUS. Bits 4..7 of the flags byte are 0 (assumption 34). How the three bytes of the
deviation carry its sign is left open: DESIGN CHOICE, two's complement of 24 bits (assumption 38). -/
def State.refPayload (s : State) : List Byte :=
  let r := s.ref
  byte r.state.code ++ be16 (if r.state = .locked then 0 else r.good)
    ++ be24 (BitVec.ofInt 24 (periodDeviation r.period480)).toNat ++ byte r.format.val ++ byte r.k ++ be16 r.t
    ++ be16 r.frameCount.toNat ++ byte (bit r.hfp + bit s.fallback.fbk * 2 + s.fallback.state.code * 4)

/-- REF_STATUS (R161). -/
def execRefStatus (line : Line) (s : State) : Host.Outcome State Fault Refusal :=
  .next (s.execute line 0x23 fun _ s => (s, .ok, s.refPayload))

/-- R163: FALLBACK_ARM, answered with the fallback state after it. -/
def fallbackArmAnswer (line : Line) (s : State) : Answer :=
  (s.armFallback line, .ok, byte (s.armFallback line).fallback.state.code)

/-- FALLBACK_ARM (R163). -/
def execFallbackArm (line : Line) (s : State) : Host.Outcome State Fault Refusal :=
  .next (s.execute line 0x50 fun _ s => fallbackArmAnswer line s)

/-- R163: FALLBACK_DISARM, answered with the fallback state after it. -/
def fallbackDisarmAnswer (line : Line) (s : State) : Answer :=
  (s.disarmFallback line, .ok, byte (s.disarmFallback line).fallback.state.code)

/-- FALLBACK_DISARM (R163). -/
def execFallbackDisarm (line : Line) (s : State) : Host.Outcome State Fault Refusal :=
  .next (s.execute line 0x51 fun _ s => fallbackDisarmAnswer line s)

/-- R136: every rebuilding in progress is finished. -/
def State.finishBuilds (s : State) : State := four.foldl State.finishBuild s

/-- R165, Table 8-5: one block takes the reset. A rebuilding in progress is finished before its builder and its stores
take it, and a line after it finds them all reset (R136); a walk in progress goes on after it (R32). -/
def State.resetBlock (s : State) (b : ResetBlock) : State :=
  match b with
  | .lanes => s.lanesReset
  | .strip => s.stripReset
  | .catalogue => s.catalogueReset
  | .trackMap => s.takesReset
  | .engine => s.engineReset
  | .embed => s.finishBuilds.embedReset
  | .monitors => s.monitorsReset

/-- R165: the reset is handed to a block that has not taken it yet. -/
def State.handReset (s : State) (b : ResetBlock) : State :=
  if b ∈ s.handed then s else (s.resetBlock b).setHanded (b :: s.handed)

/-- The blocks of Table 8-5 that have something to clear, in the order of the table. -/
def allBlocks : List ResetBlock := [.lanes, .strip, .catalogue, .trackMap, .engine, .embed, .monitors]

/-- R165: the reset has been handed to every block. -/
def State.resetDone (s : State) : Bool := allBlocks.all fun b => s.handed.contains b

/-- R165: the PATH_RESET under execution is handed to `blocks`, one after another. When every block has taken it,
PATH_RESET_DONE is raised and the answer is OK; until then there is no answer. -/
def pathResetAnswer (blocks : List ResetBlock) (s : State) : State × Option (Status × List Byte) :=
  let s1 := blocks.foldl State.handReset s
  if s1.resetDone then ((s1.setHanded []).raise .pathResetDone 0 0, some (.ok, [])) else (s1, none)

/-- PATH_RESET (R165). -/
def execPathReset (handing : Handing) (s : State) : Host.Outcome State Fault Refusal :=
  .next (s.executePart handing.line 0x52 fun _ s => pathResetAnswer handing.blocks s)

end Sys2Proof.Machine
end

