-- ==== Sys2Proof/Machine/HouseEvents.lean ====
section
/-! DEFINITION. The meanings of HOUSE_TICK and of the events that its computations bring about (chapters 2, 5, 7 and
8). -/

namespace Sys2Proof.Machine

/-- What earlier ticks completed and no step of its own has taken yet: channel-status blocks, crossfades, soft
entries, windows and the house frame boundary (assumption 8). -/
def State.settleTick (s : State) : State :=
  let s1 := s.completeBlocks
  let s2 := { s1 with engine := s1.engine.map fun st : DestState => st.endCrossfade.endSoftEntry }
  s2.completeWindows.settleBoundary

/-- R33 to R37: the records that the catalogue appends at a tick. -/
def State.tickRecords (s : State) (slots : Bank (BitVec 32) 32) : Bank Record 98 :=
  .tab (tickRecord s.stripReads slots s.serial.inStarted s.tone)

/-- R53, R54, R116: the notices of a tick, one list for each event: the reads of the strip stores, the engine's
computation, the writes of the embed stores. -/
def State.tickNotices (s : State) (outs : Bank TickOut 96) : List (List Pending) :=
  (List.finRange 16).map s.stripNotices ++ [engineNotices outs] ++ (List.finRange 16).map s.embedNotices

/-- R179: each of several events raises its notices. -/
def State.raiseEvents (s : State) (es : List (List Pending)) : State := es.foldl State.raiseAll s

/-- R114, R137, R138: the serial output ports take the tick. -/
def State.tickSerial (s : State) (outs : Bank TickOut 96) : State :=
  { s with serial := s.serial.tick (localOutputs outs) }

/-- R33, R38, R88, R89, R102, R113, R114: a tick at the catalogue, the engine, the embed stores, the serial ports and
the monitors. The engine reads the histories as they stand before the tick's appends (00_scope.md, section 2). What the
blocks do is the same in every order of the three. -/
def State.audioTick (s : State) (slots : Bank (BitVec 32) 32) (flagsFirst : List (Fin 96)) : State :=
  let recs := s.tickRecords slots
  let s1 := (s.readStrips.stepTrackers recs).completeFlags flagsFirst
  let outs := s1.destTicks
  (((((s1.applyTicks outs).appendRecords recs).writeEmbeds outs).tickSerial outs).monitorTicks outs).raiseEvents
    (s.tickNotices outs)

/-- HOUSE_TICK (R156). `boundaryFirst`: the reference unit counts the tick, and takes a boundary it reaches, before
the engine computes (R76); otherwise the boundary waits for its own step (assumptions 8 and 9). -/
def execHouseTick (slots : Bank (BitVec 32) 32) (flagsFirst : List (Fin 96)) (boundaryFirst : Bool) (s : State) :
    Host.Outcome State Fault Refusal :=
  let s1 := s.settleTick
  .next <|
    if boundaryFirst then ((s1.updRef RefUnit.tick).settleBoundary).audioTick slots flagsFirst
    else (s1.audioTick slots flagsFirst).updRef RefUnit.tick

/-- HOUSE_FRAME_BOUNDARY (R157): the boundary that the last tick reached. -/
def execHouseFrameBoundary (s : State) : Host.Outcome State Fault Refusal :=
  .next s.settleBoundary

/-- CROSSFADE_END (R95). -/
def execCrossfadeEnd (dest : Fin 96) (s : State) : Host.Outcome State Fault Refusal :=
  .next (s.updDest dest DestState.endCrossfade)

/-- SOFT_ENTRY_COMPLETE (R97). -/
def execSoftEntryComplete (dest : Fin 96) (s : State) : Host.Outcome State Fault Refusal :=
  .next (s.updDest dest DestState.endSoftEntry)

/-- WINDOW_COMPLETE (R143 to R146). -/
def execWindowComplete (s : State) : Host.Outcome State Fault Refusal :=
  .next s.completeWindows

/-- CHANNEL_STATUS_BLOCK_COMPLETE (R38, R39). -/
def execChannelStatusBlockComplete (source : Fin 96) (s : State) : Host.Outcome State Fault Refusal :=
  .next (s.updTracker source Tracker.complete)

end Sys2Proof.Machine
end

