-- ==== Sys2Proof/Machine/LaneCommands.lean ====
section
/-! DEFINITION. The commands of the lane receivers and of their fault captures: LANE_FORMAT, LANE_STATUS (chapter 1),
FAULT_READ and FAULT_CLEAR (chapter 10). -/

namespace Sys2Proof.Machine

/-- R15: LANE_FORMAT with its parameters. -/
def laneFormatAnswer (params : List Byte) (s : State) : Answer :=
  match params with
  | [l, f] =>
    match below? 4 l, below? 8 f with
    | some l, some f => (s.setLaneFormat l f, .ok, [])
    | _, _ => s.invalid
  | _ => s.invalid

/-- LANE_FORMAT (R15). -/
def execLaneFormat (line : Line) (s : State) : Host.Outcome State Fault Refusal :=
  .next (s.execute line 0x20 laneFormatAnswer)

/-- R17: the alignment byte: the complete-frames count in bit 0 and "awaiting line 1" in bit 1. -/
def Receiver.alignmentByte (r : Receiver) : Nat :=
  if r.state = .seeking then r.frames + bit r.expected.isNone * 2 else 2

/-- R17: the format number, 0xFF in UNSET. -/
def Receiver.formatCode (r : Receiver) : Nat :=
  match r.format with
  | some f => f.val
  | none => 0xFF

/-- R17: the last line number received, 0xFFFF if none was. -/
def Receiver.lastLineCode (r : Receiver) : Nat :=
  match r.lastLine with
  | some n => n.toNat
  | none => 0xFFFF

/-- R17: the presence byte, groups 1..4 in bits 0..3. -/
def State.presenceByte (s : State) (l : Fin 4) : Nat :=
  bit (s.groups.get (groupNo l 0)).present + bit (s.groups.get (groupNo l 1)).present * 2
    + bit (s.groups.get (groupNo l 2)).present * 4 + bit (s.groups.get (groupNo l 3)).present * 8

/-- R17: the payload of LANE_STATUS. Bits 2..7 of the alignment byte and bits 4..7 of the presence byte are 0
(assumption 34). -/
def State.lanePayload (s : State) (l : Fin 4) : List Byte :=
  let r := s.lanes.get l
  byte l.val ++ byte r.state.code ++ byte r.formatCode ++ be16 r.lastLineCode ++ byte r.alignmentByte
    ++ byte (if r.state = .running then r.index else 0) ++ byte (s.presenceByte l)
    ++ be16 r.accepted.toNat ++ be16 r.checksum.toNat ++ be16 r.malformed.toNat ++ be16 r.gaps.toNat

/-- R17: LANE_STATUS with its parameters. -/
def laneStatusAnswer (params : List Byte) (s : State) : Answer :=
  match param1? 4 params with
  | some l => (s, .ok, s.lanePayload l)
  | none => s.invalid

/-- LANE_STATUS (R17). -/
def execLaneStatus (line : Line) (s : State) : Host.Outcome State Fault Refusal :=
  .next (s.execute line 0x21 laneStatusAnswer)

/-- R186: the payload of FAULT_READ; an empty record has no line number (assumption 20). -/
def capturePayload : Option Capture → List Byte
  | some c =>
    byte 1 ++ byte c.kind.code ++ byte c.kind.severity ++ be16 c.line.toNat ++ be16 c.stamp.toNat ++ [c.further]
  | none => byte 0 ++ byte 0 ++ byte 0 ++ be16 0xFFFF ++ be16 0 ++ byte 0

/-- R186: FAULT_READ with its parameters. -/
def faultReadAnswer (params : List Byte) (s : State) : Answer :=
  match param1? 4 params with
  | some l => (s, .ok, capturePayload (s.faults.get l))
  | none => s.invalid

/-- FAULT_READ (R186). -/
def execFaultRead (line : Line) (s : State) : Host.Outcome State Fault Refusal :=
  .next (s.execute line 0x48 faultReadAnswer)

/-- R186: FAULT_CLEAR with its parameters. -/
def faultClearAnswer (params : List Byte) (s : State) : Answer :=
  match param1? 4 params with
  | some l => (s.setFault l none, .ok, [])
  | none => s.invalid

/-- FAULT_CLEAR (R186). -/
def execFaultClear (line : Line) (s : State) : Host.Outcome State Fault Refusal :=
  .next (s.execute line 0x49 faultClearAnswer)

end Sys2Proof.Machine
end

