-- ==== Sys2Proof/Machine/LaneEvents.lean ====
section
/-! DEFINITION. The meanings of PIN_RESET and of the events on the lanes (chapter 1). -/

namespace Sys2Proof.Machine

/-- PIN_RESET (R5 and every rule's "After pin reset"). The queue, the turns of the event queues and the counter of free
values are the model's own and go on (assumption 27). -/
def execPinReset (fbk selA selB selC : Bool) (s : State) : Host.Outcome State Fault Refusal :=
  .next (.afterReset fbk selA selB selC (s.events.map EventQueue.turns) s.free s.pending)

/-- LINE_START (R1, R5 to R14). The words that belong to the line it ends come first. -/
def execLineStart (lane : Fin 4) (number : BitVec 11) (words : List LaneWord) (builderFirst : Bool) (s : State) :
    Host.Outcome State Fault Refusal :=
  .next ((s.receiveWords lane words).strobe lane number builderFirst)

/-- OUTPUT_LINE_START (R2). -/
def execOutputLineStart (lane : Fin 4) (s : State) : Host.Outcome State Fault Refusal :=
  .next (s.updRelay lane Relay.present)

/-- CARRIAGE_LINE (R11): words up to the 280th of the line in progress arrive, and the accesses of the event they raise
are taken, all or the next `events` of them. With words that raise no event, accesses of the lane's last event go on
(assumptions 4, 5 and 11). -/
def execCarriageLine (lane : Fin 4) (arrival : Arrival) (s : State) : Host.Outcome State Fault Refusal :=
  .next <|
    match s.areaEvent? lane arrival.words with
    | some (n, area) => (s.receive lane arrival.words).takeArea lane n area arrival.events
    | none => (s.receive lane arrival.words).workOn lane (s.work.get lane) arrival.events

/-- LOSS_TIMER_EXPIRY (R10). -/
def execLossTimerExpiry (lane : Fin 4) (s : State) : Host.Outcome State Fault Refusal :=
  .next (s.expireTimer lane)

end Sys2Proof.Machine
end

