-- ==== Sys2Proof/Machine/MapCommands.lean ====
section
/-! DEFINITION. The commands of the track map (chapter 4): MAP_STAGE, MAP_DROP, MAP_TAKE, MAP_READ, PROTECT, RELEASE,
FORCE_RELEASE, PLAN_STAGE and PLAN_READ. -/

namespace Sys2Proof.Machine

/-! ### Staging (R61, R62) -/

/-- The status of an accepted stage command: REPLACED if a record was held. -/
def stageStatus (held : Bool) : Status := if held then .replaced else .ok

/-- R61: the second check of MAP_STAGE and the placing of the record. -/
def State.stageEntry (s : State) (line : Line) (d : Fin 96) (tag : BitVec 4) (e : Entry) : Answer :=
  match s.barredBy (destItem d) line with
  | some o => s.protectedBy o
  | none =>
    ({ s with stagedDest := s.stagedDest.set d (some { body := e, tag := tag, stager := line }) },
      stageStatus (s.stagedDest.get d).isSome, [])

/-- R62: the second check of PLAN_STAGE and the placing of the record. -/
def State.stageMode (s : State) (line : Line) (g : Fin 16) (tag : BitVec 4) (m : PlanMode) : Answer :=
  match s.barredBy (planItem g) line with
  | some o => s.protectedBy o
  | none =>
    ({ s with stagedPlan := s.stagedPlan.set g (some { body := m, tag := tag, stager := line }) },
      stageStatus (s.stagedPlan.get g).isSome, [])

/-- R61: MAP_STAGE with its parameters. -/
def mapStageAnswer (line : Line) (params : List Byte) (s : State) : Answer :=
  match params with
  | d :: t :: e =>
    match below? 96 d, tag? t, entry? e with
    | some d, some t, some e => s.stageEntry line d t e
    | _, _, _ => s.invalid
  | _ => s.invalid

/-- MAP_STAGE (R61). -/
def execMapStage (line : Line) (s : State) : Host.Outcome State Fault Refusal :=
  .next (s.execute line 0x10 (mapStageAnswer line))

/-- R62: PLAN_STAGE with its parameters. -/
def planStageAnswer (line : Line) (params : List Byte) (s : State) : Answer :=
  match params with
  | [i, t, m] =>
    match planGroup? i, tag? t, PlanMode.ofCode? m with
    | some g, some t, some m => s.stageMode line g t m
    | _, _, _ => s.invalid
  | _ => s.invalid

/-- PLAN_STAGE (R62). -/
def execPlanStage (line : Line) (s : State) : Host.Outcome State Fault Refusal :=
  .next (s.execute line 0x18 (planStageAnswer line))

/-! ### MAP_DROP (R63) -/

/-- Whether the staged table holds a record for an item. -/
def State.isStaged (s : State) (it : Fin 112) : Bool :=
  if h : it.val < 96 then (s.stagedDest.get ⟨it.val, h⟩).isSome
  else (s.stagedPlan.get ⟨it.val - 96, by omega⟩).isSome

/-- R63: the staged table without the record of an item. -/
def State.unstage (s : State) (it : Fin 112) : State :=
  if h : it.val < 96 then { s with stagedDest := s.stagedDest.set ⟨it.val, h⟩ none }
  else { s with stagedPlan := s.stagedPlan.set ⟨it.val - 96, by omega⟩ none }

/-- R63: MAP_DROP with its parameters. -/
def mapDropAnswer (line : Line) (params : List Byte) (s : State) : Answer :=
  match param1? 112 params with
  | some it =>
    match s.barredBy it line with
    | some o => s.protectedBy o
    | none => (s.unstage it, .ok, byte (bit (s.isStaged it)))
  | none => s.invalid

/-- MAP_DROP (R63). -/
def execMapDrop (line : Line) (s : State) : Host.Outcome State Fault Refusal :=
  .next (s.execute line 0x11 (mapDropAnswer line))

/-! ### MAP_TAKE (R66, R67) -/

/-- R66: MAP_TAKE with its parameters. -/
def mapTakeAnswer (params : List Byte) (s : State) : Answer :=
  match params with
  | [t] =>
    match tag? t with
    | some tag =>
      (s.takeTag tag, .ok, byte (s.taggedItems tag).length ++ byte (s.supersedes (s.taggedItems tag)))
    | none => s.invalid
  | _ => s.invalid

/-- MAP_TAKE (R66). -/
def execMapTake (line : Line) (s : State) : Host.Outcome State Fault Refusal :=
  .next (s.execute line 0x12 mapTakeAnswer)

/-! ### MAP_READ and PLAN_READ (R86, R87) -/

/-- The take item held for an item. -/
def State.takeItem (s : State) (it : Fin 112) : Option TakeItem := findItem (s.takes.get (itemDomain it)) it

/-- R86: the payload of MAP_READ. Bits 3..7 of the flags byte, and the hold mark of a staged record's tag byte, are 0
(assumption 34). -/
def State.mapPayload (s : State) (d : Fin 96) : List Byte :=
  byte d.val ++ entryBytes (s.live.get d) ++ stagedEntryBytes (s.stagedDest.get d)
    ++ takeEntryBytes (s.takeItem (destItem d)) ++ be16 (s.engine.get d).remaining ++ be16 (s.engine.get d).e
    ++ byte (ownerCode (s.owners.get (destItem d)) + bit (s.engine.get d).blocked * 4)

/-- R86: MAP_READ with its parameters. -/
def mapReadAnswer (params : List Byte) (s : State) : Answer :=
  match param1? 96 params with
  | some d => (s, .ok, s.mapPayload d)
  | none => s.invalid

/-- MAP_READ (R86). -/
def execMapRead (line : Line) (s : State) : Host.Outcome State Fault Refusal :=
  .next (s.execute line 0x13 mapReadAnswer)

/-- R87: the payload of PLAN_READ. The hold mark of a staged record's tag byte is 0 (assumption 34). -/
def State.planPayload (s : State) (g : Fin 16) : List Byte :=
  byte (96 + g.val) ++ byte (s.plan.get g).code ++ stagedModeBytes (s.stagedPlan.get g)
    ++ takeModeBytes (s.takeItem (planItem g)) ++ byte (ownerCode (s.owners.get (planItem g)))

/-- R87: PLAN_READ with its parameters. -/
def planReadAnswer (params : List Byte) (s : State) : Answer :=
  match params with
  | [i] =>
    match planGroup? i with
    | some g => (s, .ok, s.planPayload g)
    | none => s.invalid
  | _ => s.invalid

/-- PLAN_READ (R87). -/
def execPlanRead (line : Line) (s : State) : Host.Outcome State Fault Refusal :=
  .next (s.execute line 0x19 planReadAnswer)

/-! ### Protection (R81 to R83) -/

/-- R81: PROTECT with its parameters. -/
def protectAnswer (line : Line) (params : List Byte) (s : State) : Answer :=
  match param1? 112 params with
  | some it =>
    match s.barredBy it line with
    | some o => s.protectedBy o
    | none => (s.setOwner it (some line), .ok, byte (lineCode line))
  | none => s.invalid

/-- PROTECT (R81). -/
def execProtect (line : Line) (s : State) : Host.Outcome State Fault Refusal :=
  .next (s.execute line 0x14 (protectAnswer line))

/-- R82: RELEASE with its parameters. -/
def releaseAnswer (line : Line) (params : List Byte) (s : State) : Answer :=
  match param1? 112 params with
  | some it => if s.owners.get it = some line then (s.setOwner it none, .ok, []) else (s, .notOwner, [])
  | none => s.invalid

/-- RELEASE (R82). -/
def execRelease (line : Line) (s : State) : Host.Outcome State Fault Refusal :=
  .next (s.execute line 0x15 (releaseAnswer line))

/-- R83: the PROTECT_FORCED notices of the owned items among `its`, in their order. -/
def State.forcedNotices (s : State) (its : List (Fin 112)) : List Pending :=
  its.filterMap fun it => (s.owners.get it).map fun o => (.protectForced, it.val, lineCode o)

/-- R83: items are freed, one event with its notices. -/
def State.freeItems (s : State) (its : List (Fin 112)) : State :=
  (its.foldl (fun s it => s.setOwner it none) s).raiseAll (s.forcedNotices its)

/-- R83: the number of owned items among `its`. -/
def State.ownedAmong (s : State) (its : List (Fin 112)) : Nat :=
  (its.filter fun it => (s.owners.get it).isSome).length

/-- R83: the items that FORCE_RELEASE names: one, or all for 0xFF, in ascending order. -/
def forcedItems? : List Byte → Option (List (Fin 112))
  | [b] => if b = 0xFF then some (List.finRange 112) else (below? 112 b).map fun it => [it]
  | _ => none

/-- R83: FORCE_RELEASE with its parameters. -/
def forceReleaseAnswer (params : List Byte) (s : State) : Answer :=
  match forcedItems? params with
  | some its => (s.freeItems its, .ok, byte (s.ownedAmong its))
  | none => s.invalid

/-- FORCE_RELEASE (R83). -/
def execForceRelease (line : Line) (s : State) : Host.Outcome State Fault Refusal :=
  .next (s.execute line 0x16 forceReleaseAnswer)

end Sys2Proof.Machine
end

