-- ==== Sys2Proof/Machine/MonitorCommands.lean ====
section
/-! DEFINITION. The commands of the level monitors (chapter 7): MON_SET and METER_READ. -/

namespace Sys2Proof.Machine

/-- R148, Table 11-5: the settings that the nine bytes after the destination spell, or none where one is out of range.
Table 11-5 gives bits 0 to 3 of the flags byte only, and neither it nor R148 says what a set bit of 4 to 7 does: the
model's choice is none, so that MON_SET is answered INVALID (assumption 31). -/
def settings? : List Byte → Option MonSettings
  | [flags, a2, a1, a0, b2, b1, b0, n1, n0] =>
    let silenceAt := ofBytes [a2, a1, a0]
    let overloadAt := ofBytes [b2, b1, b0]
    let ns := ofBytes [n1, n0]
    if flags.toNat < 16 ∧ silenceAt ≤ 8388607 ∧ overloadAt ≤ 8388607 ∧ 1 ≤ ns ∧ ns ≤ 60000 then
      some { enable := flags.getLsbD 0, overloadEvent := flags.getLsbD 1,
             edge := EdgeSelect.ofBits (flags.extractLsb' 2 2), silenceAt, overloadAt, ns }
    else none
  | _ => none

/-- R148: MON_SET at a monitor. The windows that the last tick completed are completed first, all in ascending order
(R146, R149, assumption 8). -/
def State.setMonitor (s : State) (d : Fin 96) (x : MonSettings) : State :=
  s.completeWindows.updMonitor d fun m => m.set x

/-- R148: MON_SET with its parameters. -/
def monSetAnswer (params : List Byte) (s : State) : Answer :=
  match params with
  | d :: rest =>
    match below? 96 d, settings? rest with
    | some d, some x => (s.setMonitor d x, .ok, [])
    | _, _ => s.invalid
  | [] => s.invalid

/-- MON_SET (R148). -/
def execMonSet (line : Line) (s : State) : Host.Outcome State Fault Refusal :=
  .next (s.execute line 0x38 monSetAnswer)

/-- R150: the payload of METER_READ to line `l`. Bits 6..7 of the flags byte are 0 (assumption 34). -/
def Monitor.payload (m : Monitor) (d : Fin 96) (l : Line) : List Byte :=
  byte d.val ++ be24 m.lastPeak ++ be24 (m.holds.get (lineIx l)) ++ be16 m.silenceCount
    ++ byte (bit m.silent + m.activity.code * 2 + bit m.lastClip * 8 + bit m.lastChanged * 16
      + bit m.lastOverloaded * 32)

/-- R150: the calling line's hold returns to 0. -/
def Monitor.clearHold (m : Monitor) (l : Line) : Monitor := { m with holds := m.holds.set (lineIx l) 0 }

/-- R150: METER_READ with its parameters. -/
def meterReadAnswer (line : Line) (params : List Byte) (s : State) : Answer :=
  match param1? 96 params with
  | some d => (s.updMonitor d fun m => m.clearHold line, .ok, (s.monitors.get d).payload d line)
  | none => s.invalid

/-- METER_READ (R150). -/
def execMeterRead (line : Line) (s : State) : Host.Outcome State Fault Refusal :=
  .next (s.execute line 0x39 (meterReadAnswer line))

end Sys2Proof.Machine
end

