-- ==== Sys2Proof/Machine/PortEvents.lean ====
section
/-! DEFINITION. The meanings of the events on the control lines (chapter 9), and of POLL and IDENT. -/

namespace Sys2Proof.Machine

/-- SELECT_ASSERTED (R174). -/
def execSelectAsserted (line : Line) (s : State) : Host.Outcome State Fault Refusal :=
  .next (s.updPort line Port.select)

/-- COMMAND_FRAME_END (R168 to R170): the bits clocked in since the line's last event, then the release of select. -/
def execCommandFrameEnd (line : Line) (bits : List Bool) (s : State) : Host.Outcome State Fault Refusal :=
  .next (s.updPort line fun p => (p.clockAll bits).endFrame line)

/-- RESPONSE_DELIVERED (R175): the bits clocked up to the last bit of the copy's check byte; the delivery falls on
that bit (assumption 19). -/
def execResponseDelivered (line : Line) (bits : List Bool) (s : State) : Host.Outcome State Fault Refusal :=
  .next (s.updPort line fun p => p.clockAll bits)

/-- R177: POLL at the port. Bits 2..7 of the flags byte are 0 (assumption 34). -/
def pollAnswer (line : Line) (s : State) : Answer :=
  (s.updPort line fun p => { p with framing := false }, .ok,
    byte (lineCode line) ++ byte ((s.port line).queue.length - 1)
      ++ byte (bit (s.port line).framing + bit (s.eventQueue line).ev * 2))

/-- POLL (R177). It changes no state but its port's, and tells of the line's event queue as it stands. -/
def execPoll (line : Line) (s : State) : Host.Outcome State Fault Refusal :=
  .next (s.execute line 0x01 fun _ s => pollAnswer line s)

/-- IDENT (R178): part number 6416, revision 1. -/
def execIdent (line : Line) (s : State) : Host.Outcome State Fault Refusal :=
  .next (s.execute line 0x02 fun _ s => (s, .ok, be16 6416 ++ byte 1))

end Sys2Proof.Machine
end

