-- ==== Sys2Proof/Machine/ReferenceEvents.lean ====
section
/-! DEFINITION. The meanings of the events on WCK, HFP and FBK (chapter 8). -/

namespace Sys2Proof.Machine

/-- WCK_EDGE (R154): a rising edge, `interval` picoseconds after the edge before it. -/
def execWckEdge (interval : Nat) (s : State) : Host.Outcome State Fault Refusal :=
  .next (s.wckEdge interval)

/-- WCK_MISSING_INTERVAL (R154). -/
def execWckMissingInterval (s : State) : Host.Outcome State Fault Refusal :=
  .next s.wckMissing

/-- REF_LOCK (R155). -/
def execRefLock (s : State) : Host.Outcome State Fault Refusal :=
  .next s.enterLock

/-- REF_HOLDOVER (R155). -/
def execRefHoldover (s : State) : Host.Outcome State Fault Refusal :=
  .next s.enterHoldover

/-- HFP_PULSE (R158). -/
def execHfpPulse (s : State) : Host.Outcome State Fault Refusal :=
  .next s.hfpPulse

/-- FBK_ASSERTED (R162). -/
def execFbkAsserted (s : State) : Host.Outcome State Fault Refusal :=
  .next s.assertFbk

/-- FBK_RELEASED (R162). -/
def execFbkReleased (s : State) : Host.Outcome State Fault Refusal :=
  .next s.releaseFbk

end Sys2Proof.Machine
end

