-- ==== Sys2Proof/Machine/StoreCommands.lean ====
section
/-! DEFINITION. The commands of the rate-adaptation stores (chapter 3): STORE_STATUS and STORE_CLEAR. -/

namespace Sys2Proof.Machine

/-- Store number 0..31 (Table 0-5): 0..15 strip, 16..31 embed. -/
def State.store (s : State) (n : Fin 32) : Store :=
  if h : n.val < 16 then s.strip.get ⟨n.val, h⟩ else s.embed.get ⟨n.val - 16, by omega⟩

/-- An update of the store of a number. -/
def State.updStore (s : State) (n : Fin 32) (f : Store → Store) : State :=
  if h : n.val < 16 then s.updStrip ⟨n.val, h⟩ f else s.updEmbed ⟨n.val - 16, by omega⟩ f

/-- R55: the payload of STORE_STATUS to line `l`. Bits 3..7 of the flags byte are 0 (assumption 34). -/
def Store.payload (st : Store) (n : Fin 32) (l : Line) : List Byte :=
  byte n.val ++ byte st.state.code ++ byte st.fill ++ be16 st.reads
    ++ byte (bit st.lastFault + bit (st.since.get (lineIx l)) * 2 + bit st.latch * 4)
    ++ be16 st.underflows.toNat ++ be16 st.overflows.toNat ++ be16 st.corrections.toNat

/-- R55: STORE_STATUS with its parameters. -/
def storeStatusAnswer (line : Line) (params : List Byte) (s : State) : Answer :=
  match param1? 32 params with
  | some n => (s.updStore n fun st => st.clearSince line, .ok, (s.store n).payload n line)
  | none => s.invalid

/-- STORE_STATUS (R55). -/
def execStoreStatus (line : Line) (s : State) : Host.Outcome State Fault Refusal :=
  .next (s.execute line 0x30 (storeStatusAnswer line))

/-- R56: STORE_CLEAR with its parameters. -/
def storeClearAnswer (params : List Byte) (s : State) : Answer :=
  match param1? 32 params with
  | some n => (s.updStore n Store.clear, .ok, [])
  | none => s.invalid

/-- STORE_CLEAR (R56). -/
def execStoreClear (line : Line) (s : State) : Host.Outcome State Fault Refusal :=
  .next (s.execute line 0x31 storeClearAnswer)

end Sys2Proof.Machine
end

