-- ==== Sys2Proof/Machine/Dispatch.lean ====
section
/-! DEFINITION. What each command does: one arm per row of spec/opcode_table.json. -/

namespace Sys2Proof.Machine

/-- The effect of a command on everything but the queue of waiting commands. -/
def exec (i : Instr) (s : State) : Host.Outcome State Fault Refusal :=
  match i with
  | .pinReset fbk selA selB selC => Sys2Proof.Machine.execPinReset fbk selA selB selC s
  | .lineStart lane number words builderFirst => Sys2Proof.Machine.execLineStart lane number words builderFirst s
  | .outputLineStart lane => Sys2Proof.Machine.execOutputLineStart lane s
  | .carriageLine lane arrival => Sys2Proof.Machine.execCarriageLine lane arrival s
  | .lossTimerExpiry lane => Sys2Proof.Machine.execLossTimerExpiry lane s
  | .houseTick slots flagsFirst boundaryFirst => Sys2Proof.Machine.execHouseTick slots flagsFirst boundaryFirst s
  | .houseFrameBoundary => Sys2Proof.Machine.execHouseFrameBoundary s
  | .crossfadeEnd dest => Sys2Proof.Machine.execCrossfadeEnd dest s
  | .softEntryComplete dest => Sys2Proof.Machine.execSoftEntryComplete dest s
  | .windowComplete => Sys2Proof.Machine.execWindowComplete s
  | .channelStatusBlockComplete source => Sys2Proof.Machine.execChannelStatusBlockComplete source s
  | .wckEdge interval => Sys2Proof.Machine.execWckEdge interval s
  | .wckMissingInterval => Sys2Proof.Machine.execWckMissingInterval s
  | .refLock => Sys2Proof.Machine.execRefLock s
  | .refHoldover => Sys2Proof.Machine.execRefHoldover s
  | .hfpPulse => Sys2Proof.Machine.execHfpPulse s
  | .fbkAsserted => Sys2Proof.Machine.execFbkAsserted s
  | .fbkReleased => Sys2Proof.Machine.execFbkReleased s
  | .selectAsserted line => Sys2Proof.Machine.execSelectAsserted line s
  | .commandFrameEnd line bits => Sys2Proof.Machine.execCommandFrameEnd line bits s
  | .responseDelivered line bits => Sys2Proof.Machine.execResponseDelivered line bits s
  | .poll line => Sys2Proof.Machine.execPoll line s
  | .ident line => Sys2Proof.Machine.execIdent line s
  | .mapStage line => Sys2Proof.Machine.execMapStage line s
  | .mapDrop line => Sys2Proof.Machine.execMapDrop line s
  | .mapTake line => Sys2Proof.Machine.execMapTake line s
  | .mapRead line => Sys2Proof.Machine.execMapRead line s
  | .protect line => Sys2Proof.Machine.execProtect line s
  | .release line => Sys2Proof.Machine.execRelease line s
  | .forceRelease line => Sys2Proof.Machine.execForceRelease line s
  | .planStage line => Sys2Proof.Machine.execPlanStage line s
  | .planRead line => Sys2Proof.Machine.execPlanRead line s
  | .laneFormat line => Sys2Proof.Machine.execLaneFormat line s
  | .laneStatus line => Sys2Proof.Machine.execLaneStatus line s
  | .refFormat line => Sys2Proof.Machine.execRefFormat line s
  | .refStatus line => Sys2Proof.Machine.execRefStatus line s
  | .storeStatus line => Sys2Proof.Machine.execStoreStatus line s
  | .storeClear line => Sys2Proof.Machine.execStoreClear line s
  | .monSet line => Sys2Proof.Machine.execMonSet line s
  | .meterRead line => Sys2Proof.Machine.execMeterRead line s
  | .eventSubscribe line => Sys2Proof.Machine.execEventSubscribe line s
  | .eventFetch line => Sys2Proof.Machine.execEventFetch line s
  | .faultRead line => Sys2Proof.Machine.execFaultRead line s
  | .faultClear line => Sys2Proof.Machine.execFaultClear line s
  | .fallbackArm line => Sys2Proof.Machine.execFallbackArm line s
  | .fallbackDisarm line => Sys2Proof.Machine.execFallbackDisarm line s
  | .pathReset handing => Sys2Proof.Machine.execPathReset handing s

end Sys2Proof.Machine
end

