-- ==== Sys2Proof/WellFormed.lean ====
section
/-! DEFINITION. Which commands are events that can reach the part, as far as the command alone can say. Every meaning
is total; this check is for statements and tests. -/

namespace Sys2Proof

/-- R11: the carriage-line event is raised by the 280th word, so a CARRIAGE_LINE brings words 1 to 280, or no word
where it goes on with an event already raised. R109 names a source's flag change once a tick, R165 a block once a
reset. R154: an interval between two edges has a length. R175: the delivery falls on a
clock period, so at least one bit has been sampled with it. -/
def Instr.wf : Instr → Bool
  | .carriageLine _ a => a.words.length == 280 || a.words.isEmpty
  | .houseTick _ flagsFirst _ => decide flagsFirst.Nodup
  | .pathReset h => decide h.blocks.Nodup
  | .wckEdge interval => 0 < interval
  | .responseDelivered _ bits => !bits.isEmpty
  | _ => true

end Sys2Proof
end

