-- ==== Sys2Proof/Safety.lean ====
section
/-! DEFINITION. The terms that claims use: which parts of the state a command may change, and the bounds and forms that
the manual says the part never leaves. -/

namespace Sys2Proof.Machine

/-! ### Parts of the state -/

/-- The parts of `State`, one for each field; the event number goes with the event queues. -/
inductive Part where
  | lanes
  | relays
  | groups
  | strip
  | embed
  | hist
  | trackers
  | tone
  | serial
  | live
  | plan
  | stagedDest
  | stagedPlan
  | takes
  | owners
  | engine
  | builders
  | embCounts
  | monitors
  | ref
  | fallback
  | ports
  | events
  | faults
  | work
  | handed
  | free
  | pending
deriving DecidableEq, Repr

/-- A part is the same in two states. -/
def Part.same (s t : State) : Part → Prop
  | .lanes => t.lanes = s.lanes
  | .relays => t.relays = s.relays
  | .groups => t.groups = s.groups
  | .strip => t.strip = s.strip
  | .embed => t.embed = s.embed
  | .hist => t.hist = s.hist
  | .trackers => t.trackers = s.trackers
  | .tone => t.tone = s.tone
  | .serial => t.serial = s.serial
  | .live => t.live = s.live
  | .plan => t.plan = s.plan
  | .stagedDest => t.stagedDest = s.stagedDest
  | .stagedPlan => t.stagedPlan = s.stagedPlan
  | .takes => t.takes = s.takes
  | .owners => t.owners = s.owners
  | .engine => t.engine = s.engine
  | .builders => t.builders = s.builders
  | .embCounts => t.embCounts = s.embCounts
  | .monitors => t.monitors = s.monitors
  | .ref => t.ref = s.ref
  | .fallback => t.fallback = s.fallback
  | .ports => t.ports = s.ports
  | .events => t.events = s.events ∧ t.eventNo = s.eventNo
  | .faults => t.faults = s.faults
  | .work => t.work = s.work
  | .handed => t.handed = s.handed
  | .free => t.free = s.free
  | .pending => t.pending = s.pending

/-- Every part but the listed ones is the same. -/
def Keeps (touched : List Part) (s t : State) : Prop := ∀ p : Part, p ∉ touched → p.same s t

/-- What dealing with a take list may change (R72 to R78). -/
def boundaryParts : List Part := [.live, .plan, .takes, .engine, .monitors, .embed, .embCounts, .events]

/-- What a lane's exit from RUNNING may change (R13, R19). -/
def exitParts : List Part := [.lanes, .groups, .strip, .builders, .embed, .embCounts, .engine, .events]

/-- What the words of a line may change (R11, R20 to R32, R118 to R127). -/
def lineParts : List Part :=
  [.relays, .lanes, .groups, .strip, .builders, .embed, .embCounts, .faults, .work, .events]

/-- What a house frame boundary may change (R157 to R159). -/
def frameParts : List Part := .ref :: boundaryParts

/-- The parts that a command may change, from the rules that give its effect. A command of a control line also
changes that line's port, by its answer (R171). -/
def touches : Instr → List Part
  | .pinReset _ _ _ _ =>
    [.lanes, .relays, .groups, .strip, .embed, .hist, .trackers, .tone, .serial, .live, .plan, .stagedDest,
     .stagedPlan, .takes, .owners, .engine, .builders, .embCounts, .monitors, .ref, .fallback, .ports, .events,
     .faults, .work, .handed]
  | .lineStart _ _ _ _ => lineParts ++ boundaryParts
  | .outputLineStart _ => [.relays]
  | .carriageLine _ _ => lineParts
  | .lossTimerExpiry _ => lineParts ++ exitParts
  | .houseTick _ _ _ => [.strip, .hist, .trackers, .tone, .serial, .free] ++ frameParts
  | .houseFrameBoundary => frameParts
  | .crossfadeEnd _ => [.engine]
  | .softEntryComplete _ => [.engine]
  | .windowComplete => [.monitors, .events]
  | .channelStatusBlockComplete _ => [.trackers]
  | .wckEdge _ => [.ref, .events]
  | .wckMissingInterval => [.ref, .events]
  | .refLock => [.ref, .events]
  | .refHoldover => [.ref, .events]
  | .hfpPulse => frameParts
  | .fbkAsserted => [.fallback, .builders, .embed, .embCounts, .events]
  | .fbkReleased => [.fallback]
  | .selectAsserted _ => [.ports]
  | .commandFrameEnd _ _ => [.ports]
  | .responseDelivered _ _ => [.ports]
  | .poll _ => [.ports]
  | .ident _ => [.ports]
  | .mapStage _ => [.ports, .stagedDest]
  | .mapDrop _ => [.ports, .stagedDest, .stagedPlan]
  | .mapTake _ => [.ports, .stagedDest, .stagedPlan, .takes, .events]
  | .mapRead _ => [.ports]
  | .protect _ => [.ports, .owners]
  | .release _ => [.ports, .owners]
  | .forceRelease _ => [.ports, .owners, .events]
  | .planStage _ => [.ports, .stagedPlan]
  | .planRead _ => [.ports]
  | .laneFormat _ => .ports :: (lineParts ++ exitParts)
  | .laneStatus _ => [.ports]
  | .refFormat _ => .ports :: frameParts
  | .refStatus _ => [.ports]
  | .storeStatus _ => [.ports, .strip, .embed]
  | .storeClear _ => [.ports, .strip, .embed]
  | .monSet _ => [.ports, .monitors, .events]
  | .meterRead _ => [.ports, .monitors]
  | .eventSubscribe _ => [.ports, .events]
  | .eventFetch _ => [.ports, .events]
  | .faultRead _ => [.ports]
  | .faultClear _ => [.ports, .faults]
  | .fallbackArm _ => [.ports, .fallback, .builders, .embed, .embCounts, .events]
  | .fallbackDisarm _ => [.ports, .fallback, .builders, .engine, .events]
  | .pathReset _ =>
    [.ports, .handed, .hist, .trackers, .takes, .engine, .monitors] ++ lineParts

/-- The control line whose port a command reaches, if it is one of a control line. -/
def portLine? : Instr → Option Line
  | .pinReset _ _ _ _ => none
  | .lineStart _ _ _ _ => none
  | .outputLineStart _ => none
  | .carriageLine _ _ => none
  | .lossTimerExpiry _ => none
  | .houseTick _ _ _ => none
  | .houseFrameBoundary => none
  | .crossfadeEnd _ => none
  | .softEntryComplete _ => none
  | .windowComplete => none
  | .channelStatusBlockComplete _ => none
  | .wckEdge _ => none
  | .wckMissingInterval => none
  | .refLock => none
  | .refHoldover => none
  | .hfpPulse => none
  | .fbkAsserted => none
  | .fbkReleased => none
  | .selectAsserted l => some l
  | .commandFrameEnd l _ => some l
  | .responseDelivered l _ => some l
  | .poll l => some l
  | .ident l => some l
  | .mapStage l => some l
  | .mapDrop l => some l
  | .mapTake l => some l
  | .mapRead l => some l
  | .protect l => some l
  | .release l => some l
  | .forceRelease l => some l
  | .planStage l => some l
  | .planRead l => some l
  | .laneFormat l => some l
  | .laneStatus l => some l
  | .refFormat l => some l
  | .refStatus l => some l
  | .storeStatus l => some l
  | .storeClear l => some l
  | .monSet l => some l
  | .meterRead l => some l
  | .eventSubscribe l => some l
  | .eventFetch l => some l
  | .faultRead l => some l
  | .faultClear l => some l
  | .fallbackArm l => some l
  | .fallbackDisarm l => some l
  | .pathReset h => some h.line

/-! ### What the part never leaves -/

/-- R40: no store holds more than 64 sets. -/
def StoresBounded (s : State) : Prop :=
  ∀ g : Fin 16, (s.strip.get g).fill ≤ 64 ∧ (s.embed.get g).fill ≤ 64

/-- R181: no event queue holds more than 32 notices. -/
def EventsBounded (s : State) : Prop := ∀ l : Line, (s.eventQueue l).notices.length ≤ 32

/-- R170: no command queue holds more than 4 frames. -/
def QueuesBounded (s : State) : Prop := ∀ l : Line, (s.port l).queue.length ≤ 4

/-- R172: a response in a slot carries at most 23 bytes of payload. -/
def PayloadsBounded (s : State) : Prop :=
  ∀ (l : Line) (r : Response), (s.port l).slot = some r → r.payload.length ≤ 23

/-- R126: no group is owed more than 8 sets. -/
def OwedBounded (s : State) : Prop := ∀ g : Fin 16, (s.embCounts.get g).owed ≤ 8

/-- R118: the accumulator of a RUNNING lane is below F*C of its format; R117: elsewhere it is 0. -/
def AccumulatorsBounded (s : State) : Prop :=
  ∀ l : Fin 4,
    if (s.lanes.get l).state = .running then (s.builders.get l).acc < carriagePerSequence (s.lanes.get l).fmt
    else (s.builders.get l).acc = 0

/-- R65, R69: an item of the list of domain `dom` belongs to it, and no two items have one target. -/
def takeListOk (dom : Fin 5) (items : List TakeItem) : Prop :=
  (∀ x ∈ items, itemDomain x.body.item = dom) ∧ (items.map fun x => x.body.item).Nodup

/-- R65: every take list is in order. -/
def TakesOk (s : State) : Prop := ∀ dom : Fin 5, takeListOk dom (s.takes.get dom)

/-- The entry of a destination take item obeys the DATA rule of R61. -/
def TakeItem.stageable (x : TakeItem) : Bool :=
  match x.body with
  | .dest _ e => e.stageable
  | .plan _ _ => true

/-- R58, R61: every DATA entry, live, staged or waiting in a take list, has no secondary, gain code 120 and invert
no. -/
def EntriesOk (s : State) : Prop :=
  (∀ d : Fin 96, (s.live.get d).stageable = true)
    ∧ (∀ (d : Fin 96) (r : Staged Entry), s.stagedDest.get d = some r → r.body.stageable = true)
    ∧ (∀ (dom : Fin 5), ∀ x ∈ s.takes.get dom, x.stageable = true)

/-- R104: the 96 block counters hold one value, 0..191. -/
def BlocksEqual (s : State) : Prop :=
  ∀ d d' : Fin 96, (s.engine.get d).block = (s.engine.get d').block ∧ (s.engine.get d).block ≤ 191

/-- R97: the soft-entry factor is 0..1024. -/
def FactorsBounded (s : State) : Prop := ∀ d : Fin 96, (s.engine.get d).e ≤ 1024

/-- R74: a DATA destination is never crossfading. -/
def DataSteady (s : State) : Prop := ∀ d : Fin 96, (s.live.get d).mode = .data → (s.engine.get d).xfade = none

/-- R139, Table 7-1: the values of a monitor: its peaks and its silence count, the window's ticks, the settings, and
IDLE exactly while it is not enabled. -/
def MonitorOk (m : Monitor) : Prop :=
  m.peak ≤ 8388607 ∧ m.lastPeak ≤ 8388607 ∧ (∀ l : Line, m.holds.get (lineIx l) ≤ 8388607)
    ∧ m.silenceCount ≤ m.ns ∧ m.ticks ≤ 480
    ∧ m.silenceAt ≤ 8388607 ∧ m.overloadAt ≤ 8388607 ∧ 1 ≤ m.ns ∧ m.ns ≤ 60000
    ∧ (m.activity = .idle ↔ m.enable = false)

/-- R139: so are those of every monitor. -/
def MonitorsOk (s : State) : Prop := ∀ d : Fin 96, MonitorOk (s.monitors.get d)

/-- R34: every history is in its canonical form and holds at most 8,192 records. -/
def HistoriesOk (s : State) : Prop := ∀ n : Fin 98, (s.hist.get n).wf = true

/-- Table 3-1, Figures 3-1 and 3-2: the states of strip and of embed stores, and reads since correction. -/
def StatesOk (s : State) : Prop :=
  ∀ g : Fin 16, (s.strip.get g).state ≠ .holding
    ∧ ((s.embed.get g).state = .holding ∨ (s.embed.get g).state = .flowing)
    ∧ (s.strip.get g).reads ≤ 480 ∧ (s.embed.get g).reads ≤ 480

/-- R118, R126: what is left of the lanes' last carriage-line events: a walk only on a RUNNING lane; a rebuilding of a
line of at most 4 sets; and a packet being formed that takes as many sets as bring its group's owed count to 8 or
less. -/
def WorkOk (s : State) : Prop :=
  ∀ l : Fin 4,
    match s.work.get l with
    | .idle => True
    | .walking _ _ => (s.lanes.get l).state = .running
    | .building _ b =>
      b.n ≤ 4 ∧ ∀ d : Draft, b.draft = some d →
        b.n + (s.embCounts.get (groupNo l d.group)).owed ≤ 8 + d.left + d.sets.length

/-- R40, Table 3-1: fills and states of the 32 stores. -/
def StoresOk (s : State) : Prop := StoresBounded s ∧ StatesOk s

/-- R97, R74, R104: soft-entry factors, no crossfade under a DATA entry, and equal block counters. -/
def EngineOk (s : State) : Prop := FactorsBounded s ∧ DataSteady s ∧ BlocksEqual s

/-- R170, R172: command queues and response payloads. -/
def PortsOk (s : State) : Prop := QueuesBounded s ∧ PayloadsBounded s

/-- R118, R117, R126: accumulators, owed counts and what is left to build. -/
def BuildersOk (s : State) : Prop := AccumulatorsBounded s ∧ OwedBounded s ∧ WorkOk s

/-! ### Conditions and values that claims name -/

/-- `k` steps of the accumulator of format `f` from `acc`: the sets given in all, and the accumulator after them
(R118, R119). -/
def accRun (f : Fin 8) : Nat → Nat → Nat × Nat
  | 0, acc => (0, acc)
  | k + 1, acc => ((accStep f acc).1 + (accRun f k (accStep f acc).2).1, (accRun f k (accStep f acc).2).2)

/-- R124: `n` reads of an embed store, one after another: the store after them and the sets returned. -/
def takenSets : Nat → Store → Store × List SampleSet
  | 0, st => (st, [])
  | n + 1, st => ((takenSets n (st.read false).1).1, (st.read false).2 :: (takenSets n (st.read false).1).2)

/-- R187: an odd number of ones in bits 0 to 8 of a sequence or length word, and bit 9 zero. -/
def OddParity (w : LaneWord) : Prop :=
  ((List.range 9).countP fun i => w.getLsbD i) % 2 = 1 ∧ w.getLsbD 9 = false

/-- R54: the DATA destinations whose primary source is stripped from group `g`, in ascending order. -/
def throughStrip (s : State) (g : Fin 16) : List (Fin 96) :=
  (List.finRange 96).filter fun d => (s.live.get d).mode = .data ∧ (s.live.get d).primary.val / 4 = g.val

/-- R54: the DATA destinations of group `g`, in ascending order. -/
def throughEmbed (s : State) (g : Fin 16) : List (Fin 96) :=
  (List.finRange 96).filter fun d => (s.live.get d).mode = .data ∧ d.val / 4 = g.val

/-- R46, R47, R53, R54: the notices of a read of the FLOWING store of number `store`, which is `st` before it: an
underflow, if LATCH is clear, or a REPEAT or a SKIP for each of the destinations `ds`. -/
def readReport (store : Nat) (ds : List (Fin 96)) (st : Store) : List Pending :=
  if st.fill = 0 then (if st.latch = true then [] else [(.storeFault, store, 0)])
  else if st.reads = 480 ∧ st.fill ≤ 8 then ds.map fun d => (.dataSlip, d.val, store)
  else if st.reads = 480 ∧ 56 ≤ st.fill then ds.map fun d => (.dataSlip, d.val, store + 256)
  else []

/-- R44, R53: the notices of a write to the store of number `store`, which is `st` before it: an overflow, if LATCH is
clear. -/
def writeReport (store : Nat) (st : Store) : List Pending :=
  if (st.state = .priming ∨ st.state = .flowing) ∧ 64 ≤ st.fill ∧ st.latch = false then [(.storeFault, store, 1)]
  else []

/-- The notices of `n` reads of an embed store, one list for each of them. -/
def takenReports (store : Nat) (ds : List (Fin 96)) : Nat → Store → List (List Pending)
  | 0, _ => []
  | n + 1, st => readReport store ds st :: takenReports store ds n (st.read false).1

/-- R73: the line whose protection refuses a take item. -/
def refuser (s : State) (x : TakeItem) : Option Line :=
  match s.owners.get x.body.item with
  | some o => if o = x.stager then none else some o
  | none => none

/-- R74: the take item is for a destination with a crossfade in flight. -/
def holdsBack (s : State) (x : TakeItem) : Bool :=
  match x.body with
  | .dest d _ => (s.engine.get d).crossfading
  | .plan _ _ => false

/-- R73, R78: the notices of a boundary of domain `dom`: TAKE_REFUSED in list order, then for each tag with an item
applied or held, in ascending order, TAKE_DONE with their numbers. -/
def boundaryNotices (s : State) (dom : Fin 5) : List Pending :=
  ((s.takes.get dom).flatMap fun x =>
    match refuser s x with
    | some o => [(.takeRefused, x.body.item.val, x.tag.toNat + lineCode x.stager * 16 + lineCode o * 64)]
    | none => [])
  ++ (List.range 16).flatMap fun tag =>
    let mine := (s.takes.get dom).filter fun x => x.tag.toNat = tag ∧ refuser s x = none
    if mine = [] then []
    else [(.takeDone, tag, dom.val + (mine.countP fun x => !holdsBack s x) * 8 + (mine.countP (holdsBack s)) * 512)]

/-- R70, R159: the events of a house frame boundary, raised from `u`: one of each domain of a lane that is not RUNNING
in `s`, then one of the house domain. That these are events of their own, in this order, is the model's choice
(assumption 37). -/
def boundaryRaises (s u : State) : State :=
  ((four.filter fun l => (s.lanes.get l).state != LaneState.running).map laneDomain ++ [4]).foldl
    (fun u dom => u.raiseAll (boundaryNotices s dom)) u

/-- R76, R142: the monitor after a take application. -/
def changedAfter (m : Monitor) : Monitor :=
  match m.activity with
  | .idle => m
  | .measuring => { m with changed := true }
  | .suspended => { m with pendingChanged := true }

/-- R90, R91: what a tap of a side counts as: the record of age delay + 1, or 0 where its V is 1. -/
def tapValue (s : State) (n : Fin 98) (delay : Fin 8001) : Int :=
  let x := ((s.hist.get n).read delay.val).smp
  if x.v then 0 else x.value.toInt

/-- R91 to R93: the product of a side. -/
def sideSum (s : State) (e : Entry) : Int :=
  (if e.invert then -1 else 1)
    * (tapValue s e.primary e.delay + (match e.secondary with | some n => tapValue s n e.delay | none => 0))
    * gainFactor e.gain

/-- R184: the severity of a fault. -/
def faultRank : FaultKind → Nat
  | .loss => 5
  | .format => 4
  | .malformed => 3
  | .checksum => 2
  | .seqGap => 1

/-- R184: the record after the offer of a fault of `kind` on line `line` with stamp `stamp`. -/
def captureAfter (c : Option Capture) (kind : FaultKind) (line : BitVec 11) (stamp : BitVec 16) : Option Capture :=
  match c with
  | none => some { kind, line, stamp, further := 0 }
  | some c =>
    let further := if c.further = 255 then 255 else c.further + 1
    if faultRank c.kind < faultRank kind then some { kind, line, stamp, further } else some { c with further }

/-- The bits of bytes as a control line carries them, most significant bit of each byte first (R166). -/
def bitsOf (bs : List Byte) : List Bool := bs.flatMap fun b => (List.range 8).map fun i => b.getMsbD i

/-- The bytes of a command frame (section 9.1). -/
def Frame.bytes (f : Frame) : List Byte := closed (f.code :: f.ticket :: BitVec.ofNat 8 f.params.length :: f.params)

/-- The item may be changed by line `l`: no other line protects it (R61 to R63, R73). -/
def FreeFor (s : State) (it : Fin 112) (l : Line) : Prop := s.owners.get it = none ∨ s.owners.get it = some l

/-- The line in progress on lane `l` is short if it ends after the words `ws` (R1, R10). -/
def EndsShort (s : State) (l : Fin 4) (ws : List LaneWord) : Prop :=
  ∃ x, (s.relays.get l).input = some x ∧ x.words.length + ws.length < 280

/-- A carriage line of number `n` is in progress on the RUNNING lane `l`, with the words `w0` of it received, and the
words `ws` complete its area (R9, R11). -/
def CompletesArea (s : State) (l : Fin 4) (n : BitVec 11) (w0 ws : List LaneWord) : Prop :=
  (s.lanes.get l).state = .running ∧ (s.lanes.get l).inFrame = true ∧ n.toNat ≠ 7 ∧ n.toNat ≠ 8
    ∧ (s.relays.get l).input = some { number := n, words := w0, rebuilt := none }
    ∧ w0.length < 280 ∧ 280 ≤ (w0 ++ ws).length

/-- The words `ws` complete the area of a carriage line of the RUNNING lane `l`, and so raise its event (R9, R11). -/
def RaisesArea (s : State) (l : Fin 4) (ws : List LaneWord) : Prop :=
  (s.lanes.get l).state = .running ∧ (s.lanes.get l).inFrame = true
    ∧ ∃ x, (s.relays.get l).input = some x ∧ x.number.toNat ≠ 7 ∧ x.number.toNat ≠ 8 ∧ x.words.length < 280
      ∧ 280 ≤ x.words.length + ws.length

/-- R20 to R28: the parser takes the event that the words `ws` raise for `area`. From `s`, with the words received, the
packets of the area are judged in area order, each one's sets written before the next is judged; a walk that ends on a
failure counts and offers one malformed packet. Then `u` is the state, in which nothing that the builder works on has
changed. -/
def ParsesTo (s : State) (l : Fin 4) (n : BitVec 11) (ws area : List LaneWord) (u : State) : Prop :=
  ∃ (s1 : State) (es : List WalkEntry) (ev : AreaEvent),
    ev = { line := n, stamp := s.ref.frameCount, no := s.eventNo }
      ∧ ((s.updRelay l fun r => r.receive ws).newEvent.newEvent.clearSeenLine l).judgeAll l ev (walkArea area).1
          = (s1, es)
      ∧ u = (if (walkArea area).2.2 then
          (s1.updLane l fun r => { r with malformed := satInc r.malformed }).offerFault l .malformed ev else s1)
      ∧ Keeps [.relays, .lanes, .groups, .strip, .faults, .events] s u

/-- R120: the builder of the RUNNING lane `l` rebuilds its areas. -/
def IsRebuilt (s : State) (l : Fin 4) : Prop :=
  (s.builders.get l).phase = .engaged ∧ (s.builders.get l).bypass.inBypass = false
    ∧ ∃ c : Fin 4, s.plan.get (groupNo l c) ≠ .pass

/-- R122: the words of the packets of `area` that are kept. -/
def keptOf (s : State) (l : Fin 4) (area : List LaneWord) : List LaneWord :=
  ((walkArea area).1.filter fun p => s.keeps l p.2).flatMap fun p => p.2.words

/-- R118 to R126: the builder takes the event of `area` from `u`, where the parser left it, and leaves `v` with the
words `w` placed. The accumulator's sum is `k`; it deals with the groups 1 to 4 in this order, after the kept
packets. -/
def BuildsTo (s : State) (l : Fin 4) (n : BitVec 11) (area : List LaneWord) (k : Nat) (u v : State)
    (w : List LaneWord) : Prop :=
  ∃ (s0 s1 s2 s3 : State) (w1 w2 w3 : List LaneWord) (ev : AreaEvent) (m : Nat),
    ev = { line := n, stamp := s.ref.frameCount, no := s.eventNo }
      ∧ m = k / carriagePerSequence (s.lanes.get l).fmt
      ∧ s0 = u.updBuilder l (fun b => { b with acc := k % carriagePerSequence (s.lanes.get l).fmt })
      ∧ s0.dealGroup l 0 ev m (keptOf s l area) = (s1, w1) ∧ s1.dealGroup l 1 ev m w1 = (s2, w2)
      ∧ s2.dealGroup l 2 ev m w2 = (s3, w3) ∧ s3.dealGroup l 3 ev m w3 = (v, w)

/-- R18: the packet counters of lane `l` are as they were. -/
def CountersKept (s t : State) (l : Fin 4) : Prop :=
  (t.lanes.get l).accepted = (s.lanes.get l).accepted ∧ (t.lanes.get l).checksum = (s.lanes.get l).checksum
    ∧ (t.lanes.get l).malformed = (s.lanes.get l).malformed ∧ (t.lanes.get l).gaps = (s.lanes.get l).gaps

/-- R1, R5, R9: what line 7 in sequence makes of the receivers and of the relay, after the words `ws`. -/
def TookLine7 (s t : State) (l : Fin 4) (ws : List LaneWord) : Prop :=
  t.lanes = s.lanes.upd l (fun r => { r with lastLine := some 7, expected := some 8, timer := true, inFrame := true })
    ∧ t.relays = s.relays.upd l (fun r => (r.receive ws).begin 7)

/-- Every word of lane `l`'s last carriage-line event has been dealt with (assumption 11). -/
def NothingLeft (s : State) (l : Fin 4) : Prop := s.work.get l = .idle

/-- The frame of code `code` with ticket `ticket` and parameters `params` is at the head of line `l`'s command
queue (R171). -/
def HeadIs (s : State) (l : Line) (code : Byte) (ticket : Byte) (params : List Byte) : Prop :=
  ∃ rest, (s.port l).queue = { code, ticket, params } :: rest

/-- R134: a trigger is handed to the PCM destinations of lane `l`, and nothing else of the engine changes. -/
def TriggersLane (s t : State) (l : Fin 4) : Prop :=
  (∀ n : Fin 16, t.engine.get (laneDest l n)
      = { s.engine.get (laneDest l n) with
          trigger := if (s.live.get (laneDest l n)).mode = .pcm then true
                     else (s.engine.get (laneDest l n)).trigger })
    ∧ ∀ d : Fin 96, (∀ n, d ≠ laneDest l n) → t.engine.get d = s.engine.get d

/-- R43: a strip store after a flush. -/
def flushed (st : Store) : Store :=
  if st.state = .idle then st
  else { st with state := .idle, sets := [],
                 last := { ch := .fill 4 { value := 0, v := true, u := false, c := false, z := false }, d := false },
                 readMark := false, writeMark := false, reads := 0 }

/-- R13, R30, R43, R117, R130, R132, R135: what lane `l`'s groups, stores and builder are in `t`, after it has left
RUNNING in `s`. No group is present, no count is remembered, and a group that was PRESENT has no discontinuity
pending. The strip stores are flushed. The embed stores hold the sets they had, nothing is owed, and the next counts
are kept. The builder is STOPPED. A bypass that was being entered is entered, and one that was being left is left, with
a trigger for the lane's PCM destinations (R134); else the engine is as it was. The receivers, builders, groups, stores
and counts of the other lanes are as they were. -/
def LeftRunning (s t : State) (l : Fin 4) : Prop :=
  (t.lanes.get l).index = 0
    ∧ t.builders.get l
        = { phase := .stopped, acc := 0,
            bypass := match (s.builders.get l).bypass with
              | .out => .out
              | .entering => .inside
              | .inside => .inside
              | .leaving => .out }
    ∧ ((s.builders.get l).bypass = .leaving → TriggersLane s t l)
    ∧ ((s.builders.get l).bypass ≠ .leaving → t.engine = s.engine)
    ∧ (∀ c : Fin 4,
        t.groups.get (groupNo l c)
            = { s.groups.get (groupNo l c) with
                present := false, lastCount := none, seenFrame := false,
                pendingD := if (s.groups.get (groupNo l c)).present then false
                            else (s.groups.get (groupNo l c)).pendingD }
          ∧ t.strip.get (groupNo l c) = flushed (s.strip.get (groupNo l c))
          ∧ t.embed.get (groupNo l c) = { s.embed.get (groupNo l c) with state := .holding }
          ∧ t.embCounts.get (groupNo l c) = { s.embCounts.get (groupNo l c) with owed := 0 })
    ∧ (∀ l', l' ≠ l → t.lanes.get l' = s.lanes.get l' ∧ t.builders.get l' = s.builders.get l')
    ∧ ∀ g, groupLane g ≠ l → t.groups.get g = s.groups.get g ∧ t.strip.get g = s.strip.get g
        ∧ t.embed.get g = s.embed.get g ∧ t.embCounts.get g = s.embCounts.get g

/-- R95, R75: the crossfade that the application of `new` in place of `old` starts, or leaves in flight. -/
def crossfadeAfter (old new : Entry) (before : Option Crossfade) : Option Crossfade :=
  if old.mode = .data ∨ new.mode = .data then none
  else if old.primary = new.primary ∧ old.secondary = new.secondary ∧ old.gain = new.gain
      ∧ old.invert = new.invert ∧ old.delay = new.delay then before
  else if new.ramp = 0 then none
  else some { old, len := rampLength new.ramp, i := 0 }

/-- R73 to R77: what dealing with the take list of domain `dom` of `s` makes of its items. A destination that another
line protects is refused, one with a crossfade in flight is held, every other one gets its entry, with the crossfade of
its ramp and the CHANGED mark of its monitor; a plan group that no other line protects gets its mode. -/
def DealsWithTakes (s t : State) (dom : Fin 5) : Prop :=
  (∀ (x : TakeItem) (d : Fin 96) (e : Entry), x ∈ s.takes.get dom → x.body = .dest d e →
      (¬ FreeFor s (destItem d) x.stager →
        t.live.get d = s.live.get d ∧ findItem (t.takes.get dom) (destItem d) = none
          ∧ t.monitors.get d = s.monitors.get d)
      ∧ (FreeFor s (destItem d) x.stager → (s.engine.get d).crossfading = true →
        t.live.get d = s.live.get d
          ∧ findItem (t.takes.get dom) (destItem d) = some { x with held := true }
          ∧ t.monitors.get d = s.monitors.get d)
      ∧ (FreeFor s (destItem d) x.stager → (s.engine.get d).crossfading = false →
        t.live.get d = e ∧ findItem (t.takes.get dom) (destItem d) = none
          ∧ (t.engine.get d).xfade = crossfadeAfter (s.live.get d) e (s.engine.get d).xfade
          ∧ t.monitors.get d = changedAfter (s.monitors.get d)))
    ∧ ∀ (x : TakeItem) (g : Fin 16) (m : PlanMode), x ∈ s.takes.get dom → x.body = .plan g m →
        findItem (t.takes.get dom) (planItem g) = none
          ∧ t.plan.get g = (if s.owners.get (planItem g) = none ∨ s.owners.get (planItem g) = some x.stager then m
                            else s.plan.get g)

/-- R70, R71, R75, R77, R159: what a house frame boundary makes of the take lists and of what they change. The house
domain and the domains of the lanes that are not RUNNING deal with their lists. A plan group that so leaves EMBED
holds, with its sets, and is owed nothing. Of the engine only the destinations whose entry is applied change, in their
crossfade, or, at a cut to or from DATA, in the soft entry that it ends and a trigger that it drops (assumption 25). The
domain of a RUNNING lane waits for a switch line, its first one included, and what has no item stays as it was. -/
def DealsWithHouseTakes (s t : State) : Prop :=
  (∀ dom : Fin 5, dom = 4 ∨ (∃ l, dom = laneDomain l ∧ (s.lanes.get l).state ≠ .running) →
      DealsWithTakes s t dom
        ∧ ∀ (x : TakeItem) (d : Fin 96) (e : Entry), x ∈ s.takes.get dom → x.body = .dest d e →
            (¬ FreeFor s (destItem d) x.stager ∨ (s.engine.get d).crossfading = true →
              t.engine.get d = s.engine.get d)
            ∧ (FreeFor s (destItem d) x.stager → (s.engine.get d).crossfading = false →
              t.engine.get d
                = { s.engine.get d with
                    xfade := crossfadeAfter (s.live.get d) e (s.engine.get d).xfade
                    j := if (s.live.get d).mode = .data ∨ e.mode = .data then none else (s.engine.get d).j
                    trigger := if (s.live.get d).mode = .data ∨ e.mode = .data then false
                               else (s.engine.get d).trigger }))
    ∧ (∀ l, (s.lanes.get l).state = .running →
        t.takes.get (laneDomain l) = s.takes.get (laneDomain l)
          ∧ (∀ n, t.live.get (laneDest l n) = s.live.get (laneDest l n)
            ∧ t.engine.get (laneDest l n) = s.engine.get (laneDest l n)
            ∧ t.monitors.get (laneDest l n) = s.monitors.get (laneDest l n))
          ∧ (∀ c, t.plan.get (groupNo l c) = s.plan.get (groupNo l c)
            ∧ t.embed.get (groupNo l c) = s.embed.get (groupNo l c)
            ∧ t.embCounts.get (groupNo l c) = s.embCounts.get (groupNo l c)))
    ∧ (∀ l c, (s.lanes.get l).state ≠ .running →
        if s.plan.get (groupNo l c) = .embed ∧ t.plan.get (groupNo l c) ≠ .embed then
          t.embed.get (groupNo l c) = { s.embed.get (groupNo l c) with
              state := if (s.embed.get (groupNo l c)).state = .flowing then .holding
                       else (s.embed.get (groupNo l c)).state }
            ∧ t.embCounts.get (groupNo l c) = { s.embCounts.get (groupNo l c) with owed := 0 }
        else t.embed.get (groupNo l c) = s.embed.get (groupNo l c)
          ∧ t.embCounts.get (groupNo l c) = s.embCounts.get (groupNo l c))
    ∧ ∀ it : Fin 112, findItem (s.takes.get (itemDomain it)) it = none →
        (∀ d, it = destItem d → t.live.get d = s.live.get d ∧ t.engine.get d = s.engine.get d
          ∧ t.monitors.get d = s.monitors.get d)
        ∧ (∀ g, it = planItem g → t.plan.get g = s.plan.get g)

/-- R132, R133: a trip reaches the four builders, from `s` to `t`. Their phases and accumulators are as they were. A
lane that goes from OUT to IN at once holds, with its sets, and is owed nothing; the stores and counts of every other
lane are as they were. The cell of LEAVING does not arise for a lane that is not RUNNING: there it acts as for one that
is (assumption 26). -/
def TripsBuilders (s t : State) : Prop :=
  ∀ l : Fin 4,
    t.builders.get l = { s.builders.get l with
        bypass := match (s.builders.get l).bypass with
          | .out => if (s.lanes.get l).state = .running then .entering else .inside
          | .entering => .entering
          | .inside => .inside
          | .leaving => .inside }
      ∧ ∀ c : Fin 4,
          if (s.builders.get l).bypass = .out ∧ (s.lanes.get l).state ≠ .running then
            t.embed.get (groupNo l c) = { s.embed.get (groupNo l c) with
                state := if (s.embed.get (groupNo l c)).state = .flowing then .holding
                         else (s.embed.get (groupNo l c)).state }
              ∧ t.embCounts.get (groupNo l c) = { s.embCounts.get (groupNo l c) with owed := 0 }
          else t.embed.get (groupNo l c) = s.embed.get (groupNo l c)
            ∧ t.embCounts.get (groupNo l c) = s.embCounts.get (groupNo l c)

/-- The commands of `cs`, taken one after another from `s`, come to `t`. -/
def Runs : List Instr → State → State → Prop
  | [], s, t => t = s
  | c :: cs, s, t => ∃ u, exec c s = .next u ∧ Runs cs u t

/-- The commands that take what a tick completed, in the order in which the next tick takes what is left of them
(assumption 8). -/
def completions : List Instr :=
  (List.finRange 96).map .channelStatusBlockComplete ++ (List.finRange 96).map .crossfadeEnd
    ++ (List.finRange 96).map .softEntryComplete ++ [.windowComplete, .houseFrameBoundary]

/-- R157, Table 8-3: the ticks of the frames 1..F of a house format. -/
def houseFrames (f : Fin 8) : List Nat :=
  match f with
  | 0 => [1920]
  | 1 => [1601, 1602, 1601, 1602, 1602]
  | 2 => [960]
  | 3 => [800, 801, 801, 801, 801]
  | 4 => [960]
  | 5 => [800, 801, 801, 801, 801]
  | 6 => [1920]
  | 7 => [1601, 1602, 1601, 1602, 1602]

/-- R165, Table 8-5: what a block that takes PATH_RESET makes of `s`. A rebuilding in progress is finished before its
builder and its stores take it, and a due window before its monitor does. -/
def ResetTo (b : ResetBlock) (s t : State) : Prop :=
  match b with
  | .lanes => t = { s with lanes := s.lanes.map fun r =>
      { r with accepted := 0, checksum := 0, malformed := 0, gaps := 0 } }
  | .strip => t = { s with strip := .fill 16 (.reset .idle) }
  | .catalogue => t = { s with hist := .fill 98 [], trackers := .fill 96 .reset,
                               engine := s.engine.map fun x => { x with resetMark := x.blocked } }
  | .trackMap => t = { s with takes := s.takes.map fun xs => xs.map fun x => { x with held := false } }
  | .engine => t = { s with engine := s.engine.mapIdx fun d x =>
      { x with xfade := none, trigger := if (s.live.get d).mode = .pcm then true else x.trigger } }
  | .embed => t = { s.finishBuilds with
      embed := .fill 16 (.reset .holding),
      builders := s.finishBuilds.builders.map fun b => { b with acc := 0 },
      embCounts := .fill 16 { next := 0, owed := 0 } }
  | .monitors => ∃ u, exec .windowComplete s = .next u ∧ t = { u with monitors := u.monitors.map fun m =>
      { m with ticks := 0, peak := 0, clip := false, changed := false, pendingChanged := false, silenceCount := 0,
               silent := false, overloaded := false, holds := .fill 3 0 } }

/-- No completion of an earlier tick waits for its step (assumption 8). -/
def Settled (s : State) : Prop := s.settleTick = s

end Sys2Proof.Machine
end

