-- ==== Sys2Proof/Certificates/Slice0/Obligations.lean ====
section
/-! DEFINITION. The statements for the provers. OBLIGATIONS.json lists them with the rules they rest on. -/

open Sys2Proof Sys2Proof.Machine

/-! ### The machine -/

/-- The command at the front of the queue is executed on the state with the queue's rest; on an empty queue the block
idles (the model's choice, assumption 1). -/
def Obligations.StepRunsTheFrontCommand : Prop :=
  (∀ (c : Instr) (s : State) (rest : List Instr), s.pending = c :: rest → step s = exec c (s.withPending rest))
    ∧ (∀ s : State, s.pending = [] → step s = .next s)

/-- Every command has a next state in every state, leaves the queue of waiting commands alone, and changes only the
parts that `touches` lists for it. The queue, the commands that do nothing where no such frame is at the head, and the
completions that other commands settle are the model's (assumptions 1, 3 and 8). -/
def Obligations.CommandsStayInTheirParts : Prop :=
  ∀ (c : Instr) (s : State), ∃ t, exec c s = .next t ∧ t.pending = s.pending ∧ Keeps (touches c) s t

/-- The state after reset meets every invariant stated below. The form of histories is the model's (assumption 15), and
so are the inputs at the end of the reset (assumption 2). -/
def Obligations.ResetIsSound : Prop :=
  StoresOk State.reset ∧ EventsBounded State.reset ∧ PortsOk State.reset ∧ BuildersOk State.reset ∧ TakesOk State.reset
    ∧ EntriesOk State.reset ∧ EngineOk State.reset ∧ MonitorsOk State.reset ∧ HistoriesOk State.reset

/-- PIN_RESET gives every block its "After pin reset" values, whatever the state before. The relays', the serial ports'
and the model's own fields have the model's values, and the turns of the event queues are kept (assumptions 4, 8, 11,
13, 16, 23, 24, 27, 33, 35). -/
def Obligations.PinResetClearsEverything : Prop :=
  ∀ (fbk selA selB selC : Bool) (s : State), ∃ t, exec (.pinReset fbk selA selB selC) s = .next t
    ∧ (∀ l, t.lanes.get l = { state := .unset, format := none, lastLine := none, expected := none, frames := 0,
                              index := 0, timer := false, inFrame := false, accepted := 0, checksum := 0,
                              malformed := 0, gaps := 0 })
    ∧ (∀ l, t.relays.get l = { input := none, shown := false, waiting := [], output := none })
    ∧ (∀ g, t.groups.get g = { present := false, lastCount := none, pendingD := false, seenFrame := false,
                               seenLine := false })
    ∧ (∀ g, t.strip.get g = { state := .idle, sets := [],
                              last := { ch := .fill 4 { value := 0, v := true, u := false, c := false, z := false },
                                        d := false },
                              readMark := false, writeMark := false, reads := 0, lastFault := false,
                              since := .fill 3 false, latch := false, underflows := 0, overflows := 0,
                              corrections := 0 })
    ∧ (∀ g, t.embed.get g = { state := .holding, sets := [],
                              last := { ch := .fill 4 { value := 0, v := true, u := false, c := false, z := false },
                                        d := false },
                              readMark := false, writeMark := false, reads := 0, lastFault := false,
                              since := .fill 3 false, latch := false, underflows := 0, overflows := 0,
                              corrections := 0 })
    ∧ (∀ n k, (t.hist.get n).read k
        = { smp := { value := 0, v := true, u := false, c := false, z := false }, d := false })
    ∧ (∀ n, t.trackers.get n = { collecting := false, pos := 0, bit1 := false, flag := false })
    ∧ t.tone = 0 ∧ t.serial = { inStarted := false, handed := none, sending := none }
    ∧ (∀ d, t.live.get d = { primary := 97, secondary := none, gain := .code 120, invert := false, mode := .pcm,
                             delay := 0, ramp := 1 } ∧ t.stagedDest.get d = none)
    ∧ (∀ g, t.plan.get g = .pass ∧ t.stagedPlan.get g = none)
    ∧ (∀ dom, t.takes.get dom = []) ∧ (∀ it, t.owners.get it = none)
    ∧ (∀ d, t.engine.get d = { xfade := none, j := none, e := 1024, block := 0, blocked := false, trigger := false,
                               blockers := [], resetMark := false })
    ∧ (∀ l, t.builders.get l = { phase := .stopped, acc := 0, bypass := .out })
    ∧ (∀ g, t.embCounts.get g = { next := 0, owed := 0 })
    ∧ (∀ d, t.monitors.get d = { enable := false, silenceAt := 2653, overloadAt := 7476353, ns := 300, edge := .none,
                                 overloadEvent := false, activity := .idle, ticks := 0, peak := 0, clip := false,
                                 changed := false, pendingChanged := false, silenceCount := 0, silent := false,
                                 overloaded := false, lastPeak := 0, lastClip := false, lastChanged := false,
                                 lastOverloaded := false, holds := .fill 3 0 })
    ∧ t.ref = { state := .absent, edgeSeen := false, intervalOpen := false, good := 0, nonGood := 0, recent := [],
                period480 := 10000000000, format := 0, hfp := false, k := 1, t := 0, frameCount := 0,
                boundaryDue := false, tickCount := 0 }
    ∧ t.fallback = { state := .disarmed, fbk := fbk }
    ∧ (∀ l, t.port l
        = { selected := match l with | .a => selA | .b => selB | .c => selC,
            skip := match l with | .a => selA | .b => selB | .c => selC,
            bits := [], length := 0, stored := [], copy := none, queue := [], slot := none, delivered := false,
            drop := false, framing := false })
    ∧ (∀ l, t.eventQueue l = { subs := 31, notices := [], coming := [], turns := (s.eventQueue l).turns })
    ∧ t.eventNo = 0
    ∧ (∀ l, t.faults.get l = none ∧ t.work.get l = .idle)
    ∧ t.handed = [] ∧ t.free = s.free ∧ t.pending = s.pending

/-! ### Invariants that every step keeps -/

/-- Every step keeps the stores within 64 sets and in the states of their kind. -/
def Obligations.StepKeepsStores : Prop := ∀ s t : State, StoresOk s → step s = .next t → StoresOk t

/-- Every step keeps the event queues within 32 notices. -/
def Obligations.StepKeepsEventQueues : Prop := ∀ s t : State, EventsBounded s → step s = .next t → EventsBounded t

/-- Every step keeps the command queues within 4 frames and the payloads of the response slots within 23 bytes. -/
def Obligations.StepKeepsPorts : Prop := ∀ s t : State, PortsOk s → step s = .next t → PortsOk t

/-- Every step keeps the distribution accumulators of RUNNING lanes below F*C, the others at 0, the owed counts within
0..8, and what is left of the lanes' carriage-line events in the form that keeps them so (assumption 11). -/
def Obligations.StepKeepsBuilders : Prop := ∀ s t : State, BuildersOk s → step s = .next t → BuildersOk t

/-- Every step keeps the take lists: items of their own domain, at most one for each target. -/
def Obligations.StepKeepsTakeLists : Prop := ∀ s t : State, TakesOk s → step s = .next t → TakesOk t

/-- Every step keeps the DATA rule for live entries, staged entries and take items. -/
def Obligations.StepKeepsDataEntries : Prop := ∀ s t : State, EntriesOk s → step s = .next t → EntriesOk t

/-- Every step keeps the soft-entry factors within 0..1024, DATA destinations without a crossfade, and the 96 block
counters equal and within 0..191. -/
def Obligations.StepKeepsEngine : Prop := ∀ s t : State, EngineOk s → step s = .next t → EngineOk t

/-- Every step keeps the values of the monitors within the bounds of Table 7-1: the peaks within 0..8,388,607, the
silence count within 0..Ns, the ticks of a window within 0..480, the settings within their ranges, and the activity IDLE
exactly while the monitor is not enabled. That the ticks of a monitor without a window are 0 is the model's choice
(assumption 29). -/
def Obligations.StepKeepsMonitors : Prop := ∀ s t : State, MonitorsOk s → step s = .next t → MonitorsOk t

/-- Every step keeps the histories in their canonical form, at most 8,192 records long. The form is the model's
(assumption 15). -/
def Obligations.StepKeepsHistories : Prop := ∀ s t : State, HistoriesOk s → step s = .next t → HistoriesOk t

/-! ### Rules of the whole machine -/

/-- A live entry changes only at a pin reset, or to the entry of a take item that waited for that destination and whose
stager the destination's protection does not bar. -/
def Obligations.LiveEntriesChangeOnlyByTakes : Prop :=
  ∀ (c : Instr) (s t : State) (d : Fin 96), exec c s = .next t → t.live.get d ≠ s.live.get d →
    (∃ fbk selA selB selC, c = .pinReset fbk selA selB selC)
      ∨ ∃ (dom : Fin 5) (x : TakeItem), x ∈ s.takes.get dom ∧ x.body = .dest d (t.live.get d)
          ∧ FreeFor s (destItem d) x.stager

/-- Fallback control leaves TRIPPED only by a pin reset or by FALLBACK_DISARM on line C. -/
def Obligations.OnlyLineCUndoesATrip : Prop :=
  ∀ (c : Instr) (s t : State), s.fallback.state = .tripped → exec c s = .next t → t.fallback.state ≠ .tripped →
    (∃ fbk selA selB selC, c = .pinReset fbk selA selB selC) ∨ c = .fallbackDisarm .c

/-- But for a pin reset, no command changes the port of a control line that is not its own. -/
def Obligations.PortsAreSeparate : Prop :=
  ∀ (c : Instr) (s t : State) (l : Line), exec c s = .next t →
    (∀ fbk selA selB selC, c ≠ .pinReset fbk selA selB selC) → portLine? c ≠ some l → t.port l = s.port l

/-! ### Lanes -/

/-- LINE_START in UNSET, in LOST, in RUNNING in sequence (but for line 7), and in SEEKING short of a second complete
frame. A line that is short breaks the alignment in SEEKING. That a line start other than 1 while the receiver awaits
line 1 leaves the count of complete frames as it is, is the model's choice (assumption 36). Where the words complete
the area of a carriage line of a RUNNING lane, the event of that area is taken first, and so is what is left of an
earlier one before a line start in sequence. Nothing else changes. The words operand and `inFrame` are the model's
(assumption 4), and so are what is left (assumptions 11 and 32) and the zeros in the detail of LANE_STATE (assumption
34). -/
def Obligations.LineStartsAreTaken : Prop :=
  ∀ (l : Fin 4) (n : BitVec 11) (ws : List LaneWord) (bf : Bool) (s s1 : State),
    s1 = ((s.updRelay l fun r => (r.receive ws).begin n).updLane l fun r => { r with lastLine := some n }) →
    ((s.lanes.get l).state = .unset → exec (.lineStart l n ws bf) s = .next s1)
    ∧ ((s.lanes.get l).state = .lost →
        exec (.lineStart l n ws bf) s
          = .next ((s1.raise .laneState l.val (3 + 1 * 4)).updLane l fun r =>
              { r with state := .seeking, frames := 0, expected := if n.toNat = 1 then some 2 else none,
                       timer := true }))
    ∧ ((s.lanes.get l).state = .running → NothingLeft s l → ¬ EndsShort s l ws → ¬ RaisesArea s l ws →
        n.toNat = (s.lanes.get l).expected.getD 1 → n.toNat ≠ 7 →
        exec (.lineStart l n ws bf) s = .next (s1.updLane l fun r =>
          { r with expected := if n.toNat < linesPerFrame r.fmt then some (n.toNat + 1) else none, timer := true,
                   inFrame := true }))
    ∧ (RaisesArea s l ws
        ∨ ((s.lanes.get l).state = .running ∧ ¬ EndsShort s l ws ∧ n.toNat = (s.lanes.get l).expected.getD 1) →
      ∃ u, exec (.carriageLine l ⟨ws, none⟩) s = .next u
        ∧ exec (.lineStart l n ws bf) s = exec (.lineStart l n [] bf) u)
    ∧ ((s.lanes.get l).state = .seeking → EndsShort s l ws →
        exec (.lineStart l n ws bf) s
          = .next (s1.updLane l fun r =>
              { r with frames := 0, expected := if n.toNat = 1 then some 2 else none, timer := true }))
    ∧ ((s.lanes.get l).state = .seeking → ¬ EndsShort s l ws → (s.lanes.get l).expected = none →
        exec (.lineStart l n ws bf) s
          = .next (s1.updLane l fun r =>
              { r with expected := if n.toNat = 1 then some 2 else none, timer := true }))
    ∧ (∀ e, (s.lanes.get l).state = .seeking → ¬ EndsShort s l ws → (s.lanes.get l).expected = some e →
        (n.toNat = e → n.toNat ≠ linesPerFrame (s.lanes.get l).fmt →
          exec (.lineStart l n ws bf) s
            = .next (s1.updLane l fun r => { r with expected := some (n.toNat + 1), timer := true }))
        ∧ (n.toNat = e → n.toNat = linesPerFrame (s.lanes.get l).fmt → (s.lanes.get l).frames = 0 →
          exec (.lineStart l n ws bf) s
            = .next (s1.updLane l fun r => { r with frames := 1, expected := none, timer := true }))
        ∧ (n.toNat ≠ e →
          exec (.lineStart l n ws bf) s
            = .next (s1.updLane l fun r =>
                { r with frames := 0, expected := if n.toNat = 1 then some 2 else none, timer := true })))

/-- LINE_START in RUNNING after a short line, or out of sequence: FORMAT is offered with the short line's number, else
with the received one, the lane leaves RUNNING for SEEKING, and the line start is evaluated as though awaiting line 1.
What the lane's groups, stores and builder then are is `LeftRunning`: no group is present, the strip stores are
flushed, the embed stores hold, and the other lanes' are as they were. The lane keeps its declared format and its
packet counters. Its one event raises LANE_FAULT, if the offer
finds the record empty, before GROUP_STATE of the groups that were PRESENT; that these come in ascending order and
before LANE_STATE is the model's choice (assumption 17). A bypass that was being entered is entered, and one that was
being left is left, with its triggers. With part of an area's event left, FORMAT is offered before the rest of it
(assumption 32); a line start whose words raise an area's event first is that of `LineStartsAreTaken`; which number
FORMAT carries where a line is both short and followed out of sequence is assumption 6; the zeros in the details are
assumption 34, the event numbers assumption 35. -/
def Obligations.LineStartOutOfSequence : Prop :=
  ∀ (l : Fin 4) (n m : BitVec 11) (ws : List LaneWord) (bf : Bool) (s : State), (s.lanes.get l).state = .running →
    ((∃ x, (s.relays.get l).input = some x ∧ x.words.length + ws.length < 280 ∧ m = x.number)
      ∨ (¬ EndsShort s l ws ∧ ¬ RaisesArea s l ws ∧ n.toNat ≠ (s.lanes.get l).expected.getD 1 ∧ m = n)) →
    (StoresOk s → NothingLeft s l →
      ∃ t, exec (.lineStart l n ws bf) s = .next t ∧ (t.lanes.get l).state = .seeking
        ∧ (t.lanes.get l).expected = (if n.toNat = 1 then some 2 else none) ∧ (t.lanes.get l).frames = 0
        ∧ (t.lanes.get l).timer = true ∧ (t.lanes.get l).lastLine = some n ∧ LeftRunning s t l
        ∧ (t.lanes.get l).format = (s.lanes.get l).format ∧ CountersKept s t l
        ∧ t.relays.get l = ((s.relays.get l).receive ws).begin n
        ∧ t.faults.get l = captureAfter (s.faults.get l) .format m s.ref.frameCount
        ∧ t.events = ((s.raiseAs s.eventNo s.ref.frameCount (laneFaultOf (s.faults.get l) l .format m)).raiseAs
            s.eventNo s.ref.frameCount (s.absentNotices l (fun _ => true) ++ [(.laneState, l.val, 2 + 1 * 4)])).events
        ∧ (∀ l', l' ≠ l → t.relays.get l' = s.relays.get l' ∧ t.faults.get l' = s.faults.get l')
        ∧ Keeps (.relays :: .faults :: exitParts) s t)
    ∧ ∃ t, exec (.lineStart l n ws bf) s = .next t ∧ (t.lanes.get l).state = .seeking
      ∧ t.faults.get l = ((((s.updRelay l fun r => r.receive ws).newEvent.offerFault l .format
          { line := m, stamp := s.ref.frameCount, no := s.eventNo }).finishWork l).faults.get l)

/-- LINE_START of line L that completes the second consecutive complete frame: the lane enters RUNNING, its builder
awaits the first switch line, and LANE_STATE is raised, with zeros where its detail has nothing (assumption 34). That
line starts other than 1 between the two frames leave the count at 1 is the model's choice (assumption 36). -/
def Obligations.AlignmentEntersRunning : Prop :=
  ∀ (l : Fin 4) (n : BitVec 11) (ws : List LaneWord) (bf : Bool) (s : State),
    (s.lanes.get l).state = .seeking → ¬ EndsShort s l ws → (s.lanes.get l).expected = some n.toNat →
    n.toNat = linesPerFrame (s.lanes.get l).fmt → (s.lanes.get l).frames = 1 →
    exec (.lineStart l n ws bf) s
      = .next ((((s.updRelay l fun r => (r.receive ws).begin n).updLane l fun r =>
          { r with state := .running, lastLine := some n, frames := 0, expected := none, index := 0, timer := true,
                   inFrame := false }).updBuilder l fun b => { b with phase := .awaiting }).raise
            .laneState l.val (1 + 2 * 4))

/-- LOSS_TIMER_EXPIRY: in RUNNING the lane is LOST, its groups, stores and builder are by `LeftRunning` (no group is
present, the strip stores are flushed, the embed stores hold, the other lanes' are as they were), its declared format
and its packet counters are kept, LOSS is offered, and
LANE_FAULT, if the offer raises it, comes before GROUP_STATE of the groups that were PRESENT; that these come in
ascending order and before LANE_STATE is the model's choice (assumption 17). A bypass that was being entered is
entered, and one that was being left is left, with its triggers. In SEEKING the alignment is cleared, the timer stops
(assumption 7), and nothing else changes. With part of an area's event left, LOSS is offered before the rest of it
(assumption 32); the zeros in the details are assumption 34, the event numbers assumption 35. -/
def Obligations.LossTimerExpires : Prop :=
  ∀ (l : Fin 4) (s : State), (s.lanes.get l).timer = true →
    ((s.lanes.get l).state = .seeking →
      exec (.lossTimerExpiry l) s
        = .next (s.updLane l fun r => { r with frames := 0, expected := none, timer := false }))
    ∧ (∀ n, (s.lanes.get l).state = .running → (s.lanes.get l).lastLine = some n →
        (StoresOk s → NothingLeft s l →
          ∃ t, exec (.lossTimerExpiry l) s = .next t ∧ (t.lanes.get l).state = .lost
            ∧ (t.lanes.get l).timer = false ∧ (t.lanes.get l).lastLine = some n ∧ LeftRunning s t l
            ∧ (t.lanes.get l).format = (s.lanes.get l).format ∧ CountersKept s t l
            ∧ t.faults.get l = captureAfter (s.faults.get l) .loss n s.ref.frameCount
            ∧ t.events = ((s.raiseAs s.eventNo s.ref.frameCount (laneFaultOf (s.faults.get l) l .loss n)).raiseAs
                s.eventNo s.ref.frameCount
                (s.absentNotices l (fun _ => true) ++ [(.laneState, l.val, 2 + 3 * 4)])).events
            ∧ (∀ l', l' ≠ l → t.faults.get l' = s.faults.get l')
            ∧ Keeps (.faults :: exitParts) s t)
        ∧ ∃ t, exec (.lossTimerExpiry l) s = .next t ∧ (t.lanes.get l).state = .lost
          ∧ t.faults.get l = ((s.newEvent.offerFault l .loss
              { line := n, stamp := s.ref.frameCount, no := s.eventNo }).finishWork l).faults.get l)

/-- OUTPUT_LINE_START presents the oldest line received and not yet presented; with none waiting it presents the line
in progress. Nothing else changes. The waiting lines are the model's form of the output delay (assumption 23). -/
def Obligations.OutputLinesFollowInputLines : Prop :=
  ∀ (l : Fin 4) (s : State), (s.relays.get l).shown = false →
    (∀ x rest, (s.relays.get l).waiting = x :: rest →
      ∃ t, exec (.outputLineStart l) s = .next t ∧ (t.relays.get l).presented = some x
        ∧ (t.relays.get l).waiting = rest ∧ (t.relays.get l).input = (s.relays.get l).input
        ∧ (∀ l', l' ≠ l → t.relays.get l' = s.relays.get l') ∧ Keeps [.relays] s t)
    ∧ (∀ x, (s.relays.get l).waiting = [] → (s.relays.get l).input = some x →
      ∃ t, exec (.outputLineStart l) s = .next t ∧ (t.relays.get l).presented = some x
        ∧ (t.relays.get l).waiting = [] ∧ (t.relays.get l).input = some x
        ∧ (∀ l', l' ≠ l → t.relays.get l' = s.relays.get l') ∧ Keeps [.relays] s t)

/-- CARRIAGE_LINE with words that complete the area of a carriage line: the accumulator steps; where R120's conditions
hold the area is rebuilt, and otherwise forwarded word for word. The builder takes the event where the parser leaves it
(`ParsesTo`, whose parts `PacketReachesStripStore` gives), so the queues hold the parser's notices and then the
builder's; on line L the frame end raises its own after them. A rebuilt area begins with the kept packets, then has
what the builder places for the groups 1 to 4 in this order, and is closed with filler. What the builder does for a
group: nothing for one that is not embedding or for which no set is due; a packet of the smaller of 4 and n + owed sets
if it fits, each set read from the group's store, with the next sequence count, or the one after it if a set was
returned with D; else the sets are deferred, and what exceeds 8 owed sets is given up with DEFER_LOSS. A read of a
FLOWING store is normal, REPEAT, SKIP or an underflow, and each of those of a packet raises STORE_FAULT or DATA_SLIP
for what it is. Foreign packets and those of PASS groups are kept. The accesses of the event may be taken in two parts,
which come to the same if nothing falls between. Words that complete no such area (on lines 7 and 8, on a lane that is
not RUNNING, on a line that failed its checks, or too few) are only received, and the area is forwarded word for word
(with nothing left of an earlier event, assumption 5). The operands are the model's (assumptions 4 and 11), and so are
the event's numbers (assumption 35), the ascending order of the notices of one correction (assumption 17) and the zeros
in the details (assumption 34). -/
def Obligations.CarriageLineIsBuilt : Prop :=
  (∀ (l : Fin 4) (n : BitVec 11) (w0 ws area : List LaneWord) (k : Nat) (s : State), CompletesArea s l n w0 ws →
    area = (w0 ++ ws).take 280 →
    k = (if n.toNat = 1 ∧ (s.lanes.get l).index = 0 then 0 else (s.builders.get l).acc)
          + setsPerSequence (s.lanes.get l).fmt →
    ∃ t y, exec (.carriageLine l ⟨ws, none⟩) s = .next t ∧ t.work.get l = .idle
      ∧ (t.builders.get l).acc = k % carriagePerSequence (s.lanes.get l).fmt
      ∧ (t.relays.get l).input = some y ∧ y.number = n ∧ y.words = w0 ++ ws
      ∧ (∃ u, ParsesTo s l n ws area u
          ∧ (IsRebuilt s l → y.area.length = 280 ∧ keptOf s l area <+: y.area
            ∧ ∃ v w, BuildsTo s l n area k u v w ∧ y.area = w ++ List.replicate (280 - w.length) 0
                ∧ t.embed = v.embed ∧ t.embCounts = v.embCounts
                ∧ (n.toNat ≠ linesPerFrame (s.lanes.get l).fmt → t.events = v.events ∧ t.eventNo = v.eventNo))
          ∧ (¬ IsRebuilt s l → y.area = area ∧ t.embed = s.embed ∧ t.embCounts = s.embCounts
            ∧ (n.toNat ≠ linesPerFrame (s.lanes.get l).fmt → t.events = u.events ∧ t.eventNo = u.eventNo)))
      ∧ (∀ l', l' ≠ l → t.relays.get l' = s.relays.get l' ∧ t.builders.get l' = s.builders.get l'
          ∧ t.lanes.get l' = s.lanes.get l')
      ∧ Keeps lineParts s t)
  ∧ (∀ (l : Fin 4) (n : BitVec 11) (w0 ws : List LaneWord) (j : Nat) (s : State), CompletesArea s l n w0 ws →
      ∃ u, exec (.carriageLine l ⟨ws, some j⟩) s = .next u
        ∧ exec (.carriageLine l ⟨[], none⟩) u = exec (.carriageLine l ⟨ws, none⟩) s)
  ∧ (∀ (l : Fin 4) (ws : List LaneWord) (j : Option Nat) (s : State), ¬ RaisesArea s l ws → NothingLeft s l →
      ∃ t, exec (.carriageLine l ⟨ws, j⟩) s = .next t ∧ t = s.updRelay l (fun r => r.receive ws)
        ∧ (∀ x, (s.relays.get l).input = some x →
            ∃ y, (t.relays.get l).input = some y ∧ y.number = x.number ∧ y.words = x.words ++ ws
              ∧ (x.rebuilt = none → y.area = (x.words ++ ws).take 280)
              ∧ ((s.relays.get l).shown = true → (t.relays.get l).presented = some y))
        ∧ ((s.relays.get l).input = none → t = s))
  ∧ (∀ (l c : Fin 4) (ev : AreaEvent) (n m owed : Nat) (used : List LaneWord) (st : Store) (next : Byte) (s : State),
      s.embed.get (groupNo l c) = st → s.embCounts.get (groupNo l c) = { next, owed } → m = min 4 (n + owed) →
      (s.plan.get (groupNo l c) ≠ .embed ∨ st.state ≠ .flowing ∨ n + owed = 0 →
        s.dealGroup l c ev n used = (s, used))
      ∧ (s.plan.get (groupNo l c) = .embed → st.state = .flowing → 0 < n + owed →
        (used.length + (7 + 12 * m) ≤ 280 →
          ∃ (s1 r : State) (count : Byte) (st' : Store) (sets : List SampleSet),
            takenSets m st = (st', sets) ∧ sets.length = m
            ∧ count = (if ∃ x ∈ sets, x.d = true then next + 1 else next)
            ∧ s.dealGroup l c ev n used = (s1, used ++ (makePacket c count sets).words)
            ∧ s1.embed = s.embed.set (groupNo l c) st'
            ∧ s1.embCounts = s.embCounts.set (groupNo l c) { next := count + 1, owed := n + owed - m }
            ∧ r = (takenReports (16 + (groupNo l c).val) (throughEmbed s (groupNo l c)) m st).foldl
                (fun s ns => s.raiseAll ns) s
            ∧ s1.events = r.events ∧ s1.eventNo = r.eventNo
            ∧ Keeps [.embed, .embCounts, .events] s s1)
        ∧ (280 < used.length + (7 + 12 * m) → n + owed ≤ 8 →
          s.dealGroup l c ev n used = (s.updCount (groupNo l c) fun _ => { next, owed := n + owed }, used))
        ∧ (280 < used.length + (7 + 12 * m) → 8 < n + owed →
          s.dealGroup l c ev n used
            = (((s.updEmbed (groupNo l c) fun st =>
                  { st with sets := st.sets.drop (n + owed - 8), readMark := st.readMark || !st.sets.isEmpty }).updCount
                (groupNo l c) fun _ => { next, owed := 8 }).raiseAs (ev.no + 1) ev.stamp
                  [(.deferLoss, 16 + (groupNo l c).val, n + owed - 8)], used))))
  ∧ (∀ (st : Store) (b : Bool), st.state = .flowing →
      (st.sets = [] →
        st.read false
          = ({ st with readMark := true, reads := if st.reads < 480 then st.reads + 1 else 480, lastFault := true,
                       since := .fill 3 true, latch := true, underflows := satInc st.underflows },
             { ch := st.last.ch.map fun x => { x with v := true }, d := false }))
      ∧ (∀ h rest, st.sets = h :: rest → (st.reads = 480 → 8 < st.fill ∧ st.fill < 56) →
        st.read b
          = ({ st with sets := rest, readMark := false, last := { h with d := h.d || st.readMark },
                       reads := if st.reads < 480 then st.reads + 1 else 480, lastFault := false },
             { h with d := h.d || st.readMark }))
      ∧ (st.reads = 480 → 1 ≤ st.fill → st.fill ≤ 8 →
        st.read b
          = ({ st with reads := 0, corrections := satInc st.corrections, lastFault := false },
             { st.last with d := false }))
      ∧ (∀ h h2 rest, st.sets = h :: h2 :: rest → st.reads = 480 → 56 ≤ st.fill →
        st.read b
          = ({ st with sets := rest, readMark := false, last := { h2 with d := h2.d || (h.d || st.readMark) },
                       reads := 0, corrections := satInc st.corrections, lastFault := false },
             { h2 with d := h2.d || (h.d || st.readMark) })))
  ∧ (∀ (l : Fin 4) (p : Packet) (s : State), s.keeps l p = true ↔
      kindGroup p.kind = none ∨ ∃ c, kindGroup p.kind = some c ∧ s.plan.get (groupNo l c) = .pass)

/-- CARRIAGE_LINE with one audio packet whose sets have room in the group's store: its sets join the strip store in
order, the first one with D if a discontinuity is pending, its count becomes the last count, and it is counted as
accepted; a count out of sequence is a gap, and an absent group becomes PRESENT. Then what the event is made of: the
packets of the area are judged in area order, each one's sets written before the next is judged (what a write makes of
a strip store in each of its states, and the notice of an overflow), a walk that ends on a failure reports one
malformed packet (`ParsesTo`), the builder follows, with its notices after the parser's (none where the area is
forwarded), and on line L the frame end. A packet with a wrong checksum or a duplicate in
the line writes nothing and is counted and offered; a foreign one is passed over; an accepted one raises GROUP_STATE
for an absent group. At the frame end a PRESENT group without an accepted packet becomes ABSENT, and the frame-sequence
index advances. The words operand is the model's (assumption 4), and so are the work that takes the accesses of an
event one by one (assumption 11), the ascending order of GROUP_STATE at the frame end (assumption 17), the zeros in the
detail of LANE_FAULT (assumption 34) and the numbers of the events (assumption 35). -/
def Obligations.PacketReachesStripStore : Prop :=
  (∀ (l c : Fin 4) (n : BitVec 11) (k : Byte) (sets base : List SampleSet) (gap pend : Bool) (s : State)
      (gs : GroupState) (st : Store),
    CompletesArea s l n [] (fillArea (makePacket c k sets).words) → sets.length ≤ 4 → (∀ y ∈ sets, y.d = false) →
    s.groups.get (groupNo l c) = gs → s.strip.get (groupNo l c) = st → st.writeMark = false →
    st.state ≠ .holding → base = (if st.state = .idle then [] else st.sets) → base.length + sets.length ≤ 64 →
    gap = (match gs.lastCount with | some k0 => decide (k ≠ k0 + 1) | none => false) →
    pend = (gs.pendingD || gap || !gs.present || st.state == .idle) →
    ∃ t, exec (.carriageLine l ⟨fillArea (makePacket c k sets).words, none⟩) s = .next t
      ∧ (t.strip.get (groupNo l c)).sets
          = base ++ (match sets with | [] => [] | y :: ys => { y with d := pend } :: ys)
      ∧ (t.strip.get (groupNo l c)).state
          = (if st.state = .flowing ∨ base.length < 32 ∧ 32 ≤ base.length + sets.length then .flowing else .priming)
      ∧ (t.groups.get (groupNo l c)).lastCount = some k ∧ (t.groups.get (groupNo l c)).present = true
      ∧ (t.groups.get (groupNo l c)).pendingD = (pend && sets.isEmpty)
      ∧ (t.lanes.get l).accepted = satInc (s.lanes.get l).accepted
      ∧ (t.lanes.get l).gaps = (if gap then satInc (s.lanes.get l).gaps else (s.lanes.get l).gaps)
      ∧ (t.lanes.get l).checksum = (s.lanes.get l).checksum ∧ (t.lanes.get l).malformed = (s.lanes.get l).malformed
      ∧ t.faults.get l = (if gap then captureAfter (s.faults.get l) .seqGap n s.ref.frameCount else s.faults.get l))
  ∧ (∀ (l : Fin 4) (n : BitVec 11) (w0 ws area : List LaneWord) (k : Nat) (s : State), CompletesArea s l n w0 ws →
      area = (w0 ++ ws).take 280 →
      k = (if n.toNat = 1 ∧ (s.lanes.get l).index = 0 then 0 else (s.builders.get l).acc)
            + setsPerSequence (s.lanes.get l).fmt →
      ∃ t s2 s3 : State, ParsesTo s l n ws area s2 ∧ Keeps [.relays, .builders, .embed, .embCounts, .events] s2 s3
        ∧ (IsRebuilt s l → ∃ v w, BuildsTo s l n area k s2 v w ∧ s3.events = v.events ∧ s3.eventNo = v.eventNo)
        ∧ (¬ IsRebuilt s l → s3.events = s2.events ∧ s3.eventNo = s2.eventNo)
        ∧ t = (if n.toNat = linesPerFrame (s.lanes.get l).fmt then s3.frameEnd l else s3).setWork l .idle
        ∧ exec (.carriageLine l ⟨ws, none⟩) s = .next t)
  ∧ (∀ (l : Fin 4) (ev : AreaEvent) (pos : Nat) (p : Packet) (ps : List (Nat × Packet)) (s : State),
      s.judgeAll l ev [] = (s, [])
      ∧ ∃ s1 v xs s2 es, s.judgePacket l ev p = (s1, v, xs)
          ∧ (xs.foldl (fun s x => s.writeSet x.1 x.2) s1).judgeAll l ev ps = (s2, es)
          ∧ s.judgeAll l ev ((pos, p) :: ps) = (s2, { start := pos, packet := p, verdict := v } :: es))
  ∧ (∀ (l c : Fin 4) (ev : AreaEvent) (p : Packet) (s : State) (gs : GroupState) (st : Store),
      s.groups.get (groupNo l c) = gs → s.strip.get (groupNo l c) = st →
      (kindGroup p.kind = none → s.judgePacket l ev p = (s, .foreign, []))
      ∧ (kindGroup p.kind = some c → p.check ≠ p.sum →
        s.judgePacket l ev p
          = (((s.updGroup (groupNo l c) fun gs => { gs with pendingD := true }).updLane l fun r =>
                { r with checksum := satInc r.checksum }).offerFault l .checksum ev, .checksumFailure, []))
      ∧ (kindGroup p.kind = some c → p.check = p.sum → gs.seenLine = true →
        s.judgePacket l ev p
          = ((s.updLane l fun r => { r with malformed := satInc r.malformed }).offerFault l .malformed ev,
             .duplicate, []))
      ∧ (kindGroup p.kind = some c → p.check = p.sum → gs.seenLine = false → ∀ gap : Bool,
        gap = (match gs.lastCount with | some k0 => decide (wordByte p.seq ≠ k0 + 1) | none => false) →
        ∃ t, s.judgePacket l ev p = (t, .accepted, (payloadSets p.payload).map fun x => (groupNo l c, x))
          ∧ t.groups.get (groupNo l c)
              = { present := true, lastCount := some (wordByte p.seq),
                  pendingD := gs.pendingD || gap || !gs.present || st.state == .idle, seenFrame := true,
                  seenLine := true }
          ∧ t.strip.get (groupNo l c)
              = (if st.state = .idle then { st with state := .priming, sets := [], reads := 0 } else st)
          ∧ (∀ g, g ≠ groupNo l c → t.groups.get g = s.groups.get g ∧ t.strip.get g = s.strip.get g)
          ∧ t.lanes = s.lanes.upd l (fun r =>
              { r with accepted := satInc r.accepted, gaps := if gap then satInc r.gaps else r.gaps })
          ∧ t.faults = s.faults.set l
              (if gap then captureAfter (s.faults.get l) .seqGap ev.line ev.stamp else s.faults.get l)
          ∧ t.events = ((s.raiseAs ev.no ev.stamp
                (if gap then laneFaultOf (s.faults.get l) l .seqGap ev.line else [])).raiseAs ev.no s.ref.frameCount
              (if gs.present then [] else [(.groupState, (groupNo l c).val, 1)])).events
          ∧ Keeps [.groups, .strip, .lanes, .faults, .events] s t))
  ∧ (∀ (g : Fin 16) (x : SampleSet) (s : State),
      (s.writeSet g x).strip = s.strip.upd g (fun st => st.write { x with d := (s.groups.get g).pendingD })
      ∧ (s.writeSet g x).groups = s.groups.upd g (fun gs => { gs with pendingD := false })
      ∧ (s.writeSet g x).events = (s.raiseAll (writeReport g.val (s.strip.get g))).events
      ∧ Keeps [.strip, .groups, .events] s (s.writeSet g x))
  ∧ (∀ (st : Store) (x y : SampleSet), y = { x with d := x.d || st.writeMark } →
      (st.state = .idle → st.write x = st)
      ∧ (st.state = .priming → st.fill < 64 →
        st.write x
          = { st with state := if st.fill = 31 then .flowing else .priming, sets := st.sets ++ [y],
                      reads := if st.fill = 31 then 0 else st.reads, writeMark := false, lastFault := false })
      ∧ (st.state = .flowing → st.fill < 64 →
        st.write x = { st with sets := st.sets ++ [y], writeMark := false, lastFault := false })
      ∧ (st.state = .priming ∨ st.state = .flowing → 64 ≤ st.fill →
        st.write x = { st with writeMark := true, lastFault := true, since := .fill 3 true, latch := true,
                               overflows := satInc st.overflows }))
  ∧ (∀ (l : Fin 4) (s : State), ∃ t, s.frameEnd l = t
      ∧ (∀ c : Fin 4,
          if (s.groups.get (groupNo l c)).present = true ∧ (s.groups.get (groupNo l c)).seenFrame = false then
            t.groups.get (groupNo l c)
              = { s.groups.get (groupNo l c) with present := false, lastCount := none, pendingD := false,
                                                  seenFrame := false }
            ∧ (t.strip.get (groupNo l c)).state = .idle
            ∧ ((s.strip.get (groupNo l c)).state ≠ .idle → (t.strip.get (groupNo l c)).sets = [])
          else t.groups.get (groupNo l c) = { s.groups.get (groupNo l c) with seenFrame := false }
            ∧ t.strip.get (groupNo l c) = s.strip.get (groupNo l c))
      ∧ (∀ g, groupLane g ≠ l → t.groups.get g = s.groups.get g ∧ t.strip.get g = s.strip.get g)
      ∧ t.lanes = s.lanes.upd l (fun r =>
          { r with index := if r.index + 1 < framesPerSequence r.fmt then r.index + 1 else 0 })
      ∧ t.events = (s.raiseAll ((four.filter fun c => (s.groups.get (groupNo l c)).present
            && !(s.groups.get (groupNo l c)).seenFrame).map fun c => (.groupState, (groupNo l c).val, 0))).events
      ∧ t.eventNo = (if ∃ c : Fin 4, (s.groups.get (groupNo l c)).present = true
            ∧ (s.groups.get (groupNo l c)).seenFrame = false then s.eventNo + 1 else s.eventNo)
      ∧ Keeps [.groups, .strip, .lanes, .events] s t)

/-! ### Switch lines -/

/-- LINE_START of line 7 of a RUNNING lane out of bypass with an empty take list: the builder is ENGAGED, and each
group whose mode is EMBED and whose store is not FLOWING enters EMBED. The line is begun on the relay, and the receiver
expects line 8. -/
def Obligations.SwitchLineEntersEmbed : Prop :=
  ∀ (l : Fin 4) (ws : List LaneWord) (bf : Bool) (s : State),
    (s.lanes.get l).state = .running → NothingLeft s l → ¬ EndsShort s l ws → ¬ RaisesArea s l ws →
    (s.lanes.get l).expected = some 7 → (s.builders.get l).bypass = .out → s.takes.get (laneDomain l) = [] →
    ∃ t, exec (.lineStart l 7 ws bf) s = .next t ∧ TookLine7 s t l ws
      ∧ t.builders.get l = { s.builders.get l with phase := .engaged }
      ∧ (∀ c : Fin 4,
          if s.plan.get (groupNo l c) = .embed ∧ (s.embed.get (groupNo l c)).state ≠ .flowing then
            t.embed.get (groupNo l c) = { s.embed.get (groupNo l c) with state := .flowing, reads := 0 }
              ∧ t.embCounts.get (groupNo l c) = { next := 0, owed := 0 }
              ∧ ∀ ch : Fin 4, (s.live.get (groupDest (groupNo l c) ch)).mode = .pcm →
                  (t.engine.get (groupDest (groupNo l c) ch)).trigger = true
          else
            t.embed.get (groupNo l c) = s.embed.get (groupNo l c)
              ∧ t.embCounts.get (groupNo l c) = s.embCounts.get (groupNo l c))
      ∧ (∀ g, groupLane g ≠ l → t.embed.get g = s.embed.get g ∧ t.embCounts.get g = s.embCounts.get g)
      ∧ Keeps [.relays, .lanes, .builders, .embed, .embCounts, .engine] s t

/-- LINE_START of line 7 of a RUNNING lane with an empty take list: from ENTERING the lane enters bypass, its stores
hold, with their sets, and nothing is owed; in bypass nothing moves; from LEAVING the lane leaves bypass, its PCM
destinations get a trigger, and its EMBED groups enter EMBED. -/
def Obligations.SwitchLineMovesBypass : Prop :=
  ∀ (l : Fin 4) (ws : List LaneWord) (bf : Bool) (s : State), StoresOk s →
    (s.lanes.get l).state = .running → NothingLeft s l → ¬ EndsShort s l ws → ¬ RaisesArea s l ws →
    (s.lanes.get l).expected = some 7 → s.takes.get (laneDomain l) = [] →
    ((s.builders.get l).bypass = .entering →
      ∃ t, exec (.lineStart l 7 ws bf) s = .next t ∧ TookLine7 s t l ws
        ∧ t.builders.get l = { s.builders.get l with phase := .engaged, bypass := .inside }
        ∧ (∀ c : Fin 4, (t.embed.get (groupNo l c)).state = .holding
            ∧ (t.embed.get (groupNo l c)).sets = (s.embed.get (groupNo l c)).sets
            ∧ (t.embCounts.get (groupNo l c)).owed = 0
            ∧ (t.embCounts.get (groupNo l c)).next = (s.embCounts.get (groupNo l c)).next)
        ∧ Keeps [.relays, .lanes, .builders, .embed, .embCounts] s t)
    ∧ ((s.builders.get l).bypass = .inside →
      ∃ t, exec (.lineStart l 7 ws bf) s = .next t ∧ TookLine7 s t l ws
        ∧ t.builders.get l = { s.builders.get l with phase := .engaged } ∧ Keeps [.relays, .lanes, .builders] s t)
    ∧ ((s.builders.get l).bypass = .leaving →
      ∃ t, exec (.lineStart l 7 ws bf) s = .next t ∧ TookLine7 s t l ws
        ∧ t.builders.get l = { s.builders.get l with phase := .engaged, bypass := .out }
        ∧ (∀ n : Fin 16, (s.live.get (laneDest l n)).mode = .pcm → (t.engine.get (laneDest l n)).trigger = true)
        ∧ (∀ c : Fin 4, s.plan.get (groupNo l c) = .embed → (t.embed.get (groupNo l c)).state = .flowing)
        ∧ Keeps [.relays, .lanes, .builders, .embed, .embCounts, .engine] s t)

/-- LINE_START of line 7 of a RUNNING lane: the lane's take items are dealt with, in either order with the builder,
which the operand `bf` gives (assumption 10). A destination that another line protects is refused, one with a crossfade
in flight is held, every other one gets its entry, with the crossfade of its ramp and the CHANGED mark of its monitor;
a plan group that no other line protects gets its mode. With the mode that each group then has, out of bypass an EMBED
group embeds, entering if its store was not FLOWING, and on the way into bypass every group leaves EMBED; a group that
leaves it keeps its sets and is owed nothing. TAKE_REFUSED comes in list order and TAKE_DONE after it, in ascending
order of tag, as the notices of one event (assumption 35); the zeros in their details are assumption 34. -/
def Obligations.SwitchLineAppliesTakes : Prop :=
  ∀ (l : Fin 4) (ws : List LaneWord) (bf : Bool) (s : State), TakesOk s →
    (s.lanes.get l).state = .running → NothingLeft s l → ¬ EndsShort s l ws → ¬ RaisesArea s l ws →
    (s.lanes.get l).expected = some 7 →
    ∃ t, exec (.lineStart l 7 ws bf) s = .next t ∧ TookLine7 s t l ws
      ∧ DealsWithTakes s t (laneDomain l)
      ∧ (∀ it : Fin 112, findItem (s.takes.get (laneDomain l)) it = none →
          (∀ d, it = destItem d → t.live.get d = s.live.get d ∧ t.monitors.get d = s.monitors.get d
            ∧ (t.engine.get d = s.engine.get d ∨ t.engine.get d = { s.engine.get d with trigger := true }))
          ∧ (∀ g, it = planItem g → t.plan.get g = s.plan.get g))
      ∧ t.builders.get l = { s.builders.get l with
          phase := .engaged
          bypass := match (s.builders.get l).bypass with
            | .out => .out
            | .entering => .inside
            | .inside => .inside
            | .leaving => .out }
      ∧ ((s.builders.get l).bypass = .leaving → ∀ n : Fin 16, (s.live.get (laneDest l n)).mode = .pcm →
          (t.live.get (laneDest l n)).mode = .pcm → (t.engine.get (laneDest l n)).trigger = true)
      ∧ (∀ c : Fin 4,
          if (s.builders.get l).bypass = .entering
              ∨ t.plan.get (groupNo l c) ≠ .embed ∧ s.plan.get (groupNo l c) = .embed then
            (t.embed.get (groupNo l c)).state ≠ .flowing
              ∧ (t.embed.get (groupNo l c)).sets = (s.embed.get (groupNo l c)).sets
              ∧ (t.embCounts.get (groupNo l c)).owed = 0
          else if t.plan.get (groupNo l c) = .embed ∧ (s.builders.get l).bypass ≠ .inside
              ∧ (s.embed.get (groupNo l c)).state ≠ .flowing then
            t.embed.get (groupNo l c) = { s.embed.get (groupNo l c) with state := .flowing, reads := 0 }
              ∧ t.embCounts.get (groupNo l c) = { next := 0, owed := 0 }
              ∧ ∀ ch : Fin 4, (s.live.get (groupDest (groupNo l c) ch)).mode = .pcm →
                  (t.live.get (groupDest (groupNo l c) ch)).mode = .pcm →
                  (t.engine.get (groupDest (groupNo l c) ch)).trigger = true
          else
            t.embed.get (groupNo l c) = s.embed.get (groupNo l c)
              ∧ t.embCounts.get (groupNo l c) = s.embCounts.get (groupNo l c))
      ∧ (∀ g, groupLane g ≠ l → t.embed.get g = s.embed.get g ∧ t.embCounts.get g = s.embCounts.get g)
      ∧ t.events = (s.raiseAll (boundaryNotices s (laneDomain l))).events
      ∧ (∀ dom, dom ≠ laneDomain l → t.takes.get dom = s.takes.get dom)
      ∧ Keeps ([.relays, .lanes, .builders] ++ boundaryParts) s t

/-! ### Encodings -/

/-- A packet that the builder forms is read back whole by the parser: kind, count and sets. Its words are those of
Table 11-1, in its order, and so are the three words of a channel sample, formed and read. Then what the parser finds
at any position: filler where no mark stands; a failure where the first three words, the payload or the checksum word
would lie beyond the area, where the parity of the sequence or of the length word is wrong, or at an illegal length of
an audio packet; else a packet. The walk of an area goes on after each packet and ends on filler or on a failure. -/
def Obligations.PacketsRoundTrip : Prop :=
  (∀ (g : Fin 4) (seq : Byte) (sets : List SampleSet) (rest : List LaneWord),
    sets.length ≤ 4 → (∀ y ∈ sets, y.d = false) →
    findPacket ((makePacket g seq sets).words ++ rest) = .packet (makePacket g seq sets) rest
      ∧ kindGroup (makePacket g seq sets).kind = some g ∧ wordByte (makePacket g seq sets).seq = seq
      ∧ payloadSets (makePacket g seq sets).payload = sets
      ∧ (makePacket g seq sets).check = (makePacket g seq sets).sum)
  ∧ (∀ (g : Fin 4) (seq : Byte) (sets : List SampleSet), sets.length ≤ 4 →
      ∃ kind s p c : LaneWord,
        (makePacket g seq sets).words
            = [0x2A5, 0x15A, 0x3C3, kind, s, p] ++ (sets.flatMap fun y => y.ch.list.flatMap sampleWords) ++ [c]
          ∧ kind.toNat = 0xA1 + g.val ∧ s.toNat % 256 = seq.toNat ∧ OddParity s ∧ p.toNat % 256 = 12 * sets.length
          ∧ OddParity p ∧ (makePacket g seq sets).check = c)
  ∧ (∀ p : Packet, p.sum.toNat = ((p.kind :: p.seq :: p.len :: p.payload).map fun w => w.toNat).sum % 1024)
  ∧ (∀ x : Sample, ∃ w1 w2 w3 : LaneWord, sampleWords x = [w1, w2, w3]
      ∧ (∀ i, i < 10 → w1.getLsbD i = x.value.getLsbD i ∧ w2.getLsbD i = x.value.getLsbD (10 + i))
      ∧ (∀ i, i < 4 → w3.getLsbD i = x.value.getLsbD (20 + i))
      ∧ w3.getLsbD 4 = x.v ∧ w3.getLsbD 5 = x.u ∧ w3.getLsbD 6 = x.c ∧ w3.getLsbD 7 = x.z
      ∧ w3.getLsbD 8 = false ∧ w3.getLsbD 9 = false)
  ∧ (∀ (w1 w2 w3 : LaneWord) (x : Sample), wordsSample w1 w2 w3 = x →
      (∀ i, i < 10 → x.value.getLsbD i = w1.getLsbD i ∧ x.value.getLsbD (10 + i) = w2.getLsbD i)
      ∧ (∀ i, i < 4 → x.value.getLsbD (20 + i) = w3.getLsbD i)
      ∧ x.v = w3.getLsbD 4 ∧ x.u = w3.getLsbD 5 ∧ x.c = w3.getLsbD 6 ∧ x.z = w3.getLsbD 7)
  ∧ (∀ (f : Nat → LaneWord) (rest : List LaneWord), ∃ y : SampleSet,
      payloadSets ((List.range 12).map f ++ rest) = y :: payloadSets rest ∧ y.d = false
        ∧ ∀ i : Fin 4, y.ch.get i = wordsSample (f (3 * i.val)) (f (3 * i.val + 1)) (f (3 * i.val + 2)))
  ∧ (∀ ws : List LaneWord, ws.take 3 ≠ [0x2A5, 0x15A, 0x3C3] → findPacket ws = .filler)
  ∧ (∀ ws : List LaneWord, ws.length < 3 → findPacket (0x2A5 :: 0x15A :: 0x3C3 :: ws) = .broken)
  ∧ (∀ (kind seq len : LaneWord) (tail ws : List LaneWord) (P : Nat), P = len.toNat % 256 →
      ws = 0x2A5 :: 0x15A :: 0x3C3 :: kind :: seq :: len :: tail →
      (¬ (OddParity seq ∧ OddParity len) → findPacket ws = .broken)
      ∧ (OddParity seq → OddParity len →
        (0xA1 ≤ kind.toNat → kind.toNat ≤ 0xA4 → P % 12 ≠ 0 ∨ 48 < P → findPacket ws = .broken)
        ∧ (tail.length ≤ P → findPacket ws = .broken)
        ∧ ((0xA1 ≤ kind.toNat ∧ kind.toNat ≤ 0xA4 → P % 12 = 0 ∧ P ≤ 48) →
          ∀ (payload rest : List LaneWord) (check : LaneWord), payload.length = P → tail = payload ++ check :: rest →
            findPacket ws = .packet { kind, seq, len, payload, check } rest)))
  ∧ (∀ (k : LaneWord) (c : Fin 4), kindGroup k = some c ↔ k.toNat = 0xA1 + c.val)
  ∧ (∀ area : List LaneWord,
      (findPacket area = .filler → walkArea area = ([], 0, false))
      ∧ (findPacket area = .broken → walkArea area = ([], 0, true))
      ∧ (∀ p rest, findPacket area = .packet p rest →
        walkArea area = ((0, p) :: (walkArea rest).1.map fun x => (x.1 + (7 + p.payload.length), x.2),
          (walkArea rest).2.1 + (7 + p.payload.length), (walkArea rest).2.2)))

/-- The five bytes of an entry spell it back, and five bytes that spell an entry are its bytes; what they spell obeys
the DATA rule. The bytes hold the fields as Table 11-4 places them. -/
def Obligations.EntriesRoundTrip : Prop :=
  (∀ e : Entry, e.stageable = true → entry? (entryBytes e) = some e)
    ∧ (∀ e : Entry, ∃ b0 b1 b2 b3 b4 : Byte, entryBytes e = [b0, b1, b2, b3, b4]
        ∧ b0.toNat = e.primary.val + (if e.invert then 128 else 0)
        ∧ b1.toNat = (match e.secondary with | some n => n.val | none => 0x7F) + (if e.mode = .data then 128 else 0)
        ∧ b2.toNat = (match e.gain with | .code c => c.val | .off => 255)
        ∧ b3.toNat * 256 + b4.toNat = e.delay.val + 8192 * e.ramp.val)
    ∧ (∀ (bs : List Byte) (e : Entry), entry? bs = some e → entryBytes e = bs ∧ e.stageable = true)

/-- The 32 bits of a serial slot spell the sample back. In the order sent they are the value, most significant bit
first, V, U, C, Z and four bits of 0; an input slot is read in the same order, its last four bits ignored. The 512 bits
of a port's frame are its 16 slots, slot 0 first. -/
def Obligations.SlotsRoundTrip : Prop :=
  (∀ x : Sample, slotSample (slotBits x) = x ∧ (slotBits x).extractLsb' 0 4 = 0)
    ∧ (∀ x : Sample, (∀ i, i < 24 → (slotBits x).getMsbD i = x.value.getMsbD i)
        ∧ (slotBits x).getMsbD 24 = x.v ∧ (slotBits x).getMsbD 25 = x.u ∧ (slotBits x).getMsbD 26 = x.c
        ∧ (slotBits x).getMsbD 27 = x.z ∧ ∀ i, 28 ≤ i → (slotBits x).getMsbD i = false)
    ∧ (∀ b : BitVec 32, (∀ i, i < 24 → (slotSample b).value.getMsbD i = b.getMsbD i)
        ∧ (slotSample b).v = b.getMsbD 24 ∧ (slotSample b).u = b.getMsbD 25 ∧ (slotSample b).c = b.getMsbD 26
        ∧ (slotSample b).z = b.getMsbD 27)
    ∧ (∀ (outs : Bank Sample 32) (p : Fin 2), (portFrame outs p).length = 512
        ∧ ∀ (i : Fin 16) (k : Nat), k < 32 → (portFrame outs p)[32 * i.val + k]?
            = some ((slotBits (outs.get ⟨p.val * 16 + i.val, by omega⟩)).getMsbD k))

/-! ### Distribution -/

/-- Over the F*C carriage lines of a sequence that starts from 0, the numbers of sets add up to S, and the accumulator
is 0 at the end; on every line it stays below F*C and the number is at most 4. -/
def Obligations.SequenceCarriesExactlyS : Prop :=
  ∀ f : Fin 8, accRun f (carriagePerSequence f) 0 = (setsPerSequence f, 0)
    ∧ ∀ acc, acc < carriagePerSequence f → (accStep f acc).1 ≤ 4 ∧ (accStep f acc).2 < carriagePerSequence f

/-! ### House ticks -/

/-- HOUSE_TICK appends one record to every history, advances the tone count, and sends the outputs of the tick before,
16 in the frame of each port. Every tracker takes the record appended to its source's history: Z starts a block, D
breaks one, and position 1 is where C is captured. A block that an earlier tick completed is completed before
(assumption 8); one that this tick completes is completed with it if the operand `fs` names it (assumption 9). Position
0 in a waiting tracker is assumption 21, and the slots received are an operand (assumption 24). -/
def Obligations.HouseTickAppends : Prop :=
  ∀ (slots : Bank (BitVec 32) 32) (fs : List (Fin 96)) (bf : Bool) (s : State),
    ∃ t, exec (.houseTick slots fs bf) s = .next t
      ∧ t.tone = (if s.tone < 191 then s.tone + 1 else 0)
      ∧ (∀ (n : Fin 98) (k : Nat), k + 1 < 8192 → (t.hist.get n).read (k + 1) = (s.hist.get n).read k)
      ∧ (t.hist.get 96).read 0 = toneRecord s.tone
      ∧ (t.hist.get 97).read 0 = { smp := { value := 0, v := false, u := false, c := false, z := false }, d := false }
      ∧ (∀ i : Fin 32, (t.hist.get ⟨64 + i.val, by omega⟩).read 0
          = if s.serial.inStarted then { smp := slotSample (slots.get i), d := false }
            else { smp := { value := 0, v := true, u := false, c := false, z := false }, d := false })
      ∧ (∀ (g : Fin 16) (ch : Fin 4), (s.strip.get g).state ≠ .flowing →
          (t.hist.get ⟨g.val * 4 + ch.val, by omega⟩).read 0
            = { smp := { value := 0, v := true, u := false, c := false, z := false }, d := false })
      ∧ t.serial.sending = some (s.serial.handed.getD
          (.fill 32 { value := 0, v := true, u := false, c := false, z := false }))
      ∧ (∀ (p : Fin 2) (i : Fin 16) (k : Nat), k < 32 → ∃ bits, t.serial.frame p = some bits ∧ bits.length = 512
          ∧ bits[32 * i.val + k]? = some ((slotBits ((s.serial.handed.getD
              (.fill 32 { value := 0, v := true, u := false, c := false, z := false })).get
                ⟨p.val * 16 + i.val, by omega⟩)).getMsbD k))
      ∧ (∀ (n : Fin 96) (T : Tracker) (r : Record),
          T = (if (s.trackers.get n).collecting = true ∧ 191 ≤ (s.trackers.get n).pos then
                 { s.trackers.get n with collecting := false, pos := 0, flag := (s.trackers.get n).bit1 }
               else s.trackers.get n) →
          (t.hist.get ⟨n.val, by omega⟩).read 0 = r →
          ∃ T2 : Tracker,
            (r.smp.z = true → T2 = { T with collecting := true, pos := 0 })
            ∧ (r.smp.z = false → T.collecting = false → T2 = T)
            ∧ (r.smp.z = false → T.collecting = true → r.d = true → T2 = { T with collecting := false, pos := 0 })
            ∧ (r.smp.z = false → T.collecting = true → r.d = false →
                T2 = { T with pos := T.pos + 1, bit1 := if T.pos = 0 then r.smp.c else T.bit1 })
            ∧ t.trackers.get n = (if n ∈ fs ∧ T2.collecting = true ∧ 191 ≤ T2.pos then
                { T2 with collecting := false, pos := 0, flag := T2.bit1 } else T2))

/-- HOUSE_TICK reads every FLOWING strip store once: an empty store underflows, a store that has been read 480 times
since its last correction repeats its last set at a fill of 1 to 8 and skips one at 56 or more, and any other read
returns the oldest set. The record of each channel is the set returned. -/
def Obligations.HouseTickReadsStripStores : Prop :=
  ∀ (slots : Bank (BitVec 32) 32) (fs : List (Fin 96)) (bf : Bool) (s : State) (g : Fin 16) (st : Store),
    s.strip.get g = st → st.state = .flowing →
    ∃ t y, exec (.houseTick slots fs bf) s = .next t
      ∧ (∀ ch : Fin 4, (t.hist.get ⟨g.val * 4 + ch.val, by omega⟩).read 0 = { smp := y.ch.get ch, d := y.d })
      ∧ (st.sets = [] →
          t.strip.get g = { st with state := .priming, readMark := true, reads := 0, lastFault := true,
                                    since := .fill 3 true, latch := true, underflows := satInc st.underflows }
          ∧ y = { ch := st.last.ch.map fun x => { x with v := true }, d := false })
      ∧ (∀ h rest, st.sets = h :: rest → (st.reads = 480 → 8 < st.fill ∧ st.fill < 56) →
          t.strip.get g = { st with sets := rest, readMark := false, last := y,
                                    reads := if st.reads < 480 then st.reads + 1 else 480, lastFault := false }
          ∧ y = { h with d := h.d || st.readMark })
      ∧ (st.reads = 480 → 1 ≤ st.fill → st.fill ≤ 8 →
          t.strip.get g = { st with reads := 0, corrections := satInc st.corrections, lastFault := false }
          ∧ y = { st.last with d := false })
      ∧ (∀ h h2 rest, st.sets = h :: h2 :: rest → st.reads = 480 → 56 ≤ st.fill →
          t.strip.get g = { st with sets := rest, readMark := false, last := y, reads := 0,
                                    corrections := satInc st.corrections, lastFault := false }
          ∧ y = { h2 with d := h2.d || (h.d || st.readMark) })

/-- HOUSE_TICK with no completion of an earlier tick waiting, and no boundary taken before the computation, computes
every destination from the state as it stands and the non-audio flags as the tick leaves them, and hands each result to
the engine's state, the embed store of its group or the serial ports, and its monitor. A HOLDING store trims itself to
31 sets before the write; a FLOWING one with 64 sets overflows. The reference unit counts the tick, and a tick that
brings t to the length of frame k of Table 8-3, or 48 ticks beyond while HFP is PRESENT, makes a boundary due; any
other leaves none due (R157). A monitor adds the tick to its window, abandons the window at a suspended tick, and opens
one at the next tick that is not; while it has none its count, peak and marks are 0 (assumption 29). The tick raises
the notices of its events: each strip store's read, the engine's in ascending destination number, each embed store's
write. A tick that reaches the end of its frame with the operand `bf` takes the boundary, as HOUSE_FRAME_BOUNDARY after
the count does, before it computes. Completions of an earlier tick that no step has taken are taken first, as their
commands do. What a completion is, is the model's choice (assumption 8), and so are the operands (assumption 9), the
order of the notices of one correction (assumption 17), the zeros in their details (assumption 34), and the order and
the numbers of the events (assumption 35). -/
def Obligations.HouseTickComputes : Prop :=
  (∀ (slots : Bank (BitVec 32) 32) (fs : List (Fin 96)) (bf : Bool) (s : State),
    Settled s →
    (bf = true → s.ref.t + 1 < houseFrameLength s.ref.format s.ref.k + (if s.ref.hfp then 48 else 0)) →
    ∃ (t u : State) (outs : Bank Sample 32) (es : List (List Pending)),
      exec (.houseTick slots fs bf) s = .next t ∧ u = { s with trackers := t.trackers }
      ∧ (∀ d, t.engine.get d = (u.destTick d).dest)
      ∧ t.serial.handed = some outs ∧ (∀ n : Fin 32, outs.get n = (u.destTick (localDest n)).out)
      ∧ (∀ (g : Fin 16) (st : Store) (x : SampleSet), s.embed.get g = st →
          x = { ch := .tab fun c => (u.destTick (groupDest g c)).out, d := st.writeMark } →
          (st.state = .holding →
            t.embed.get g = { st with sets := st.sets.drop (st.fill - 31) ++ [x], writeMark := false,
                                      lastFault := false })
          ∧ (st.state = .flowing → st.fill < 64 →
            t.embed.get g = { st with sets := st.sets ++ [x], writeMark := false, lastFault := false })
          ∧ (st.state = .flowing → 64 ≤ st.fill →
            t.embed.get g = { st with writeMark := true, lastFault := true, since := .fill 3 true, latch := true,
                                      overflows := satInc st.overflows }))
      ∧ (∀ (d : Fin 96) (m : Monitor) (o : TickOut) (mag : Nat), s.monitors.get d = m → u.destTick d = o →
          mag = (if o.out.value.toInt = -8388608 then 8388607 else o.out.value.toInt.natAbs) →
          (m.activity = .idle ∨ m.activity = .suspended ∧ o.suspended = true → t.monitors.get d = m)
          ∧ (m.activity = .measuring → o.suspended = false →
            t.monitors.get d = { m with ticks := m.ticks + 1, peak := max m.peak mag, clip := m.clip || o.clamp })
          ∧ (m.activity = .measuring → o.suspended = true →
            t.monitors.get d = { m with activity := .suspended, ticks := 0, peak := 0, clip := false,
                                        changed := false })
          ∧ (m.activity = .suspended → o.suspended = false →
            t.monitors.get d = { m with activity := .measuring, ticks := 1, peak := mag, clip := o.clamp,
                                        changed := m.pendingChanged, pendingChanged := false }))
      ∧ t.ref = { s.ref with
          t := s.ref.t + 1
          boundaryDue := decide (houseFrameLength s.ref.format s.ref.k + (if s.ref.hfp then 48 else 0) ≤ s.ref.t + 1)
          tickCount := s.ref.frameCount }
      ∧ es = ((List.finRange 16).map fun g => if (s.strip.get g).state = .flowing then
                readReport g.val (throughStrip s g) (s.strip.get g) else [])
            ++ [(List.finRange 96).flatMap fun d => (u.destTick d).notices]
            ++ ((List.finRange 16).map fun g => writeReport (16 + g.val) (s.embed.get g))
      ∧ t.events = (es.foldl (fun s ns => s.raiseAll ns) s).events
      ∧ Keeps [.strip, .embed, .hist, .trackers, .tone, .serial, .engine, .monitors, .ref, .events, .free] s t)
  ∧ (∀ (slots : Bank (BitVec 32) 32) (fs : List (Fin 96)) (s : State), Settled s →
      houseFrameLength s.ref.format s.ref.k + (if s.ref.hfp then 48 else 0) ≤ s.ref.t + 1 →
      ∃ u v, exec .houseFrameBoundary (s.updRef fun r => { r with t := r.t + 1, boundaryDue := true }) = .next u
        ∧ Settled u ∧ exec (.houseTick slots fs false) u = .next v
        ∧ exec (.houseTick slots fs true) s = .next { v with ref := { u.ref with tickCount := u.ref.frameCount } })
  ∧ (∀ (slots : Bank (BitVec 32) 32) (fs : List (Fin 96)) (bf : Bool) (s : State),
      ∃ u, Runs completions s u ∧ Settled u ∧ exec (.houseTick slots fs bf) s = exec (.houseTick slots fs bf) u)
  ∧ (∀ f : Fin 8, (List.range (framesPerSequence f)).map (fun k => houseFrameLength f (k + 1)) = houseFrames f)

/-- A PCM destination that weights no flagged source outputs the sum of its sides' products by their weights, times its
soft-entry factor e, over 2^40, rounded and saturated; the tick at which saturation changes the value has the clamp
mark. In steady state the live side has the weight 1024; in a crossfade the sides are weighted by 1024 - r and r =
floor(1024 i / N). A trigger handed to it, the end of a block or a marked record of a side with weight restarts soft
entry with e = 0; else e rises by 32 at each tick up to 1024. A crossfade or a soft entry that is complete and waits
for its step counts no more (assumption 8). -/
def Obligations.PcmDestinationMixes : Prop :=
  ∀ (s : State) (d : Fin 96) (live : Entry) (st : DestState) (q : Int) (sides : List Entry) (xf : Option Crossfade)
      (trig : Prop),
    s.live.get d = live → s.engine.get d = st → live.mode = .pcm →
    ((∀ x, st.xfade = some x → x.len ≤ x.i) ∧ xf = none ∧ q = 1024 * sideSum s live ∧ sides = [live]
      ∨ ∃ (x : Crossfade) (r : Nat), st.xfade = some x ∧ x.i < x.len ∧ xf = some { x with i := x.i + 1 }
          ∧ r = 1024 * (x.i + 1) / x.len ∧ q = (1024 - r) * sideSum s x.old + r * sideSum s live
          ∧ sides = (if r < 1024 then [x.old] else []) ++ (if 0 < r then [live] else [])) →
    (∀ e ∈ sides, ∀ n ∈ e.sources, s.nonAudio n = false) →
    (trig ↔ st.trigger = true ∨ st.blocked = true
      ∨ ∃ e ∈ sides, ∃ n ∈ e.sources, ((s.hist.get n).read e.delay.val).d = true) →
    ∃ (e : Nat) (y : Int), y = (q * e + 2 ^ 39) / 2 ^ 40
      ∧ (trig → (s.destTick d).dest.j = some 0 ∧ e = 0)
      ∧ (¬ trig → (∀ j, st.j = some j → 32 ≤ j) → (s.destTick d).dest.j = none ∧ e = 1024)
      ∧ (¬ trig → ∀ j, st.j = some j → j < 32 → (s.destTick d).dest.j = some (j + 1) ∧ e = 32 * (j + 1))
      ∧ (s.destTick d).dest.e = e ∧ (s.destTick d).dest.xfade = xf
      ∧ (s.destTick d).dest.block = (if st.block < 191 then st.block + 1 else 0)
      ∧ (s.destTick d).dest.blocked = false ∧ (s.destTick d).dest.trigger = false
      ∧ (s.destTick d).out
          = { value := BitVec.ofInt 24 (if 8388607 < y then 8388607 else if y < -8388608 then -8388608 else y),
              v := false, u := false, c := st.block == 0, z := st.block == 0 }
      ∧ ((s.destTick d).clamp = true ↔ 8388607 < y ∨ y < -8388608) ∧ (s.destTick d).suspended = false

/-- A PCM destination that weights a flagged source outputs 0 with V = 1, and C and Z at the counts of its block, which
advances; it is blocked with e = 0, its crossfade advances, and it reports its lowest flagged weighted source when it
was not blocked. A crossfade at its length waits for its step and counts no more (assumption 8). At the first tick
without one it starts soft entry from 0 and reports NONPCM_CLEARED: RESET after a PATH_RESET, SOURCE if every source
that blocked it still has weight, ROUTE if each still has its flag, and either of the two where both happened at one
tick (assumption 16). -/
def Obligations.DataSourcesBlock : Prop :=
  ∀ (s : State) (d : Fin 96) (st : DestState) (xf : Option Crossfade) (ws : List (Fin 98)),
    (s.live.get d).mode = .pcm → s.engine.get d = st →
    xf = (match st.xfade with
      | some x => if x.i < x.len then some { x with i := x.i + 1 } else none
      | none => none) →
    ws = weightedSources (s.live.get d) xf →
    (s.destTick d).dest.xfade = xf
    ∧ (s.destTick d).dest.block = (if st.block < 191 then st.block + 1 else 0)
    ∧ (s.destTick d).out.c = (st.block == 0) ∧ (s.destTick d).out.z = (st.block == 0)
    ∧ (s.destTick d).out.u = false
    ∧ ((∃ n ∈ ws, s.nonAudio n = true) →
      (s.destTick d).out.value = 0 ∧ (s.destTick d).out.v = true
        ∧ (s.destTick d).dest.blocked = true ∧ (s.destTick d).dest.e = 0 ∧ (s.destTick d).dest.j = none
        ∧ (s.destTick d).dest.blockers = ws.filter s.nonAudio ∧ (s.destTick d).suspended = true
        ∧ (st.blocked = true → (s.destTick d).notices = [])
        ∧ (st.blocked = false →
            ∃ m ∈ ws, s.nonAudio m = true ∧ (∀ n ∈ ws, s.nonAudio n = true → m.val ≤ n.val)
              ∧ (s.destTick d).notices = [(.nonpcmBlocked, d.val, m.val)]))
    ∧ ((∀ n ∈ ws, s.nonAudio n = false) →
      (st.blocked = false → (s.destTick d).notices = [])
      ∧ (st.blocked = true →
        (s.destTick d).out.value = 0 ∧ (s.destTick d).out.v = false ∧ (s.destTick d).dest.blocked = false
          ∧ (s.destTick d).dest.e = 0 ∧ (s.destTick d).dest.j = some 0
          ∧ ∃ cause, (s.destTick d).notices = [(.nonpcmCleared, d.val, cause)]
            ∧ (st.resetMark = true → cause = 2)
            ∧ (st.resetMark = false → cause = 0 ∨ cause = 1)
            ∧ (st.resetMark = false → (∀ n ∈ st.blockers, n ∈ ws) → cause = 0)
            ∧ (st.resetMark = false → st.blockers ≠ [] → (∀ n ∈ st.blockers, s.nonAudio n = true) → cause = 1)))

/-- A DATA destination copies the record of its primary, delay + 1 ticks old, side bits and all, and reports a marked
record. One that was blocked reports NONPCM_CLEARED: RESET after a PATH_RESET, ROUTE if every source that blocked it
still has its flag, and SOURCE or ROUTE where one of these flags cleared at the same tick (assumption 16). That it does
so before DATA_SLIP is the model's choice (assumption 17), and so are the zeros in the detail of DATA_SLIP (assumption
34). -/
def Obligations.DataDestinationCopies : Prop :=
  ∀ (s : State) (d : Fin 96) (r : Record), (s.live.get d).mode = .data →
    (s.hist.get (s.live.get d).primary).read (s.live.get d).delay.val = r →
    (s.destTick d).out = r.smp ∧ (s.destTick d).dest.e = 1024 ∧ (s.destTick d).dest.j = none
      ∧ (s.destTick d).dest.xfade = none ∧ (s.destTick d).dest.blocked = false ∧ (s.destTick d).suspended = true
      ∧ ∃ cleared, (s.destTick d).notices
          = cleared ++ (if r.d then [(.dataSlip, d.val, (s.live.get d).primary.val + 2 * 256)] else [])
        ∧ ((s.engine.get d).blocked = false → cleared = [])
        ∧ ((s.engine.get d).blocked = true → ∃ cause, cleared = [(.nonpcmCleared, d.val, cause)]
            ∧ ((s.engine.get d).resetMark = true → cause = 2)
            ∧ ((s.engine.get d).resetMark = false → cause = 0 ∨ cause = 1)
            ∧ ((s.engine.get d).resetMark = false → (∀ n ∈ (s.engine.get d).blockers, s.nonAudio n = true) →
                cause = 1))

/-- Saturation, rounding, crossfade weights and the rise of soft entry. -/
def Obligations.ArithmeticFacts : Prop :=
  (∀ y : Int, -8388608 ≤ saturate y ∧ saturate y ≤ 8388607)
    ∧ (∀ y : Int, -8388608 ≤ y → y ≤ 8388607 → saturate y = y)
    ∧ (∀ (q : Int) (e : Nat), 2 ^ 40 * rounded q e ≤ q * e + 2 ^ 39 ∧ q * e + 2 ^ 39 < 2 ^ 40 * (rounded q e + 1))
    ∧ (∀ n : Nat, 0 < n → rampFactor n n = 1024) ∧ (∀ i n : Nat, i ≤ n → rampFactor i n ≤ 1024)
    ∧ (∀ (r : Nat) (p : Int), r ≤ 1024 → mix r p p = 1024 * p)
    ∧ (∀ j : Nat, j < 32 → softEntryStep false (some j) = (some (j + 1), 32 * (j + 1)))
    ∧ (∀ j : Option Nat, softEntryStep true j = (some 0, 0)) ∧ softEntryStep false none = (none, 1024)

/-- K(c) is floor(2^20 * 10^((c - 120)/40) + 1/2) for c in 0..144, as a comparison of integers, and 0 for OFF; the
product of a side uses the factor of its own entry's code. -/
def Obligations.GainFactors : Prop :=
  (∀ c : Fin 145, 0 < gainFactor (.code c)
      ∧ (2 * gainFactor (.code c) - 1) ^ 40 * 10 ^ 120 ≤ 2097152 ^ 40 * 10 ^ c.val
      ∧ 2097152 ^ 40 * 10 ^ c.val < (2 * gainFactor (.code c) + 1) ^ 40 * 10 ^ 120)
    ∧ gainFactor .off = 0 ∧ gainFactor (.code 120) = 2 ^ 20
    ∧ (∀ (e : Entry) (a : Record) (b : Option Record),
        sideProduct e a b
          = (if e.invert then -1 else 1) * (counted a + b.elim 0 counted) * gainFactor e.gain)
    ∧ (∀ (e : Entry) (a : Record) (b : Option Record), e.gain = .off → sideProduct e a b = 0)

/-- CROSSFADE_END, SOFT_ENTRY_COMPLETE and CHANNEL_STATUS_BLOCK_COMPLETE of a destination, or source, that is due. That
they are commands of their own is the model's form (assumption 8), and so is position 0 in a waiting tracker (assumption
21). -/
def Obligations.CompletionsAct : Prop :=
  (∀ (s : State) (d : Fin 96) (x : Crossfade), (s.engine.get d).xfade = some x → x.len ≤ x.i →
      exec (.crossfadeEnd d) s = .next (s.updDest d fun st => { st with xfade := none }))
    ∧ (∀ (s : State) (d : Fin 96) (j : Nat), (s.engine.get d).j = some j → 32 ≤ j →
      exec (.softEntryComplete d) s = .next (s.updDest d fun st => { st with j := none }))
    ∧ (∀ (s : State) (n : Fin 96), (s.trackers.get n).collecting = true → 191 ≤ (s.trackers.get n).pos →
      exec (.channelStatusBlockComplete n) s
        = .next (s.updTracker n fun t => { t with collecting := false, pos := 0, flag := t.bit1 }))

/-! ### Level monitors -/

/-- WINDOW_COMPLETE of a monitor whose window has its 480 ticks: silence, overload, last values and holds by R143 to
R145; the settings stay. It completes the windows of all monitors that are due, and their notices, in ascending
destination number, carry the house frame count of the last tick (assumption 8); a monitor that is not due stays as it
is. That the silence count is at most Ns
is an invariant of every step (`MonitorsOk`). -/
def Obligations.WindowCompletes : Prop :=
  ∀ (s : State) (d : Fin 96) (m : Monitor), s.monitors.get d = m → m.activity = .measuring → 480 ≤ m.ticks →
    m.silenceCount ≤ m.ns →
    ∃ t m', exec .windowComplete s = .next t ∧ t.monitors.get d = m' ∧ Keeps [.monitors, .events] s t
      ∧ (∀ i, (s.monitors.get i).activity ≠ .measuring ∨ (s.monitors.get i).ticks < 480 →
          t.monitors.get i = s.monitors.get i)
      ∧ m'.lastPeak = m.peak ∧ m'.lastClip = m.clip ∧ m'.lastChanged = m.changed
      ∧ (m'.overloaded = true ↔ m.overloadAt ≤ m.peak ∨ m.clip = true) ∧ m'.lastOverloaded = m'.overloaded
      ∧ (∀ l : Line, m'.holds.get (lineIx l) = max (m.holds.get (lineIx l)) m.peak)
      ∧ m'.ticks = 0 ∧ m'.peak = 0 ∧ m'.clip = false ∧ m'.changed = false ∧ m'.activity = .measuring
      ∧ m'.enable = m.enable ∧ m'.silenceAt = m.silenceAt ∧ m'.overloadAt = m.overloadAt ∧ m'.ns = m.ns
      ∧ m'.edge = m.edge ∧ m'.overloadEvent = m.overloadEvent ∧ m'.pendingChanged = m.pendingChanged
      ∧ (m.peak < m.silenceAt ∧ m.changed = false →
          m'.silenceCount = min m.ns (m.silenceCount + 1)
            ∧ (m'.silent = true ↔ m.silent = true ∨ m.ns ≤ m.silenceCount + 1))
      ∧ (m.silenceAt ≤ m.peak ∨ m.changed = true → m'.silenceCount = 0 ∧ m'.silent = false)
      ∧ ∃ before after own : List Pending,
          t.events = (s.raiseAllAt s.ref.tickCount (before ++ own ++ after)).events
          ∧ (∀ x ∈ before, x.2.1 < d.val) ∧ (∀ x ∈ after, d.val < x.2.1)
          ∧ own = (if m.silent = false ∧ m'.silent = true ∧ (m.edge = .enter ∨ m.edge = .both) then
                     [(.silenceOn, d.val, m.ns)]
                   else if m.silent = true ∧ m'.silent = false ∧ (m.edge = .leave ∨ m.edge = .both) then
                     [(.silenceOff, d.val, if m.silenceAt ≤ m.peak then 0 else 1)]
                   else [])
                ++ (if m'.overloaded = true ∧ m.overloaded = false ∧ m.overloadEvent = true then
                      [(.overload, d.val, if m.clip = true then 0 else 1)] else [])

/-- MON_SET with settings in range, which first completes the windows that wait for it (assumption 8), METER_READ, and
both out of range. MON_SET clears the silence count, the overloaded flag and the pending change mark, and keeps the last
marks and the holds. A set bit of 4 to 7 of the flags byte of MON_SET is out of range by the model's choice (assumption
31), a monitor without a window has the values of assumption 29, and bits 6 and 7 of the flags byte of METER_READ are 0
(assumption 34). -/
def Obligations.MonitorCommandsAct : Prop :=
  (∀ (l : Line) (ticket flags a2 a1 a0 b2 b1 b0 n1 n0 : Byte) (d : Fin 96) (s : State) (m : Monitor),
      HeadIs s l 0x38 ticket [BitVec.ofNat 8 d.val, flags, a2, a1, a0, b2, b1, b0, n1, n0] →
      flags.toNat < 16 → ofBytes [a2, a1, a0] ≤ 8388607 → ofBytes [b2, b1, b0] ≤ 8388607 →
      1 ≤ ofBytes [n1, n0] → ofBytes [n1, n0] ≤ 60000 →
      (∃ u, exec .windowComplete s = .next u ∧ exec (.monSet l) s = exec (.monSet l) u)
      ∧ (s.monitors.get d = m → (∀ i, (s.monitors.get i).due = false) →
        ∃ t m', exec (.monSet l) s = .next (State.answer t l ticket .ok []) ∧ t = s.updMonitor d (fun _ => m')
          ∧ m'.enable = flags.getLsbD 0 ∧ m'.overloadEvent = flags.getLsbD 1
          ∧ m'.edge = EdgeSelect.ofBits (flags.extractLsb' 2 2) ∧ m'.silenceAt = ofBytes [a2, a1, a0]
          ∧ m'.overloadAt = ofBytes [b2, b1, b0] ∧ m'.ns = ofBytes [n1, n0] ∧ m'.silenceCount = 0
          ∧ m'.activity = (if flags.getLsbD 0 then (if m.activity = .suspended then .suspended else .measuring)
                           else .idle)
          ∧ (m.activity ≠ .idle → flags.getLsbD 0 = true → m'.silent = m.silent)
          ∧ (m.activity ≠ .idle → flags.getLsbD 0 = false → m'.silent = false)
          ∧ (m.activity = .idle → flags.getLsbD 0 = true → m'.silent = false)
          ∧ (m'.activity = .measuring → m'.ticks = 0 ∧ m'.peak = 0 ∧ m'.clip = false ∧ m'.changed = false)
          ∧ (m.activity ≠ .idle → m'.overloaded = false ∧ m'.pendingChanged = false)
          ∧ (m.activity = .idle → flags.getLsbD 0 = true → m'.overloaded = false)
          ∧ (m.activity = .idle → flags.getLsbD 0 = false →
              m'.silent = m.silent ∧ m'.overloaded = m.overloaded ∧ m'.pendingChanged = m.pendingChanged)
          ∧ m'.lastPeak = m.lastPeak ∧ m'.lastClip = m.lastClip ∧ m'.lastChanged = m.lastChanged
          ∧ m'.lastOverloaded = m.lastOverloaded ∧ m'.holds = m.holds))
    ∧ (∀ (l : Line) (ticket : Byte) (d : Fin 96) (s : State) (m : Monitor),
      HeadIs s l 0x39 ticket [BitVec.ofNat 8 d.val] → s.monitors.get d = m →
      exec (.meterRead l) s
        = .next ((s.updMonitor d fun m => { m with holds := m.holds.set (lineIx l) 0 }).answer l ticket .ok
            (byte d.val ++ be24 m.lastPeak ++ be24 (m.holds.get (lineIx l)) ++ be16 m.silenceCount
              ++ byte (bit m.silent + m.activity.code * 2 + bit m.lastClip * 8 + bit m.lastChanged * 16
                + bit m.lastOverloaded * 32))))
    ∧ (∀ (l : Line) (ticket b flags a2 a1 a0 b2 b1 b0 n1 n0 : Byte) (s : State),
      (HeadIs s l 0x39 ticket [b] → 96 ≤ b.toNat → exec (.meterRead l) s = .next (s.answer l ticket .invalid []))
      ∧ (HeadIs s l 0x38 ticket [b, flags, a2, a1, a0, b2, b1, b0, n1, n0] →
        96 ≤ b.toNat ∨ 16 ≤ flags.toNat ∨ 8388607 < ofBytes [a2, a1, a0] ∨ 8388607 < ofBytes [b2, b1, b0]
          ∨ ofBytes [n1, n0] = 0 ∨ 60000 < ofBytes [n1, n0] →
        exec (.monSet l) s = .next (s.answer l ticket .invalid [])))

/-! ### The reference unit and fallback control -/

/-- WCK_EDGE, WCK_MISSING_INTERVAL, REF_LOCK and REF_HOLDOVER, with no change of state waiting before an interval.
Intervals are operands in picoseconds, of which one of 31.25 us or more brings its missing intervals with it, and the
recent ones a list (assumptions 12, 13); that an interval only brings the count to 480 or 2, and that REF_LOCK or
REF_HOLDOVER then changes the state, at the latest before the next interval, is the model's form (assumption 8); the
counts that a change of state clears follow assumption 21, and the zeros in the detail of REF_STATE assumption 34. -/
def Obligations.WordClockMovesTheReference : Prop :=
  ∀ s : State,
    (∀ i, s.ref.intervalOpen = false →
      exec (.wckEdge i) s = .next (s.updRef fun r => { r with edgeSeen := true, intervalOpen := true }))
    ∧ (∀ i, s.ref.intervalOpen = true → s.ref.lockDue = false → s.ref.holdoverDue = false →
        20000000 ≤ i → i ≤ 21700000 → s.ref.state ≠ .locked →
        exec (.wckEdge i) s = .next (s.updRef fun r =>
          { r with edgeSeen := true, intervalOpen := true, good := r.good + 1, recent := (i :: r.recent).take 480 }))
    ∧ (∀ i, s.ref.intervalOpen = true → s.ref.lockDue = false → s.ref.holdoverDue = false →
        20000000 ≤ i → i ≤ 21700000 → s.ref.state = .locked →
        exec (.wckEdge i) s = .next (s.updRef fun r =>
          { r with edgeSeen := true, intervalOpen := true, nonGood := 0, recent := (i :: r.recent).take 480,
                   period480 := ((i :: r.recent).take 480).sum }))
    ∧ (∀ i, s.ref.intervalOpen = true → s.ref.lockDue = false → s.ref.holdoverDue = false →
        (i < 20000000 ∨ 21700000 < i) → i < 31250000 →
        exec (.wckEdge i) s = .next (s.updRef fun r =>
          { r with edgeSeen := true, intervalOpen := true,
                   good := if r.state = .locked then r.good else 0,
                   nonGood := if r.state = .locked then r.nonGood + 1 else r.nonGood }))
    ∧ (∀ i, s.ref.intervalOpen = true → s.ref.lockDue = false → s.ref.holdoverDue = false → 31250000 ≤ i →
        (i < 52080000 →
          exec (.wckEdge i) s = .next (s.updRef fun r =>
            { r with edgeSeen := true, intervalOpen := true,
                     good := if r.state = .locked then r.good else 0,
                     nonGood := if r.state = .locked then r.nonGood + 1 else r.nonGood }))
        ∧ (52080000 ≤ i → s.ref.state ≠ .locked →
          exec (.wckEdge i) s = .next (s.updRef fun r =>
            { r with edgeSeen := true, intervalOpen := true, good := 0 }))
        ∧ (52080000 ≤ i → s.ref.state = .locked → s.ref.nonGood = 0 →
          exec (.wckEdge i) s = .next (s.updRef fun r =>
            { r with edgeSeen := true, intervalOpen := true, nonGood := 2 }))
        ∧ (52080000 ≤ i → s.ref.state = .locked → s.ref.nonGood = 1 →
          exec (.wckEdge i) s = .next ((s.updRef fun r =>
            { r with state := .holdover, edgeSeen := true, intervalOpen := true, good := 0, nonGood := 0 }).raise
              .refState 0 (1 + 2 * 4))))
    ∧ (s.ref.edgeSeen = true → s.ref.lockDue = false → s.ref.holdoverDue = false →
        exec .wckMissingInterval s = .next (s.updRef fun r =>
          { r with intervalOpen := false, good := if r.state = .locked then r.good else 0,
                   nonGood := if r.state = .locked then r.nonGood + 1 else r.nonGood }))
    ∧ (s.ref.state ≠ .locked → 480 ≤ s.ref.good →
        exec .refLock s = .next ((s.updRef fun r =>
          { r with state := .locked, good := 0, nonGood := 0, period480 := r.recent.sum }).raise .refState 0
            (s.ref.state.code + 1 * 4)))
    ∧ (s.ref.state = .locked → 2 ≤ s.ref.nonGood →
        exec .refHoldover s = .next ((s.updRef fun r =>
          { r with state := .holdover, good := 0, nonGood := 0 }).raise .refState 0 (1 + 2 * 4)))

/-- HFP_PULSE: at t of 480 or above it takes a boundary, below it is guarded; either way HFP is PRESENT, and a change
of it raises REF_STATE with subject 1, after the notices of the boundary (assumption 22). The boundary deals with the
take lists as that of HOUSE_FRAME_BOUNDARY does (`DealsWithHouseTakes`; assumption 25 for a trigger dropped at a cut).
With a boundary waiting, the pulse is HOUSE_FRAME_BOUNDARY and then HFP_PULSE, which is guarded. The frames of a house
format last S ticks together. A boundary waiting is the model's form (assumption 8), the zeros in the
details are assumption 34, the numbers of the events are assumption 35, and that each domain's boundary is an event of
its own, in this order, is assumption 37. -/
def Obligations.FramePulseIsGuarded : Prop :=
  (∀ s : State, s.ref.boundaryDue = false → 480 ≤ s.ref.t →
      ∃ t, exec .hfpPulse s = .next t ∧ t.ref.t = 0 ∧ t.ref.frameCount = s.ref.frameCount + 1
        ∧ t.ref.k = (if s.ref.k < framesPerSequence s.ref.format then s.ref.k + 1 else 1) ∧ t.ref.hfp = true
        ∧ t.ref.format = s.ref.format ∧ t.ref.state = s.ref.state ∧ Keeps frameParts s t
        ∧ (TakesOk s → DealsWithHouseTakes s t)
        ∧ (TakesOk s → ∃ r : State, r = boundaryRaises s (s.updRef fun r => { r with frameCount := r.frameCount + 1 })
            ∧ (s.ref.hfp = true → t.events = r.events)
            ∧ (s.ref.hfp = false → t.events = (r.raise .refState 1 (0 + 1 * 4)).events)))
    ∧ (∀ s : State, s.ref.boundaryDue = false → s.ref.t < 480 →
      (s.ref.hfp = true → exec .hfpPulse s = .next s)
      ∧ (s.ref.hfp = false →
        exec .hfpPulse s = .next ((s.updRef fun r => { r with hfp := true }).raise .refState 1 (0 + 1 * 4))))
    ∧ (∀ s : State, s.ref.boundaryDue = true →
      ∃ u, exec .houseFrameBoundary s = .next u ∧ u.ref.boundaryDue = false ∧ u.ref.t < 480
        ∧ exec .hfpPulse s = exec .hfpPulse u)
    ∧ (∀ f : Fin 8, ((List.range (framesPerSequence f)).map fun k => houseFrameLength f (k + 1)).sum
        = setsPerSequence f)

/-- HOUSE_FRAME_BOUNDARY, when the last tick reached it: the count advances, and the house domain and the domains of
the lanes that are not RUNNING deal with their take lists: `DealsWithHouseTakes` says what becomes of their items, the
live entries and modes, the engine, the marks of the monitors, the embed stores and counts, and that the domain of a
RUNNING lane waits for a switch line. That a cut to or from DATA drops a trigger is assumption 25. HFP becomes ABSENT
if it was PRESENT, with REF_STATE of subject 1; each domain then (assumption 22) raises its TAKE_REFUSED and TAKE_DONE
with the advanced count. The due boundary is the model's form (assumption 8), the zeros in the details are assumption
34, the numbers of the events are assumption 35, and that each domain's boundary is an event of its own, in this order,
is assumption 37. -/
def Obligations.BoundaryDealsWithHouseTakes : Prop :=
  ∀ s : State, TakesOk s → s.ref.boundaryDue = true →
    ∃ t, exec .houseFrameBoundary s = .next t ∧ t.ref.frameCount = s.ref.frameCount + 1 ∧ t.ref.t = 0
      ∧ t.ref.k = (if s.ref.k < framesPerSequence s.ref.format then s.ref.k + 1 else 1) ∧ t.ref.hfp = false
      ∧ Keeps frameParts s t
      ∧ DealsWithHouseTakes s t
      ∧ ∃ r : State, r = (if s.ref.hfp then s.raise .refState 1 (1 + 0 * 4) else s)
        ∧ t.events = (boundaryRaises s (r.updRef fun r => { r with frameCount := r.frameCount + 1 })).events

/-- FBK_ASSERTED trips an ARMED fallback control and moves each builder toward bypass, by `TripsBuilders`: the groups
of a lane that goes into bypass at once hold, with their sets, and are owed nothing; the stores and counts of the other
lanes, and all phases and accumulators, are as before. What a trip does in LEAVING of a lane that is not RUNNING, which
does not arise, is the model's (assumption 26). Otherwise only the level changes. FBK_RELEASED changes
the level alone. The zeros in the detail of FALLBACK_STATE are the model's (assumption 34). -/
def Obligations.FallbackInputTrips : Prop :=
  ∀ s : State,
    (s.fallback.state = .armed →
      ∃ t, exec .fbkAsserted s = .next t ∧ t.fallback = { state := .tripped, fbk := true }
        ∧ t.events = (s.raise .fallbackState 0 (1 + 2 * 4)).events
        ∧ TripsBuilders s t ∧ Keeps [.fallback, .builders, .embed, .embCounts, .events] s t)
    ∧ (s.fallback.state ≠ .armed →
      exec .fbkAsserted s = .next { s with fallback := { s.fallback with fbk := true } })
    ∧ exec .fbkReleased s = .next { s with fallback := { s.fallback with fbk := false } }

/-- FALLBACK_ARM and FALLBACK_DISARM by Table 8-4, each answered with the state after it; FALLBACK_ARM with FBK
asserted trips as FBK does (`TripsBuilders`), and its one event raises both notices. FALLBACK_DISARM in TRIPPED takes
each lane out of bypass: at once and with a trigger for its PCM destinations if it is not RUNNING, and at its next
switch line if it is; phases and accumulators stay. What a trip does in LEAVING and a release in ENTERING of a lane
that is not RUNNING, which do not arise, is the model's (assumption 26). The zeros in the details are the model's
(assumption 34), and so are the numbers of the events (assumption 35). -/
def Obligations.FallbackCommandsAct : Prop :=
  ∀ (l : Line) (ticket : Byte) (ps : List Byte) (s : State),
    (HeadIs s l 0x50 ticket ps →
      (s.fallback.state = .disarmed → s.fallback.fbk = false →
        exec (.fallbackArm l) s
          = .next (({ s with fallback := { state := .armed, fbk := false } }.raise .fallbackState 0
              (0 + 1 * 4 + 1 * 16 + lineCode l * 64)).answer l ticket .ok [1]))
      ∧ (s.fallback.state = .disarmed → s.fallback.fbk = true →
        ∃ t, exec (.fallbackArm l) s = .next (State.answer t l ticket .ok [2])
          ∧ t.fallback = { state := .tripped, fbk := true }
          ∧ t.events = (s.raiseAll [(.fallbackState, 0, 0 + 1 * 4 + 1 * 16 + lineCode l * 64),
              (.fallbackState, 0, 1 + 2 * 4)]).events
          ∧ TripsBuilders s t ∧ Keeps [.fallback, .builders, .embed, .embCounts, .events] s t)
      ∧ (s.fallback.state ≠ .disarmed →
        exec (.fallbackArm l) s = .next (s.answer l ticket .ok [BitVec.ofNat 8 s.fallback.state.code])))
    ∧ (HeadIs s .c 0x51 ticket ps →
      (s.fallback.state = .tripped →
        ∃ t, exec (.fallbackDisarm .c) s = .next (State.answer t .c ticket .ok [0])
          ∧ t.fallback = { s.fallback with state := .disarmed }
          ∧ t.events = (s.raise .fallbackState 0 (2 + 0 * 4 + 2 * 16 + 3 * 64)).events
          ∧ (∀ k, t.builders.get k = { s.builders.get k with
              bypass := match (s.builders.get k).bypass with
                | .out => .out
                | .entering => .out
                | .inside => if (s.lanes.get k).state = .running then .leaving else .out
                | .leaving => .leaving })
          ∧ (∀ k, (s.builders.get k).bypass = .inside → (s.lanes.get k).state ≠ .running → ∀ n : Fin 16,
              t.engine.get (laneDest k n) = { s.engine.get (laneDest k n) with
                trigger := if (s.live.get (laneDest k n)).mode = .pcm then true
                           else (s.engine.get (laneDest k n)).trigger })
          ∧ (∀ k, (s.builders.get k).bypass ≠ .inside ∨ (s.lanes.get k).state = .running →
              ∀ n : Fin 16, t.engine.get (laneDest k n) = s.engine.get (laneDest k n))
          ∧ (∀ n : Fin 32, t.engine.get (localDest n) = s.engine.get (localDest n))
          ∧ Keeps [.fallback, .builders, .engine, .events] s t)
      ∧ (s.fallback.state = .armed →
        exec (.fallbackDisarm .c) s
          = .next (({ s with fallback := { s.fallback with state := .disarmed } }.raise .fallbackState 0
              (1 + 0 * 4 + 2 * 16 + 3 * 64)).answer .c ticket .ok [0]))
      ∧ (s.fallback.state = .disarmed → exec (.fallbackDisarm .c) s = .next (s.answer .c ticket .ok [0])))

/-! ### Control line ports -/

/-- SELECT_ASSERTED takes the outgoing copy, whole: the five bytes of an empty slot, or kind byte, ticket, status,
payload length, payload and check byte of the response. The bits of a well-formed frame of a command that the line may
send, then COMMAND_FRAME_END, put the frame at the tail of the line's queue, or drop it at a full queue. The bits are
an operand (assumption 19). -/
def Obligations.FramesReachTheQueue : Prop :=
  ∀ (l : Line) (f : Frame) (range : Nat × Nat) (s : State), (s.port l).selected = false → f.params.length ≤ 24 →
    paramLength? f.code = some range → range.1 ≤ f.params.length → f.params.length ≤ range.2 →
    (reservedToC f.code = true → l = .c) →
    ∃ s1 t, exec (.selectAsserted l) s = .next s1 ∧ exec (.commandFrameEnd l (bitsOf f.bytes)) s1 = .next t
      ∧ (s1.port l).selected = true ∧ (s1.port l).queue = (s.port l).queue
      ∧ ((s.port l).slot = none → ∃ c, (s1.port l).copy = some c ∧ c.bytes = [0x5A, 0, 0, 0, 0xA6]
          ∧ c.ofResponse = false)
      ∧ (∀ r, (s.port l).slot = some r → ∃ c, (s1.port l).copy = some c
          ∧ (∃ k, c.bytes = [if (s.port l).delivered then 0xA6 else 0xA5, r.ticket, r.status,
                             BitVec.ofNat 8 r.payload.length] ++ r.payload ++ [k])
          ∧ (c.bytes.map fun b => b.toNat).sum % 256 = 0 ∧ c.ofResponse = true ∧ c.current = true)
      ∧ (t.port l).selected = false ∧ (t.port l).slot = (s.port l).slot
      ∧ ((s.port l).queue.length < 4 →
          (t.port l).queue = (s.port l).queue ++ [f] ∧ (t.port l).drop = (s.port l).drop)
      ∧ (4 ≤ (s.port l).queue.length → (t.port l).queue = (s.port l).queue ∧ (t.port l).drop = true)

/-- COMMAND_FRAME_END of a frame that is broken, and of one that fails the first, the second, the third, the fourth or
the fifth check of R168: it is answered with LENGTH, CHECK, UNKNOWN, NOT_ALLOWED or INVALID and its ticket, and not
queued. A frame without bytes does nothing but end. -/
def Obligations.BadFramesAreNotQueued : Prop :=
  ∀ (l : Line) (s : State), (s.port l).selected = true → (s.port l).skip = false →
    ((s.port l).bits ≠ [] →
      ∃ t, exec (.commandFrameEnd l []) s = .next t ∧ (t.port l).framing = true
        ∧ (t.port l).queue = (s.port l).queue ∧ (t.port l).slot = (s.port l).slot
        ∧ (t.port l).drop = (s.port l).drop ∧ (t.port l).delivered = (s.port l).delivered
        ∧ (t.port l).selected = false ∧ Keeps [.ports] s t)
    ∧ ((s.port l).bits = [] →
      ((s.port l).length = 0 →
        exec (.commandFrameEnd l []) s = .next (s.updPort l fun p => p.noFrame))
      ∧ (∀ b, (s.port l).length = 1 → (s.port l).stored = [b] →
        exec (.commandFrameEnd l []) s = .next (s.updPort l fun p => p.noFrame.place 0 .length []))
      ∧ (∀ b ticket, (s.port l).length = 2 → (s.port l).stored = [b, ticket] →
        exec (.commandFrameEnd l []) s = .next (s.updPort l fun p => p.noFrame.place ticket .length []))
      ∧ (∀ code ticket plen rest, (s.port l).length ≠ 0 → (s.port l).stored = code :: ticket :: plen :: rest →
        (24 < plen.toNat ∨ (s.port l).length ≠ 4 + plen.toNat →
          exec (.commandFrameEnd l []) s = .next (s.updPort l fun p => p.noFrame.place ticket .length []))
        ∧ (plen.toNat ≤ 24 → (s.port l).length = 4 + plen.toNat →
          ((s.port l).stored.foldl (fun a b => a + b) 0 ≠ 0 →
            exec (.commandFrameEnd l []) s = .next (s.updPort l fun p => p.noFrame.place ticket .check []))
          ∧ ((s.port l).stored.foldl (fun a b => a + b) 0 = 0 →
            (paramLength? code = none →
              exec (.commandFrameEnd l []) s = .next (s.updPort l fun p => p.noFrame.place ticket .unknown []))
            ∧ (∀ range, paramLength? code = some range →
              (code = 0x16 ∨ code = 0x20 ∨ code = 0x22 ∨ code = 0x51 ∨ code = 0x52 → l ≠ .c →
                exec (.commandFrameEnd l []) s = .next (s.updPort l fun p => p.noFrame.place ticket .notAllowed []))
              ∧ ((code = 0x16 ∨ code = 0x20 ∨ code = 0x22 ∨ code = 0x51 ∨ code = 0x52 → l = .c) →
                plen.toNat < range.1 ∨ range.2 < plen.toNat →
                exec (.commandFrameEnd l []) s = .next (s.updPort l fun p => p.noFrame.place ticket .invalid [])))))))

/-- RESPONSE_DELIVERED: the bits up to the last one of the copy's check byte mark the response delivered, if the slot
still holds it. Data out carries the copy's bits, most significant bit of each byte first, and 0 after them; with
select released it is not driven. The bits are an operand (assumption 19). -/
def Obligations.ResponsesAreDelivered : Prop :=
  (∀ (l : Line) (bits : List Bool) (s : State) (c : OutCopy), (s.port l).selected = true → (s.port l).skip = false →
    (s.port l).bits.length ≤ 7 → (s.port l).copy = some c →
    (∀ i, i ≤ bits.length →
      ((s.port l).clockAll (bits.take i)).dataOut
        = some (((bitsOf c.bytes)[(s.port l).clocked + i]?).getD false))
    ∧ (c.ofResponse = true → bits ≠ [] → (s.port l).clocked + bits.length = c.bytes.length * 8 →
      ∃ t, exec (.responseDelivered l bits) s = .next t
        ∧ (t.port l).delivered = (c.current || (s.port l).delivered) ∧ (t.port l).slot = (s.port l).slot
        ∧ (t.port l).queue = (s.port l).queue ∧ Keeps [.ports] s t))
  ∧ (∀ p : Port, p.selected = false → p.dataOut = none)

/-- The placing of a response at the end of an execution: its ticket, status and payload, the lost and dropped bits,
and the frame leaving the queue. -/
def Obligations.ResponsesArePlaced : Prop :=
  (∀ (s : State) (l : Line) (ticket : Byte) (st : Status) (payload : List Byte),
      ∃ r, ((s.answer l ticket st payload).port l).slot = some r ∧ r.ticket = ticket ∧ r.payload = payload
        ∧ r.status.toNat % 64 = st.code
        ∧ r.status.getLsbD 6 = ((s.port l).slot.isSome && !(s.port l).delivered)
        ∧ r.status.getLsbD 7 = (s.port l).drop
        ∧ ((s.answer l ticket st payload).port l).delivered = false
        ∧ ((s.answer l ticket st payload).port l).drop = false
        ∧ ((s.answer l ticket st payload).port l).queue = (s.port l).queue.tail
        ∧ (∀ l', l' ≠ l → (s.answer l ticket st payload).port l' = s.port l')
        ∧ Keeps [.ports] s (s.answer l ticket st payload))

/-- IDENT: part number 6416 and revision 1, on any line. POLL: line, frames behind, FRAMING and "notices waiting"; the
FRAMING flag is cleared, and nothing else changes. Nothing is said of the bits of the flags byte that have no meaning.
-/
def Obligations.PortCommandsAnswer : Prop :=
  ∀ (l : Line) (ticket : Byte) (ps : List Byte) (s : State),
    (HeadIs s l 0x02 ticket ps → exec (.ident l) s = .next (s.answer l ticket .ok [0x19, 0x10, 0x01]))
    ∧ (HeadIs s l 0x01 ticket ps →
      ∃ flags : Byte, flags.getLsbD 0 = (s.port l).framing
        ∧ (flags.getLsbD 1 = true ↔ (s.eventQueue l).notices ≠ [])
        ∧ exec (.poll l) s
          = .next ((s.updPort l fun p => { p with framing := false }).answer l ticket .ok
              [BitVec.ofNat 8 (lineCode l), BitVec.ofNat 8 ((s.port l).queue.length - 1), flags]))

/-! ### The track map's commands -/

/-- MAP_STAGE, PLAN_STAGE and MAP_DROP: the record joins, replaces or leaves the staged table, unless a parameter is
out of range or another line protects the item. -/
def Obligations.StagingAct : Prop :=
  ∀ (l : Line) (ticket : Byte) (s : State),
    (∀ (d : Fin 96) (tag : BitVec 4) (e : Entry),
      HeadIs s l 0x10 ticket (BitVec.ofNat 8 d.val :: BitVec.ofNat 8 tag.toNat :: entryBytes e) →
      (e.stageable = true → FreeFor s (destItem d) l →
        exec (.mapStage l) s
          = .next ({ s with stagedDest := s.stagedDest.set d (some { body := e, tag := tag, stager := l }) }.answer l
              ticket (if (s.stagedDest.get d).isSome then .replaced else .ok) []))
      ∧ (∀ o, e.stageable = true → s.owners.get (destItem d) = some o → o ≠ l →
        exec (.mapStage l) s = .next (s.answer l ticket .protected_ [BitVec.ofNat 8 (lineCode o)]))
      ∧ (e.stageable = false → exec (.mapStage l) s = .next (s.answer l ticket .invalid [])))
    ∧ (∀ (g : Fin 16) (tag : BitVec 4) (m : PlanMode),
      HeadIs s l 0x18 ticket [BitVec.ofNat 8 (96 + g.val), BitVec.ofNat 8 tag.toNat, BitVec.ofNat 8 m.code] →
      (FreeFor s (planItem g) l →
        exec (.planStage l) s
          = .next ({ s with stagedPlan := s.stagedPlan.set g (some { body := m, tag := tag, stager := l }) }.answer l
              ticket (if (s.stagedPlan.get g).isSome then .replaced else .ok) []))
      ∧ (∀ o, s.owners.get (planItem g) = some o → o ≠ l →
        exec (.planStage l) s = .next (s.answer l ticket .protected_ [BitVec.ofNat 8 (lineCode o)])))
    ∧ (∀ d : Fin 96, HeadIs s l 0x11 ticket [BitVec.ofNat 8 d.val] → FreeFor s (destItem d) l →
        exec (.mapDrop l) s
          = .next ({ s with stagedDest := s.stagedDest.set d none }.answer l ticket .ok
              [if (s.stagedDest.get d).isSome then 1 else 0]))
    ∧ (∀ g : Fin 16, HeadIs s l 0x11 ticket [BitVec.ofNat 8 (96 + g.val)] → FreeFor s (planItem g) l →
        exec (.mapDrop l) s
          = .next ({ s with stagedPlan := s.stagedPlan.set g none }.answer l ticket .ok
              [if (s.stagedPlan.get g).isSome then 1 else 0]))
    ∧ (∀ (it : Fin 112) (o : Line), HeadIs s l 0x11 ticket [BitVec.ofNat 8 it.val] → s.owners.get it = some o → o ≠ l →
        exec (.mapDrop l) s = .next (s.answer l ticket .protected_ [BitVec.ofNat 8 (lineCode o)]))
    ∧ (∀ b : Byte, HeadIs s l 0x11 ticket [b] → 112 ≤ b.toNat →
        exec (.mapDrop l) s = .next (s.answer l ticket .invalid []))
    ∧ (∀ (b t : Byte) (es : List Byte), HeadIs s l 0x10 ticket (b :: t :: es) →
        96 ≤ b.toNat ∨ 16 ≤ t.toNat ∨ (∀ e : Entry, e.stageable = true → es ≠ entryBytes e) →
        exec (.mapStage l) s = .next (s.answer l ticket .invalid []))
    ∧ (∀ b t m : Byte, HeadIs s l 0x18 ticket [b, t, m] →
        b.toNat < 96 ∨ 112 ≤ b.toNat ∨ 16 ≤ t.toNat ∨ 3 ≤ m.toNat →
        exec (.planStage l) s = .next (s.answer l ticket .invalid []))

/-- MAP_TAKE: every staged record with the tag, and no other, becomes a WAITING take item of its domain, in place of
one already held for its target. The items that stay keep their order, and those that join follow them in ascending
order of item number. Each superseded item raises TAKE_SUPERSEDED, in the order of joining, with zeros where its detail
has nothing (assumption 34). A tag above 15 is invalid. -/
def Obligations.MapTakeMovesATag : Prop :=
  (∀ (l : Line) (ticket b : Byte) (s : State), HeadIs s l 0x12 ticket [b] → 16 ≤ b.toNat →
    exec (.mapTake l) s = .next (s.answer l ticket .invalid []))
  ∧ ∀ (l : Line) (ticket : Byte) (tag : BitVec 4) (s : State), HeadIs s l 0x12 ticket [BitVec.ofNat 8 tag.toNat] →
    ∃ (t : State) (payload : List Byte) (moved : List TakeItem),
      exec (.mapTake l) s = .next (State.answer t l ticket .ok payload)
      ∧ Keeps [.stagedDest, .stagedPlan, .takes, .events] s t
      ∧ (∀ (d : Fin 96) (r : Staged Entry), s.stagedDest.get d = some r → r.tag = tag →
          t.stagedDest.get d = none
            ∧ findItem (t.takes.get (itemDomain (destItem d))) (destItem d)
                = some { body := .dest d r.body, tag := tag, stager := r.stager, held := false })
      ∧ (∀ (g : Fin 16) (r : Staged PlanMode), s.stagedPlan.get g = some r → r.tag = tag →
          t.stagedPlan.get g = none
            ∧ findItem (t.takes.get (itemDomain (planItem g))) (planItem g)
                = some { body := .plan g r.body, tag := tag, stager := r.stager, held := false })
      ∧ (∀ d : Fin 96, (∀ r, s.stagedDest.get d = some r → r.tag ≠ tag) →
          t.stagedDest.get d = s.stagedDest.get d
            ∧ findItem (t.takes.get (itemDomain (destItem d))) (destItem d)
                = findItem (s.takes.get (itemDomain (destItem d))) (destItem d))
      ∧ (∀ g : Fin 16, (∀ r, s.stagedPlan.get g = some r → r.tag ≠ tag) →
          t.stagedPlan.get g = s.stagedPlan.get g
            ∧ findItem (t.takes.get (itemDomain (planItem g))) (planItem g)
                = findItem (s.takes.get (itemDomain (planItem g))) (planItem g))
      ∧ (∀ x : TakeItem, x ∈ moved ↔
          x.held = false ∧ x.tag = tag
            ∧ ((∃ d r, s.stagedDest.get d = some r ∧ r.tag = tag ∧ x.body = .dest d r.body ∧ x.stager = r.stager)
              ∨ ∃ g r, s.stagedPlan.get g = some r ∧ r.tag = tag ∧ x.body = .plan g r.body ∧ x.stager = r.stager))
      ∧ moved.Pairwise (fun x y => x.body.item.val < y.body.item.val)
      ∧ (∀ dom, t.takes.get dom
          = ((s.takes.get dom).filter fun y => !(moved.any fun x => x.body.item == y.body.item
                && itemDomain x.body.item == dom))
            ++ moved.filter fun x => itemDomain x.body.item == dom)
      ∧ t.events = (s.raiseAll (moved.flatMap fun x =>
          match (s.takes.get (itemDomain x.body.item)).find? fun y => y.body.item == x.body.item with
          | some y => [(.takeSuperseded, x.body.item.val,
              y.tag.toNat + lineCode y.stager * 16 + (if y.held then 64 else 0) + x.tag.toNat * 256)]
          | none => [])).events
      ∧ payload = [BitVec.ofNat 8 moved.length,
          BitVec.ofNat 8 (moved.filter fun x => (s.takes.get (itemDomain x.body.item)).any fun y =>
            y.body.item == x.body.item).length]

/-- PROTECT, RELEASE and FORCE_RELEASE: who owns an item after each, and who is refused. FORCE_RELEASE raises
PROTECT_FORCED for each item that had an owner, in ascending order, with zeros where the detail has nothing (assumption
34). -/
def Obligations.ProtectionAct : Prop :=
  ∀ (l : Line) (ticket : Byte) (it : Fin 112) (s : State),
    (HeadIs s l 0x14 ticket [BitVec.ofNat 8 it.val] →
      (FreeFor s it l →
        exec (.protect l) s = .next ((s.setOwner it (some l)).answer l ticket .ok [BitVec.ofNat 8 (lineCode l)]))
      ∧ (∀ o, s.owners.get it = some o → o ≠ l →
        exec (.protect l) s = .next (s.answer l ticket .protected_ [BitVec.ofNat 8 (lineCode o)])))
    ∧ (HeadIs s l 0x15 ticket [BitVec.ofNat 8 it.val] →
      (s.owners.get it = some l → exec (.release l) s = .next ((s.setOwner it none).answer l ticket .ok []))
      ∧ (s.owners.get it ≠ some l → exec (.release l) s = .next (s.answer l ticket .notOwner [])))
    ∧ (HeadIs s .c 0x16 ticket [BitVec.ofNat 8 it.val] →
      (∀ o, s.owners.get it = some o →
        exec (.forceRelease .c) s
          = .next (((s.setOwner it none).raise .protectForced it.val (lineCode o)).answer .c ticket .ok [1]))
      ∧ (s.owners.get it = none → exec (.forceRelease .c) s = .next (s.answer .c ticket .ok [0])))
    ∧ (HeadIs s .c 0x16 ticket [0xFF] →
      ∃ t n, exec (.forceRelease .c) s = .next (State.answer t .c ticket .ok [BitVec.ofNat 8 n])
        ∧ (∀ i, t.owners.get i = none) ∧ Keeps [.owners, .events] s t
        ∧ t.events = (s.raiseAll ((List.finRange 112).flatMap fun i =>
            match s.owners.get i with
            | some o => [(.protectForced, i.val, lineCode o)]
            | none => [])).events
        ∧ n = ((List.finRange 112).filter fun i => (s.owners.get i).isSome).length)
    ∧ (∀ b : Byte, 112 ≤ b.toNat →
      (HeadIs s l 0x14 ticket [b] → exec (.protect l) s = .next (s.answer l ticket .invalid []))
      ∧ (HeadIs s l 0x15 ticket [b] → exec (.release l) s = .next (s.answer l ticket .invalid []))
      ∧ (HeadIs s .c 0x16 ticket [b] → b ≠ 0xFF →
        exec (.forceRelease .c) s = .next (s.answer .c ticket .invalid [])))

/-- MAP_READ, PLAN_READ, LANE_STATUS, REF_STATUS and FAULT_READ answer what the part holds and change nothing but the
line's port. Absent fields are by assumption 20, and bits to which no layout gives a meaning by assumption 34. The
deviation of the measured period is a whole number of parts per million less than one away from it, the period being
held 480-fold in picoseconds (assumption 13); that its three bytes are two's complement is assumption 38. -/
def Obligations.ReadsAnswer : Prop :=
  ∀ (l : Line) (ticket : Byte) (s : State),
    (∀ d : Fin 96, HeadIs s l 0x13 ticket [BitVec.ofNat 8 d.val] →
      ∃ a b, exec (.mapRead l) s
          = .next (s.answer l ticket .ok (byte d.val ++ entryBytes (s.live.get d) ++ a ++ b
              ++ be16 (s.engine.get d).remaining ++ be16 (s.engine.get d).e
              ++ byte (ownerCode (s.owners.get (destItem d)) + bit (s.engine.get d).blocked * 4)))
        ∧ a.length = 6 ∧ b.length = 6
        ∧ (∀ r, s.stagedDest.get d = some r →
            a = entryBytes r.body ++ [BitVec.ofNat 8 (r.tag.toNat + lineCode r.stager * 16 + 128)])
        ∧ (s.stagedDest.get d = none → a = [0, 0, 0, 0, 0, 0])
        ∧ (∀ x e, findItem (s.takes.get (itemDomain (destItem d))) (destItem d) = some x → x.body = .dest d e →
            b = entryBytes e ++ [BitVec.ofNat 8 (x.tag.toNat + lineCode x.stager * 16 + bit x.held * 64 + 128)])
        ∧ (findItem (s.takes.get (itemDomain (destItem d))) (destItem d) = none → b = [0, 0, 0, 0, 0, 0]))
    ∧ (∀ g : Fin 16, HeadIs s l 0x19 ticket [BitVec.ofNat 8 (96 + g.val)] →
      ∃ a b, exec (.planRead l) s
          = .next (s.answer l ticket .ok (byte (96 + g.val) ++ byte (s.plan.get g).code ++ a ++ b
              ++ byte (ownerCode (s.owners.get (planItem g)))))
        ∧ a.length = 2 ∧ b.length = 2
        ∧ (∀ r, s.stagedPlan.get g = some r →
            a = byte r.body.code ++ [BitVec.ofNat 8 (r.tag.toNat + lineCode r.stager * 16 + 128)])
        ∧ (s.stagedPlan.get g = none → a = [0, 0])
        ∧ (∀ x m, findItem (s.takes.get (itemDomain (planItem g))) (planItem g) = some x → x.body = .plan g m →
            b = byte m.code ++ [BitVec.ofNat 8 (x.tag.toNat + lineCode x.stager * 16 + bit x.held * 64 + 128)])
        ∧ (findItem (s.takes.get (itemDomain (planItem g))) (planItem g) = none → b = [0, 0]))
    ∧ (∀ k : Fin 4, HeadIs s l 0x21 ticket [BitVec.ofNat 8 k.val] →
      ∃ a b, exec (.laneStatus l) s
          = .next (s.answer l ticket .ok (byte k.val ++ byte (s.lanes.get k).state.code ++ a ++ b
              ++ byte (if (s.lanes.get k).state = .seeking
                       then (s.lanes.get k).frames + (if (s.lanes.get k).expected = none then 2 else 0) else 2)
              ++ byte (if (s.lanes.get k).state = .running then (s.lanes.get k).index else 0)
              ++ byte (bit (s.groups.get (groupNo k 0)).present + bit (s.groups.get (groupNo k 1)).present * 2
                + bit (s.groups.get (groupNo k 2)).present * 4 + bit (s.groups.get (groupNo k 3)).present * 8)
              ++ be16 (s.lanes.get k).accepted.toNat ++ be16 (s.lanes.get k).checksum.toNat
              ++ be16 (s.lanes.get k).malformed.toNat ++ be16 (s.lanes.get k).gaps.toNat))
        ∧ a = (match (s.lanes.get k).format with | some f => byte f.val | none => [0xFF])
        ∧ b = (match (s.lanes.get k).lastLine with | some n => be16 n.toNat | none => [0xFF, 0xFF]))
    ∧ (∀ ps, HeadIs s l 0x23 ticket ps →
      ∃ dev : Int, exec (.refStatus l) s
          = .next (s.answer l ticket .ok (byte s.ref.state.code
              ++ be16 (if s.ref.state = .locked then 0 else s.ref.good) ++ be24 (BitVec.ofInt 24 dev).toNat
              ++ byte s.ref.format.val ++ byte s.ref.k
              ++ be16 s.ref.t ++ be16 s.ref.frameCount.toNat
              ++ byte (bit s.ref.hfp + bit s.fallback.fbk * 2 + s.fallback.state.code * 4)))
        ∧ 10000 * dev - 10000 < (s.ref.period480 : Int) - 10000000000
        ∧ (s.ref.period480 : Int) - 10000000000 < 10000 * dev + 10000)
    ∧ (∀ k : Fin 4, HeadIs s l 0x48 ticket [BitVec.ofNat 8 k.val] →
      (∀ c, s.faults.get k = some c →
        exec (.faultRead l) s
          = .next (s.answer l ticket .ok ([1, BitVec.ofNat 8 c.kind.code, BitVec.ofNat 8 c.kind.severity]
              ++ be16 c.line.toNat ++ be16 c.stamp.toNat ++ [c.further])))
      ∧ (s.faults.get k = none →
        ∃ p, exec (.faultRead l) s = .next (s.answer l ticket .ok (0 :: p)) ∧ p.length = 7))
    ∧ (∀ b : Byte,
      (HeadIs s l 0x13 ticket [b] → 96 ≤ b.toNat → exec (.mapRead l) s = .next (s.answer l ticket .invalid []))
      ∧ (HeadIs s l 0x19 ticket [b] → b.toNat < 96 ∨ 112 ≤ b.toNat →
        exec (.planRead l) s = .next (s.answer l ticket .invalid []))
      ∧ (HeadIs s l 0x21 ticket [b] → 4 ≤ b.toNat → exec (.laneStatus l) s = .next (s.answer l ticket .invalid []))
      ∧ (HeadIs s l 0x48 ticket [b] → 4 ≤ b.toNat → exec (.faultRead l) s = .next (s.answer l ticket .invalid [])))

/-! ### Other commands -/

/-- STORE_STATUS and STORE_CLEAR of a strip or of an embed store. Bits 3 to 7 of the flags byte are 0 (assumption 34).
-/
def Obligations.StoreCommandsAct : Prop :=
  ∀ (l : Line) (ticket : Byte) (g : Fin 16) (s : State),
    (HeadIs s l 0x31 ticket [BitVec.ofNat 8 g.val] →
      exec (.storeClear l) s
        = .next ((s.updStrip g fun st =>
            { st with latch := false, underflows := 0, overflows := 0, corrections := 0 }).answer l ticket .ok []))
    ∧ (HeadIs s l 0x31 ticket [BitVec.ofNat 8 (16 + g.val)] →
      exec (.storeClear l) s
        = .next ((s.updEmbed g fun st =>
            { st with latch := false, underflows := 0, overflows := 0, corrections := 0 }).answer l ticket .ok []))
    ∧ (∀ b : Byte, HeadIs s l 0x31 ticket [b] → 32 ≤ b.toNat →
      exec (.storeClear l) s = .next (s.answer l ticket .invalid []))
    ∧ (∀ st, HeadIs s l 0x30 ticket [BitVec.ofNat 8 g.val] → s.strip.get g = st →
      exec (.storeStatus l) s
        = .next ((s.updStrip g fun st => { st with since := st.since.set (lineIx l) false }).answer l ticket .ok
            ([BitVec.ofNat 8 g.val, BitVec.ofNat 8 st.state.code, BitVec.ofNat 8 st.fill] ++ be16 st.reads
              ++ [BitVec.ofNat 8 (bit st.lastFault + bit (st.since.get (lineIx l)) * 2 + bit st.latch * 4)]
              ++ be16 st.underflows.toNat ++ be16 st.overflows.toNat ++ be16 st.corrections.toNat)))
    ∧ (∀ st, HeadIs s l 0x30 ticket [BitVec.ofNat 8 (16 + g.val)] → s.embed.get g = st →
      exec (.storeStatus l) s
        = .next ((s.updEmbed g fun st => { st with since := st.since.set (lineIx l) false }).answer l ticket .ok
            ([BitVec.ofNat 8 (16 + g.val), BitVec.ofNat 8 st.state.code, BitVec.ofNat 8 st.fill] ++ be16 st.reads
              ++ [BitVec.ofNat 8 (bit st.lastFault + bit (st.since.get (lineIx l)) * 2 + bit st.latch * 4)]
              ++ be16 st.underflows.toNat ++ be16 st.overflows.toNat ++ be16 st.corrections.toNat)))
    ∧ (∀ b : Byte, HeadIs s l 0x30 ticket [b] → 32 ≤ b.toNat →
      exec (.storeStatus l) s = .next (s.answer l ticket .invalid []))

/-- EVENT_SUBSCRIBE and EVENT_FETCH act on the calling line's queue alone, as its turn before the command leaves it;
the offers it has still to take stay on their way. The turn is the model's (assumption 35), and bits 1 to 7 of the
flags byte are 0 (assumption 34). -/
def Obligations.EventCommandsAct : Prop :=
  ∀ (l : Line) (ticket : Byte) (q : EventQueue) (s : State), q = (s.eventQueue l).turn →
    (∀ m : Byte, HeadIs s l 0x40 ticket [m] → m.toNat < 32 →
      exec (.eventSubscribe l) s
        = .next ((s.updEvents l fun _ => { q with subs := m.setWidth 5 }).answer l ticket .ok
            [(s.eventQueue l).subs.setWidth 8, m]))
    ∧ (∀ m : Byte, HeadIs s l 0x40 ticket [m] → 32 ≤ m.toNat →
      exec (.eventSubscribe l) s = .next ((s.updEvents l fun _ => q).answer l ticket .invalid []))
    ∧ (∀ ps n rest, HeadIs s l 0x41 ticket ps → q.notices = n :: rest →
      exec (.eventFetch l) s
        = .next ((s.updEvents l fun _ => { q with notices := rest }).answer l ticket .ok
            ([BitVec.ofNat 8 n.kind.code, BitVec.ofNat 8 n.kind.cls, n.subject] ++ be16 n.detail.toNat
              ++ be16 n.stamp.toNat ++ [BitVec.ofNat 8 (bit n.mark), BitVec.ofNat 8 rest.length])))
    ∧ (∀ ps, HeadIs s l 0x41 ticket ps → q.notices = [] →
      exec (.eventFetch l) s = .next ((s.updEvents l fun _ => q).answer l ticket .ok []))

/-- A notice raised is offered to every line, and each line's queue then has its turn to take the offers on their way.
A queue that takes an offer puts it at the tail if its line is subscribed, marks the tail if it is full, and lets it go
otherwise; what is asked of another line's queue does not matter. Of the offers on their way it may take those of any
event first, but those of one event in their order; taking all is taking them in the order in which they were raised,
and so it does where nothing else is said of its turn. EV is asserted while a notice is queued, and so by the step that
raises one of a subscribed class. The turns, the offers on their way and the numbers of the events are the model's form
of R179 (assumption 35). -/
def Obligations.NoticesAreOffered : Prop :=
  (∀ (s : State) (k : NoticeKind) (a b : Nat) (l : Line), ∃ n : Notice,
      n.kind = k ∧ n.subject = BitVec.ofNat 8 a ∧ n.detail = BitVec.ofNat 16 b ∧ n.stamp = s.ref.frameCount
        ∧ n.mark = false
        ∧ (s.raise k a b).eventQueue l
            = EventQueue.turn { s.eventQueue l with
                coming := (s.eventQueue l).coming ++ [{ event := s.eventNo, notice := n }] }
        ∧ (s.raise k a b).eventNo = s.eventNo + 1
        ∧ ((s.eventQueue l).turns = [] → (s.eventQueue l).coming = [] → (s.eventQueue l).subs.getLsbD k.cls = true →
            ((s.raise k a b).eventQueue l).ev = true))
  ∧ (∀ q : EventQueue, (q.coming = [] → q.turn = q)
      ∧ (q.turns = [] → q.turn = q.take none)
      ∧ (∀ tk ts, q.turns = tk :: ts → q.coming ≠ [] → q.turn = EventQueue.take { q with turns := ts } tk))
  ∧ (∀ (q r : EventQueue) (pre post : List Offer) (e : Nat) (n : Notice),
      q.coming = pre ++ { event := e, notice := n } :: post → (∀ y ∈ pre, y.event ≠ e) →
      r = { q with coming := pre ++ post } →
      (q.subs.getLsbD n.kind.cls = false → q.take (some [e]) = r)
      ∧ (q.subs.getLsbD n.kind.cls = true → q.notices.length < 32 →
          q.take (some [e]) = { r with notices := q.notices ++ [n] })
      ∧ (∀ init tail, q.subs.getLsbD n.kind.cls = true → q.notices = init ++ [tail] → init.length = 31 →
          q.take (some [e]) = { r with notices := init ++ [{ tail with mark := true }] }))
  ∧ (∀ (q : EventQueue) (e : Nat) (es : List Nat), q.take (some []) = q
      ∧ ((∀ y ∈ q.coming, y.event ≠ e) → q.take (some [e]) = q)
      ∧ q.take (some (e :: es)) = (q.take (some [e])).take (some es)
      ∧ q.take none = q.take (some (q.coming.map fun x => x.event)) ∧ (q.take none).coming = [])
  ∧ (∀ q : EventQueue, q.ev = true ↔ q.notices ≠ [])

/-- LANE_FORMAT, FAULT_CLEAR and REF_FORMAT. With a boundary waiting, REF_FORMAT is HOUSE_FRAME_BOUNDARY and then
REF_FORMAT; a boundary waiting is the model's form (assumption 8). A RUNNING lane's groups, stores and builder are by
`LeftRunning` after LANE_FORMAT (no group is present, the strip stores are flushed, the embed stores hold, the other
lanes' are as they were), and what is left of an area's event is taken before LANE_FORMAT (assumption 32). That the
GROUP_STATE of a RUNNING lane come in ascending order and before LANE_STATE is the model's choice (assumption 17); a
bypass that was being entered is entered, and one that was being left is left, with its triggers. The zeros in the
details are assumption 34, the event numbers assumption 35. -/
def Obligations.SetupCommandsAct : Prop :=
  (∀ (ticket : Byte) (k : Fin 4) (f : Fin 8) (s : State),
      HeadIs s .c 0x20 ticket [BitVec.ofNat 8 k.val, BitVec.ofNat 8 f.val] →
      ((s.lanes.get k).state ≠ .running →
        exec (.laneFormat .c) s
          = .next (((s.updLane k fun r => { r with state := .seeking, format := some f, frames := 0, expected := none,
                                                   index := 0, timer := false, inFrame := false }).raise .laneState
              k.val ((s.lanes.get k).state.code + 1 * 4)).answer .c ticket .ok []))
      ∧ ((s.lanes.get k).state = .running → NothingLeft s k → StoresOk s →
        ∃ t, exec (.laneFormat .c) s = .next (State.answer t .c ticket .ok [])
          ∧ (t.lanes.get k).state = .seeking ∧ (t.lanes.get k).format = some f ∧ (t.lanes.get k).frames = 0
          ∧ (t.lanes.get k).expected = none ∧ (t.lanes.get k).timer = false
          ∧ CountersKept s t k ∧ (t.lanes.get k).lastLine = (s.lanes.get k).lastLine
          ∧ t.events = (s.raiseAll (s.absentNotices k (fun _ => true) ++ [(.laneState, k.val, 2 + 1 * 4)])).events
          ∧ LeftRunning s t k ∧ Keeps exitParts s t)
      ∧ ((s.lanes.get k).state = .running →
        ∃ u, exec (.carriageLine k ⟨[], none⟩) s = .next u ∧ exec (.laneFormat .c) s = exec (.laneFormat .c) u))
    ∧ (∀ (l : Line) (ticket : Byte) (k : Fin 4) (s : State), HeadIs s l 0x49 ticket [BitVec.ofNat 8 k.val] →
      exec (.faultClear l) s = .next ((s.setFault k none).answer l ticket .ok []))
    ∧ (∀ (ticket : Byte) (f : Fin 8) (s : State), HeadIs s .c 0x22 ticket [BitVec.ofNat 8 f.val] →
      s.ref.boundaryDue = false →
      exec (.refFormat .c) s
        = .next ((s.updRef fun r => { r with format := f, k := 1 }).answer .c ticket .ok []))
    ∧ (∀ (ticket : Byte) (f : Fin 8) (s : State), HeadIs s .c 0x22 ticket [BitVec.ofNat 8 f.val] →
      s.ref.boundaryDue = true →
      ∃ u, exec .houseFrameBoundary s = .next u ∧ u.ref.boundaryDue = false ∧ u.ports = s.ports
        ∧ exec (.refFormat .c) s = exec (.refFormat .c) u)
    ∧ (∀ (l : Line) (ticket b f : Byte) (s : State),
      (HeadIs s l 0x49 ticket [b] → 4 ≤ b.toNat → exec (.faultClear l) s = .next (s.answer l ticket .invalid []))
      ∧ (HeadIs s .c 0x20 ticket [b, f] → 4 ≤ b.toNat ∨ 8 ≤ f.toNat →
        exec (.laneFormat .c) s = .next (s.answer .c ticket .invalid []))
      ∧ (HeadIs s .c 0x22 ticket [f] → 8 ≤ f.toNat →
        exec (.refFormat .c) s = .next (s.answer .c ticket .invalid [])))

/-- PATH_RESET. Handed to all seven blocks in the order of Table 8-5, with no rebuilding in progress: what the table
says is cleared, that the rest is kept, PATH_RESET_DONE and the answer OK; a window that waits for its completion is
completed first (assumption 8). Handed to one block: what this block makes of it; with other blocks left the frame
stays under execution without an answer, and with none left PATH_RESET_DONE and the answer follow. The operand `blocks`
is the model's form of R165 (assumption 33), and so are the number of the event (assumption 35), `resetMark`
(assumption 16), and the zeros that a monitor without a window has for its ticks, peak and marks (assumption 29). -/
def Obligations.PathResetClearsTheAudioPath : Prop :=
  ∀ (ticket : Byte) (ps : List Byte) (s : State), HeadIs s .c 0x52 ticket ps →
    (s.handed = [] → (∀ l, (s.work.get l).isBuilding = false) →
      ∃ t u, exec (.pathReset ⟨.c, [.lanes, .strip, .catalogue, .trackMap, .engine, .embed, .monitors]⟩) s
          = .next (State.answer t .c ticket .ok [])
        ∧ exec .windowComplete s = .next u ∧ t.events = (u.raise .pathResetDone 0 0).events
        ∧ ((∀ d, (s.monitors.get d).due = false) → u = s)
        ∧ Keeps [.lanes, .strip, .embed, .hist, .trackers, .takes, .engine, .builders, .embCounts, .monitors,
            .events] s t
        ∧ (∀ l, t.lanes.get l = { s.lanes.get l with accepted := 0, checksum := 0, malformed := 0, gaps := 0 })
        ∧ (∀ g, t.strip.get g = { state := .idle, sets := [],
                                  last := { ch := .fill 4 { value := 0, v := true, u := false, c := false, z := false },
                                            d := false },
                                  readMark := false, writeMark := false, reads := 0, lastFault := false,
                                  since := .fill 3 false, latch := false, underflows := 0, overflows := 0,
                                  corrections := 0 }
            ∧ t.embed.get g = { t.strip.get g with state := .holding }
            ∧ t.embCounts.get g = { next := 0, owed := 0 })
        ∧ (∀ n k, (t.hist.get n).read k
            = { smp := { value := 0, v := true, u := false, c := false, z := false }, d := false })
        ∧ (∀ n, t.trackers.get n = { collecting := false, pos := 0, bit1 := false, flag := false })
        ∧ (∀ dom, t.takes.get dom = (s.takes.get dom).map fun x => { x with held := false })
        ∧ (∀ d, t.engine.get d
            = { s.engine.get d with
                xfade := none, resetMark := (s.engine.get d).blocked,
                trigger := if (s.live.get d).mode = .pcm then true else (s.engine.get d).trigger })
        ∧ (∀ l, t.builders.get l = { s.builders.get l with acc := 0 })
        ∧ (∀ d, t.monitors.get d
            = { u.monitors.get d with
                ticks := 0, peak := 0, clip := false, changed := false, pendingChanged := false, silenceCount := 0,
                silent := false, overloaded := false, holds := .fill 3 0 }))
    ∧ (∀ (b : ResetBlock) (u : State), ResetTo b s u → b ∉ s.handed →
      ((∃ b', b' ≠ b ∧ b' ∉ s.handed) → exec (.pathReset ⟨.c, [b]⟩) s = .next (u.setHanded (b :: s.handed)))
      ∧ ((∀ b', b' ≠ b → b' ∈ s.handed) →
        exec (.pathReset ⟨.c, [b]⟩) s
          = .next (((u.setHanded []).raise .pathResetDone 0 0).answer .c ticket .ok [])))
    ∧ (∀ bs : List ResetBlock, (∀ b ∈ bs, b ∈ s.handed) → (∃ b, b ∉ s.handed) →
      exec (.pathReset ⟨.c, bs⟩) s = .next s)
end

