-- ==== Sys2Proof/Laws/Bank.lean ====
section
/-! SUPPORT. What each operation on a bank does to the thing of each number. -/

namespace Sys2Proof.Bank

variable {α β : Type} {n : Nat}

theorem ext_get {b c : Bank α n} (h : ∀ i, b.get i = c.get i) : b = c := by
  cases b with
  | mk l hl =>
    cases c with
    | mk m hm =>
      have : l = m := by
        apply List.ext_getElem (hl.trans hm.symm)
        intro i h1 h2
        exact h ⟨i, hl ▸ h1⟩
      subst this
      rfl

@[simp] theorem get_set (b : Bank α n) (i j : Fin n) (x : α) :
    (b.set i x).get j = if i = j then x else b.get j := by
  simp only [get, set, List.getElem_set, Fin.ext_iff]

@[simp] theorem get_upd (b : Bank α n) (i j : Fin n) (f : α → α) :
    (b.upd i f).get j = if i = j then f (b.get j) else b.get j := by
  simp only [upd, get_set]
  split
  · next h => rw [h]
  · rfl

theorem get_set_self (b : Bank α n) (i : Fin n) (x : α) : (b.set i x).get i = x := by simp

theorem get_upd_self (b : Bank α n) (i : Fin n) (f : α → α) : (b.upd i f).get i = f (b.get i) := by simp

theorem get_upd_ne (b : Bank α n) {i j : Fin n} (f : α → α) (h : i ≠ j) : (b.upd i f).get j = b.get j := by simp [h]

@[simp] theorem get_tab (f : Fin n → α) (i : Fin n) : (tab f).get i = f i := by
  simp [get, tab]

@[simp] theorem get_fill (x : α) (i : Fin n) : (fill n x).get i = x := by
  simp [get, fill]

@[simp] theorem get_map (f : α → β) (b : Bank α n) (i : Fin n) : (b.map f).get i = f (b.get i) := by
  simp [get, map]

@[simp] theorem get_mapIdx (f : Fin n → α → β) (b : Bank α n) (i : Fin n) : (b.mapIdx f).get i = f i (b.get i) := by
  simp [mapIdx]

/-- Two updates of one thing are one. -/
@[simp] theorem upd_upd_self (b : Bank α n) (i : Fin n) (f g : α → α) :
    (b.upd i f).upd i g = b.upd i fun x => g (f x) := by
  apply ext_get
  intro j
  simp only [get_upd]
  split <;> rfl

/-- An update that leaves its thing as it is changes nothing. -/
theorem upd_eq_self (b : Bank α n) (i : Fin n) {f : α → α} (h : f (b.get i) = b.get i) : b.upd i f = b := by
  apply ext_get
  intro j
  simp only [get_upd]
  split
  · next hij => rw [← hij, h]
  · rfl

/-- Two updates of one thing are equal if they agree on it. -/
theorem upd_congr (b : Bank α n) (i : Fin n) {f g : α → α} (h : f (b.get i) = g (b.get i)) : b.upd i f
    = b.upd i g := by
  simp only [upd, h]

/-- The later of two writes of one thing stands. -/
@[simp] theorem set_set_self (b : Bank α n) (i : Fin n) (x y : α) : (b.set i x).set i y = b.set i y := by
  apply ext_get
  intro j
  simp only [get_set]
  split <;> rfl

/-- Writing the value that is there changes nothing. -/
theorem set_get_self (b : Bank α n) (i : Fin n) {x : α} (h : b.get i = x) : b.set i x = b := by
  apply ext_get
  intro j
  simp only [get_set]
  split
  · next hij => rw [← hij, h]
  · rfl

/-- The list of a bank is its things in order. -/
theorem list_eq_ofFn (b : Bank α n) : b.list = List.ofFn b.get := by
  apply List.ext_getElem
  · simp [b.size]
  · intro i h1 h2
    simp [get]

theorem mem_list {b : Bank α n} {x : α} : x ∈ b.list ↔ ∃ i, b.get i = x := by
  rw [list_eq_ofFn, List.mem_ofFn]

end Sys2Proof.Bank
end

