-- ==== Sys2Proof/Laws/State.lean ====
section
/-! SUPPORT. For each update of one part of the state, what every field is after it. -/

namespace Sys2Proof.Machine.State

variable (s : State)

section
variable (l : Fin 4) (f : Receiver → Receiver)

@[simp] theorem updLane_lanes : (s.updLane l f).lanes = s.lanes.upd l f := rfl
@[simp] theorem updLane_relays : (s.updLane l f).relays = s.relays := rfl
@[simp] theorem updLane_groups : (s.updLane l f).groups = s.groups := rfl
@[simp] theorem updLane_strip : (s.updLane l f).strip = s.strip := rfl
@[simp] theorem updLane_embed : (s.updLane l f).embed = s.embed := rfl
@[simp] theorem updLane_hist : (s.updLane l f).hist = s.hist := rfl
@[simp] theorem updLane_trackers : (s.updLane l f).trackers = s.trackers := rfl
@[simp] theorem updLane_tone : (s.updLane l f).tone = s.tone := rfl
@[simp] theorem updLane_serial : (s.updLane l f).serial = s.serial := rfl
@[simp] theorem updLane_live : (s.updLane l f).live = s.live := rfl
@[simp] theorem updLane_plan : (s.updLane l f).plan = s.plan := rfl
@[simp] theorem updLane_stagedDest : (s.updLane l f).stagedDest = s.stagedDest := rfl
@[simp] theorem updLane_stagedPlan : (s.updLane l f).stagedPlan = s.stagedPlan := rfl
@[simp] theorem updLane_takes : (s.updLane l f).takes = s.takes := rfl
@[simp] theorem updLane_owners : (s.updLane l f).owners = s.owners := rfl
@[simp] theorem updLane_engine : (s.updLane l f).engine = s.engine := rfl
@[simp] theorem updLane_builders : (s.updLane l f).builders = s.builders := rfl
@[simp] theorem updLane_embCounts : (s.updLane l f).embCounts = s.embCounts := rfl
@[simp] theorem updLane_monitors : (s.updLane l f).monitors = s.monitors := rfl
@[simp] theorem updLane_ref : (s.updLane l f).ref = s.ref := rfl
@[simp] theorem updLane_fallback : (s.updLane l f).fallback = s.fallback := rfl
@[simp] theorem updLane_ports : (s.updLane l f).ports = s.ports := rfl
@[simp] theorem updLane_events : (s.updLane l f).events = s.events := rfl
@[simp] theorem updLane_eventNo : (s.updLane l f).eventNo = s.eventNo := rfl
@[simp] theorem updLane_faults : (s.updLane l f).faults = s.faults := rfl
@[simp] theorem updLane_work : (s.updLane l f).work = s.work := rfl
@[simp] theorem updLane_handed : (s.updLane l f).handed = s.handed := rfl
@[simp] theorem updLane_free : (s.updLane l f).free = s.free := rfl
@[simp] theorem updLane_pending : (s.updLane l f).pending = s.pending := rfl

end

section
variable (l : Fin 4) (f : Relay → Relay)

@[simp] theorem updRelay_lanes : (s.updRelay l f).lanes = s.lanes := rfl
@[simp] theorem updRelay_relays : (s.updRelay l f).relays = s.relays.upd l f := rfl
@[simp] theorem updRelay_groups : (s.updRelay l f).groups = s.groups := rfl
@[simp] theorem updRelay_strip : (s.updRelay l f).strip = s.strip := rfl
@[simp] theorem updRelay_embed : (s.updRelay l f).embed = s.embed := rfl
@[simp] theorem updRelay_hist : (s.updRelay l f).hist = s.hist := rfl
@[simp] theorem updRelay_trackers : (s.updRelay l f).trackers = s.trackers := rfl
@[simp] theorem updRelay_tone : (s.updRelay l f).tone = s.tone := rfl
@[simp] theorem updRelay_serial : (s.updRelay l f).serial = s.serial := rfl
@[simp] theorem updRelay_live : (s.updRelay l f).live = s.live := rfl
@[simp] theorem updRelay_plan : (s.updRelay l f).plan = s.plan := rfl
@[simp] theorem updRelay_stagedDest : (s.updRelay l f).stagedDest = s.stagedDest := rfl
@[simp] theorem updRelay_stagedPlan : (s.updRelay l f).stagedPlan = s.stagedPlan := rfl
@[simp] theorem updRelay_takes : (s.updRelay l f).takes = s.takes := rfl
@[simp] theorem updRelay_owners : (s.updRelay l f).owners = s.owners := rfl
@[simp] theorem updRelay_engine : (s.updRelay l f).engine = s.engine := rfl
@[simp] theorem updRelay_builders : (s.updRelay l f).builders = s.builders := rfl
@[simp] theorem updRelay_embCounts : (s.updRelay l f).embCounts = s.embCounts := rfl
@[simp] theorem updRelay_monitors : (s.updRelay l f).monitors = s.monitors := rfl
@[simp] theorem updRelay_ref : (s.updRelay l f).ref = s.ref := rfl
@[simp] theorem updRelay_fallback : (s.updRelay l f).fallback = s.fallback := rfl
@[simp] theorem updRelay_ports : (s.updRelay l f).ports = s.ports := rfl
@[simp] theorem updRelay_events : (s.updRelay l f).events = s.events := rfl
@[simp] theorem updRelay_eventNo : (s.updRelay l f).eventNo = s.eventNo := rfl
@[simp] theorem updRelay_faults : (s.updRelay l f).faults = s.faults := rfl
@[simp] theorem updRelay_work : (s.updRelay l f).work = s.work := rfl
@[simp] theorem updRelay_handed : (s.updRelay l f).handed = s.handed := rfl
@[simp] theorem updRelay_free : (s.updRelay l f).free = s.free := rfl
@[simp] theorem updRelay_pending : (s.updRelay l f).pending = s.pending := rfl

end

section
variable (g : Fin 16) (f : GroupState → GroupState)

@[simp] theorem updGroup_lanes : (s.updGroup g f).lanes = s.lanes := rfl
@[simp] theorem updGroup_relays : (s.updGroup g f).relays = s.relays := rfl
@[simp] theorem updGroup_groups : (s.updGroup g f).groups = s.groups.upd g f := rfl
@[simp] theorem updGroup_strip : (s.updGroup g f).strip = s.strip := rfl
@[simp] theorem updGroup_embed : (s.updGroup g f).embed = s.embed := rfl
@[simp] theorem updGroup_hist : (s.updGroup g f).hist = s.hist := rfl
@[simp] theorem updGroup_trackers : (s.updGroup g f).trackers = s.trackers := rfl
@[simp] theorem updGroup_tone : (s.updGroup g f).tone = s.tone := rfl
@[simp] theorem updGroup_serial : (s.updGroup g f).serial = s.serial := rfl
@[simp] theorem updGroup_live : (s.updGroup g f).live = s.live := rfl
@[simp] theorem updGroup_plan : (s.updGroup g f).plan = s.plan := rfl
@[simp] theorem updGroup_stagedDest : (s.updGroup g f).stagedDest = s.stagedDest := rfl
@[simp] theorem updGroup_stagedPlan : (s.updGroup g f).stagedPlan = s.stagedPlan := rfl
@[simp] theorem updGroup_takes : (s.updGroup g f).takes = s.takes := rfl
@[simp] theorem updGroup_owners : (s.updGroup g f).owners = s.owners := rfl
@[simp] theorem updGroup_engine : (s.updGroup g f).engine = s.engine := rfl
@[simp] theorem updGroup_builders : (s.updGroup g f).builders = s.builders := rfl
@[simp] theorem updGroup_embCounts : (s.updGroup g f).embCounts = s.embCounts := rfl
@[simp] theorem updGroup_monitors : (s.updGroup g f).monitors = s.monitors := rfl
@[simp] theorem updGroup_ref : (s.updGroup g f).ref = s.ref := rfl
@[simp] theorem updGroup_fallback : (s.updGroup g f).fallback = s.fallback := rfl
@[simp] theorem updGroup_ports : (s.updGroup g f).ports = s.ports := rfl
@[simp] theorem updGroup_events : (s.updGroup g f).events = s.events := rfl
@[simp] theorem updGroup_eventNo : (s.updGroup g f).eventNo = s.eventNo := rfl
@[simp] theorem updGroup_faults : (s.updGroup g f).faults = s.faults := rfl
@[simp] theorem updGroup_work : (s.updGroup g f).work = s.work := rfl
@[simp] theorem updGroup_handed : (s.updGroup g f).handed = s.handed := rfl
@[simp] theorem updGroup_free : (s.updGroup g f).free = s.free := rfl
@[simp] theorem updGroup_pending : (s.updGroup g f).pending = s.pending := rfl

end

section
variable (g : Fin 16) (f : Store → Store)

@[simp] theorem updStrip_lanes : (s.updStrip g f).lanes = s.lanes := rfl
@[simp] theorem updStrip_relays : (s.updStrip g f).relays = s.relays := rfl
@[simp] theorem updStrip_groups : (s.updStrip g f).groups = s.groups := rfl
@[simp] theorem updStrip_strip : (s.updStrip g f).strip = s.strip.upd g f := rfl
@[simp] theorem updStrip_embed : (s.updStrip g f).embed = s.embed := rfl
@[simp] theorem updStrip_hist : (s.updStrip g f).hist = s.hist := rfl
@[simp] theorem updStrip_trackers : (s.updStrip g f).trackers = s.trackers := rfl
@[simp] theorem updStrip_tone : (s.updStrip g f).tone = s.tone := rfl
@[simp] theorem updStrip_serial : (s.updStrip g f).serial = s.serial := rfl
@[simp] theorem updStrip_live : (s.updStrip g f).live = s.live := rfl
@[simp] theorem updStrip_plan : (s.updStrip g f).plan = s.plan := rfl
@[simp] theorem updStrip_stagedDest : (s.updStrip g f).stagedDest = s.stagedDest := rfl
@[simp] theorem updStrip_stagedPlan : (s.updStrip g f).stagedPlan = s.stagedPlan := rfl
@[simp] theorem updStrip_takes : (s.updStrip g f).takes = s.takes := rfl
@[simp] theorem updStrip_owners : (s.updStrip g f).owners = s.owners := rfl
@[simp] theorem updStrip_engine : (s.updStrip g f).engine = s.engine := rfl
@[simp] theorem updStrip_builders : (s.updStrip g f).builders = s.builders := rfl
@[simp] theorem updStrip_embCounts : (s.updStrip g f).embCounts = s.embCounts := rfl
@[simp] theorem updStrip_monitors : (s.updStrip g f).monitors = s.monitors := rfl
@[simp] theorem updStrip_ref : (s.updStrip g f).ref = s.ref := rfl
@[simp] theorem updStrip_fallback : (s.updStrip g f).fallback = s.fallback := rfl
@[simp] theorem updStrip_ports : (s.updStrip g f).ports = s.ports := rfl
@[simp] theorem updStrip_events : (s.updStrip g f).events = s.events := rfl
@[simp] theorem updStrip_eventNo : (s.updStrip g f).eventNo = s.eventNo := rfl
@[simp] theorem updStrip_faults : (s.updStrip g f).faults = s.faults := rfl
@[simp] theorem updStrip_work : (s.updStrip g f).work = s.work := rfl
@[simp] theorem updStrip_handed : (s.updStrip g f).handed = s.handed := rfl
@[simp] theorem updStrip_free : (s.updStrip g f).free = s.free := rfl
@[simp] theorem updStrip_pending : (s.updStrip g f).pending = s.pending := rfl

end

section
variable (g : Fin 16) (f : Store → Store)

@[simp] theorem updEmbed_lanes : (s.updEmbed g f).lanes = s.lanes := rfl
@[simp] theorem updEmbed_relays : (s.updEmbed g f).relays = s.relays := rfl
@[simp] theorem updEmbed_groups : (s.updEmbed g f).groups = s.groups := rfl
@[simp] theorem updEmbed_strip : (s.updEmbed g f).strip = s.strip := rfl
@[simp] theorem updEmbed_embed : (s.updEmbed g f).embed = s.embed.upd g f := rfl
@[simp] theorem updEmbed_hist : (s.updEmbed g f).hist = s.hist := rfl
@[simp] theorem updEmbed_trackers : (s.updEmbed g f).trackers = s.trackers := rfl
@[simp] theorem updEmbed_tone : (s.updEmbed g f).tone = s.tone := rfl
@[simp] theorem updEmbed_serial : (s.updEmbed g f).serial = s.serial := rfl
@[simp] theorem updEmbed_live : (s.updEmbed g f).live = s.live := rfl
@[simp] theorem updEmbed_plan : (s.updEmbed g f).plan = s.plan := rfl
@[simp] theorem updEmbed_stagedDest : (s.updEmbed g f).stagedDest = s.stagedDest := rfl
@[simp] theorem updEmbed_stagedPlan : (s.updEmbed g f).stagedPlan = s.stagedPlan := rfl
@[simp] theorem updEmbed_takes : (s.updEmbed g f).takes = s.takes := rfl
@[simp] theorem updEmbed_owners : (s.updEmbed g f).owners = s.owners := rfl
@[simp] theorem updEmbed_engine : (s.updEmbed g f).engine = s.engine := rfl
@[simp] theorem updEmbed_builders : (s.updEmbed g f).builders = s.builders := rfl
@[simp] theorem updEmbed_embCounts : (s.updEmbed g f).embCounts = s.embCounts := rfl
@[simp] theorem updEmbed_monitors : (s.updEmbed g f).monitors = s.monitors := rfl
@[simp] theorem updEmbed_ref : (s.updEmbed g f).ref = s.ref := rfl
@[simp] theorem updEmbed_fallback : (s.updEmbed g f).fallback = s.fallback := rfl
@[simp] theorem updEmbed_ports : (s.updEmbed g f).ports = s.ports := rfl
@[simp] theorem updEmbed_events : (s.updEmbed g f).events = s.events := rfl
@[simp] theorem updEmbed_eventNo : (s.updEmbed g f).eventNo = s.eventNo := rfl
@[simp] theorem updEmbed_faults : (s.updEmbed g f).faults = s.faults := rfl
@[simp] theorem updEmbed_work : (s.updEmbed g f).work = s.work := rfl
@[simp] theorem updEmbed_handed : (s.updEmbed g f).handed = s.handed := rfl
@[simp] theorem updEmbed_free : (s.updEmbed g f).free = s.free := rfl
@[simp] theorem updEmbed_pending : (s.updEmbed g f).pending = s.pending := rfl

end

section
variable (n : Fin 96) (f : Tracker → Tracker)

@[simp] theorem updTracker_lanes : (s.updTracker n f).lanes = s.lanes := rfl
@[simp] theorem updTracker_relays : (s.updTracker n f).relays = s.relays := rfl
@[simp] theorem updTracker_groups : (s.updTracker n f).groups = s.groups := rfl
@[simp] theorem updTracker_strip : (s.updTracker n f).strip = s.strip := rfl
@[simp] theorem updTracker_embed : (s.updTracker n f).embed = s.embed := rfl
@[simp] theorem updTracker_hist : (s.updTracker n f).hist = s.hist := rfl
@[simp] theorem updTracker_trackers : (s.updTracker n f).trackers = s.trackers.upd n f := rfl
@[simp] theorem updTracker_tone : (s.updTracker n f).tone = s.tone := rfl
@[simp] theorem updTracker_serial : (s.updTracker n f).serial = s.serial := rfl
@[simp] theorem updTracker_live : (s.updTracker n f).live = s.live := rfl
@[simp] theorem updTracker_plan : (s.updTracker n f).plan = s.plan := rfl
@[simp] theorem updTracker_stagedDest : (s.updTracker n f).stagedDest = s.stagedDest := rfl
@[simp] theorem updTracker_stagedPlan : (s.updTracker n f).stagedPlan = s.stagedPlan := rfl
@[simp] theorem updTracker_takes : (s.updTracker n f).takes = s.takes := rfl
@[simp] theorem updTracker_owners : (s.updTracker n f).owners = s.owners := rfl
@[simp] theorem updTracker_engine : (s.updTracker n f).engine = s.engine := rfl
@[simp] theorem updTracker_builders : (s.updTracker n f).builders = s.builders := rfl
@[simp] theorem updTracker_embCounts : (s.updTracker n f).embCounts = s.embCounts := rfl
@[simp] theorem updTracker_monitors : (s.updTracker n f).monitors = s.monitors := rfl
@[simp] theorem updTracker_ref : (s.updTracker n f).ref = s.ref := rfl
@[simp] theorem updTracker_fallback : (s.updTracker n f).fallback = s.fallback := rfl
@[simp] theorem updTracker_ports : (s.updTracker n f).ports = s.ports := rfl
@[simp] theorem updTracker_events : (s.updTracker n f).events = s.events := rfl
@[simp] theorem updTracker_eventNo : (s.updTracker n f).eventNo = s.eventNo := rfl
@[simp] theorem updTracker_faults : (s.updTracker n f).faults = s.faults := rfl
@[simp] theorem updTracker_work : (s.updTracker n f).work = s.work := rfl
@[simp] theorem updTracker_handed : (s.updTracker n f).handed = s.handed := rfl
@[simp] theorem updTracker_free : (s.updTracker n f).free = s.free := rfl
@[simp] theorem updTracker_pending : (s.updTracker n f).pending = s.pending := rfl

end

section
variable (d : Fin 96) (f : DestState → DestState)

@[simp] theorem updDest_lanes : (s.updDest d f).lanes = s.lanes := rfl
@[simp] theorem updDest_relays : (s.updDest d f).relays = s.relays := rfl
@[simp] theorem updDest_groups : (s.updDest d f).groups = s.groups := rfl
@[simp] theorem updDest_strip : (s.updDest d f).strip = s.strip := rfl
@[simp] theorem updDest_embed : (s.updDest d f).embed = s.embed := rfl
@[simp] theorem updDest_hist : (s.updDest d f).hist = s.hist := rfl
@[simp] theorem updDest_trackers : (s.updDest d f).trackers = s.trackers := rfl
@[simp] theorem updDest_tone : (s.updDest d f).tone = s.tone := rfl
@[simp] theorem updDest_serial : (s.updDest d f).serial = s.serial := rfl
@[simp] theorem updDest_live : (s.updDest d f).live = s.live := rfl
@[simp] theorem updDest_plan : (s.updDest d f).plan = s.plan := rfl
@[simp] theorem updDest_stagedDest : (s.updDest d f).stagedDest = s.stagedDest := rfl
@[simp] theorem updDest_stagedPlan : (s.updDest d f).stagedPlan = s.stagedPlan := rfl
@[simp] theorem updDest_takes : (s.updDest d f).takes = s.takes := rfl
@[simp] theorem updDest_owners : (s.updDest d f).owners = s.owners := rfl
@[simp] theorem updDest_engine : (s.updDest d f).engine = s.engine.upd d f := rfl
@[simp] theorem updDest_builders : (s.updDest d f).builders = s.builders := rfl
@[simp] theorem updDest_embCounts : (s.updDest d f).embCounts = s.embCounts := rfl
@[simp] theorem updDest_monitors : (s.updDest d f).monitors = s.monitors := rfl
@[simp] theorem updDest_ref : (s.updDest d f).ref = s.ref := rfl
@[simp] theorem updDest_fallback : (s.updDest d f).fallback = s.fallback := rfl
@[simp] theorem updDest_ports : (s.updDest d f).ports = s.ports := rfl
@[simp] theorem updDest_events : (s.updDest d f).events = s.events := rfl
@[simp] theorem updDest_eventNo : (s.updDest d f).eventNo = s.eventNo := rfl
@[simp] theorem updDest_faults : (s.updDest d f).faults = s.faults := rfl
@[simp] theorem updDest_work : (s.updDest d f).work = s.work := rfl
@[simp] theorem updDest_handed : (s.updDest d f).handed = s.handed := rfl
@[simp] theorem updDest_free : (s.updDest d f).free = s.free := rfl
@[simp] theorem updDest_pending : (s.updDest d f).pending = s.pending := rfl

end

section
variable (l : Fin 4) (f : Builder → Builder)

@[simp] theorem updBuilder_lanes : (s.updBuilder l f).lanes = s.lanes := rfl
@[simp] theorem updBuilder_relays : (s.updBuilder l f).relays = s.relays := rfl
@[simp] theorem updBuilder_groups : (s.updBuilder l f).groups = s.groups := rfl
@[simp] theorem updBuilder_strip : (s.updBuilder l f).strip = s.strip := rfl
@[simp] theorem updBuilder_embed : (s.updBuilder l f).embed = s.embed := rfl
@[simp] theorem updBuilder_hist : (s.updBuilder l f).hist = s.hist := rfl
@[simp] theorem updBuilder_trackers : (s.updBuilder l f).trackers = s.trackers := rfl
@[simp] theorem updBuilder_tone : (s.updBuilder l f).tone = s.tone := rfl
@[simp] theorem updBuilder_serial : (s.updBuilder l f).serial = s.serial := rfl
@[simp] theorem updBuilder_live : (s.updBuilder l f).live = s.live := rfl
@[simp] theorem updBuilder_plan : (s.updBuilder l f).plan = s.plan := rfl
@[simp] theorem updBuilder_stagedDest : (s.updBuilder l f).stagedDest = s.stagedDest := rfl
@[simp] theorem updBuilder_stagedPlan : (s.updBuilder l f).stagedPlan = s.stagedPlan := rfl
@[simp] theorem updBuilder_takes : (s.updBuilder l f).takes = s.takes := rfl
@[simp] theorem updBuilder_owners : (s.updBuilder l f).owners = s.owners := rfl
@[simp] theorem updBuilder_engine : (s.updBuilder l f).engine = s.engine := rfl
@[simp] theorem updBuilder_builders : (s.updBuilder l f).builders = s.builders.upd l f := rfl
@[simp] theorem updBuilder_embCounts : (s.updBuilder l f).embCounts = s.embCounts := rfl
@[simp] theorem updBuilder_monitors : (s.updBuilder l f).monitors = s.monitors := rfl
@[simp] theorem updBuilder_ref : (s.updBuilder l f).ref = s.ref := rfl
@[simp] theorem updBuilder_fallback : (s.updBuilder l f).fallback = s.fallback := rfl
@[simp] theorem updBuilder_ports : (s.updBuilder l f).ports = s.ports := rfl
@[simp] theorem updBuilder_events : (s.updBuilder l f).events = s.events := rfl
@[simp] theorem updBuilder_eventNo : (s.updBuilder l f).eventNo = s.eventNo := rfl
@[simp] theorem updBuilder_faults : (s.updBuilder l f).faults = s.faults := rfl
@[simp] theorem updBuilder_work : (s.updBuilder l f).work = s.work := rfl
@[simp] theorem updBuilder_handed : (s.updBuilder l f).handed = s.handed := rfl
@[simp] theorem updBuilder_free : (s.updBuilder l f).free = s.free := rfl
@[simp] theorem updBuilder_pending : (s.updBuilder l f).pending = s.pending := rfl

end

section
variable (g : Fin 16) (f : EmbedCount → EmbedCount)

@[simp] theorem updCount_lanes : (s.updCount g f).lanes = s.lanes := rfl
@[simp] theorem updCount_relays : (s.updCount g f).relays = s.relays := rfl
@[simp] theorem updCount_groups : (s.updCount g f).groups = s.groups := rfl
@[simp] theorem updCount_strip : (s.updCount g f).strip = s.strip := rfl
@[simp] theorem updCount_embed : (s.updCount g f).embed = s.embed := rfl
@[simp] theorem updCount_hist : (s.updCount g f).hist = s.hist := rfl
@[simp] theorem updCount_trackers : (s.updCount g f).trackers = s.trackers := rfl
@[simp] theorem updCount_tone : (s.updCount g f).tone = s.tone := rfl
@[simp] theorem updCount_serial : (s.updCount g f).serial = s.serial := rfl
@[simp] theorem updCount_live : (s.updCount g f).live = s.live := rfl
@[simp] theorem updCount_plan : (s.updCount g f).plan = s.plan := rfl
@[simp] theorem updCount_stagedDest : (s.updCount g f).stagedDest = s.stagedDest := rfl
@[simp] theorem updCount_stagedPlan : (s.updCount g f).stagedPlan = s.stagedPlan := rfl
@[simp] theorem updCount_takes : (s.updCount g f).takes = s.takes := rfl
@[simp] theorem updCount_owners : (s.updCount g f).owners = s.owners := rfl
@[simp] theorem updCount_engine : (s.updCount g f).engine = s.engine := rfl
@[simp] theorem updCount_builders : (s.updCount g f).builders = s.builders := rfl
@[simp] theorem updCount_embCounts : (s.updCount g f).embCounts = s.embCounts.upd g f := rfl
@[simp] theorem updCount_monitors : (s.updCount g f).monitors = s.monitors := rfl
@[simp] theorem updCount_ref : (s.updCount g f).ref = s.ref := rfl
@[simp] theorem updCount_fallback : (s.updCount g f).fallback = s.fallback := rfl
@[simp] theorem updCount_ports : (s.updCount g f).ports = s.ports := rfl
@[simp] theorem updCount_events : (s.updCount g f).events = s.events := rfl
@[simp] theorem updCount_eventNo : (s.updCount g f).eventNo = s.eventNo := rfl
@[simp] theorem updCount_faults : (s.updCount g f).faults = s.faults := rfl
@[simp] theorem updCount_work : (s.updCount g f).work = s.work := rfl
@[simp] theorem updCount_handed : (s.updCount g f).handed = s.handed := rfl
@[simp] theorem updCount_free : (s.updCount g f).free = s.free := rfl
@[simp] theorem updCount_pending : (s.updCount g f).pending = s.pending := rfl

end

section
variable (d : Fin 96) (f : Monitor → Monitor)

@[simp] theorem updMonitor_lanes : (s.updMonitor d f).lanes = s.lanes := rfl
@[simp] theorem updMonitor_relays : (s.updMonitor d f).relays = s.relays := rfl
@[simp] theorem updMonitor_groups : (s.updMonitor d f).groups = s.groups := rfl
@[simp] theorem updMonitor_strip : (s.updMonitor d f).strip = s.strip := rfl
@[simp] theorem updMonitor_embed : (s.updMonitor d f).embed = s.embed := rfl
@[simp] theorem updMonitor_hist : (s.updMonitor d f).hist = s.hist := rfl
@[simp] theorem updMonitor_trackers : (s.updMonitor d f).trackers = s.trackers := rfl
@[simp] theorem updMonitor_tone : (s.updMonitor d f).tone = s.tone := rfl
@[simp] theorem updMonitor_serial : (s.updMonitor d f).serial = s.serial := rfl
@[simp] theorem updMonitor_live : (s.updMonitor d f).live = s.live := rfl
@[simp] theorem updMonitor_plan : (s.updMonitor d f).plan = s.plan := rfl
@[simp] theorem updMonitor_stagedDest : (s.updMonitor d f).stagedDest = s.stagedDest := rfl
@[simp] theorem updMonitor_stagedPlan : (s.updMonitor d f).stagedPlan = s.stagedPlan := rfl
@[simp] theorem updMonitor_takes : (s.updMonitor d f).takes = s.takes := rfl
@[simp] theorem updMonitor_owners : (s.updMonitor d f).owners = s.owners := rfl
@[simp] theorem updMonitor_engine : (s.updMonitor d f).engine = s.engine := rfl
@[simp] theorem updMonitor_builders : (s.updMonitor d f).builders = s.builders := rfl
@[simp] theorem updMonitor_embCounts : (s.updMonitor d f).embCounts = s.embCounts := rfl
@[simp] theorem updMonitor_monitors : (s.updMonitor d f).monitors = s.monitors.upd d f := rfl
@[simp] theorem updMonitor_ref : (s.updMonitor d f).ref = s.ref := rfl
@[simp] theorem updMonitor_fallback : (s.updMonitor d f).fallback = s.fallback := rfl
@[simp] theorem updMonitor_ports : (s.updMonitor d f).ports = s.ports := rfl
@[simp] theorem updMonitor_events : (s.updMonitor d f).events = s.events := rfl
@[simp] theorem updMonitor_eventNo : (s.updMonitor d f).eventNo = s.eventNo := rfl
@[simp] theorem updMonitor_faults : (s.updMonitor d f).faults = s.faults := rfl
@[simp] theorem updMonitor_work : (s.updMonitor d f).work = s.work := rfl
@[simp] theorem updMonitor_handed : (s.updMonitor d f).handed = s.handed := rfl
@[simp] theorem updMonitor_free : (s.updMonitor d f).free = s.free := rfl
@[simp] theorem updMonitor_pending : (s.updMonitor d f).pending = s.pending := rfl

end

section
variable (f : RefUnit → RefUnit)

@[simp] theorem updRef_lanes : (s.updRef f).lanes = s.lanes := rfl
@[simp] theorem updRef_relays : (s.updRef f).relays = s.relays := rfl
@[simp] theorem updRef_groups : (s.updRef f).groups = s.groups := rfl
@[simp] theorem updRef_strip : (s.updRef f).strip = s.strip := rfl
@[simp] theorem updRef_embed : (s.updRef f).embed = s.embed := rfl
@[simp] theorem updRef_hist : (s.updRef f).hist = s.hist := rfl
@[simp] theorem updRef_trackers : (s.updRef f).trackers = s.trackers := rfl
@[simp] theorem updRef_tone : (s.updRef f).tone = s.tone := rfl
@[simp] theorem updRef_serial : (s.updRef f).serial = s.serial := rfl
@[simp] theorem updRef_live : (s.updRef f).live = s.live := rfl
@[simp] theorem updRef_plan : (s.updRef f).plan = s.plan := rfl
@[simp] theorem updRef_stagedDest : (s.updRef f).stagedDest = s.stagedDest := rfl
@[simp] theorem updRef_stagedPlan : (s.updRef f).stagedPlan = s.stagedPlan := rfl
@[simp] theorem updRef_takes : (s.updRef f).takes = s.takes := rfl
@[simp] theorem updRef_owners : (s.updRef f).owners = s.owners := rfl
@[simp] theorem updRef_engine : (s.updRef f).engine = s.engine := rfl
@[simp] theorem updRef_builders : (s.updRef f).builders = s.builders := rfl
@[simp] theorem updRef_embCounts : (s.updRef f).embCounts = s.embCounts := rfl
@[simp] theorem updRef_monitors : (s.updRef f).monitors = s.monitors := rfl
@[simp] theorem updRef_ref : (s.updRef f).ref = f s.ref := rfl
@[simp] theorem updRef_fallback : (s.updRef f).fallback = s.fallback := rfl
@[simp] theorem updRef_ports : (s.updRef f).ports = s.ports := rfl
@[simp] theorem updRef_events : (s.updRef f).events = s.events := rfl
@[simp] theorem updRef_eventNo : (s.updRef f).eventNo = s.eventNo := rfl
@[simp] theorem updRef_faults : (s.updRef f).faults = s.faults := rfl
@[simp] theorem updRef_work : (s.updRef f).work = s.work := rfl
@[simp] theorem updRef_handed : (s.updRef f).handed = s.handed := rfl
@[simp] theorem updRef_free : (s.updRef f).free = s.free := rfl
@[simp] theorem updRef_pending : (s.updRef f).pending = s.pending := rfl

end

section
variable (l : Line) (f : Port → Port)

@[simp] theorem updPort_lanes : (s.updPort l f).lanes = s.lanes := rfl
@[simp] theorem updPort_relays : (s.updPort l f).relays = s.relays := rfl
@[simp] theorem updPort_groups : (s.updPort l f).groups = s.groups := rfl
@[simp] theorem updPort_strip : (s.updPort l f).strip = s.strip := rfl
@[simp] theorem updPort_embed : (s.updPort l f).embed = s.embed := rfl
@[simp] theorem updPort_hist : (s.updPort l f).hist = s.hist := rfl
@[simp] theorem updPort_trackers : (s.updPort l f).trackers = s.trackers := rfl
@[simp] theorem updPort_tone : (s.updPort l f).tone = s.tone := rfl
@[simp] theorem updPort_serial : (s.updPort l f).serial = s.serial := rfl
@[simp] theorem updPort_live : (s.updPort l f).live = s.live := rfl
@[simp] theorem updPort_plan : (s.updPort l f).plan = s.plan := rfl
@[simp] theorem updPort_stagedDest : (s.updPort l f).stagedDest = s.stagedDest := rfl
@[simp] theorem updPort_stagedPlan : (s.updPort l f).stagedPlan = s.stagedPlan := rfl
@[simp] theorem updPort_takes : (s.updPort l f).takes = s.takes := rfl
@[simp] theorem updPort_owners : (s.updPort l f).owners = s.owners := rfl
@[simp] theorem updPort_engine : (s.updPort l f).engine = s.engine := rfl
@[simp] theorem updPort_builders : (s.updPort l f).builders = s.builders := rfl
@[simp] theorem updPort_embCounts : (s.updPort l f).embCounts = s.embCounts := rfl
@[simp] theorem updPort_monitors : (s.updPort l f).monitors = s.monitors := rfl
@[simp] theorem updPort_ref : (s.updPort l f).ref = s.ref := rfl
@[simp] theorem updPort_fallback : (s.updPort l f).fallback = s.fallback := rfl
@[simp] theorem updPort_ports : (s.updPort l f).ports = s.ports.upd (lineIx l) f := rfl
@[simp] theorem updPort_events : (s.updPort l f).events = s.events := rfl
@[simp] theorem updPort_eventNo : (s.updPort l f).eventNo = s.eventNo := rfl
@[simp] theorem updPort_faults : (s.updPort l f).faults = s.faults := rfl
@[simp] theorem updPort_work : (s.updPort l f).work = s.work := rfl
@[simp] theorem updPort_handed : (s.updPort l f).handed = s.handed := rfl
@[simp] theorem updPort_free : (s.updPort l f).free = s.free := rfl
@[simp] theorem updPort_pending : (s.updPort l f).pending = s.pending := rfl

end

section
variable (l : Line) (f : EventQueue → EventQueue)

@[simp] theorem updEvents_lanes : (s.updEvents l f).lanes = s.lanes := rfl
@[simp] theorem updEvents_relays : (s.updEvents l f).relays = s.relays := rfl
@[simp] theorem updEvents_groups : (s.updEvents l f).groups = s.groups := rfl
@[simp] theorem updEvents_strip : (s.updEvents l f).strip = s.strip := rfl
@[simp] theorem updEvents_embed : (s.updEvents l f).embed = s.embed := rfl
@[simp] theorem updEvents_hist : (s.updEvents l f).hist = s.hist := rfl
@[simp] theorem updEvents_trackers : (s.updEvents l f).trackers = s.trackers := rfl
@[simp] theorem updEvents_tone : (s.updEvents l f).tone = s.tone := rfl
@[simp] theorem updEvents_serial : (s.updEvents l f).serial = s.serial := rfl
@[simp] theorem updEvents_live : (s.updEvents l f).live = s.live := rfl
@[simp] theorem updEvents_plan : (s.updEvents l f).plan = s.plan := rfl
@[simp] theorem updEvents_stagedDest : (s.updEvents l f).stagedDest = s.stagedDest := rfl
@[simp] theorem updEvents_stagedPlan : (s.updEvents l f).stagedPlan = s.stagedPlan := rfl
@[simp] theorem updEvents_takes : (s.updEvents l f).takes = s.takes := rfl
@[simp] theorem updEvents_owners : (s.updEvents l f).owners = s.owners := rfl
@[simp] theorem updEvents_engine : (s.updEvents l f).engine = s.engine := rfl
@[simp] theorem updEvents_builders : (s.updEvents l f).builders = s.builders := rfl
@[simp] theorem updEvents_embCounts : (s.updEvents l f).embCounts = s.embCounts := rfl
@[simp] theorem updEvents_monitors : (s.updEvents l f).monitors = s.monitors := rfl
@[simp] theorem updEvents_ref : (s.updEvents l f).ref = s.ref := rfl
@[simp] theorem updEvents_fallback : (s.updEvents l f).fallback = s.fallback := rfl
@[simp] theorem updEvents_ports : (s.updEvents l f).ports = s.ports := rfl
@[simp] theorem updEvents_events : (s.updEvents l f).events = s.events.upd (lineIx l) f := rfl
@[simp] theorem updEvents_eventNo : (s.updEvents l f).eventNo = s.eventNo := rfl
@[simp] theorem updEvents_faults : (s.updEvents l f).faults = s.faults := rfl
@[simp] theorem updEvents_work : (s.updEvents l f).work = s.work := rfl
@[simp] theorem updEvents_handed : (s.updEvents l f).handed = s.handed := rfl
@[simp] theorem updEvents_free : (s.updEvents l f).free = s.free := rfl
@[simp] theorem updEvents_pending : (s.updEvents l f).pending = s.pending := rfl

end

section
variable (l : Fin 4) (c : Option Capture)

@[simp] theorem setFault_lanes : (s.setFault l c).lanes = s.lanes := rfl
@[simp] theorem setFault_relays : (s.setFault l c).relays = s.relays := rfl
@[simp] theorem setFault_groups : (s.setFault l c).groups = s.groups := rfl
@[simp] theorem setFault_strip : (s.setFault l c).strip = s.strip := rfl
@[simp] theorem setFault_embed : (s.setFault l c).embed = s.embed := rfl
@[simp] theorem setFault_hist : (s.setFault l c).hist = s.hist := rfl
@[simp] theorem setFault_trackers : (s.setFault l c).trackers = s.trackers := rfl
@[simp] theorem setFault_tone : (s.setFault l c).tone = s.tone := rfl
@[simp] theorem setFault_serial : (s.setFault l c).serial = s.serial := rfl
@[simp] theorem setFault_live : (s.setFault l c).live = s.live := rfl
@[simp] theorem setFault_plan : (s.setFault l c).plan = s.plan := rfl
@[simp] theorem setFault_stagedDest : (s.setFault l c).stagedDest = s.stagedDest := rfl
@[simp] theorem setFault_stagedPlan : (s.setFault l c).stagedPlan = s.stagedPlan := rfl
@[simp] theorem setFault_takes : (s.setFault l c).takes = s.takes := rfl
@[simp] theorem setFault_owners : (s.setFault l c).owners = s.owners := rfl
@[simp] theorem setFault_engine : (s.setFault l c).engine = s.engine := rfl
@[simp] theorem setFault_builders : (s.setFault l c).builders = s.builders := rfl
@[simp] theorem setFault_embCounts : (s.setFault l c).embCounts = s.embCounts := rfl
@[simp] theorem setFault_monitors : (s.setFault l c).monitors = s.monitors := rfl
@[simp] theorem setFault_ref : (s.setFault l c).ref = s.ref := rfl
@[simp] theorem setFault_fallback : (s.setFault l c).fallback = s.fallback := rfl
@[simp] theorem setFault_ports : (s.setFault l c).ports = s.ports := rfl
@[simp] theorem setFault_events : (s.setFault l c).events = s.events := rfl
@[simp] theorem setFault_eventNo : (s.setFault l c).eventNo = s.eventNo := rfl
@[simp] theorem setFault_faults : (s.setFault l c).faults = s.faults.set l c := rfl
@[simp] theorem setFault_work : (s.setFault l c).work = s.work := rfl
@[simp] theorem setFault_handed : (s.setFault l c).handed = s.handed := rfl
@[simp] theorem setFault_free : (s.setFault l c).free = s.free := rfl
@[simp] theorem setFault_pending : (s.setFault l c).pending = s.pending := rfl

end

section
variable (d : Fin 5) (xs : List TakeItem)

@[simp] theorem setTakes_lanes : (s.setTakes d xs).lanes = s.lanes := rfl
@[simp] theorem setTakes_relays : (s.setTakes d xs).relays = s.relays := rfl
@[simp] theorem setTakes_groups : (s.setTakes d xs).groups = s.groups := rfl
@[simp] theorem setTakes_strip : (s.setTakes d xs).strip = s.strip := rfl
@[simp] theorem setTakes_embed : (s.setTakes d xs).embed = s.embed := rfl
@[simp] theorem setTakes_hist : (s.setTakes d xs).hist = s.hist := rfl
@[simp] theorem setTakes_trackers : (s.setTakes d xs).trackers = s.trackers := rfl
@[simp] theorem setTakes_tone : (s.setTakes d xs).tone = s.tone := rfl
@[simp] theorem setTakes_serial : (s.setTakes d xs).serial = s.serial := rfl
@[simp] theorem setTakes_live : (s.setTakes d xs).live = s.live := rfl
@[simp] theorem setTakes_plan : (s.setTakes d xs).plan = s.plan := rfl
@[simp] theorem setTakes_stagedDest : (s.setTakes d xs).stagedDest = s.stagedDest := rfl
@[simp] theorem setTakes_stagedPlan : (s.setTakes d xs).stagedPlan = s.stagedPlan := rfl
@[simp] theorem setTakes_takes : (s.setTakes d xs).takes = s.takes.set d xs := rfl
@[simp] theorem setTakes_owners : (s.setTakes d xs).owners = s.owners := rfl
@[simp] theorem setTakes_engine : (s.setTakes d xs).engine = s.engine := rfl
@[simp] theorem setTakes_builders : (s.setTakes d xs).builders = s.builders := rfl
@[simp] theorem setTakes_embCounts : (s.setTakes d xs).embCounts = s.embCounts := rfl
@[simp] theorem setTakes_monitors : (s.setTakes d xs).monitors = s.monitors := rfl
@[simp] theorem setTakes_ref : (s.setTakes d xs).ref = s.ref := rfl
@[simp] theorem setTakes_fallback : (s.setTakes d xs).fallback = s.fallback := rfl
@[simp] theorem setTakes_ports : (s.setTakes d xs).ports = s.ports := rfl
@[simp] theorem setTakes_events : (s.setTakes d xs).events = s.events := rfl
@[simp] theorem setTakes_eventNo : (s.setTakes d xs).eventNo = s.eventNo := rfl
@[simp] theorem setTakes_faults : (s.setTakes d xs).faults = s.faults := rfl
@[simp] theorem setTakes_work : (s.setTakes d xs).work = s.work := rfl
@[simp] theorem setTakes_handed : (s.setTakes d xs).handed = s.handed := rfl
@[simp] theorem setTakes_free : (s.setTakes d xs).free = s.free := rfl
@[simp] theorem setTakes_pending : (s.setTakes d xs).pending = s.pending := rfl

end

section
variable (it : Fin 112) (o : Option Line)

@[simp] theorem setOwner_lanes : (s.setOwner it o).lanes = s.lanes := rfl
@[simp] theorem setOwner_relays : (s.setOwner it o).relays = s.relays := rfl
@[simp] theorem setOwner_groups : (s.setOwner it o).groups = s.groups := rfl
@[simp] theorem setOwner_strip : (s.setOwner it o).strip = s.strip := rfl
@[simp] theorem setOwner_embed : (s.setOwner it o).embed = s.embed := rfl
@[simp] theorem setOwner_hist : (s.setOwner it o).hist = s.hist := rfl
@[simp] theorem setOwner_trackers : (s.setOwner it o).trackers = s.trackers := rfl
@[simp] theorem setOwner_tone : (s.setOwner it o).tone = s.tone := rfl
@[simp] theorem setOwner_serial : (s.setOwner it o).serial = s.serial := rfl
@[simp] theorem setOwner_live : (s.setOwner it o).live = s.live := rfl
@[simp] theorem setOwner_plan : (s.setOwner it o).plan = s.plan := rfl
@[simp] theorem setOwner_stagedDest : (s.setOwner it o).stagedDest = s.stagedDest := rfl
@[simp] theorem setOwner_stagedPlan : (s.setOwner it o).stagedPlan = s.stagedPlan := rfl
@[simp] theorem setOwner_takes : (s.setOwner it o).takes = s.takes := rfl
@[simp] theorem setOwner_owners : (s.setOwner it o).owners = s.owners.set it o := rfl
@[simp] theorem setOwner_engine : (s.setOwner it o).engine = s.engine := rfl
@[simp] theorem setOwner_builders : (s.setOwner it o).builders = s.builders := rfl
@[simp] theorem setOwner_embCounts : (s.setOwner it o).embCounts = s.embCounts := rfl
@[simp] theorem setOwner_monitors : (s.setOwner it o).monitors = s.monitors := rfl
@[simp] theorem setOwner_ref : (s.setOwner it o).ref = s.ref := rfl
@[simp] theorem setOwner_fallback : (s.setOwner it o).fallback = s.fallback := rfl
@[simp] theorem setOwner_ports : (s.setOwner it o).ports = s.ports := rfl
@[simp] theorem setOwner_events : (s.setOwner it o).events = s.events := rfl
@[simp] theorem setOwner_eventNo : (s.setOwner it o).eventNo = s.eventNo := rfl
@[simp] theorem setOwner_faults : (s.setOwner it o).faults = s.faults := rfl
@[simp] theorem setOwner_work : (s.setOwner it o).work = s.work := rfl
@[simp] theorem setOwner_handed : (s.setOwner it o).handed = s.handed := rfl
@[simp] theorem setOwner_free : (s.setOwner it o).free = s.free := rfl
@[simp] theorem setOwner_pending : (s.setOwner it o).pending = s.pending := rfl

end

section
variable (l : Fin 4) (w : LaneWork)

@[simp] theorem setWork_lanes : (s.setWork l w).lanes = s.lanes := rfl
@[simp] theorem setWork_relays : (s.setWork l w).relays = s.relays := rfl
@[simp] theorem setWork_groups : (s.setWork l w).groups = s.groups := rfl
@[simp] theorem setWork_strip : (s.setWork l w).strip = s.strip := rfl
@[simp] theorem setWork_embed : (s.setWork l w).embed = s.embed := rfl
@[simp] theorem setWork_hist : (s.setWork l w).hist = s.hist := rfl
@[simp] theorem setWork_trackers : (s.setWork l w).trackers = s.trackers := rfl
@[simp] theorem setWork_tone : (s.setWork l w).tone = s.tone := rfl
@[simp] theorem setWork_serial : (s.setWork l w).serial = s.serial := rfl
@[simp] theorem setWork_live : (s.setWork l w).live = s.live := rfl
@[simp] theorem setWork_plan : (s.setWork l w).plan = s.plan := rfl
@[simp] theorem setWork_stagedDest : (s.setWork l w).stagedDest = s.stagedDest := rfl
@[simp] theorem setWork_stagedPlan : (s.setWork l w).stagedPlan = s.stagedPlan := rfl
@[simp] theorem setWork_takes : (s.setWork l w).takes = s.takes := rfl
@[simp] theorem setWork_owners : (s.setWork l w).owners = s.owners := rfl
@[simp] theorem setWork_engine : (s.setWork l w).engine = s.engine := rfl
@[simp] theorem setWork_builders : (s.setWork l w).builders = s.builders := rfl
@[simp] theorem setWork_embCounts : (s.setWork l w).embCounts = s.embCounts := rfl
@[simp] theorem setWork_monitors : (s.setWork l w).monitors = s.monitors := rfl
@[simp] theorem setWork_ref : (s.setWork l w).ref = s.ref := rfl
@[simp] theorem setWork_fallback : (s.setWork l w).fallback = s.fallback := rfl
@[simp] theorem setWork_ports : (s.setWork l w).ports = s.ports := rfl
@[simp] theorem setWork_events : (s.setWork l w).events = s.events := rfl
@[simp] theorem setWork_eventNo : (s.setWork l w).eventNo = s.eventNo := rfl
@[simp] theorem setWork_faults : (s.setWork l w).faults = s.faults := rfl
@[simp] theorem setWork_work : (s.setWork l w).work = s.work.set l w := rfl
@[simp] theorem setWork_handed : (s.setWork l w).handed = s.handed := rfl
@[simp] theorem setWork_free : (s.setWork l w).free = s.free := rfl
@[simp] theorem setWork_pending : (s.setWork l w).pending = s.pending := rfl

end

section
variable (bs : List ResetBlock)

@[simp] theorem setHanded_lanes : (s.setHanded bs).lanes = s.lanes := rfl
@[simp] theorem setHanded_relays : (s.setHanded bs).relays = s.relays := rfl
@[simp] theorem setHanded_groups : (s.setHanded bs).groups = s.groups := rfl
@[simp] theorem setHanded_strip : (s.setHanded bs).strip = s.strip := rfl
@[simp] theorem setHanded_embed : (s.setHanded bs).embed = s.embed := rfl
@[simp] theorem setHanded_hist : (s.setHanded bs).hist = s.hist := rfl
@[simp] theorem setHanded_trackers : (s.setHanded bs).trackers = s.trackers := rfl
@[simp] theorem setHanded_tone : (s.setHanded bs).tone = s.tone := rfl
@[simp] theorem setHanded_serial : (s.setHanded bs).serial = s.serial := rfl
@[simp] theorem setHanded_live : (s.setHanded bs).live = s.live := rfl
@[simp] theorem setHanded_plan : (s.setHanded bs).plan = s.plan := rfl
@[simp] theorem setHanded_stagedDest : (s.setHanded bs).stagedDest = s.stagedDest := rfl
@[simp] theorem setHanded_stagedPlan : (s.setHanded bs).stagedPlan = s.stagedPlan := rfl
@[simp] theorem setHanded_takes : (s.setHanded bs).takes = s.takes := rfl
@[simp] theorem setHanded_owners : (s.setHanded bs).owners = s.owners := rfl
@[simp] theorem setHanded_engine : (s.setHanded bs).engine = s.engine := rfl
@[simp] theorem setHanded_builders : (s.setHanded bs).builders = s.builders := rfl
@[simp] theorem setHanded_embCounts : (s.setHanded bs).embCounts = s.embCounts := rfl
@[simp] theorem setHanded_monitors : (s.setHanded bs).monitors = s.monitors := rfl
@[simp] theorem setHanded_ref : (s.setHanded bs).ref = s.ref := rfl
@[simp] theorem setHanded_fallback : (s.setHanded bs).fallback = s.fallback := rfl
@[simp] theorem setHanded_ports : (s.setHanded bs).ports = s.ports := rfl
@[simp] theorem setHanded_events : (s.setHanded bs).events = s.events := rfl
@[simp] theorem setHanded_eventNo : (s.setHanded bs).eventNo = s.eventNo := rfl
@[simp] theorem setHanded_faults : (s.setHanded bs).faults = s.faults := rfl
@[simp] theorem setHanded_work : (s.setHanded bs).work = s.work := rfl
@[simp] theorem setHanded_handed : (s.setHanded bs).handed = bs := rfl
@[simp] theorem setHanded_free : (s.setHanded bs).free = s.free := rfl
@[simp] theorem setHanded_pending : (s.setHanded bs).pending = s.pending := rfl

end

section
variable (no : Nat) (c : BitVec 16) (ns : List Pending)

@[simp] theorem raiseAs_lanes : (s.raiseAs no c ns).lanes = s.lanes := rfl
@[simp] theorem raiseAs_relays : (s.raiseAs no c ns).relays = s.relays := rfl
@[simp] theorem raiseAs_groups : (s.raiseAs no c ns).groups = s.groups := rfl
@[simp] theorem raiseAs_strip : (s.raiseAs no c ns).strip = s.strip := rfl
@[simp] theorem raiseAs_embed : (s.raiseAs no c ns).embed = s.embed := rfl
@[simp] theorem raiseAs_hist : (s.raiseAs no c ns).hist = s.hist := rfl
@[simp] theorem raiseAs_trackers : (s.raiseAs no c ns).trackers = s.trackers := rfl
@[simp] theorem raiseAs_tone : (s.raiseAs no c ns).tone = s.tone := rfl
@[simp] theorem raiseAs_serial : (s.raiseAs no c ns).serial = s.serial := rfl
@[simp] theorem raiseAs_live : (s.raiseAs no c ns).live = s.live := rfl
@[simp] theorem raiseAs_plan : (s.raiseAs no c ns).plan = s.plan := rfl
@[simp] theorem raiseAs_stagedDest : (s.raiseAs no c ns).stagedDest = s.stagedDest := rfl
@[simp] theorem raiseAs_stagedPlan : (s.raiseAs no c ns).stagedPlan = s.stagedPlan := rfl
@[simp] theorem raiseAs_takes : (s.raiseAs no c ns).takes = s.takes := rfl
@[simp] theorem raiseAs_owners : (s.raiseAs no c ns).owners = s.owners := rfl
@[simp] theorem raiseAs_engine : (s.raiseAs no c ns).engine = s.engine := rfl
@[simp] theorem raiseAs_builders : (s.raiseAs no c ns).builders = s.builders := rfl
@[simp] theorem raiseAs_embCounts : (s.raiseAs no c ns).embCounts = s.embCounts := rfl
@[simp] theorem raiseAs_monitors : (s.raiseAs no c ns).monitors = s.monitors := rfl
@[simp] theorem raiseAs_ref : (s.raiseAs no c ns).ref = s.ref := rfl
@[simp] theorem raiseAs_fallback : (s.raiseAs no c ns).fallback = s.fallback := rfl
@[simp] theorem raiseAs_ports : (s.raiseAs no c ns).ports = s.ports := rfl
@[simp] theorem raiseAs_events : (s.raiseAs no c ns).events = s.events.map fun q => q.hear no c ns := rfl
@[simp] theorem raiseAs_eventNo : (s.raiseAs no c ns).eventNo = s.eventNo := rfl
@[simp] theorem raiseAs_faults : (s.raiseAs no c ns).faults = s.faults := rfl
@[simp] theorem raiseAs_work : (s.raiseAs no c ns).work = s.work := rfl
@[simp] theorem raiseAs_handed : (s.raiseAs no c ns).handed = s.handed := rfl
@[simp] theorem raiseAs_free : (s.raiseAs no c ns).free = s.free := rfl
@[simp] theorem raiseAs_pending : (s.raiseAs no c ns).pending = s.pending := rfl

end

section

@[simp] theorem newEvent_lanes : (s.newEvent).lanes = s.lanes := rfl
@[simp] theorem newEvent_relays : (s.newEvent).relays = s.relays := rfl
@[simp] theorem newEvent_groups : (s.newEvent).groups = s.groups := rfl
@[simp] theorem newEvent_strip : (s.newEvent).strip = s.strip := rfl
@[simp] theorem newEvent_embed : (s.newEvent).embed = s.embed := rfl
@[simp] theorem newEvent_hist : (s.newEvent).hist = s.hist := rfl
@[simp] theorem newEvent_trackers : (s.newEvent).trackers = s.trackers := rfl
@[simp] theorem newEvent_tone : (s.newEvent).tone = s.tone := rfl
@[simp] theorem newEvent_serial : (s.newEvent).serial = s.serial := rfl
@[simp] theorem newEvent_live : (s.newEvent).live = s.live := rfl
@[simp] theorem newEvent_plan : (s.newEvent).plan = s.plan := rfl
@[simp] theorem newEvent_stagedDest : (s.newEvent).stagedDest = s.stagedDest := rfl
@[simp] theorem newEvent_stagedPlan : (s.newEvent).stagedPlan = s.stagedPlan := rfl
@[simp] theorem newEvent_takes : (s.newEvent).takes = s.takes := rfl
@[simp] theorem newEvent_owners : (s.newEvent).owners = s.owners := rfl
@[simp] theorem newEvent_engine : (s.newEvent).engine = s.engine := rfl
@[simp] theorem newEvent_builders : (s.newEvent).builders = s.builders := rfl
@[simp] theorem newEvent_embCounts : (s.newEvent).embCounts = s.embCounts := rfl
@[simp] theorem newEvent_monitors : (s.newEvent).monitors = s.monitors := rfl
@[simp] theorem newEvent_ref : (s.newEvent).ref = s.ref := rfl
@[simp] theorem newEvent_fallback : (s.newEvent).fallback = s.fallback := rfl
@[simp] theorem newEvent_ports : (s.newEvent).ports = s.ports := rfl
@[simp] theorem newEvent_events : (s.newEvent).events = s.events := rfl
@[simp] theorem newEvent_eventNo : (s.newEvent).eventNo = s.eventNo + 1 := rfl
@[simp] theorem newEvent_faults : (s.newEvent).faults = s.faults := rfl
@[simp] theorem newEvent_work : (s.newEvent).work = s.work := rfl
@[simp] theorem newEvent_handed : (s.newEvent).handed = s.handed := rfl
@[simp] theorem newEvent_free : (s.newEvent).free = s.free := rfl
@[simp] theorem newEvent_pending : (s.newEvent).pending = s.pending := rfl

end

section
variable (c : BitVec 16) (ns : List Pending)

@[simp] theorem raiseAllAt_lanes : (s.raiseAllAt c ns).lanes = s.lanes := rfl
@[simp] theorem raiseAllAt_relays : (s.raiseAllAt c ns).relays = s.relays := rfl
@[simp] theorem raiseAllAt_groups : (s.raiseAllAt c ns).groups = s.groups := rfl
@[simp] theorem raiseAllAt_strip : (s.raiseAllAt c ns).strip = s.strip := rfl
@[simp] theorem raiseAllAt_embed : (s.raiseAllAt c ns).embed = s.embed := rfl
@[simp] theorem raiseAllAt_hist : (s.raiseAllAt c ns).hist = s.hist := rfl
@[simp] theorem raiseAllAt_trackers : (s.raiseAllAt c ns).trackers = s.trackers := rfl
@[simp] theorem raiseAllAt_tone : (s.raiseAllAt c ns).tone = s.tone := rfl
@[simp] theorem raiseAllAt_serial : (s.raiseAllAt c ns).serial = s.serial := rfl
@[simp] theorem raiseAllAt_live : (s.raiseAllAt c ns).live = s.live := rfl
@[simp] theorem raiseAllAt_plan : (s.raiseAllAt c ns).plan = s.plan := rfl
@[simp] theorem raiseAllAt_stagedDest : (s.raiseAllAt c ns).stagedDest = s.stagedDest := rfl
@[simp] theorem raiseAllAt_stagedPlan : (s.raiseAllAt c ns).stagedPlan = s.stagedPlan := rfl
@[simp] theorem raiseAllAt_takes : (s.raiseAllAt c ns).takes = s.takes := rfl
@[simp] theorem raiseAllAt_owners : (s.raiseAllAt c ns).owners = s.owners := rfl
@[simp] theorem raiseAllAt_engine : (s.raiseAllAt c ns).engine = s.engine := rfl
@[simp] theorem raiseAllAt_builders : (s.raiseAllAt c ns).builders = s.builders := rfl
@[simp] theorem raiseAllAt_embCounts : (s.raiseAllAt c ns).embCounts = s.embCounts := rfl
@[simp] theorem raiseAllAt_monitors : (s.raiseAllAt c ns).monitors = s.monitors := rfl
@[simp] theorem raiseAllAt_ref : (s.raiseAllAt c ns).ref = s.ref := rfl
@[simp] theorem raiseAllAt_fallback : (s.raiseAllAt c ns).fallback = s.fallback := rfl
@[simp] theorem raiseAllAt_ports : (s.raiseAllAt c ns).ports = s.ports := rfl
@[simp] theorem raiseAllAt_events : (s.raiseAllAt c ns).events = s.events.map fun q => q.hear s.eventNo c ns := rfl
@[simp] theorem raiseAllAt_eventNo : (s.raiseAllAt c ns).eventNo
    = if ns.isEmpty then s.eventNo else s.eventNo + 1 := rfl
@[simp] theorem raiseAllAt_faults : (s.raiseAllAt c ns).faults = s.faults := rfl
@[simp] theorem raiseAllAt_work : (s.raiseAllAt c ns).work = s.work := rfl
@[simp] theorem raiseAllAt_handed : (s.raiseAllAt c ns).handed = s.handed := rfl
@[simp] theorem raiseAllAt_free : (s.raiseAllAt c ns).free = s.free := rfl
@[simp] theorem raiseAllAt_pending : (s.raiseAllAt c ns).pending = s.pending := rfl

end

section
variable (ns : List Pending)

@[simp] theorem raiseAll_lanes : (s.raiseAll ns).lanes = s.lanes := rfl
@[simp] theorem raiseAll_relays : (s.raiseAll ns).relays = s.relays := rfl
@[simp] theorem raiseAll_groups : (s.raiseAll ns).groups = s.groups := rfl
@[simp] theorem raiseAll_strip : (s.raiseAll ns).strip = s.strip := rfl
@[simp] theorem raiseAll_embed : (s.raiseAll ns).embed = s.embed := rfl
@[simp] theorem raiseAll_hist : (s.raiseAll ns).hist = s.hist := rfl
@[simp] theorem raiseAll_trackers : (s.raiseAll ns).trackers = s.trackers := rfl
@[simp] theorem raiseAll_tone : (s.raiseAll ns).tone = s.tone := rfl
@[simp] theorem raiseAll_serial : (s.raiseAll ns).serial = s.serial := rfl
@[simp] theorem raiseAll_live : (s.raiseAll ns).live = s.live := rfl
@[simp] theorem raiseAll_plan : (s.raiseAll ns).plan = s.plan := rfl
@[simp] theorem raiseAll_stagedDest : (s.raiseAll ns).stagedDest = s.stagedDest := rfl
@[simp] theorem raiseAll_stagedPlan : (s.raiseAll ns).stagedPlan = s.stagedPlan := rfl
@[simp] theorem raiseAll_takes : (s.raiseAll ns).takes = s.takes := rfl
@[simp] theorem raiseAll_owners : (s.raiseAll ns).owners = s.owners := rfl
@[simp] theorem raiseAll_engine : (s.raiseAll ns).engine = s.engine := rfl
@[simp] theorem raiseAll_builders : (s.raiseAll ns).builders = s.builders := rfl
@[simp] theorem raiseAll_embCounts : (s.raiseAll ns).embCounts = s.embCounts := rfl
@[simp] theorem raiseAll_monitors : (s.raiseAll ns).monitors = s.monitors := rfl
@[simp] theorem raiseAll_ref : (s.raiseAll ns).ref = s.ref := rfl
@[simp] theorem raiseAll_fallback : (s.raiseAll ns).fallback = s.fallback := rfl
@[simp] theorem raiseAll_ports : (s.raiseAll ns).ports = s.ports := rfl
@[simp] theorem raiseAll_events : (s.raiseAll ns).events
    = s.events.map fun q => q.hear s.eventNo s.ref.frameCount ns := rfl
@[simp] theorem raiseAll_eventNo : (s.raiseAll ns).eventNo
    = if ns.isEmpty then s.eventNo else s.eventNo + 1 := rfl
@[simp] theorem raiseAll_faults : (s.raiseAll ns).faults = s.faults := rfl
@[simp] theorem raiseAll_work : (s.raiseAll ns).work = s.work := rfl
@[simp] theorem raiseAll_handed : (s.raiseAll ns).handed = s.handed := rfl
@[simp] theorem raiseAll_free : (s.raiseAll ns).free = s.free := rfl
@[simp] theorem raiseAll_pending : (s.raiseAll ns).pending = s.pending := rfl

end

section
variable (k : NoticeKind) (a b : Nat)

@[simp] theorem raise_lanes : (s.raise k a b).lanes = s.lanes := rfl
@[simp] theorem raise_relays : (s.raise k a b).relays = s.relays := rfl
@[simp] theorem raise_groups : (s.raise k a b).groups = s.groups := rfl
@[simp] theorem raise_strip : (s.raise k a b).strip = s.strip := rfl
@[simp] theorem raise_embed : (s.raise k a b).embed = s.embed := rfl
@[simp] theorem raise_hist : (s.raise k a b).hist = s.hist := rfl
@[simp] theorem raise_trackers : (s.raise k a b).trackers = s.trackers := rfl
@[simp] theorem raise_tone : (s.raise k a b).tone = s.tone := rfl
@[simp] theorem raise_serial : (s.raise k a b).serial = s.serial := rfl
@[simp] theorem raise_live : (s.raise k a b).live = s.live := rfl
@[simp] theorem raise_plan : (s.raise k a b).plan = s.plan := rfl
@[simp] theorem raise_stagedDest : (s.raise k a b).stagedDest = s.stagedDest := rfl
@[simp] theorem raise_stagedPlan : (s.raise k a b).stagedPlan = s.stagedPlan := rfl
@[simp] theorem raise_takes : (s.raise k a b).takes = s.takes := rfl
@[simp] theorem raise_owners : (s.raise k a b).owners = s.owners := rfl
@[simp] theorem raise_engine : (s.raise k a b).engine = s.engine := rfl
@[simp] theorem raise_builders : (s.raise k a b).builders = s.builders := rfl
@[simp] theorem raise_embCounts : (s.raise k a b).embCounts = s.embCounts := rfl
@[simp] theorem raise_monitors : (s.raise k a b).monitors = s.monitors := rfl
@[simp] theorem raise_ref : (s.raise k a b).ref = s.ref := rfl
@[simp] theorem raise_fallback : (s.raise k a b).fallback = s.fallback := rfl
@[simp] theorem raise_ports : (s.raise k a b).ports = s.ports := rfl
@[simp] theorem raise_events : (s.raise k a b).events
    = s.events.map fun q => q.hear s.eventNo s.ref.frameCount [(k, a, b)] := rfl
@[simp] theorem raise_eventNo : (s.raise k a b).eventNo = s.eventNo + 1 := rfl
@[simp] theorem raise_faults : (s.raise k a b).faults = s.faults := rfl
@[simp] theorem raise_work : (s.raise k a b).work = s.work := rfl
@[simp] theorem raise_handed : (s.raise k a b).handed = s.handed := rfl
@[simp] theorem raise_free : (s.raise k a b).free = s.free := rfl
@[simp] theorem raise_pending : (s.raise k a b).pending = s.pending := rfl

end

section
variable (cs : List Instr)

@[simp] theorem withPending_lanes : (s.withPending cs).lanes = s.lanes := rfl
@[simp] theorem withPending_relays : (s.withPending cs).relays = s.relays := rfl
@[simp] theorem withPending_groups : (s.withPending cs).groups = s.groups := rfl
@[simp] theorem withPending_strip : (s.withPending cs).strip = s.strip := rfl
@[simp] theorem withPending_embed : (s.withPending cs).embed = s.embed := rfl
@[simp] theorem withPending_hist : (s.withPending cs).hist = s.hist := rfl
@[simp] theorem withPending_trackers : (s.withPending cs).trackers = s.trackers := rfl
@[simp] theorem withPending_tone : (s.withPending cs).tone = s.tone := rfl
@[simp] theorem withPending_serial : (s.withPending cs).serial = s.serial := rfl
@[simp] theorem withPending_live : (s.withPending cs).live = s.live := rfl
@[simp] theorem withPending_plan : (s.withPending cs).plan = s.plan := rfl
@[simp] theorem withPending_stagedDest : (s.withPending cs).stagedDest = s.stagedDest := rfl
@[simp] theorem withPending_stagedPlan : (s.withPending cs).stagedPlan = s.stagedPlan := rfl
@[simp] theorem withPending_takes : (s.withPending cs).takes = s.takes := rfl
@[simp] theorem withPending_owners : (s.withPending cs).owners = s.owners := rfl
@[simp] theorem withPending_engine : (s.withPending cs).engine = s.engine := rfl
@[simp] theorem withPending_builders : (s.withPending cs).builders = s.builders := rfl
@[simp] theorem withPending_embCounts : (s.withPending cs).embCounts = s.embCounts := rfl
@[simp] theorem withPending_monitors : (s.withPending cs).monitors = s.monitors := rfl
@[simp] theorem withPending_ref : (s.withPending cs).ref = s.ref := rfl
@[simp] theorem withPending_fallback : (s.withPending cs).fallback = s.fallback := rfl
@[simp] theorem withPending_ports : (s.withPending cs).ports = s.ports := rfl
@[simp] theorem withPending_events : (s.withPending cs).events = s.events := rfl
@[simp] theorem withPending_eventNo : (s.withPending cs).eventNo = s.eventNo := rfl
@[simp] theorem withPending_faults : (s.withPending cs).faults = s.faults := rfl
@[simp] theorem withPending_work : (s.withPending cs).work = s.work := rfl
@[simp] theorem withPending_handed : (s.withPending cs).handed = s.handed := rfl
@[simp] theorem withPending_free : (s.withPending cs).free = s.free := rfl
@[simp] theorem withPending_pending : (s.withPending cs).pending = cs := rfl

end

/-! ### Two updates of one thing, and updates that agree on it -/

@[simp] theorem updLane_updLane (i : Fin 4) (f g : Receiver → Receiver) : (s.updLane i f).updLane i g
    = s.updLane i fun x => g (f x) :=
  congrArg (fun b => { s with lanes := b }) (Bank.upd_upd_self _ _ _ _)
theorem updLane_congr (i : Fin 4) {f g : Receiver → Receiver} (h : f (s.lanes.get i) = g (s.lanes.get i)) :
    s.updLane i f = s.updLane i g :=
  congrArg (fun b => { s with lanes := b }) (Bank.upd_congr _ _ h)
theorem updLane_eq_self (i : Fin 4) {f : Receiver → Receiver} (h : f (s.lanes.get i) = s.lanes.get i) :
    s.updLane i f = s :=
  congrArg (fun b => { s with lanes := b }) (Bank.upd_eq_self _ _ h)
@[simp] theorem updRelay_updRelay (i : Fin 4) (f g : Relay → Relay) : (s.updRelay i f).updRelay i g
    = s.updRelay i fun x => g (f x) :=
  congrArg (fun b => { s with relays := b }) (Bank.upd_upd_self _ _ _ _)
theorem updRelay_congr (i : Fin 4) {f g : Relay → Relay} (h : f (s.relays.get i) = g (s.relays.get i)) :
    s.updRelay i f = s.updRelay i g :=
  congrArg (fun b => { s with relays := b }) (Bank.upd_congr _ _ h)
theorem updRelay_eq_self (i : Fin 4) {f : Relay → Relay} (h : f (s.relays.get i) = s.relays.get i) : s.updRelay i f
    = s :=
  congrArg (fun b => { s with relays := b }) (Bank.upd_eq_self _ _ h)
@[simp] theorem updGroup_updGroup (i : Fin 16) (f g : GroupState → GroupState) : (s.updGroup i f).updGroup i g
    = s.updGroup i fun x => g (f x) :=
  congrArg (fun b => { s with groups := b }) (Bank.upd_upd_self _ _ _ _)
theorem updGroup_congr (i : Fin 16) {f g : GroupState → GroupState} (h : f (s.groups.get i) = g (s.groups.get i)) :
    s.updGroup i f = s.updGroup i g :=
  congrArg (fun b => { s with groups := b }) (Bank.upd_congr _ _ h)
theorem updGroup_eq_self (i : Fin 16) {f : GroupState → GroupState} (h : f (s.groups.get i) = s.groups.get i) :
    s.updGroup i f = s :=
  congrArg (fun b => { s with groups := b }) (Bank.upd_eq_self _ _ h)
@[simp] theorem updStrip_updStrip (i : Fin 16) (f g : Store → Store) : (s.updStrip i f).updStrip i g
    = s.updStrip i fun x => g (f x) :=
  congrArg (fun b => { s with strip := b }) (Bank.upd_upd_self _ _ _ _)
theorem updStrip_congr (i : Fin 16) {f g : Store → Store} (h : f (s.strip.get i) = g (s.strip.get i)) :
    s.updStrip i f = s.updStrip i g :=
  congrArg (fun b => { s with strip := b }) (Bank.upd_congr _ _ h)
theorem updStrip_eq_self (i : Fin 16) {f : Store → Store} (h : f (s.strip.get i) = s.strip.get i) : s.updStrip i f
    = s :=
  congrArg (fun b => { s with strip := b }) (Bank.upd_eq_self _ _ h)
@[simp] theorem updEmbed_updEmbed (i : Fin 16) (f g : Store → Store) : (s.updEmbed i f).updEmbed i g
    = s.updEmbed i fun x => g (f x) :=
  congrArg (fun b => { s with embed := b }) (Bank.upd_upd_self _ _ _ _)
theorem updEmbed_congr (i : Fin 16) {f g : Store → Store} (h : f (s.embed.get i) = g (s.embed.get i)) :
    s.updEmbed i f = s.updEmbed i g :=
  congrArg (fun b => { s with embed := b }) (Bank.upd_congr _ _ h)
theorem updEmbed_eq_self (i : Fin 16) {f : Store → Store} (h : f (s.embed.get i) = s.embed.get i) : s.updEmbed i f
    = s :=
  congrArg (fun b => { s with embed := b }) (Bank.upd_eq_self _ _ h)
@[simp] theorem updTracker_updTracker (i : Fin 96) (f g : Tracker → Tracker) : (s.updTracker i f).updTracker i g
    = s.updTracker i fun x => g (f x) :=
  congrArg (fun b => { s with trackers := b }) (Bank.upd_upd_self _ _ _ _)
theorem updTracker_congr (i : Fin 96) {f g : Tracker → Tracker} (h : f (s.trackers.get i) = g (s.trackers.get i)) :
    s.updTracker i f = s.updTracker i g :=
  congrArg (fun b => { s with trackers := b }) (Bank.upd_congr _ _ h)
theorem updTracker_eq_self (i : Fin 96) {f : Tracker → Tracker} (h : f (s.trackers.get i) = s.trackers.get i) :
    s.updTracker i f = s :=
  congrArg (fun b => { s with trackers := b }) (Bank.upd_eq_self _ _ h)
@[simp] theorem updDest_updDest (i : Fin 96) (f g : DestState → DestState) : (s.updDest i f).updDest i g
    = s.updDest i fun x => g (f x) :=
  congrArg (fun b => { s with engine := b }) (Bank.upd_upd_self _ _ _ _)
theorem updDest_congr (i : Fin 96) {f g : DestState → DestState} (h : f (s.engine.get i) = g (s.engine.get i)) :
    s.updDest i f = s.updDest i g :=
  congrArg (fun b => { s with engine := b }) (Bank.upd_congr _ _ h)
theorem updDest_eq_self (i : Fin 96) {f : DestState → DestState} (h : f (s.engine.get i) = s.engine.get i) :
    s.updDest i f = s :=
  congrArg (fun b => { s with engine := b }) (Bank.upd_eq_self _ _ h)
@[simp] theorem updBuilder_updBuilder (i : Fin 4) (f g : Builder → Builder) : (s.updBuilder i f).updBuilder i g
    = s.updBuilder i fun x => g (f x) :=
  congrArg (fun b => { s with builders := b }) (Bank.upd_upd_self _ _ _ _)
theorem updBuilder_congr (i : Fin 4) {f g : Builder → Builder} (h : f (s.builders.get i) = g (s.builders.get i)) :
    s.updBuilder i f = s.updBuilder i g :=
  congrArg (fun b => { s with builders := b }) (Bank.upd_congr _ _ h)
theorem updBuilder_eq_self (i : Fin 4) {f : Builder → Builder} (h : f (s.builders.get i) = s.builders.get i) :
    s.updBuilder i f = s :=
  congrArg (fun b => { s with builders := b }) (Bank.upd_eq_self _ _ h)
@[simp] theorem updCount_updCount (i : Fin 16) (f g : EmbedCount → EmbedCount) : (s.updCount i f).updCount i g
    = s.updCount i fun x => g (f x) :=
  congrArg (fun b => { s with embCounts := b }) (Bank.upd_upd_self _ _ _ _)
theorem updCount_congr (i : Fin 16) {f g : EmbedCount → EmbedCount} (h : f (s.embCounts.get i) = g
    (s.embCounts.get i)) : s.updCount i f = s.updCount i g :=
  congrArg (fun b => { s with embCounts := b }) (Bank.upd_congr _ _ h)
theorem updCount_eq_self (i : Fin 16) {f : EmbedCount → EmbedCount} (h : f (s.embCounts.get i) = s.embCounts.get i) :
    s.updCount i f = s :=
  congrArg (fun b => { s with embCounts := b }) (Bank.upd_eq_self _ _ h)
@[simp] theorem updMonitor_updMonitor (i : Fin 96) (f g : Monitor → Monitor) : (s.updMonitor i f).updMonitor i g
    = s.updMonitor i fun x => g (f x) :=
  congrArg (fun b => { s with monitors := b }) (Bank.upd_upd_self _ _ _ _)
theorem updMonitor_congr (i : Fin 96) {f g : Monitor → Monitor} (h : f (s.monitors.get i) = g (s.monitors.get i)) :
    s.updMonitor i f = s.updMonitor i g :=
  congrArg (fun b => { s with monitors := b }) (Bank.upd_congr _ _ h)
theorem updMonitor_eq_self (i : Fin 96) {f : Monitor → Monitor} (h : f (s.monitors.get i) = s.monitors.get i) :
    s.updMonitor i f = s :=
  congrArg (fun b => { s with monitors := b }) (Bank.upd_eq_self _ _ h)
@[simp] theorem updPort_updPort (l : Line) (f g : Port → Port) : (s.updPort l f).updPort l g
    = s.updPort l fun x => g (f x) :=
  congrArg (fun b => { s with ports := b }) (Bank.upd_upd_self _ _ _ _)
theorem updPort_congr (l : Line) {f g : Port → Port} (h : f (s.port l) = g (s.port l)) : s.updPort l f
    = s.updPort l g :=
  congrArg (fun b => { s with ports := b }) (Bank.upd_congr _ _ h)
@[simp] theorem updEvents_updEvents (l : Line) (f g : EventQueue → EventQueue) : (s.updEvents l f).updEvents l g
    = s.updEvents l fun x => g (f x) :=
  congrArg (fun b => { s with events := b }) (Bank.upd_upd_self _ _ _ _)
theorem updEvents_congr (l : Line) {f g : EventQueue → EventQueue} (h : f (s.eventQueue l) = g (s.eventQueue l)) :
    s.updEvents l f = s.updEvents l g :=
  congrArg (fun b => { s with events := b }) (Bank.upd_congr _ _ h)
@[simp] theorem updRef_updRef (f g : RefUnit → RefUnit) : (s.updRef f).updRef g = s.updRef fun r => g (f r) := rfl
theorem updRef_congr {f g : RefUnit → RefUnit} (h : f s.ref = g s.ref) : s.updRef f = s.updRef g :=
  congrArg (fun r => { s with ref := r }) h
theorem setTakes_eq_self (dom : Fin 5) {xs : List TakeItem} (h : s.takes.get dom = xs) : s.setTakes dom xs = s :=
  congrArg (fun b => { s with takes := b }) (Bank.set_get_self _ _ h)
theorem setWork_eq_self (l : Fin 4) {w : LaneWork} (h : s.work.get l = w) : s.setWork l w = s :=
  congrArg (fun b => { s with work := b }) (Bank.set_get_self _ _ h)
@[simp] theorem setHanded_setHanded (bs cs : List ResetBlock) : (s.setHanded bs).setHanded cs = s.setHanded cs := rfl

/-! ### Ports and event queues by line -/

theorem lineIx_inj {l l' : Line} : lineIx l = lineIx l' ↔ l = l' := by cases l <;> cases l' <;> decide
@[simp] theorem updPort_port (l l' : Line) (f : Port → Port) :
    (s.updPort l f).port l' = if l = l' then f (s.port l') else s.port l' := by
  simp [port, updPort, lineIx_inj]
@[simp] theorem updEvents_eventQueue (l l' : Line) (f : EventQueue → EventQueue) :
    (s.updEvents l f).eventQueue l' = if l = l' then f (s.eventQueue l') else s.eventQueue l' := by
  simp [eventQueue, updEvents, lineIx_inj]

@[simp] theorem updLane_port (i : Fin 4) (f : Receiver → Receiver) (l : Line) : (s.updLane i f).port l
    = s.port l := rfl
@[simp] theorem updLane_eventQueue (i : Fin 4) (f : Receiver → Receiver) (l : Line) : (s.updLane i f).eventQueue l
    = s.eventQueue l := rfl
@[simp] theorem updRelay_port (i : Fin 4) (f : Relay → Relay) (l : Line) : (s.updRelay i f).port l = s.port l := rfl
@[simp] theorem updRelay_eventQueue (i : Fin 4) (f : Relay → Relay) (l : Line) : (s.updRelay i f).eventQueue l
    = s.eventQueue l := rfl
@[simp] theorem updGroup_port (i : Fin 16) (f : GroupState → GroupState) (l : Line) : (s.updGroup i f).port l
    = s.port l := rfl
@[simp] theorem updGroup_eventQueue (i : Fin 16) (f : GroupState → GroupState) (l : Line) :
    (s.updGroup i f).eventQueue l = s.eventQueue l := rfl
@[simp] theorem updStrip_port (i : Fin 16) (f : Store → Store) (l : Line) : (s.updStrip i f).port l = s.port l := rfl
@[simp] theorem updStrip_eventQueue (i : Fin 16) (f : Store → Store) (l : Line) : (s.updStrip i f).eventQueue l
    = s.eventQueue l := rfl
@[simp] theorem updEmbed_port (i : Fin 16) (f : Store → Store) (l : Line) : (s.updEmbed i f).port l = s.port l := rfl
@[simp] theorem updEmbed_eventQueue (i : Fin 16) (f : Store → Store) (l : Line) : (s.updEmbed i f).eventQueue l
    = s.eventQueue l := rfl
@[simp] theorem updTracker_port (i : Fin 96) (f : Tracker → Tracker) (l : Line) : (s.updTracker i f).port l
    = s.port l := rfl
@[simp] theorem updTracker_eventQueue (i : Fin 96) (f : Tracker → Tracker) (l : Line) :
    (s.updTracker i f).eventQueue l = s.eventQueue l := rfl
@[simp] theorem updDest_port (i : Fin 96) (f : DestState → DestState) (l : Line) : (s.updDest i f).port l
    = s.port l := rfl
@[simp] theorem updDest_eventQueue (i : Fin 96) (f : DestState → DestState) (l : Line) :
    (s.updDest i f).eventQueue l = s.eventQueue l := rfl
@[simp] theorem updBuilder_port (i : Fin 4) (f : Builder → Builder) (l : Line) : (s.updBuilder i f).port l
    = s.port l := rfl
@[simp] theorem updBuilder_eventQueue (i : Fin 4) (f : Builder → Builder) (l : Line) :
    (s.updBuilder i f).eventQueue l = s.eventQueue l := rfl
@[simp] theorem updCount_port (i : Fin 16) (f : EmbedCount → EmbedCount) (l : Line) : (s.updCount i f).port l
    = s.port l := rfl
@[simp] theorem updCount_eventQueue (i : Fin 16) (f : EmbedCount → EmbedCount) (l : Line) :
    (s.updCount i f).eventQueue l = s.eventQueue l := rfl
@[simp] theorem updMonitor_port (i : Fin 96) (f : Monitor → Monitor) (l : Line) : (s.updMonitor i f).port l
    = s.port l := rfl
@[simp] theorem updMonitor_eventQueue (i : Fin 96) (f : Monitor → Monitor) (l : Line) :
    (s.updMonitor i f).eventQueue l = s.eventQueue l := rfl
@[simp] theorem updRef_port (f : RefUnit → RefUnit) (l : Line) : (s.updRef f).port l = s.port l := rfl
@[simp] theorem updRef_eventQueue (f : RefUnit → RefUnit) (l : Line) : (s.updRef f).eventQueue l
    = s.eventQueue l := rfl
@[simp] theorem updEvents_port (m : Line) (f : EventQueue → EventQueue) (l : Line) : (s.updEvents m f).port l
    = s.port l := rfl
@[simp] theorem updPort_eventQueue (m : Line) (f : Port → Port) (l : Line) : (s.updPort m f).eventQueue l
    = s.eventQueue l := rfl
@[simp] theorem setWork_port (i : Fin 4) (w : LaneWork) (l : Line) : (s.setWork i w).port l = s.port l := rfl
@[simp] theorem setWork_eventQueue (i : Fin 4) (w : LaneWork) (l : Line) : (s.setWork i w).eventQueue l
    = s.eventQueue l := rfl
@[simp] theorem setHanded_port (bs : List ResetBlock) (l : Line) : (s.setHanded bs).port l = s.port l := rfl
@[simp] theorem setHanded_eventQueue (bs : List ResetBlock) (l : Line) : (s.setHanded bs).eventQueue l
    = s.eventQueue l := rfl
@[simp] theorem raiseAs_port (no : Nat) (c : BitVec 16) (ns : List Pending) (l : Line) : (s.raiseAs no c ns).port l
    = s.port l := rfl
@[simp] theorem newEvent_port (l : Line) : s.newEvent.port l = s.port l := rfl
@[simp] theorem newEvent_eventQueue (l : Line) : s.newEvent.eventQueue l = s.eventQueue l := rfl
@[simp] theorem raiseAllAt_port (c : BitVec 16) (ns : List Pending) (l : Line) : (s.raiseAllAt c ns).port l
    = s.port l := rfl
@[simp] theorem raise_port (k : NoticeKind) (a b : Nat) (l : Line) : (s.raise k a b).port l = s.port l := rfl
@[simp] theorem raiseAll_port (ns : List Pending) (l : Line) : (s.raiseAll ns).port l = s.port l := rfl
@[simp] theorem setOwner_port (it : Fin 112) (o : Option Line) (l : Line) : (s.setOwner it o).port l = s.port l := rfl
@[simp] theorem setFault_port (i : Fin 4) (c : Option Capture) (l : Line) : (s.setFault i c).port l = s.port l := rfl

end Sys2Proof.Machine.State
end

