-- ==== Sys2Proof/Laws/Keeps.lean ====
section
/-! SUPPORT. For each shared operation, the parts of the state it may change. -/

/- One theorem after another: many small proofs at once ask for more threads than the check's memory limit allows. -/
set_option Elab.async false

namespace Sys2Proof.Machine

variable {A B C : List Part} {s t u : State}

namespace Keeps

theorem refl (A : List Part) (s : State) : Keeps A s s := fun p _ => by cases p <;> first | rfl | exact ⟨rfl, rfl⟩

theorem mono (h : Keeps A s t) (hAB : ∀ p ∈ A, p ∈ B := by decide) : Keeps B s t :=
  fun p hp => h p fun hA => hp (hAB p hA)

theorem trans (h1 : Keeps A s t) (h2 : Keeps A t u) : Keeps A s u := fun p hp => by
  have a := h1 p hp
  have b := h2 p hp
  cases p <;> first | exact Eq.trans b a | exact ⟨b.1.trans a.1, b.2.trans a.2⟩

/-- Two changes one after another. -/
theorem andThen (h1 : Keeps A s t) (h2 : Keeps B t u) (hA : ∀ p ∈ A, p ∈ C := by decide)
    (hB : ∀ p ∈ B, p ∈ C := by decide) : Keeps C s u :=
  (h1.mono hA).trans (h2.mono hB)

theorem foldl {α : Type} {f : State → α → State} (h : ∀ s x, Keeps A s (f s x)) (xs : List α) :
    ∀ s, Keeps A s (xs.foldl f s) := by
  induction xs with
  | nil => exact fun s => refl A s
  | cons x xs ih => exact fun s => (h s x).trans (ih _)

theorem ite {c : Prop} [Decidable c] (h1 : Keeps A s t) (h2 : Keeps A s u) : Keeps A s (if c then t else u) := by
  split
  · exact h1
  · exact h2

/-! A kept part, field by field. -/

theorem lanes (h : Keeps A s t) (hA : Part.lanes ∉ A := by decide) : t.lanes = s.lanes := h .lanes hA
theorem relays (h : Keeps A s t) (hA : Part.relays ∉ A := by decide) : t.relays = s.relays := h .relays hA
theorem groups (h : Keeps A s t) (hA : Part.groups ∉ A := by decide) : t.groups = s.groups := h .groups hA
theorem strip (h : Keeps A s t) (hA : Part.strip ∉ A := by decide) : t.strip = s.strip := h .strip hA
theorem embed (h : Keeps A s t) (hA : Part.embed ∉ A := by decide) : t.embed = s.embed := h .embed hA
theorem hist (h : Keeps A s t) (hA : Part.hist ∉ A := by decide) : t.hist = s.hist := h .hist hA
theorem trackers (h : Keeps A s t) (hA : Part.trackers ∉ A := by decide) : t.trackers = s.trackers := h .trackers hA
theorem tone (h : Keeps A s t) (hA : Part.tone ∉ A := by decide) : t.tone = s.tone := h .tone hA
theorem serial (h : Keeps A s t) (hA : Part.serial ∉ A := by decide) : t.serial = s.serial := h .serial hA
theorem live (h : Keeps A s t) (hA : Part.live ∉ A := by decide) : t.live = s.live := h .live hA
theorem plan (h : Keeps A s t) (hA : Part.plan ∉ A := by decide) : t.plan = s.plan := h .plan hA
theorem stagedDest (h : Keeps A s t) (hA : Part.stagedDest ∉ A := by decide) : t.stagedDest
    = s.stagedDest := h .stagedDest hA
theorem stagedPlan (h : Keeps A s t) (hA : Part.stagedPlan ∉ A := by decide) : t.stagedPlan
    = s.stagedPlan := h .stagedPlan hA
theorem takes (h : Keeps A s t) (hA : Part.takes ∉ A := by decide) : t.takes = s.takes := h .takes hA
theorem owners (h : Keeps A s t) (hA : Part.owners ∉ A := by decide) : t.owners = s.owners := h .owners hA
theorem engine (h : Keeps A s t) (hA : Part.engine ∉ A := by decide) : t.engine = s.engine := h .engine hA
theorem builders (h : Keeps A s t) (hA : Part.builders ∉ A := by decide) : t.builders = s.builders := h .builders hA
theorem embCounts (h : Keeps A s t) (hA : Part.embCounts ∉ A := by decide) : t.embCounts
    = s.embCounts := h .embCounts hA
theorem monitors (h : Keeps A s t) (hA : Part.monitors ∉ A := by decide) : t.monitors = s.monitors := h .monitors hA
theorem ref (h : Keeps A s t) (hA : Part.ref ∉ A := by decide) : t.ref = s.ref := h .ref hA
theorem fallback (h : Keeps A s t) (hA : Part.fallback ∉ A := by decide) : t.fallback = s.fallback := h .fallback hA
theorem ports (h : Keeps A s t) (hA : Part.ports ∉ A := by decide) : t.ports = s.ports := h .ports hA
theorem events (h : Keeps A s t) (hA : Part.events ∉ A := by decide) : t.events = s.events := (h .events hA).1
theorem eventNo (h : Keeps A s t) (hA : Part.events ∉ A := by decide) : t.eventNo = s.eventNo := (h .events hA).2
theorem faults (h : Keeps A s t) (hA : Part.faults ∉ A := by decide) : t.faults = s.faults := h .faults hA
theorem work (h : Keeps A s t) (hA : Part.work ∉ A := by decide) : t.work = s.work := h .work hA
theorem handed (h : Keeps A s t) (hA : Part.handed ∉ A := by decide) : t.handed = s.handed := h .handed hA
theorem free (h : Keeps A s t) (hA : Part.free ∉ A := by decide) : t.free = s.free := h .free hA
theorem pending (h : Keeps A s t) (hA : Part.pending ∉ A := by decide) : t.pending = s.pending := h .pending hA
theorem port (h : Keeps A s t) (l : Line) (hA : Part.ports ∉ A := by decide) : t.port l = s.port l :=
  congrArg (fun b => b.get (lineIx l)) (h .ports hA)
theorem eventQueue (h : Keeps A s t) (l : Line) (hA : Part.events ∉ A := by decide) : t.eventQueue l
    = s.eventQueue l :=
  congrArg (fun b => b.get (lineIx l)) (h .events hA).1

end Keeps

/-! ### The updates of one part -/

theorem keeps_updLane (l f) : Keeps [.lanes] s (s.updLane l f) := by
  intro p hp; cases p <;> first | rfl | exact ⟨rfl, rfl⟩ | exact absurd (by decide) hp
theorem keeps_updRelay (l f) : Keeps [.relays] s (s.updRelay l f) := by
  intro p hp; cases p <;> first | rfl | exact ⟨rfl, rfl⟩ | exact absurd (by decide) hp
theorem keeps_updGroup (l f) : Keeps [.groups] s (s.updGroup l f) := by
  intro p hp; cases p <;> first | rfl | exact ⟨rfl, rfl⟩ | exact absurd (by decide) hp
theorem keeps_updStrip (l f) : Keeps [.strip] s (s.updStrip l f) := by
  intro p hp; cases p <;> first | rfl | exact ⟨rfl, rfl⟩ | exact absurd (by decide) hp
theorem keeps_updEmbed (l f) : Keeps [.embed] s (s.updEmbed l f) := by
  intro p hp; cases p <;> first | rfl | exact ⟨rfl, rfl⟩ | exact absurd (by decide) hp
theorem keeps_updTracker (l f) : Keeps [.trackers] s (s.updTracker l f) := by
  intro p hp; cases p <;> first | rfl | exact ⟨rfl, rfl⟩ | exact absurd (by decide) hp
theorem keeps_updDest (l f) : Keeps [.engine] s (s.updDest l f) := by
  intro p hp; cases p <;> first | rfl | exact ⟨rfl, rfl⟩ | exact absurd (by decide) hp
theorem keeps_updBuilder (l f) : Keeps [.builders] s (s.updBuilder l f) := by
  intro p hp; cases p <;> first | rfl | exact ⟨rfl, rfl⟩ | exact absurd (by decide) hp
theorem keeps_updCount (l f) : Keeps [.embCounts] s (s.updCount l f) := by
  intro p hp; cases p <;> first | rfl | exact ⟨rfl, rfl⟩ | exact absurd (by decide) hp
theorem keeps_updMonitor (l f) : Keeps [.monitors] s (s.updMonitor l f) := by
  intro p hp; cases p <;> first | rfl | exact ⟨rfl, rfl⟩ | exact absurd (by decide) hp
theorem keeps_updRef (f) : Keeps [.ref] s (s.updRef f) := by
  intro p hp; cases p <;> first | rfl | exact ⟨rfl, rfl⟩ | exact absurd (by decide) hp
theorem keeps_updPort (l f) : Keeps [.ports] s (s.updPort l f) := by
  intro p hp; cases p <;> first | rfl | exact ⟨rfl, rfl⟩ | exact absurd (by decide) hp
theorem keeps_updEvents (l f) : Keeps [.events] s (s.updEvents l f) := by
  intro p hp; cases p <;> first | rfl | exact ⟨rfl, rfl⟩ | exact absurd (by decide) hp
theorem keeps_setFault (l c) : Keeps [.faults] s (s.setFault l c) := by
  intro p hp; cases p <;> first | rfl | exact ⟨rfl, rfl⟩ | exact absurd (by decide) hp
theorem keeps_setTakes (d xs) : Keeps [.takes] s (s.setTakes d xs) := by
  intro p hp; cases p <;> first | rfl | exact ⟨rfl, rfl⟩ | exact absurd (by decide) hp
theorem keeps_setOwner (it o) : Keeps [.owners] s (s.setOwner it o) := by
  intro p hp; cases p <;> first | rfl | exact ⟨rfl, rfl⟩ | exact absurd (by decide) hp
theorem keeps_setWork (l w) : Keeps [.work] s (s.setWork l w) := by
  intro p hp; cases p <;> first | rfl | exact ⟨rfl, rfl⟩ | exact absurd (by decide) hp
theorem keeps_setHanded (bs) : Keeps [.handed] s (s.setHanded bs) := by
  intro p hp; cases p <;> first | rfl | exact ⟨rfl, rfl⟩ | exact absurd (by decide) hp
theorem keeps_raiseAs (no c ns) : Keeps [.events] s (s.raiseAs no c ns) := by
  intro p hp; cases p <;> first | rfl | exact absurd (by decide) hp
theorem keeps_newEvent : Keeps [.events] s s.newEvent := by
  intro p hp; cases p <;> first | rfl | exact absurd (by decide) hp
theorem keeps_raiseAllAt (c ns) : Keeps [.events] s (s.raiseAllAt c ns) := by
  intro p hp; cases p <;> first | rfl | exact absurd (by decide) hp
theorem keeps_raiseAll (ns) : Keeps [.events] s (s.raiseAll ns) := keeps_raiseAllAt _ _
theorem keeps_raise (k a b) : Keeps [.events] s (s.raise k a b) := keeps_raiseAll _
theorem keeps_takeOffers (l) : Keeps [.events] s (s.takeOffers l) := keeps_updEvents _ _

theorem keeps_offerFault (l k ev) : Keeps [.faults, .events] s (s.offerFault l k ev) :=
  (keeps_setFault _ _).andThen (keeps_raiseAs _ _ _)

/-! ### Stores and catalogue -/

theorem keeps_readEmbed (g) : Keeps [.embed, .events] s (s.readEmbed g).1 :=
  (keeps_updEmbed _ _).andThen (keeps_raiseAll _)

theorem keeps_writeStrip (g x) : Keeps [.strip, .events] s (s.writeStrip g x) :=
  (keeps_updStrip _ _).andThen (keeps_raiseAll _)

theorem keeps_readStrips : Keeps [.strip] s s.readStrips := by
  intro p hp; cases p <;> first | rfl | exact ⟨rfl, rfl⟩ | exact absurd (by decide) hp
theorem keeps_stepTrackers (r) : Keeps [.trackers] s (s.stepTrackers r) := by
  intro p hp; cases p <;> first | rfl | exact ⟨rfl, rfl⟩ | exact absurd (by decide) hp
theorem keeps_appendRecords (r) : Keeps [.hist, .tone, .serial] s (s.appendRecords r) := by
  intro p hp; cases p <;> first | rfl | exact ⟨rfl, rfl⟩ | exact absurd (by decide) hp
theorem keeps_completeBlocks : Keeps [.trackers] s s.completeBlocks := by
  intro p hp; cases p <;> first | rfl | exact ⟨rfl, rfl⟩ | exact absurd (by decide) hp
theorem keeps_completeFlags (ns) : Keeps [.trackers] s (s.completeFlags ns) :=
  Keeps.foldl (fun _ _ => keeps_updTracker _ _) ns s

/-! ### Engine and monitors -/

theorem keeps_applyTicks (outs) : Keeps [.engine, .free] s (s.applyTicks outs) := by
  intro p hp; cases p <;> first | rfl | exact ⟨rfl, rfl⟩ | exact absurd (by decide) hp

theorem keeps_writeEmbeds (outs) : Keeps [.embed] s (s.writeEmbeds outs) := by
  intro p hp; cases p <;> first | rfl | exact ⟨rfl, rfl⟩ | exact absurd (by decide) hp

theorem keeps_tickSerial (outs) : Keeps [.serial] s (s.tickSerial outs) := by
  intro p hp; cases p <;> first | rfl | exact ⟨rfl, rfl⟩ | exact absurd (by decide) hp

theorem keeps_raiseEvents (es) : Keeps [.events] s (s.raiseEvents es) := Keeps.foldl (fun _ _ => keeps_raiseAll _) es s

theorem keeps_trigger (d) : Keeps [.engine] s (s.trigger d) := by
  unfold State.trigger
  split
  · exact keeps_updDest _ _
  · exact Keeps.refl _ _

theorem keeps_triggerAll (ds) : Keeps [.engine] s (s.triggerAll ds) := Keeps.foldl (fun _ _ => keeps_trigger _) ds s

theorem keeps_monitorTicks (outs) : Keeps [.monitors, .ref] s (s.monitorTicks outs) := by
  intro p hp; cases p <;> first | rfl | exact ⟨rfl, rfl⟩ | exact absurd (by decide) hp

theorem keeps_completeWindows : Keeps [.monitors, .events] s s.completeWindows := by
  refine Keeps.andThen (A := [.monitors]) (t := { s with monitors := s.monitors.map Monitor.settle }) ?_
    (keeps_raiseAllAt _ _)
  intro p hp; cases p <;> first | rfl | exact ⟨rfl, rfl⟩ | exact absurd (by decide) hp

/-! ### Builders and bypass -/

theorem keeps_enterEmbed (g) : Keeps [.embed, .embCounts, .engine] s (s.enterEmbed g) := by
  unfold State.enterEmbed
  split
  · exact Keeps.refl _ _
  · exact ((keeps_updEmbed _ _).andThen (keeps_updCount _ _) (C := [.embed, .embCounts])).andThen (keeps_triggerAll _)

theorem keeps_leaveEmbed (g) : Keeps [.embed, .embCounts] s (s.leaveEmbed g) :=
  (keeps_updEmbed _ _).andThen (keeps_updCount _ _)

theorem keeps_holdLane (l) : Keeps [.embed, .embCounts] s (s.holdLane l) :=
  Keeps.foldl (fun _ _ => keeps_leaveEmbed _) _ s

theorem keeps_enterLane (l) : Keeps [.embed, .embCounts, .engine] s (s.enterLane l) := by
  unfold State.enterLane
  split
  · refine Keeps.foldl (fun s g => ?_) _ s
    exact Keeps.ite (keeps_enterEmbed _) (Keeps.refl _ _)
  · exact Keeps.refl _ _

theorem keeps_bypassEnter (l) : Keeps [.builders, .embed, .embCounts] s (s.bypassEnter l) :=
  (keeps_updBuilder _ _).andThen (keeps_holdLane _)

theorem keeps_bypassExit (l) : Keeps [.builders, .engine] s (s.bypassExit l) :=
  (keeps_updBuilder _ _).andThen (keeps_triggerAll _)

theorem keeps_tripLane (l) : Keeps [.builders, .embed, .embCounts] s (s.tripLane l) := by
  unfold State.tripLane
  split
  · exact Keeps.ite (keeps_updBuilder _ _).mono (keeps_bypassEnter _)
  · exact Keeps.refl _ _
  · exact Keeps.refl _ _
  · exact (keeps_updBuilder _ _).mono

theorem keeps_releaseLane (l) : Keeps [.builders, .engine] s (s.releaseLane l) := by
  unfold State.releaseLane
  split
  · exact Keeps.refl _ _
  · exact (keeps_updBuilder _ _).mono
  · exact Keeps.ite (keeps_updBuilder _ _).mono (keeps_bypassExit _)
  · exact Keeps.refl _ _

/-- What entering and leaving EMBED and bypass may change. -/
abbrev embedParts : List Part := [.builders, .embed, .embCounts, .engine]

theorem keeps_builderSwitchLine (l) : Keeps embedParts s (s.builderSwitchLine l) := by
  unfold State.builderSwitchLine
  refine Keeps.andThen (A := embedParts) ?_ (keeps_enterLane l)
  split
  · exact (keeps_updBuilder _ _).mono
  · exact (keeps_updBuilder _ _).andThen (keeps_bypassEnter _)
  · exact (keeps_updBuilder _ _).mono
  · exact (keeps_updBuilder _ _).andThen (keeps_bypassExit _)

theorem keeps_builderStop (l) : Keeps embedParts s (s.builderStop l) := by
  have h : Keeps embedParts s ((s.updBuilder l fun b => { b with phase := .stopped, acc := 0 }).holdLane l) :=
    (keeps_updBuilder _ _).andThen (keeps_holdLane _)
  unfold State.builderStop
  split
  · exact h
  · exact h.andThen (keeps_bypassEnter _)
  · exact h
  · exact h.andThen (keeps_bypassExit _)

/-! ### Track map -/

theorem keeps_joinTake (x) : Keeps [.takes] s (s.joinTake x) := keeps_setTakes _ _

theorem keeps_unstageTag (tag) : Keeps [.stagedDest, .stagedPlan] s (s.unstageTag tag) := by
  intro p hp; cases p <;> first | rfl | exact ⟨rfl, rfl⟩ | exact absurd (by decide) hp

theorem keeps_takeTag (tag) : Keeps [.stagedDest, .stagedPlan, .takes, .events] s (s.takeTag tag) :=
  ((keeps_unstageTag tag).andThen (Keeps.foldl (fun _ _ => keeps_joinTake _) _ _)
    (C := [.stagedDest, .stagedPlan, .takes])).andThen (keeps_raiseAll _)

theorem keeps_applyEntry (d e) : Keeps [.live, .engine, .monitors] s (s.applyEntry d e) := by
  intro p hp; cases p <;> first | rfl | exact ⟨rfl, rfl⟩ | exact absurd (by decide) hp

theorem keeps_applyMode (g m) : Keeps [.plan, .embed, .embCounts, .engine] s (s.applyMode g m) := by
  have h : Keeps [.plan] s { s with plan := s.plan.set g m } := by
    intro p hp; cases p <;> first | rfl | exact ⟨rfl, rfl⟩ | exact absurd (by decide) hp
  unfold State.applyMode
  dsimp only
  split
  · exact Keeps.refl _ _
  · split
    · split
      · exact h.andThen (keeps_enterEmbed _)
      · exact h.mono
    · split
      · exact h.andThen (keeps_leaveEmbed _)
      · exact h.mono

/-- What dealing with one take item may change. -/
abbrev dealParts : List Part := [.live, .plan, .engine, .monitors, .embed, .embCounts]

theorem keeps_dealItem (x) : Keeps dealParts s (s.dealItem x).1 := by
  unfold State.dealItem
  split
  · exact Keeps.refl _ _
  · split
    · split
      · exact Keeps.refl _ _
      · exact (keeps_applyEntry _ _).mono
    · exact (keeps_applyMode _ _).mono

theorem keeps_dealItems (xs : List TakeItem) : ∀ s : State, Keeps dealParts s (s.dealItems xs).1 := by
  induction xs with
  | nil => exact fun s => Keeps.refl _ s
  | cons x xs ih => exact fun s => (keeps_dealItem x).trans (ih _)

theorem keeps_boundary (dom) : Keeps boundaryParts s (s.boundary dom) :=
  Keeps.andThen (A := .takes :: dealParts) ((keeps_dealItems _ s).andThen (keeps_setTakes _ _)) (keeps_raiseAll _)

theorem keeps_houseBoundary : Keeps boundaryParts s s.houseBoundary :=
  (Keeps.foldl (fun _ _ => Keeps.ite (keeps_boundary _) (Keeps.refl _ _)) _ s).trans (keeps_boundary _)

/-! ### Lanes -/

theorem keeps_reportChecksum (l n) : Keeps [.lanes, .faults, .events] s (s.reportChecksum l n) :=
  (keeps_updLane _ _).andThen (keeps_offerFault _ _ _)
theorem keeps_reportMalformed (l n) : Keeps [.lanes, .faults, .events] s (s.reportMalformed l n) :=
  (keeps_updLane _ _).andThen (keeps_offerFault _ _ _)
theorem keeps_reportGap (l n) : Keeps [.lanes, .faults, .events] s (s.reportGap l n) :=
  (keeps_updLane _ _).andThen (keeps_offerFault _ _ _)

/-- What the strip parser may change at a line. -/
abbrev stripParts : List Part := [.lanes, .groups, .strip, .faults, .events]

theorem keeps_checkSequence (l n g c) : Keeps stripParts s (s.checkSequence l n g c) := by
  refine Keeps.andThen (A := stripParts) ?_ (keeps_updGroup _ _)
  exact Keeps.ite ((keeps_updLane _ _).andThen (keeps_reportGap _ _)) (keeps_updLane _ _).mono

theorem keeps_markPresent (no g) : Keeps stripParts s (s.markPresent no g) := by
  refine Keeps.andThen (A := stripParts) ?_ (keeps_updGroup _ _)
  have h : Keeps stripParts s (if (s.groups.get g).present then s else
      (s.updGroup g fun gs => { gs with present := true, pendingD := true }).raiseAs no s.ref.frameCount
        [(.groupState, g.val, 1)]) :=
    Keeps.ite (Keeps.refl _ _) ((keeps_updGroup _ _).andThen (keeps_raiseAs _ _ _))
  exact Keeps.ite (h.andThen ((keeps_updStrip _ _).andThen (keeps_updGroup _ _) (C := stripParts))) h

theorem keeps_writeSet (g x) : Keeps stripParts s (s.writeSet g x) :=
  (keeps_writeStrip _ _).andThen (keeps_updGroup _ _)

theorem keeps_writeSets (xs) : Keeps stripParts s (s.writeSets xs) := Keeps.foldl (fun _ _ => keeps_writeSet _ _) xs s

theorem keeps_acceptPacket (l ev g p) : Keeps stripParts s (s.acceptPacket l ev g p) := by
  refine Keeps.trans ?_ (keeps_markPresent _ _)
  exact (keeps_updGroup _ _).andThen (keeps_checkSequence _ _ _ _)

theorem keeps_judgePacket (l ev p) : Keeps stripParts s (s.judgePacket l ev p).1 := by
  unfold State.judgePacket
  split
  · exact Keeps.refl _ _
  · dsimp only
    split
    · exact (keeps_updGroup _ _).andThen (keeps_reportChecksum _ _)
    · split
      · exact (keeps_reportMalformed _ _).mono
      · exact keeps_acceptPacket _ _ _ _

theorem keeps_judgeAll (l ev) (ps : List (Nat × Packet)) : ∀ s : State, Keeps stripParts s (s.judgeAll l ev ps).1 := by
  induction ps with
  | nil => exact fun s => Keeps.refl _ s
  | cons p ps ih => exact fun s => ((keeps_judgePacket l ev p.2).trans (keeps_writeSets _)).trans (ih _)

theorem keeps_endWalk (l ev b) : Keeps stripParts s (s.endWalk l ev b) :=
  Keeps.ite (keeps_reportMalformed _ _).mono (Keeps.refl _ _)

theorem keeps_finishWalk (l ev) (w : Walk) : Keeps stripParts s (w.finish l ev s).1 :=
  ((keeps_writeSets _).trans (keeps_judgeAll _ _ _ _)).trans (keeps_endWalk _ _ _)

theorem keeps_clearSeenLine (l) : Keeps [.groups] s (s.clearSeenLine l) :=
  Keeps.foldl (fun _ _ => keeps_updGroup _ _) _ s

theorem keeps_stripWalk (l ev area) : Keeps stripParts s (s.stripWalk l ev area).1 :=
  (keeps_clearSeenLine l).andThen (keeps_finishWalk _ _ _)

/-- What a group's becoming ABSENT may change. -/
abbrev absentParts : List Part := [.groups, .strip]

theorem keeps_makeAbsent (g) : Keeps absentParts s (s.makeAbsent g) :=
  (keeps_updGroup _ _).andThen (keeps_updStrip _ _)

theorem keeps_reviewGroup (g) : Keeps absentParts s (s.reviewGroup g) := by
  refine Keeps.andThen (A := absentParts) ?_ (keeps_updGroup _ _)
  exact Keeps.ite (keeps_makeAbsent _) (Keeps.refl _ _)

theorem keeps_parserFrameEnd (l) : Keeps (.events :: absentParts) s (s.parserFrameEnd l) :=
  Keeps.andThen (A := absentParts) (Keeps.foldl (fun _ _ => keeps_reviewGroup _) _ s) (keeps_raiseAll _)

theorem keeps_stopGroup (g) : Keeps absentParts s (s.stopGroup g) := by
  refine Keeps.andThen (A := absentParts) ?_ (keeps_updStrip _ _)
  refine Keeps.andThen (A := absentParts) ?_ (keeps_updGroup _ _)
  exact Keeps.ite (keeps_makeAbsent _) (Keeps.refl _ _)

theorem keeps_parserStop (l) : Keeps absentParts s (s.parserStop l) :=
  Keeps.foldl (fun _ _ => keeps_stopGroup _) _ s

/-- What the blocks that work on a lane change at its exit from RUNNING. -/
abbrev stopParts : List Part := [.lanes, .groups, .strip, .builders, .embed, .embCounts, .engine]

theorem keeps_leaveRunning (l) : Keeps stopParts s (s.leaveRunning l) :=
  Keeps.andThen (A := stopParts) ((keeps_parserStop l).andThen (keeps_builderStop l)) (keeps_updLane _ _)

theorem keeps_raiseLaneState (l a b) : Keeps [.events] s (s.raiseLaneState l a b) := keeps_raiseAll _

theorem keeps_leaveForFormat (l no) : Keeps exitParts s (s.leaveForFormat l no) := by
  refine Keeps.andThen (A := exitParts) ?_ (keeps_raiseAs _ _ _)
  refine Keeps.andThen (A := exitParts) ?_ (keeps_updLane _ _)
  exact (keeps_updLane _ _).andThen (keeps_leaveRunning l)

theorem keeps_enterRunning (l) : Keeps [.lanes, .builders, .events] s (s.enterRunning l) :=
  ((keeps_updLane _ _).andThen (keeps_updBuilder _ _) (C := [.lanes, .builders])).andThen (keeps_raiseLaneState _ _ _)

theorem keeps_seekLine (l b n) : Keeps [.lanes, .builders, .events] s (s.seekLine l b n) :=
  Keeps.ite (keeps_enterRunning l) (keeps_updLane _ _).mono

theorem keeps_switchLine (l b) : Keeps (.builders :: boundaryParts) s (s.switchLine l b) :=
  Keeps.ite ((keeps_builderSwitchLine l).andThen (keeps_boundary _))
    ((keeps_boundary _).andThen (keeps_builderSwitchLine l))

theorem keeps_frameEnd (l) : Keeps (.lanes :: .events :: absentParts) s (s.frameEnd l) :=
  (keeps_parserFrameEnd l).andThen (keeps_updLane _ _)

/-! ### The embed builder on a line -/

theorem keeps_stepAccumulator (l n) : Keeps [.builders] s (s.stepAccumulator l n).1 := keeps_updBuilder _ _

theorem keeps_readSets (g) (n : Nat) : ∀ s : State, Keeps [.embed, .events] s (s.readSets g n).1 := by
  induction n with
  | zero => exact fun s => Keeps.refl _ s
  | succ n ih => exact fun s => (keeps_readEmbed g).trans (ih _)

/-- What the builder may change for a group on a line. -/
abbrev sendParts : List Part := [.embed, .embCounts, .events]

theorem keeps_placePacket (l c n xs) : Keeps sendParts s (s.placePacket l c n xs).1 := (keeps_updCount _ _).mono

theorem keeps_sendPacket (l c n m) : Keeps sendParts s (s.sendPacket l c n m).1 :=
  (keeps_readSets _ _ s).andThen (keeps_placePacket _ _ _ _)

theorem keeps_deferSets (g ev n) : Keeps sendParts s (s.deferSets g ev n) := by
  refine Keeps.ite (keeps_updCount _ _).mono ?_
  exact ((keeps_updEmbed _ _).andThen (keeps_updCount _ _) (C := sendParts)).andThen (keeps_raiseAs _ _ _)

theorem keeps_dealGroup (l c ev n used) : Keeps sendParts s (s.dealGroup l c ev n used).1 := by
  unfold State.dealGroup
  split
  · exact Keeps.refl _ _
  · exact keeps_sendPacket _ _ _ _
  · exact keeps_deferSets _ _ _

theorem keeps_dealGroups (l ev n) (cs : List (Fin 4)) :
    ∀ (s : State) (used), Keeps sendParts s (s.dealGroups l ev n cs used).1 := by
  induction cs with
  | nil => exact fun s _ => Keeps.refl _ s
  | cons c cs ih => exact fun s used => (keeps_dealGroup l c ev n used).trans (ih _ _)

theorem keeps_finishDraft (l) (b : Build) : Keeps sendParts s (b.finishDraft l s).1 := by
  unfold Build.finishDraft
  split
  · exact Keeps.refl _ _
  · exact (keeps_readSets _ _ s).andThen (keeps_placePacket _ _ _ _)

/-- What the builder may change at a line. -/
abbrev buildParts : List Part := [.builders, .embed, .embCounts, .events, .relays]

theorem keeps_finishBuilding (l ev) (b : Build) : Keeps buildParts s (b.finish l ev s) :=
  ((keeps_finishDraft l b).andThen (keeps_dealGroups _ _ _ _ _ _) (C := sendParts)).andThen (keeps_updRelay _ _)

theorem keeps_startBuild (l ev w) : Keeps [.builders] s (s.startBuild l ev w).1 := keeps_stepAccumulator _ _

theorem keeps_buildLine (l ev w) : Keeps buildParts s (s.buildLine l ev w) := by
  unfold State.buildLine
  have h := keeps_startBuild (s := s) l ev w
  split
  next s1 b h1 =>
    rw [h1] at h
    exact h.andThen (keeps_finishBuilding _ _ _)
  next s1 h1 =>
    rw [h1] at h
    exact h.mono

theorem keeps_endLine (l ev) : Keeps (.lanes :: .events :: absentParts) s (s.endLine l ev) :=
  Keeps.ite (keeps_frameEnd l) (Keeps.refl _ _)

/-! ### The accesses of a carriage-line event -/

/-- What the accesses of a carriage-line event may change. -/
abbrev eventParts : List Part := [.relays, .lanes, .groups, .strip, .builders, .embed, .embCounts, .faults, .events]

theorem keeps_finish (l) (w : LaneWork) : Keeps eventParts s (w.finish l s) := by
  cases w with
  | idle => exact Keeps.refl _ _
  | walking ev w =>
    exact ((keeps_finishWalk l ev w).andThen (keeps_buildLine l ev _) (C := eventParts)).andThen (keeps_endLine _ _)
  | building ev b => exact (keeps_finishBuilding l ev b).andThen (keeps_endLine _ _)

theorem keeps_advanceWalk (l ev) (w : Walk) : Keeps eventParts s (LaneWork.advanceWalk l ev w s).1 := by
  unfold LaneWork.advanceWalk
  split
  · exact (keeps_writeSet _ _).mono
  · exact (keeps_judgePacket _ _ _).mono
  · have h := (keeps_endWalk (s := s) l ev w.failed).andThen (C := eventParts) (keeps_startBuild l ev
      { entries := w.entries, ending := w.ending, failed := w.failed })
    split
    next s1 b h1 =>
      rw [h1] at h
      exact h
    next s1 h1 =>
      rw [h1] at h
      exact h.andThen (keeps_endLine _ _)

theorem keeps_advanceBuild (l ev) (b : Build) : Keeps eventParts s (LaneWork.advanceBuild l ev b s).1 := by
  unfold LaneWork.advanceBuild
  split
  · exact (keeps_readEmbed _).mono
  · exact (keeps_placePacket _ _ _ _).mono
  · split
    · exact Keeps.refl _ _
    · exact Keeps.refl _ _
    · exact (keeps_deferSets _ _ _).mono
  · exact (keeps_updRelay _ _).andThen (keeps_endLine _ _)

theorem keeps_advance (l) (w : LaneWork) : Keeps eventParts s (w.advance l s).1 := by
  cases w with
  | idle => exact Keeps.refl _ _
  | walking ev w => exact keeps_advanceWalk l ev w
  | building ev b => exact keeps_advanceBuild l ev b

theorem keeps_run (l) (k : Nat) : ∀ (w : LaneWork) (s : State), Keeps eventParts s (w.run l k s).1 := by
  induction k with
  | zero => exact fun _ s => Keeps.refl _ s
  | succ k ih => exact fun w s => (keeps_advance l w).trans (ih _ _)

theorem keeps_workOn (l w k) : Keeps lineParts s (s.workOn l w k) := by
  cases k with
  | none => exact (keeps_finish l w).andThen (keeps_setWork _ _)
  | some k => exact (keeps_run l k w s).andThen (keeps_setWork _ _)

theorem keeps_finishWork (l) : Keeps lineParts s (s.finishWork l) := keeps_workOn _ _ _

theorem keeps_finishBuild (l) : Keeps lineParts s (s.finishBuild l) :=
  Keeps.ite (keeps_finishWork l) (Keeps.refl _ _)

theorem keeps_finishBuilds : Keeps lineParts s s.finishBuilds := Keeps.foldl (fun _ _ => keeps_finishBuild _) _ s

theorem keeps_takeArea (l n area k) : Keeps lineParts s (s.takeArea l n area k) :=
  ((keeps_newEvent.trans keeps_newEvent).andThen (keeps_clearSeenLine l) (C := lineParts)).andThen (keeps_workOn _ _ _)

/-! ### The events of a lane -/

theorem keeps_receive (l ws) : Keeps [.relays] s (s.receive l ws) := keeps_updRelay _ _

theorem keeps_receiveWords (l ws) : Keeps lineParts s (s.receiveWords l ws) := by
  unfold State.receiveWords
  split
  · exact (keeps_receive l ws).andThen (keeps_takeArea _ _ _ _)
  · exact (keeps_receive l ws).mono

theorem keeps_carriageLine (l a) (h : execCarriageLine l a s = .next t) : Keeps lineParts s t := by
  unfold execCarriageLine at h
  injection h with h
  subst h
  split
  · exact (keeps_receive l _).andThen (keeps_takeArea _ _ _ _)
  · exact (keeps_receive l _).andThen (keeps_workOn _ _ _)

theorem keeps_beginLine (l n) : Keeps [.relays, .lanes] s (s.beginLine l n) :=
  (keeps_updRelay _ _).andThen (keeps_updLane _ _)

theorem keeps_runLine (l n b) : Keeps (.lanes :: .builders :: boundaryParts) s (s.runLine l n b) :=
  Keeps.ite ((keeps_updLane _ _).andThen (keeps_switchLine _ _)) (keeps_updLane _ _).mono

theorem keeps_strobe (l n b) : Keeps (lineParts ++ boundaryParts) s (s.strobe l n b) := by
  have h : ∀ s : State, Keeps lineParts s ((s.finishWork l).beginLine l n) := fun s =>
    (keeps_finishWork l).andThen (keeps_beginLine l n)
  unfold State.strobe
  split
  · refine Keeps.andThen (A := lineParts ++ exitParts) ?_ (keeps_seekLine _ _ _)
    exact ((keeps_newEvent.andThen (keeps_offerFault _ _ _) (C := lineParts)).andThen (h _)
      (C := lineParts)).andThen (keeps_leaveForFormat l _)
  · split
    · exact (keeps_beginLine l n).mono
    · exact (keeps_beginLine l n).andThen (keeps_seekLine _ _ _)
    · exact (h s).andThen (keeps_runLine _ _ _)
    · refine Keeps.andThen (A := lineParts) ?_ (keeps_seekLine _ _ _)
      exact (keeps_beginLine l n).andThen ((keeps_updLane _ _).andThen (keeps_raiseLaneState _ _ _)
        (C := [.lanes, .events]))

theorem keeps_expireTimer (l) : Keeps (lineParts ++ exitParts) s (s.expireTimer l) := by
  unfold State.expireTimer
  dsimp only
  split
  · split
    · refine Keeps.andThen (A := lineParts ++ exitParts) ?_ (keeps_raiseAs _ _ _)
      refine Keeps.andThen (A := lineParts) ?_ (keeps_leaveRunning l)
      exact ((keeps_newEvent.andThen (keeps_offerFault _ _ _) (C := lineParts)).andThen (keeps_finishWork l)
        (C := lineParts)).andThen (keeps_updLane _ _)
    · exact (keeps_updLane _ _).mono
    · exact Keeps.refl _ _
    · exact Keeps.refl _ _
  · exact Keeps.refl _ _

theorem keeps_setLaneFormat (l f) : Keeps (lineParts ++ exitParts) s (s.setLaneFormat l f) := by
  unfold State.setLaneFormat
  dsimp only
  refine Keeps.ite ?_ ((keeps_updLane _ _).andThen (keeps_raiseLaneState _ _ _))
  refine Keeps.andThen (A := lineParts ++ exitParts) ?_ (keeps_raiseAll _)
  refine Keeps.andThen (A := lineParts ++ exitParts) ?_ (keeps_updLane _ _)
  exact ((keeps_finishWork l).andThen (keeps_updLane _ _) (C := lineParts)).andThen (keeps_leaveRunning l)

/-! ### Reference unit and fallback -/

theorem keeps_enterLock : Keeps [.ref, .events] s s.enterLock :=
  Keeps.ite ((keeps_updRef _).andThen (keeps_raise _ _ _)) (Keeps.refl _ _)

theorem keeps_enterHoldover : Keeps [.ref, .events] s s.enterHoldover :=
  Keeps.ite ((keeps_updRef _).andThen (keeps_raise _ _ _)) (Keeps.refl _ _)

theorem keeps_settleRef : Keeps [.ref, .events] s s.settleRef := keeps_enterLock.trans keeps_enterHoldover

theorem keeps_judgeGood (n) : Keeps [.ref, .events] s (s.judgeGood n) := keeps_settleRef.andThen (keeps_updRef _)

theorem keeps_judgeNonGood : Keeps [.ref, .events] s s.judgeNonGood := keeps_settleRef.andThen (keeps_updRef _)

theorem keeps_closeInterval (n) : Keeps [.ref, .events] s (s.closeInterval n) := by
  unfold State.closeInterval
  split
  · exact keeps_judgeGood _
  · exact keeps_judgeNonGood
  · exact Keeps.ite keeps_judgeNonGood (keeps_judgeNonGood.trans keeps_judgeNonGood)

theorem keeps_wckEdge (n) : Keeps [.ref, .events] s (s.wckEdge n) :=
  Keeps.andThen (A := [.ref, .events]) (Keeps.ite (keeps_closeInterval n) (Keeps.refl _ _)) (keeps_updRef _)

theorem keeps_wckMissing : Keeps [.ref, .events] s s.wckMissing :=
  Keeps.ite (keeps_judgeNonGood.andThen (keeps_updRef _)) (Keeps.refl _ _)

theorem keeps_frameBoundary : Keeps frameParts s s.frameBoundary := (keeps_updRef _).andThen keeps_houseBoundary

theorem keeps_setHfp (b) : Keeps [.ref, .events] s (s.setHfp b) :=
  Keeps.ite (Keeps.refl _ _) ((keeps_updRef _).andThen (keeps_raise _ _ _))

theorem keeps_settleBoundary : Keeps frameParts s s.settleBoundary :=
  Keeps.ite ((keeps_setHfp _).andThen keeps_frameBoundary) (Keeps.refl _ _)

theorem keeps_hfpPulse : Keeps frameParts s s.hfpPulse := by
  unfold State.hfpPulse
  dsimp only
  refine keeps_settleBoundary.trans ?_
  exact Keeps.ite (keeps_frameBoundary.andThen (keeps_setHfp _)) (keeps_setHfp _).mono

theorem keeps_setHouseFormat (f) : Keeps frameParts s (s.setHouseFormat f) :=
  keeps_settleBoundary.andThen (keeps_updRef _)

theorem keeps_setFallback (a) : Keeps [.fallback] s (s.setFallback a) := by
  intro p hp; cases p <;> first | rfl | exact ⟨rfl, rfl⟩ | exact absurd (by decide) hp

theorem keeps_tripAll : Keeps [.builders, .embed, .embCounts] s s.tripAll :=
  Keeps.foldl (fun _ _ => keeps_tripLane _) _ s

theorem keeps_releaseAll : Keeps [.builders, .engine] s s.releaseAll :=
  Keeps.foldl (fun _ _ => keeps_releaseLane _) _ s

/-- What a trip of fallback control may change. -/
abbrev tripParts : List Part := [.fallback, .builders, .embed, .embCounts, .events]

theorem keeps_trip : Keeps tripParts s s.trip := (keeps_setFallback _).andThen keeps_tripAll

theorem keeps_assertFbk : Keeps tripParts s s.assertFbk := by
  have h : Keeps [.fallback] s { s with fallback := { s.fallback with fbk := true } } := by
    intro p hp; cases p <;> first | rfl | exact ⟨rfl, rfl⟩ | exact absurd (by decide) hp
  unfold State.assertFbk
  dsimp only
  split
  · exact (h.andThen keeps_trip (C := tripParts)).andThen (keeps_raiseAll _)
  · exact h.mono
  · exact h.mono

theorem keeps_releaseFbk : Keeps [.fallback] s s.releaseFbk := by
  intro p hp; cases p <;> first | rfl | exact ⟨rfl, rfl⟩ | exact absurd (by decide) hp

theorem keeps_armFallback (l) : Keeps tripParts s (s.armFallback l) := by
  unfold State.armFallback
  split
  · exact Keeps.ite (keeps_trip.andThen (keeps_raiseAll _)) ((keeps_setFallback _).andThen (keeps_raiseAll _))
  · exact Keeps.refl _ _
  · exact Keeps.refl _ _

theorem keeps_disarmFallback (l) : Keeps [.fallback, .builders, .engine, .events] s (s.disarmFallback l) := by
  unfold State.disarmFallback
  split
  · exact Keeps.refl _ _
  · exact (keeps_setFallback _).andThen (keeps_raiseAll _)
  · exact ((keeps_setFallback _).andThen keeps_releaseAll (C := [.fallback, .builders, .engine])).andThen
      (keeps_raiseAll _)

/-! ### Ticks -/

theorem keeps_settleTick : Keeps (.trackers :: frameParts) s s.settleTick := by
  refine Keeps.andThen (A := [.trackers, .engine, .monitors, .events]) ?_ keeps_settleBoundary
  refine Keeps.andThen (A := [.trackers, .engine]) ?_ keeps_completeWindows
  intro p hp; cases p <;> first | rfl | exact ⟨rfl, rfl⟩ | exact absurd (by decide) hp

/-- What a tick may change apart from the count of ticks. -/
abbrev audioParts : List Part :=
  [.strip, .embed, .hist, .trackers, .tone, .serial, .engine, .monitors, .ref, .events, .free]

theorem keeps_audioTick (slots o) : Keeps audioParts s (s.audioTick slots o) := by
  unfold State.audioTick
  dsimp only
  refine Keeps.andThen (A := audioParts) ?_ (keeps_raiseEvents _)
  refine Keeps.andThen (A := audioParts) ?_ (keeps_monitorTicks _)
  refine Keeps.andThen (A := audioParts) ?_ (keeps_tickSerial _)
  refine Keeps.andThen (A := audioParts) ?_ (keeps_writeEmbeds _)
  refine Keeps.andThen (A := audioParts) ?_ (keeps_appendRecords _)
  refine Keeps.andThen (A := audioParts) ?_ (keeps_applyTicks _)
  refine Keeps.andThen (A := audioParts) ?_ (keeps_completeFlags _)
  exact keeps_readStrips.andThen (keeps_stepTrackers _)

/-! ### The commands -/

theorem keeps_houseTick (slots o b) (h : execHouseTick slots o b s = .next t) :
    Keeps ([.strip, .hist, .trackers, .tone, .serial, .free] ++ frameParts) s t := by
  unfold execHouseTick at h
  dsimp only at h
  injection h with h
  subst h
  refine Keeps.andThen (A := .trackers :: frameParts) keeps_settleTick
    (B := audioParts ++ frameParts) ?_
  refine Keeps.ite ?_ ?_
  · exact ((keeps_updRef _).andThen keeps_settleBoundary (C := frameParts)).andThen (keeps_audioTick _ _)
  · exact (keeps_audioTick _ _).andThen (keeps_updRef _)

theorem keeps_answer (l k st pl) : Keeps [.ports] s (s.answer l k st pl) := keeps_updPort _ _

theorem keeps_conclude (l k) (r : State × Option (Status × List Byte)) : Keeps [.ports] r.1 (State.conclude l k r) := by
  unfold State.conclude
  split
  · exact keeps_answer _ _ _ _
  · exact Keeps.refl _ _

/-- R171: a command's execution changes what its block changes, and the line's port. -/
theorem keeps_executePart (l code) {f : List Byte → State → State × Option (Status × List Byte)}
    (h : ∀ ps s, Keeps A s (f ps s).1) : Keeps (.ports :: A) s (s.executePart l code f) := by
  unfold State.executePart
  split
  · exact Keeps.refl _ _
  next fr _ _ =>
    split
    · split
      · exact (keeps_answer _ _ _ _).mono (by simp)
      · exact (h fr.params s).andThen (keeps_conclude _ _ _) (by simp +contextual) (by simp)
    · exact Keeps.refl _ _

/-- R171: a command's execution changes what its block changes, and the line's port. -/
theorem keeps_execute (l code) {f : List Byte → State → Answer} (h : ∀ ps s, Keeps A s (f ps s).1) :
    Keeps (.ports :: A) s (s.execute l code f) := keeps_executePart l code h

theorem keeps_pollAnswer (l) : Keeps [.ports] s (pollAnswer l s).1 := keeps_updPort _ _

theorem keeps_mapStage (l ps) : Keeps [.stagedDest] s (mapStageAnswer l ps s).1 := by
  unfold mapStageAnswer
  split
  · split
    · unfold State.stageEntry
      split
      · exact Keeps.refl _ _
      · intro p hp; cases p <;> first | rfl | exact ⟨rfl, rfl⟩ | exact absurd (by decide) hp
    · exact Keeps.refl _ _
  · exact Keeps.refl _ _

theorem keeps_planStage (l ps) : Keeps [.stagedPlan] s (planStageAnswer l ps s).1 := by
  unfold planStageAnswer
  split
  · split
    · unfold State.stageMode
      split
      · exact Keeps.refl _ _
      · intro p hp; cases p <;> first | rfl | exact ⟨rfl, rfl⟩ | exact absurd (by decide) hp
    · exact Keeps.refl _ _
  · exact Keeps.refl _ _

theorem keeps_mapDrop (l ps) : Keeps [.stagedDest, .stagedPlan] s (mapDropAnswer l ps s).1 := by
  unfold mapDropAnswer
  split
  · split
    · exact Keeps.refl _ _
    · dsimp only
      unfold State.unstage
      split <;> (intro p hp; cases p <;> first | rfl | exact ⟨rfl, rfl⟩ | exact absurd (by decide) hp)
  · exact Keeps.refl _ _

theorem keeps_mapTake (ps) : Keeps [.stagedDest, .stagedPlan, .takes, .events] s (mapTakeAnswer ps s).1 := by
  unfold mapTakeAnswer
  split
  · split
    · exact keeps_takeTag _
    · exact Keeps.refl _ _
  · exact Keeps.refl _ _

theorem keeps_mapRead (ps) : Keeps [] s (mapReadAnswer ps s).1 := by
  unfold mapReadAnswer
  split <;> exact Keeps.refl _ _

theorem keeps_planRead (ps) : Keeps [] s (planReadAnswer ps s).1 := by
  unfold planReadAnswer
  split
  · split <;> exact Keeps.refl _ _
  · exact Keeps.refl _ _

theorem keeps_protect (l ps) : Keeps [.owners] s (protectAnswer l ps s).1 := by
  unfold protectAnswer
  split
  · split
    · exact Keeps.refl _ _
    · exact keeps_setOwner _ _
  · exact Keeps.refl _ _

theorem keeps_release (l ps) : Keeps [.owners] s (releaseAnswer l ps s).1 := by
  unfold releaseAnswer
  split
  · split
    · exact keeps_setOwner _ _
    · exact Keeps.refl _ _
  · exact Keeps.refl _ _

theorem keeps_freeItems (its) : Keeps [.owners, .events] s (s.freeItems its) :=
  Keeps.andThen (A := [.owners]) (Keeps.foldl (fun _ _ => keeps_setOwner _ _) its s) (keeps_raiseAll _)

theorem keeps_forceRelease (ps) : Keeps [.owners, .events] s (forceReleaseAnswer ps s).1 := by
  unfold forceReleaseAnswer
  split
  · exact keeps_freeItems _
  · exact Keeps.refl _ _

theorem keeps_laneFormat (ps) : Keeps (lineParts ++ exitParts) s (laneFormatAnswer ps s).1 := by
  unfold laneFormatAnswer
  split
  · split
    · exact keeps_setLaneFormat _ _
    · exact Keeps.refl _ _
  · exact Keeps.refl _ _

theorem keeps_laneStatus (ps) : Keeps [] s (laneStatusAnswer ps s).1 := by
  unfold laneStatusAnswer
  split <;> exact Keeps.refl _ _

theorem keeps_faultRead (ps) : Keeps [] s (faultReadAnswer ps s).1 := by
  unfold faultReadAnswer
  split <;> exact Keeps.refl _ _

theorem keeps_faultClear (ps) : Keeps [.faults] s (faultClearAnswer ps s).1 := by
  unfold faultClearAnswer
  split
  · exact keeps_setFault _ _
  · exact Keeps.refl _ _

theorem keeps_refFormat (ps) : Keeps frameParts s (refFormatAnswer ps s).1 := by
  unfold refFormatAnswer
  split
  · exact keeps_setHouseFormat _
  · exact Keeps.refl _ _

theorem keeps_updStore (n f) : Keeps [.strip, .embed] s (s.updStore n f) := by
  unfold State.updStore
  split
  · exact (keeps_updStrip _ _).mono
  · exact (keeps_updEmbed _ _).mono

theorem keeps_storeStatus (l ps) : Keeps [.strip, .embed] s (storeStatusAnswer l ps s).1 := by
  unfold storeStatusAnswer
  split
  · exact keeps_updStore _ _
  · exact Keeps.refl _ _

theorem keeps_storeClear (ps) : Keeps [.strip, .embed] s (storeClearAnswer ps s).1 := by
  unfold storeClearAnswer
  split
  · exact keeps_updStore _ _
  · exact Keeps.refl _ _

theorem keeps_monSet (ps) : Keeps [.monitors, .events] s (monSetAnswer ps s).1 := by
  unfold monSetAnswer
  split
  · split
    · exact keeps_completeWindows.andThen (keeps_updMonitor _ _)
    · exact Keeps.refl _ _
  · exact Keeps.refl _ _

theorem keeps_meterRead (l ps) : Keeps [.monitors] s (meterReadAnswer l ps s).1 := by
  unfold meterReadAnswer
  split
  · exact keeps_updMonitor _ _
  · exact Keeps.refl _ _

theorem keeps_eventSubscribe (l ps) : Keeps [.events] s (eventSubscribeAnswer l ps s).1 := by
  unfold eventSubscribeAnswer
  split
  · split
    · exact keeps_updEvents _ _
    · exact Keeps.refl _ _
  · exact Keeps.refl _ _

theorem keeps_eventFetch (l) : Keeps [.events] s (eventFetchAnswer l s).1 := by
  unfold eventFetchAnswer
  split
  · exact Keeps.refl _ _
  · exact keeps_updEvents _ _

/-- What PATH_RESET may change, but for the port of line C. -/
abbrev resetParts : List Part := [.handed, .hist, .trackers, .takes, .engine, .monitors] ++ lineParts

theorem keeps_monitorsReset : Keeps [.monitors, .events] s s.monitorsReset := by
  refine keeps_completeWindows.andThen (t := s.completeWindows) (B := [.monitors]) ?_
  intro p hp; cases p <;> first | rfl | exact ⟨rfl, rfl⟩ | exact absurd (by decide) hp

theorem keeps_stripReset : Keeps [.strip] s s.stripReset := by
  intro p hp; cases p <;> first | rfl | exact ⟨rfl, rfl⟩ | exact absurd (by decide) hp

theorem keeps_embedReset : Keeps [.embed, .builders, .embCounts] s s.embedReset := by
  intro p hp; cases p <;> first | rfl | exact ⟨rfl, rfl⟩ | exact absurd (by decide) hp

theorem keeps_resetBlock (b) : Keeps resetParts s (s.resetBlock b) := by
  cases b with
  | strip => exact keeps_stripReset.mono
  | embed => exact keeps_finishBuilds.andThen keeps_embedReset
  | monitors => exact keeps_monitorsReset.mono
  | lanes => intro p hp; cases p <;> first | rfl | exact ⟨rfl, rfl⟩ | exact absurd (by decide) hp
  | catalogue => intro p hp; cases p <;> first | rfl | exact ⟨rfl, rfl⟩ | exact absurd (by decide) hp
  | trackMap => intro p hp; cases p <;> first | rfl | exact ⟨rfl, rfl⟩ | exact absurd (by decide) hp
  | engine => intro p hp; cases p <;> first | rfl | exact ⟨rfl, rfl⟩ | exact absurd (by decide) hp

theorem keeps_handReset (b) : Keeps resetParts s (s.handReset b) :=
  Keeps.ite (Keeps.refl _ _) ((keeps_resetBlock b).andThen (keeps_setHanded _))

theorem keeps_pathReset (bs) : Keeps resetParts s (pathResetAnswer bs s).1 := by
  have h : Keeps resetParts s (bs.foldl State.handReset s) := Keeps.foldl (fun _ _ => keeps_handReset _) bs s
  unfold pathResetAnswer
  dsimp only
  split
  · exact (h.andThen (keeps_setHanded _) (C := resetParts)).andThen (keeps_raise _ _ _)
  · exact h

end Sys2Proof.Machine
end

