-- ==== Sys2Proof/Laws/AreaWork.lean ====
section
/-! SUPPORT. The accesses of a carriage-line event taken one by one come to the same as the event taken whole, if
nothing falls between them; and no access reads or writes what a lane has left to do. -/

set_option Elab.async false

namespace Sys2Proof.Machine

/-- R48: after one access, all that are left come to the same as all. -/
theorem LaneWork.finish_advance (l : Fin 4) (w : LaneWork) (s : State) :
    (w.advance l s).2.finish l (w.advance l s).1 = w.finish l s := by
  cases w with
  | idle => rfl
  | walking ev w =>
    obtain ⟨sets, todo, entries, ending, failed⟩ := w
    cases sets with
    | cons x xs => rfl
    | nil =>
      cases todo with
      | cons p ps => simp [LaneWork.advance, LaneWork.advanceWalk, LaneWork.finish, Walk.finish, State.judgeAll,
          State.writeSets, List.append_assoc]
      | nil =>
        simp only [LaneWork.advance, LaneWork.advanceWalk, LaneWork.finish, Walk.finish, State.judgeAll,
          State.writeSets, List.foldl, List.append_nil, State.buildLine]
        generalize State.startBuild _ l ev _ = r
        obtain ⟨s1, b⟩ := r
        cases b <;> rfl
  | building ev b =>
    obtain ⟨n, used, draft, groups⟩ := b
    cases draft with
    | some d =>
      obtain ⟨group, left, sets⟩ := d
      cases left with
      | zero => simp [LaneWork.advance, LaneWork.advanceBuild, LaneWork.finish, Build.finish, Build.finishDraft,
          State.readSets]
      | succ k => simp [LaneWork.advance, LaneWork.advanceBuild, LaneWork.finish, Build.finish, Build.finishDraft,
          State.readSets, List.append_assoc]
    | none =>
      cases groups with
      | nil => rfl
      | cons c cs =>
        simp only [LaneWork.advance, LaneWork.advanceBuild, LaneWork.finish, Build.finish, Build.finishDraft,
          State.dealGroups, State.dealGroup]
        cases s.groupDeal l c n used.length <;> rfl

/-- R48: after some accesses, all that are left come to the same as all. -/
theorem LaneWork.finish_run (l : Fin 4) (k : Nat) : ∀ (w : LaneWork) (s : State),
    (w.run l k s).2.finish l (w.run l k s).1 = w.finish l s := by
  induction k with
  | zero => exact fun _ _ => rfl
  | succ k ih => exact fun w s => (ih _ _).trans (w.finish_advance l s)

/-- A carriage-line event taken whole is a walk and a building. -/
theorem LaneWork.finish_start (l : Fin 4) (ev : AreaEvent) (area : List LaneWord) (s : State) :
    (LaneWork.start ev area).finish l (s.clearSeenLine l)
      = ((s.stripWalk l ev area).1.buildLine l ev (s.stripWalk l ev area).2).endLine l ev := rfl

/-- A lane with nothing left of its last event has nothing to finish. -/
theorem finishWork_idle {s : State} {l : Fin 4} (h : s.work.get l = .idle) : s.finishWork l = s := by
  simp only [State.finishWork, State.workOn, h]
  exact State.setWork_eq_self s l h

/-! What a lane has left to do is written apart from every access (`setWork_x`: `x` and the write commute). -/

section setWork

variable (s : State) (k : Fin 4) (v : LaneWork)

theorem ite_setWork {c c' : Prop} [Decidable c] [Decidable c'] {a b a' b' : State} {k : Fin 4} {v : LaneWork}
    (h : c' ↔ c) (ha : a' = a.setWork k v) (hb : b' = b.setWork k v) :
    (if c' then a' else b') = (if c then a else b).setWork k v := by
  subst ha hb
  by_cases hc : c
  · rw [if_pos hc, if_pos (h.mpr hc)]
  · rw [if_neg hc, if_neg fun hc' => hc (h.mp hc')]

theorem setWork_offerFault (l kd ev) : (s.setWork k v).offerFault l kd ev = (s.offerFault l kd ev).setWork k v := rfl

theorem setWork_writeSet (g x) : (s.setWork k v).writeSet g x = (s.writeSet g x).setWork k v := rfl

theorem setWork_writeSets (xs : List (Fin 16 × SampleSet)) :
    (s.setWork k v).writeSets xs = (s.writeSets xs).setWork k v := by
  induction xs generalizing s with
  | nil => rfl
  | cons x xs ih =>
    show State.writeSets ((s.setWork k v).writeSet x.1 x.2) xs = _
    rw [setWork_writeSet]
    exact ih _

theorem setWork_readEmbed (g) : (s.setWork k v).readEmbed g = ((s.readEmbed g).1.setWork k v, (s.readEmbed g).2) :=
  rfl

theorem setWork_checkSequence (l ev g c) :
    (s.setWork k v).checkSequence l ev g c = (s.checkSequence l ev g c).setWork k v := by
  have h : (if (s.groups.get g).gap c then ((s.setWork k v).reportAccepted l).reportGap l ev
        else (s.setWork k v).reportAccepted l)
      = (if (s.groups.get g).gap c then (s.reportAccepted l).reportGap l ev else s.reportAccepted l).setWork k v := by
    exact ite_setWork Iff.rfl rfl rfl
  exact congrArg (fun t : State => t.updGroup g fun gs => { gs with
    lastCount := some c, pendingD := gs.pendingD || (s.groups.get g).gap c }) h

/-- R29: the opening of an IDLE store for an accepted packet. -/
theorem setWork_openStore (g) : (if ((s.setWork k v).strip.get g).state = .idle then
      ((s.setWork k v).updStrip g Store.openIdle).updGroup g fun gs => { gs with pendingD := true } else s.setWork k v)
    = (if (s.strip.get g).state = .idle then
      (s.updStrip g Store.openIdle).updGroup g fun gs => { gs with pendingD := true } else s).setWork k v := by
  exact ite_setWork Iff.rfl rfl rfl

theorem setWork_markPresent (no g) : (s.setWork k v).markPresent no g = (s.markPresent no g).setWork k v := by
  have h := fun t : State => congrArg (fun t : State => t.updGroup g fun gs => { gs with seenFrame := true })
    (setWork_openStore t k v g)
  unfold State.markPresent
  dsimp only
  by_cases hp : (s.groups.get g).present = true
  · rw [if_pos (show ((s.setWork k v).groups.get g).present = true from hp), if_pos hp]
    exact h s
  · rw [if_neg (show ¬ ((s.setWork k v).groups.get g).present = true from hp), if_neg hp]
    exact h ((s.updGroup g fun gs => { gs with present := true, pendingD := true }).raiseAs no s.ref.frameCount
      [(.groupState, g.val, 1)])

theorem setWork_acceptPacket (l ev g p) :
    (s.setWork k v).acceptPacket l ev g p = (s.acceptPacket l ev g p).setWork k v := by
  show (((s.updGroup g _).setWork k v).checkSequence l ev g _).markPresent ev.no g = _
  rw [setWork_checkSequence, setWork_markPresent]
  rfl

theorem setWork_judgePacket (l ev p) : (s.setWork k v).judgePacket l ev p
    = ((s.judgePacket l ev p).1.setWork k v, (s.judgePacket l ev p).2) := by
  unfold State.judgePacket
  split
  · rfl
  next c _ =>
    dsimp only
    split
    · rfl
    · by_cases hs : (s.groups.get (groupNo l c)).seenLine = true
      · rw [if_pos (show ((s.setWork k v).groups.get (groupNo l c)).seenLine = true from hs), if_pos hs]
        rfl
      · rw [if_neg (show ¬ ((s.setWork k v).groups.get (groupNo l c)).seenLine = true from hs), if_neg hs]
        simp only [setWork_acceptPacket]

theorem setWork_judgeAll (l ev) (ps : List (Nat × Packet)) : (s.setWork k v).judgeAll l ev ps
    = ((s.judgeAll l ev ps).1.setWork k v, (s.judgeAll l ev ps).2) := by
  induction ps generalizing s with
  | nil => rfl
  | cons p ps ih =>
    simp only [State.judgeAll, setWork_judgePacket, setWork_writeSets, ih]

theorem setWork_endWalk (l ev b) : (s.setWork k v).endWalk l ev b = (s.endWalk l ev b).setWork k v := by
  cases b <;> rfl

theorem setWork_finishWalk (l ev) (w : Walk) : w.finish l ev (s.setWork k v)
    = ((w.finish l ev s).1.setWork k v, (w.finish l ev s).2) := by
  simp only [Walk.finish, setWork_writeSets, setWork_judgeAll, setWork_endWalk]

theorem setWork_readSets (g n) : (s.setWork k v).readSets g n
    = ((s.readSets g n).1.setWork k v, (s.readSets g n).2) := by
  induction n generalizing s with
  | zero => rfl
  | succ n ih => simp only [State.readSets, setWork_readEmbed, ih]

theorem setWork_deferSets (g ev n) : (s.setWork k v).deferSets g ev n = (s.deferSets g ev n).setWork k v := by
  exact ite_setWork Iff.rfl rfl rfl

theorem setWork_dealGroup (l c ev n used) : (s.setWork k v).dealGroup l c ev n used
    = ((s.dealGroup l c ev n used).1.setWork k v, (s.dealGroup l c ev n used).2) := by
  have h : (s.setWork k v).groupDeal l c n used.length = s.groupDeal l c n used.length := rfl
  simp only [State.dealGroup, h]
  split
  · rfl
  · simp only [State.sendPacket, setWork_readSets]; rfl
  · simp only [setWork_deferSets]

theorem setWork_dealGroups (l ev n) (cs : List (Fin 4)) (used) : (s.setWork k v).dealGroups l ev n cs used
    = ((s.dealGroups l ev n cs used).1.setWork k v, (s.dealGroups l ev n cs used).2) := by
  induction cs generalizing s used with
  | nil => rfl
  | cons c cs ih => simp only [State.dealGroups, setWork_dealGroup, ih]

theorem setWork_finishBuilding (l ev) (b : Build) : b.finish l ev (s.setWork k v) = (b.finish l ev s).setWork k v := by
  obtain ⟨n, used, d, cs⟩ := b
  cases d with
  | none => simp only [Build.finish, Build.finishDraft, setWork_dealGroups]; rfl
  | some d =>
    have h : ∀ (t : State) c sets, (t.setWork k v).placePacket l c n sets
        = ((t.placePacket l c n sets).1.setWork k v, (t.placePacket l c n sets).2) := fun _ _ _ => rfl
    simp only [Build.finish, Build.finishDraft, setWork_readSets, h, setWork_dealGroups]; rfl

theorem setWork_buildLine (l ev w) : (s.setWork k v).buildLine l ev w = (s.buildLine l ev w).setWork k v := by
  have h : (s.setWork k v).startBuild l ev w = ((s.startBuild l ev w).1.setWork k v, (s.startBuild l ev w).2) := rfl
  simp only [State.buildLine, h]
  generalize s.startBuild l ev w = r
  obtain ⟨t, b⟩ := r
  cases b
  · rfl
  · exact setWork_finishBuilding _ _ _ _ _ _

theorem setWork_reviewGroup (g) : (s.setWork k v).reviewGroup g = (s.reviewGroup g).setWork k v := by
  have h : (if ((s.setWork k v).groups.get g).present && !((s.setWork k v).groups.get g).seenFrame then
        (s.setWork k v).makeAbsent g else s.setWork k v)
      = (if (s.groups.get g).present && !(s.groups.get g).seenFrame then s.makeAbsent g else s).setWork k v :=
    ite_setWork Iff.rfl rfl rfl
  exact congrArg (fun t : State => t.updGroup g fun gs => { gs with seenFrame := false }) h

theorem setWork_frameEnd (l) : (s.setWork k v).frameEnd l = (s.frameEnd l).setWork k v := by
  have h : four.foldl (fun s c => State.reviewGroup s (groupNo l c)) (s.setWork k v)
      = (four.foldl (fun s c => State.reviewGroup s (groupNo l c)) s).setWork k v := by
    simp only [four, List.foldl, setWork_reviewGroup]
  have h1 : (s.setWork k v).absentNotices l (fun gs => !gs.seenFrame) = s.absentNotices l fun gs => !gs.seenFrame := rfl
  simp only [State.frameEnd, State.parserFrameEnd, h, h1]
  generalize four.foldl _ s = t
  rfl

theorem setWork_endLine (l ev) : (s.setWork k v).endLine l ev = (s.endLine l ev).setWork k v := by
  exact ite_setWork Iff.rfl (setWork_frameEnd _ _ _ _) rfl

theorem setWork_finish (l) (w : LaneWork) : w.finish l (s.setWork k v) = (w.finish l s).setWork k v := by
  cases w with
  | idle => rfl
  | walking ev w => simp only [LaneWork.finish, setWork_finishWalk, setWork_buildLine, setWork_endLine]
  | building ev b => simp only [LaneWork.finish, setWork_finishBuilding, setWork_endLine]

/-- R48: some accesses of an event now and all that are left later come to the same as all now. -/
theorem workOn_none_of_some (l : Fin 4) (w : LaneWork) (n : Nat) :
    (s.workOn l w (some n)).finishWork l = s.workOn l w none := by
  simp only [State.finishWork, State.workOn, State.setWork_work, Bank.get_set_self, setWork_finish, w.finish_run l n s]
  simp [State.setWork]

end setWork

end Sys2Proof.Machine
end

