-- ==== Sys2Proof/Laws/AreaEvent.lean ====
section
/-! SUPPORT. What the parser and the builder make of a carriage-line event (R20 to R28, R118 to R127). -/

set_option Elab.async false

namespace Sys2Proof.Machine

/-- The entries of a walk are its packets in their order. -/
theorem judgeAll_packets (l : Fin 4) (ev : AreaEvent) (ps : List (Nat × Packet)) :
    ∀ s : State, ((s.judgeAll l ev ps).2.map fun x => x.packet) = ps.map fun p => p.2 := by
  induction ps with
  | nil => exact fun _ => rfl
  | cons p ps ih => exact fun s => congrArg (p.2 :: ·) (ih _)

/-- R122: a filter on packets takes the same words of a walk's entries as of its packets. -/
theorem keptWords_of_packets {es : List WalkEntry} {ps : List (Nat × Packet)} (f : Packet → Bool)
    (h : (es.map fun x => x.packet) = ps.map fun p => p.2) :
    ((es.filter fun x => f x.packet).flatMap fun x => x.packet.words)
      = (ps.filter fun p => f p.2).flatMap fun p => p.2.words := by
  have e : ∀ xs : List WalkEntry, (xs.filter fun x => f x.packet).flatMap (fun x => x.packet.words)
      = ((xs.map fun x => x.packet).filter f).flatMap Packet.words := by
    intro xs; simp [List.filter_map, List.flatMap_map, Function.comp_def]
  have e' : (ps.filter fun p => f p.2).flatMap (fun p => p.2.words)
      = ((ps.map fun p => p.2).filter f).flatMap Packet.words := by
    simp [List.filter_map, List.flatMap_map, Function.comp_def]
  rw [e, e', h]

/-- R20 to R28: the parser takes the event whole. -/
theorem parsesTo_stripWalk (s : State) (l : Fin 4) (n : BitVec 11) (ws area : List LaneWord) :
    ParsesTo s l n ws area
      ((s.receive l ws).newEvent.newEvent.stripWalk l { line := n, stamp := s.ref.frameCount, no := s.eventNo }
        area).1 := by
  refine ⟨_, _, _, rfl, rfl, rfl, ?_⟩
  exact (((keeps_updRelay _ _).andThen keeps_newEvent (C := [.relays, .events])).andThen keeps_newEvent
    (C := [.relays, .events])).andThen (keeps_stripWalk _ _ _)

/-- R18: the parser changes no item of a receiver but its packet counters. -/
def SameReceiver (s u : State) (l : Fin 4) : Prop :=
  (u.lanes.get l).state = (s.lanes.get l).state ∧ (u.lanes.get l).format = (s.lanes.get l).format
    ∧ (u.lanes.get l).index = (s.lanes.get l).index

theorem SameReceiver.trans {s u v : State} {l : Fin 4} (h : SameReceiver s u l) (h' : SameReceiver u v l) :
    SameReceiver s v l :=
  ⟨h'.1.trans h.1, h'.2.1.trans h.2.1, h'.2.2.trans h.2.2⟩

theorem sameReceiver_of_lanes {s u : State} {l : Fin 4} (h : u.lanes = s.lanes) : SameReceiver s u l := by
  rw [SameReceiver, h]; exact ⟨rfl, rfl, rfl⟩

/-- An update that keeps the three items. -/
theorem sameReceiver_updLane (s : State) (l l' : Fin 4) {f : Receiver → Receiver}
    (h : ∀ r, (f r).state = r.state ∧ (f r).format = r.format ∧ (f r).index = r.index) :
    SameReceiver s (s.updLane l' f) l := by
  simp only [SameReceiver, State.updLane_lanes, Bank.get_upd]
  split
  · next e => subst e; exact h _
  · exact ⟨rfl, rfl, rfl⟩

theorem sameReceiver_checkSequence (s : State) (l l' : Fin 4) (ev g c) :
    SameReceiver s (s.checkSequence l' ev g c) l := by
  have h1 : SameReceiver s (s.reportAccepted l') l := sameReceiver_updLane _ _ _ fun _ => ⟨rfl, rfl, rfl⟩
  unfold State.checkSequence
  refine SameReceiver.trans ?_ (sameReceiver_of_lanes (keeps_updGroup _ _).lanes)
  split
  · exact h1.trans (sameReceiver_updLane (s.reportAccepted l') l l' (f := fun r => { r with gaps := satInc r.gaps })
      fun _ => ⟨rfl, rfl, rfl⟩)
  · exact h1

theorem markPresent_lanes (s : State) (no : Nat) (g : Fin 16) : (s.markPresent no g).lanes = s.lanes := by
  unfold State.markPresent
  dsimp only
  split <;> split <;> rfl

theorem sameReceiver_judgePacket (s : State) (l l' : Fin 4) (ev p) :
    SameReceiver s (s.judgePacket l' ev p).1 l := by
  unfold State.judgePacket
  split
  · exact sameReceiver_of_lanes rfl
  · dsimp only
    split
    · exact (sameReceiver_updLane _ _ _ fun _ => ⟨rfl, rfl, rfl⟩)
    · split
      · exact (sameReceiver_updLane _ _ _ fun _ => ⟨rfl, rfl, rfl⟩)
      · refine SameReceiver.trans ?_ (sameReceiver_of_lanes (markPresent_lanes _ _ _))
        exact sameReceiver_checkSequence (s.updGroup _ _) _ _ _ _ _

theorem writeSets_lanes (xs : List (Fin 16 × SampleSet)) : ∀ s : State, (s.writeSets xs).lanes = s.lanes := by
  induction xs with
  | nil => exact fun _ => rfl
  | cons x xs ih => exact fun s => (ih _).trans rfl

theorem sameReceiver_judgeAll (l l' : Fin 4) (ev : AreaEvent) (ps : List (Nat × Packet)) :
    ∀ s : State, SameReceiver s (s.judgeAll l' ev ps).1 l := by
  induction ps with
  | nil => exact fun _ => ⟨rfl, rfl, rfl⟩
  | cons p ps ih =>
    exact fun s => (sameReceiver_judgePacket s l l' ev p.2).trans
      ((sameReceiver_of_lanes (writeSets_lanes _ _)).trans (ih _))

/-- R20 to R28: the parser's taking of an event keeps the receivers but for their counters. -/
theorem sameReceiver_stripWalk (s : State) (l l' : Fin 4) (ev area) :
    SameReceiver s (s.stripWalk l' ev area).1 l := by
  have h := (sameReceiver_of_lanes (l := l) (keeps_clearSeenLine (s := s) l').lanes).trans
    (sameReceiver_judgeAll l l' ev (walkArea area).1 _)
  refine h.trans ?_
  show SameReceiver _ (State.endWalk _ _ _ _) _
  unfold State.endWalk
  split
  · exact (sameReceiver_updLane _ _ _ fun _ => ⟨rfl, rfl, rfl⟩)
  · exact ⟨rfl, rfl, rfl⟩

/-- R120: the three conditions, for a lane that is RUNNING. -/
theorem rebuilds_iff {s : State} {l : Fin 4} (h : (s.lanes.get l).state = .running) :
    s.rebuilds l = true ↔ IsRebuilt s l := by
  simp only [State.rebuilds, IsRebuilt, State.running, h, four, Bool.and_eq_true, beq_iff_eq, Bool.not_eq_true',
    List.any_cons, List.any_nil, Bool.or_false, Bool.or_eq_true, bne_iff_ne, ne_eq, true_and, and_assoc,
    Fin.exists_fin_succ, Fin.exists_fin_zero, or_false]
  rfl

/-- R118 to R127: the builder takes an event at which nothing that it works on has changed since `s`, with the result
of the parser's walk of `area`. -/
theorem buildLine_spec {s u : State} {l : Fin 4} {n : BitVec 11} {ev : AreaEvent} {area : List LaneWord} {k : Nat}
    {r : WalkResult} (hr : (s.lanes.get l).state = .running) (hb : u.builders = s.builders) (hp : u.plan = s.plan)
    (hl : (u.lanes.get l).state = (s.lanes.get l).state ∧ (u.lanes.get l).fmt = (s.lanes.get l).fmt
      ∧ (u.lanes.get l).index = (s.lanes.get l).index)
    (hev : ev = { line := n, stamp := s.ref.frameCount, no := s.eventNo })
    (hk : k = (if n.toNat = 1 ∧ (s.lanes.get l).index = 0 then 0 else (s.builders.get l).acc)
      + setsPerSequence (s.lanes.get l).fmt)
    (hp' : (r.entries.map fun x => x.packet) = (walkArea area).1.map fun p => p.2) :
    (IsRebuilt s l → ∃ v w, BuildsTo s l n area k u v w ∧ u.buildLine l ev r = v.placeArea l w)
      ∧ (¬ IsRebuilt s l →
        u.buildLine l ev r
          = u.updBuilder l fun b => { b with acc := k % carriagePerSequence (s.lanes.get l).fmt }) := by
  obtain ⟨h1, h2, h3⟩ := hl
  generalize h0 : (u.updBuilder l fun b => { b with acc := k % carriagePerSequence (s.lanes.get l).fmt }) = s0
  have hstep : u.stepAccumulator l ev.line = (s0, k / carriagePerSequence (s.lanes.get l).fmt) := by
    subst h0 hk hev
    simp only [State.stepAccumulator, accStep, stepBase, h2, h3, hb]
  have hreb : s0.rebuilds l = true ↔ IsRebuilt s l := by
    rw [rebuilds_iff (by subst h0; exact h1.trans hr)]
    subst h0
    simp only [IsRebuilt, State.updBuilder_builders, State.updBuilder_plan, Bank.get_upd, hb, hp, if_true]
  have hkept : s0.keptWords l r = keptOf s l area := by
    have hf : ∀ p, s0.keeps l p = s.keeps l p := by
      subst h0; intro p; simp only [State.keeps, State.updBuilder_plan, hp]
    simp only [State.keptWords, keptOf, hf]
    exact keptWords_of_packets (s.keeps l) hp'
  constructor
  · intro h
    rcases e1 : s0.dealGroup l 0 ev (k / carriagePerSequence (s.lanes.get l).fmt) (keptOf s l area) with ⟨s1, w1⟩
    rcases e2 : s1.dealGroup l 1 ev (k / carriagePerSequence (s.lanes.get l).fmt) w1 with ⟨s2, w2⟩
    rcases e3 : s2.dealGroup l 2 ev (k / carriagePerSequence (s.lanes.get l).fmt) w2 with ⟨s3, w3⟩
    rcases e4 : s3.dealGroup l 3 ev (k / carriagePerSequence (s.lanes.get l).fmt) w3 with ⟨v, w⟩
    refine ⟨v, w, ⟨s0, s1, s2, s3, w1, w2, w3, ev, _, hev, rfl, h0.symm, e1, e2, e3, e4⟩, ?_⟩
    simp only [State.buildLine, State.startBuild, hstep, hreb.mpr h, if_true, hkept, Build.finish, Build.finishDraft,
      four, State.dealGroups, e1, e2, e3, e4]
  · intro h
    have : s0.rebuilds l = false := by rw [← Bool.not_eq_true, hreb]; exact h
    simp only [State.buildLine, State.startBuild, hstep, this, Bool.false_eq_true, if_false]

end Sys2Proof.Machine
end

