-- ==== Sys2Proof/Laws/Catalogue.lean ====
section
/-! SUPPORT. Reading a history after an append, and the canonical form of histories (R34). -/

set_option Elab.async false

namespace Sys2Proof.Machine

/-- Trimming changes no record that can be read. -/
theorem trimSilent_getD (h : History) : ∀ k, (trimSilent h).getD k Record.silent = h.getD k Record.silent := by
  induction h with
  | nil => intro k; rfl
  | cons r rest ih =>
    intro k
    simp only [trimSilent]
    split
    · next e =>
      have hz : ∀ j, rest.getD j Record.silent = Record.silent := by
        intro j; rw [← ih j, e]; simp
      split
      · next hr => cases k with
        | zero => simp [hr]
        | succ j => rw [List.getD_cons_succ, hz]; simp
      · cases k with
        | zero => simp
        | succ j => rw [List.getD_cons_succ, List.getD_cons_succ, hz]; simp
    · next r2 rest2 e =>
      cases k with
      | zero => simp
      | succ j => rw [List.getD_cons_succ, List.getD_cons_succ, ← e]; exact ih j

theorem trimSilent_idem (h : History) : trimSilent (trimSilent h) = trimSilent h := by
  induction h with
  | nil => rfl
  | cons r rest ih =>
    simp only [trimSilent]
    split
    · split
      · rfl
      · next hr => simp [trimSilent, hr]
    · next r2 rest2 e =>
      rw [e] at ih
      simp only [trimSilent] at ih ⊢
      rw [ih]

theorem trimSilent_length (h : History) : (trimSilent h).length ≤ h.length := by
  induction h with
  | nil => simp [trimSilent]
  | cons r rest ih =>
    simp only [trimSilent]
    split
    · split <;> simp
    · next r2 rest2 e =>
      rw [e] at ih
      simpa using ih

/-- R34: the newest record is the appended one. -/
theorem History.read_append_zero (h : History) (r : Record) : (h.append r).read 0 = r := by
  simp only [History.read, History.append, trimSilent_getD]
  simp

/-- R34: every other record that the ring still holds is one tick older. -/
theorem History.read_append_succ (h : History) (r : Record) {k : Nat} (hk : k + 1 < 8192) :
    (h.append r).read (k + 1) = h.read k := by
  simp only [History.read, History.append, trimSilent_getD]
  rw [show (r :: h).take 8192 = r :: h.take 8191 from rfl, List.getD_cons_succ]
  simp only [List.getD_eq_getElem?_getD]
  rw [List.getElem?_take_of_lt (by omega)]

/-- An append leaves a history in its canonical form. -/
theorem History.wf_append (h : History) (r : Record) : (h.append r).wf = true := by
  have h1 := trimSilent_length ((r :: h).take 8192)
  have h2 : ((r :: h).take 8192).length ≤ 8192 := by simp
  simp only [History.wf, History.append, trimSilent_idem, beq_self_eq_true, Bool.and_true]
  exact decide_eq_true (Nat.le_trans h1 h2)

/-- R38: a record moves a tracker but not its flag. -/
@[simp] theorem Tracker.step_flag (t : Tracker) (r : Record) : (t.step r).flag = t.flag := by
  unfold Tracker.step; split
  · rfl
  · split
    · rfl
    · split <;> rfl

end Sys2Proof.Machine
end

