-- ==== Sys2Proof/Laws/Engine.lean ====
section
/-! SUPPORT. Which sources have weight at a tick (R98, R106), and what leaves the crossfade of a destination alone. -/

namespace Sys2Proof.Machine

/-- R106: in steady state the sources of the live entry have weight. -/
theorem weightedSources_steady (live : Entry) : weightedSources live none = live.sources := by
  simp [weightedSources, weightedEntries, tickRamp]

/-- R106: in a crossfade only sources of the two entries have weight. -/
theorem mem_weightedSources {live : Entry} {x : Crossfade} {n : Fin 98} (h : n ∈ weightedSources live (some x)) :
    n ∈ live.sources ∨ n ∈ x.old.sources := by
  simp only [weightedSources, List.mem_flatMap, weightedEntries, List.mem_append] at h
  obtain ⟨e, h1, h2⟩ := h
  rcases h1 with h1 | h1
  · split at h1
    · exact .inr (List.mem_singleton.mp h1 ▸ h2)
    · cases h1
  · split at h1
    · exact .inl (List.mem_singleton.mp h1 ▸ h2)
    · cases h1

/-- R98: in steady state, no mark is read if the live entry reads none. -/
theorem readsMark_steady {s : State} {live : Entry} (h : ∀ n ∈ live.sources, (s.tap n live.delay).d = false) :
    s.readsMark live none = false := by
  simp only [State.readsMark, weightedEntries, tickRamp, List.nil_append, List.any_eq_false]
  intro e he
  simp only [show (0 < 1024) = True by decide, if_true, List.mem_singleton] at he
  subst he
  simp only [List.any_eq_true, not_exists, not_and, Bool.not_eq_true]
  exact h

/-- R98: in a crossfade, no mark is read if neither entry reads one. -/
theorem readsMark_crossfade {s : State} {live : Entry} {x : Crossfade}
    (h1 : ∀ n ∈ live.sources, (s.tap n live.delay).d = false)
    (h2 : ∀ n ∈ x.old.sources, (s.tap n x.old.delay).d = false) : s.readsMark live (some x) = false := by
  simp only [State.readsMark, weightedEntries, List.any_eq_false]
  intro e he
  simp only [List.any_eq_true, not_exists, not_and, Bool.not_eq_true]
  rcases List.mem_append.mp he with he | he
  · split at he
    · rw [List.mem_singleton.mp he]; exact h2
    · cases he
  · split at he
    · rw [List.mem_singleton.mp he]; exact h1
    · cases he

theorem filter_nonAudio_nil {s : State} {ns : List (Fin 98)} (h : ∀ n ∈ ns, s.nonAudio n = false) :
    ns.filter s.nonAudio = [] := by
  rw [List.filter_eq_nil_iff]
  intro n hn
  simp [h n hn]

/-- R97: the soft-entry factor of a tick is at most 1024. -/
theorem softEntryStep_le (trig : Bool) (j : Option Nat) : (softEntryStep trig j).2 ≤ 1024 := by
  unfold softEntryStep
  split
  · exact Nat.zero_le _
  · split
    · exact Nat.le_refl _
    · split
      · simp only; omega
      · exact Nat.le_refl _

/-- R104: the block counter stays within 0..191. -/
theorem blockNext_le (b : Nat) : blockNext b ≤ 191 := by unfold blockNext; split <;> omega

/-- R97, R104, R74: what every tick of a destination leaves. -/
theorem destTick_spec (s : State) (d : Fin 96) :
    (s.destTick d).dest.e ≤ 1024 ∧ (s.destTick d).dest.block = blockNext (s.engine.get d).block
      ∧ (s.destTick d).dest.trigger = false ∧ (s.destTick d).dest.resetMark = false
      ∧ ((s.live.get d).mode = .data → (s.destTick d).dest.xfade = none) := by
  cases hm : (s.live.get d).mode with
  | data =>
    have h : s.destTick d = s.dataTick d (s.live.get d) (s.engine.get d) := by simp [State.destTick, hm]
    rw [h]
    exact ⟨Nat.le_refl _, rfl, rfl, rfl, fun _ => rfl⟩
  | pcm =>
    simp only [State.destTick, hm]
    generalize (weightedSources (s.live.get d) (advanceCrossfade (s.engine.get d).xfade)).filter s.nonAudio = fs
    cases fs with
    | nil => exact ⟨softEntryStep_le _ _, rfl, rfl, rfl, fun h => by cases h⟩
    | cons n ns => exact ⟨Nat.zero_le _, rfl, rfl, rfl, fun h => by cases h⟩

end Sys2Proof.Machine
end

