-- ==== Sys2Proof/Laws/Events.lean ====
section
/-! SUPPORT. What raising notices brings to an event queue (R179), what the taking of an offer does to it (R181), and
what the offer of a fault does to a capture record (R184). -/

namespace Sys2Proof.Machine

/-! ### One offer -/

theorem markTail_length (ns : List Notice) : (markTail ns).length = ns.length := by
  induction ns with
  | nil => rfl
  | cons n rest ih =>
    cases rest with
    | nil => rfl
    | cons m tl => simp only [markTail, List.length_cons] at *; omega

/-- R181: the mark goes to the tail. -/
theorem markTail_append (init : List Notice) (n : Notice) :
    markTail (init ++ [n]) = init ++ [{ n with mark := true }] := by
  induction init with
  | nil => rfl
  | cons x xs ih =>
    cases xs with
    | nil => rfl
    | cons y ys => simp only [List.cons_append, markTail] at *; rw [ih]

/-- R181: an offer changes the notices alone. -/
theorem EventQueue.offer_eq (q : EventQueue) (n : Notice) : q.offer n = { q with notices := (q.offer n).notices } := by
  unfold offer
  split
  · split <;> rfl
  · rfl

/-- R181: an offer leaves a queue within 32 notices. -/
theorem EventQueue.offer_length (q : EventQueue) (n : Notice) (h : q.notices.length ≤ 32) :
    (q.offer n).notices.length ≤ 32 := by
  unfold offer
  split
  · split
    · simp; omega
    · simp only [markTail_length]; exact h
  · exact h

/-! ### Taking offers -/

theorem EventQueue.foldl_offer_eq (ns : List Notice) : ∀ q : EventQueue,
    ns.foldl offer q = { q with notices := (ns.foldl offer q).notices } := by
  induction ns with
  | nil => exact fun _ => rfl
  | cons n ns ih =>
    intro q
    rw [List.foldl_cons, ih, q.offer_eq n]

theorem EventQueue.foldl_offer_length (ns : List Notice) : ∀ q : EventQueue, q.notices.length ≤ 32 →
    (ns.foldl offer q).notices.length ≤ 32 := by
  induction ns with
  | nil => exact fun _ h => h
  | cons n ns ih => exact fun q h => ih _ (q.offer_length n h)

/-- R179: taking the next offer of an event keeps the subscription and leaves a queue within 32 notices. -/
theorem EventQueue.takeFrom_subs (q : EventQueue) (e : Nat) : (q.takeFrom e).subs = q.subs := by
  unfold takeFrom
  split
  · rw [offer_eq]
  · rfl

theorem EventQueue.takeFrom_length (q : EventQueue) (e : Nat) (h : q.notices.length ≤ 32) :
    (q.takeFrom e).notices.length ≤ 32 := by
  unfold takeFrom
  split
  · exact offer_length _ _ h
  · exact h

/-- R180: taking offers keeps the subscription. -/
theorem EventQueue.take_subs (q : EventQueue) (tk : Taking) : (q.take tk).subs = q.subs := by
  cases tk with
  | none => show (takeAll q).subs = _; unfold takeAll; rw [foldl_offer_eq]
  | some es =>
    show (es.foldl takeFrom q).subs = _
    induction es generalizing q with
    | nil => rfl
    | cons e es ih => exact (ih _).trans (q.takeFrom_subs e)

/-- R181: a queue that takes offers stays within 32 notices. -/
theorem EventQueue.take_length (q : EventQueue) (tk : Taking) (h : q.notices.length ≤ 32) :
    (q.take tk).notices.length ≤ 32 := by
  cases tk with
  | none => exact foldl_offer_length _ _ h
  | some es =>
    show (es.foldl takeFrom q).notices.length ≤ 32
    induction es generalizing q with
    | nil => exact h
    | cons e es ih => exact ih _ (q.takeFrom_length e h)

/-- A queue that takes all has nothing more on its way. -/
theorem EventQueue.take_none_coming (q : EventQueue) : (q.take none).coming = [] := by
  show (takeAll q).coming = []; unfold takeAll; rw [foldl_offer_eq]

/-- A queue that takes nothing. -/
@[simp] theorem EventQueue.take_nothing (q : EventQueue) : q.take (some []) = q := rfl

/-- A queue with no offer on its way takes nothing, whatever is asked of it. -/
theorem EventQueue.take_of_coming_nil {q : EventQueue} (h : q.coming = []) (tk : Taking) : q.take tk = q := by
  cases tk with
  | none => cases q; simp_all [take, takeAll]
  | some es =>
    induction es with
    | nil => rfl
    | cons e es ih =>
      have h1 : q.takeFrom e = q := by simp [takeFrom, h]
      show (es.foldl takeFrom (q.takeFrom e)) = q
      rw [h1]; exact ih

/-! ### Turns -/

/-- A queue with no offer on its way has no turn. -/
theorem EventQueue.turn_of_coming_nil {q : EventQueue} (h : q.coming = []) : q.turn = q := by simp [turn, h]

/-- R179: with nothing else said, a queue takes at its turn all offers that are on their way. -/
theorem EventQueue.turn_of_turns_nil {q : EventQueue} (h : q.turns = []) : q.turn = q.takeAll := by
  by_cases hc : q.coming = []
  · exact (turn_of_coming_nil hc).trans (take_of_coming_nil hc none).symm
  · simp [turn, h, hc]

/-- R179: what is said of the next turn is what the queue takes at it. -/
theorem EventQueue.turn_of_turns_cons {q : EventQueue} {tk ts} (h : q.turns = tk :: ts) (hc : q.coming ≠ []) :
    q.turn = { q with turns := ts }.take tk := by simp [turn, h, hc]

/-- R180: a turn keeps the subscription. -/
theorem EventQueue.turn_subs (q : EventQueue) : q.turn.subs = q.subs := by
  unfold turn
  split
  · rfl
  · split
    · exact take_subs q none
    · exact take_subs _ _

/-- R181: a queue stays within 32 notices at its turn. -/
theorem EventQueue.turn_length (q : EventQueue) (h : q.notices.length ≤ 32) : q.turn.notices.length ≤ 32 := by
  unfold turn
  split
  · exact h
  · split
    · exact take_length q none h
    · exact take_length _ _ h

theorem EventQueue.hear_nil (q : EventQueue) (no : Nat) (c : BitVec 16) : q.hear no c [] = q := rfl

theorem EventQueue.hear_cons (q : EventQueue) (no : Nat) (c : BitVec 16) (n : Pending) (ns : List Pending) :
    q.hear no c (n :: ns) = (q.bring no c (n :: ns)).turn := rfl

theorem EventQueue.hear_length (q : EventQueue) (no : Nat) (c : BitVec 16) (ns : List Pending)
    (h : q.notices.length ≤ 32) : (q.hear no c ns).notices.length ≤ 32 := by
  unfold hear
  split
  · exact h
  · exact turn_length _ h

/-! ### Raising notices -/

/-- R179: the notices of an event come to each line's queue, which has a turn. -/
@[simp] theorem raiseAs_eventQueue (s : State) (no : Nat) (c : BitVec 16) (ns : List Pending) (l : Line) :
    (s.raiseAs no c ns).eventQueue l = (s.eventQueue l).hear no c ns := by
  simp [State.raiseAs, State.eventQueue]

@[simp] theorem raiseAllAt_eventQueue (s : State) (c : BitVec 16) (ns : List Pending) (l : Line) :
    (s.raiseAllAt c ns).eventQueue l = (s.eventQueue l).hear s.eventNo c ns := raiseAs_eventQueue _ _ _ _ _

@[simp] theorem raiseAll_eventQueue (s : State) (ns : List Pending) (l : Line) :
    (s.raiseAll ns).eventQueue l = (s.eventQueue l).hear s.eventNo s.ref.frameCount ns :=
  raiseAs_eventQueue _ _ _ _ _

/-- R183: a raised notice of a subscribed class asserts EV in the step that raises it, where nothing else is said of the
turns and no earlier offer is on its way. -/
theorem raise_ev (s : State) (k : NoticeKind) (a b : Nat) (l : Line) (hc : (s.eventQueue l).coming = [])
    (ht : (s.eventQueue l).turns = []) (hs : (s.eventQueue l).subscribed k = true) :
    ((s.raise k a b).eventQueue l).ev = true := by
  simp only [State.raise, raiseAll_eventQueue, EventQueue.hear_cons]
  rw [EventQueue.turn_of_turns_nil (by exact ht)]
  simp only [EventQueue.takeAll, EventQueue.bring, hc, List.nil_append, List.map_cons, List.map_nil, List.foldl,
    EventQueue.offer, EventQueue.subscribed, EventQueue.ev, Pending.stamped] at hs ⊢
  rw [if_pos hs]
  split
  · simp
  · next h =>
    rw [← Bool.not_eq_false', Bool.not_not, List.isEmpty_eq_false_iff]
    intro h0
    have := congrArg List.length h0
    rw [markTail_length] at this
    exact h (by simp only [this]; decide)

/-- An event that raises nothing. -/
@[simp] theorem raiseAs_nil (s : State) (no : Nat) (c : BitVec 16) : s.raiseAs no c [] = s := by
  simp [State.raiseAs, EventQueue.hear_nil, Bank.map]

@[simp] theorem raiseAllAt_nil (s : State) (c : BitVec 16) : s.raiseAllAt c [] = s := by
  simp [State.raiseAllAt]

@[simp] theorem raiseAll_nil (s : State) : s.raiseAll [] = s := raiseAllAt_nil _ _

theorem eventsBounded_raiseAs {s : State} (h : EventsBounded s) (no : Nat) (c : BitVec 16) (ns : List Pending) :
    EventsBounded (s.raiseAs no c ns) := fun l => by
  rw [raiseAs_eventQueue]; exact EventQueue.hear_length _ _ _ _ (h l)

theorem eventsBounded_raiseAllAt (c : BitVec 16) (ns : List Pending) {s : State} (h : EventsBounded s) :
    EventsBounded (s.raiseAllAt c ns) := eventsBounded_raiseAs h _ _ _

theorem eventsBounded_raiseAll (ns : List Pending) {s : State} (h : EventsBounded s) : EventsBounded (s.raiseAll ns) :=
  eventsBounded_raiseAllAt _ _ h

theorem eventsBounded_raise {s : State} (h : EventsBounded s) (k : NoticeKind) (a b : Nat) :
    EventsBounded (s.raise k a b) := eventsBounded_raiseAll _ h

/-! ### Faults -/

/-- R184, R185: the record after an offered fault. -/
theorem offerFault_faults (s : State) (l l' : Fin 4) (k : FaultKind) (ev : AreaEvent) :
    (s.offerFault l k ev).faults.get l'
      = if l = l' then some (offeredTo (s.faults.get l) k ev.line ev.stamp) else s.faults.get l' := by
  simp [State.offerFault]

end Sys2Proof.Machine
end

