-- ==== Sys2Proof/Laws/Execute.lean ====
section
/-! SUPPORT. What the execution of a command (R171) comes to: one lemma for each form of the head of the line's queue,
and what the answer leaves. -/

namespace Sys2Proof.Machine

variable {s : State} {l : Line} {code ticket : Byte} {params : List Byte} {f : List Byte → State → Answer}
  {g : List Byte → State → State × Option (Status × List Byte)}

/-- A frame of the command's code at the head is executed: the block takes it, and its answer, if it has one, is
placed. -/
theorem executePart_of_head (h : HeadIs s l code ticket params) (hl : reservedToC code = true → l = .c) :
    s.executePart l code g = State.conclude l ticket (g params s) := by
  obtain ⟨rest, hq⟩ := h
  simp only [State.executePart, hq]
  rw [if_pos trivial, if_neg (fun hc => hc.2 (hl hc.1))]

/-- A frame of the command's code at the head is executed: the block takes it, and its answer is placed. -/
theorem execute_of_head (h : HeadIs s l code ticket params) (hl : reservedToC code = true → l = .c) :
    s.execute l code f = (f params s).1.answer l ticket (f params s).2.1 (f params s).2.2 :=
  executePart_of_head h hl

/-- A reserved command at the head of line A's or B's queue reaches no block (R176). -/
theorem executePart_of_reserved (h : HeadIs s l code ticket params) (hr : reservedToC code = true) (hl : l ≠ .c) :
    s.executePart l code g = s.answer l ticket .notAllowed [] := by
  obtain ⟨rest, hq⟩ := h
  simp only [State.executePart, hq]
  rw [if_pos trivial, if_pos ⟨hr, hl⟩]

theorem execute_of_reserved (h : HeadIs s l code ticket params) (hr : reservedToC code = true) (hl : l ≠ .c) :
    s.execute l code f = s.answer l ticket .notAllowed [] := executePart_of_reserved h hr hl

/-- With no frame of the command's code at the head nothing happens (assumption 3). -/
theorem executePart_of_other (h : ∀ fr, (s.port l).queue.head? = some fr → fr.code ≠ code) :
    s.executePart l code g = s := by
  unfold State.executePart
  split
  · rfl
  · next fr rest hq =>
    rw [if_neg (h fr (by simp [hq]))]

theorem execute_of_other (h : ∀ fr, (s.port l).queue.head? = some fr → fr.code ≠ code) :
    s.execute l code f = s := executePart_of_other h

/-- Whatever the queue, an execution leaves the state, or it is what the block made of the command, with its answer. -/
theorem executePart_cases (s : State) (l : Line) (code : Byte)
    (g : List Byte → State → State × Option (Status × List Byte)) :
    s.executePart l code g = s
      ∨ ∃ ticket params, HeadIs s l code ticket params
          ∧ ((reservedToC code = true ∧ l ≠ .c ∧ s.executePart l code g = s.answer l ticket .notAllowed [])
            ∨ ((reservedToC code = true → l = .c)
              ∧ s.executePart l code g = State.conclude l ticket (g params s))) := by
  unfold State.executePart
  split
  · exact .inl rfl
  · next fr rest hq =>
    split
    · next hc =>
      subst hc
      refine .inr ⟨fr.ticket, fr.params, ⟨rest, hq⟩, ?_⟩
      split
      · next h => exact .inl ⟨h.1, h.2, rfl⟩
      · next h => exact .inr ⟨fun hr => Classical.byContradiction fun hl => h ⟨hr, hl⟩, rfl⟩
    · exact .inl rfl

/-- Whatever the queue, an execution leaves the state, or is an answer to what the block made of the command. -/
theorem execute_cases (s : State) (l : Line) (code : Byte) (f : List Byte → State → Answer) :
    s.execute l code f = s
      ∨ ∃ ticket params, HeadIs s l code ticket params
          ∧ ((reservedToC code = true ∧ l ≠ .c ∧ s.execute l code f = s.answer l ticket .notAllowed [])
            ∨ ((reservedToC code = true → l = .c)
              ∧ s.execute l code f = (f params s).1.answer l ticket (f params s).2.1 (f params s).2.2)) :=
  executePart_cases s l code _

@[simp] theorem answer_port (s : State) (l : Line) (k : Byte) (st : Status) (pl : List Byte) (l' : Line) :
    (s.answer l k st pl).port l'
      = if l = l' then { (s.port l').place k st pl with queue := (s.port l').queue.tail } else s.port l' := by
  simp [State.answer]

@[simp] theorem answer_eventQueue (s : State) (l : Line) (k : Byte) (st : Status) (pl : List Byte) (l' : Line) :
    (s.answer l k st pl).eventQueue l' = s.eventQueue l' := rfl

end Sys2Proof.Machine
end

