-- ==== Sys2Proof/Laws/Lanes.lean ====
section
/-! SUPPORT. What a lane's exit from RUNNING leaves (R13), and what words after a complete area do. -/

set_option Elab.async false

namespace Sys2Proof.Machine

theorem groupNo_inj (l c c' : Fin 4) : groupNo l c = groupNo l c' ↔ c = c' := by
  simp [groupNo, Fin.ext_iff]

theorem groupNo_lane (l c : Fin 4) : groupLane (groupNo l c) = l := by
  simp only [groupNo, groupLane, Fin.ext_iff]; omega

theorem groupNo_of (g : Fin 16) : ∃ c, g = groupNo (groupLane g) c := by
  refine ⟨⟨g.val % 4, by omega⟩, ?_⟩
  simp only [groupNo, groupLane, Fin.ext_iff]; omega

/-- What a parser keeps of a group when its lane leaves RUNNING. -/
def GroupState.stopped (x : GroupState) : GroupState :=
  { x with present := false, lastCount := none, pendingD := !x.present && x.pendingD, seenFrame := false }

/-- R13, R30: the parser state of one group after the exit. -/
theorem stopGroup_groups (s : State) (g : Fin 16) :
    (s.stopGroup g).groups = s.groups.upd g GroupState.stopped := by
  simp only [State.stopGroup, State.makeAbsent]
  split
  · next h =>
    simp
    apply Bank.upd_congr; simp [GroupState.stopped, h]
  · next h =>
    simp
    apply Bank.upd_congr; simp at h; simp [GroupState.stopped, h]

/-- R13, R43: the strip store of one group after the exit. -/
theorem stopGroup_strip (s : State) (g : Fin 16) :
    (s.stopGroup g).strip = s.strip.upd g Store.flush := by
  simp only [State.stopGroup, State.makeAbsent]
  split
  · simp
    apply Bank.upd_congr
    simp only [Store.flush]; split <;> simp
  · simp

theorem flush_state (st : Store) : st.flush.state = .idle := by unfold Store.flush; split <;> simp_all

theorem parserStop_groups (s : State) (l c : Fin 4) : ((s.parserStop l).groups.get (groupNo l c))
      = (s.groups.get (groupNo l c)).stopped := by
  simp only [State.parserStop, four, List.foldl, stopGroup_groups, Bank.get_upd, groupNo_inj]
  match c with
  | 0 => simp
  | 1 => simp
  | 2 => simp
  | 3 => simp

theorem parserStop_strip (s : State) (l c : Fin 4) : ((s.parserStop l).strip.get (groupNo l c))
      = (s.strip.get (groupNo l c)).flush := by
  simp only [State.parserStop, four, List.foldl, stopGroup_strip, Bank.get_upd, groupNo_inj]
  match c with
  | 0 => simp
  | 1 => simp
  | 2 => simp
  | 3 => simp

theorem leaveEmbed_embed (s : State) (g) : (s.leaveEmbed g).embed = s.embed.upd g Store.toHolding := rfl
theorem leaveEmbed_counts (s : State) (g) : (s.leaveEmbed g).embCounts
    = s.embCounts.upd g fun c => { c with owed := 0 } := rfl

/-- R130 for every group of a lane. -/
theorem holdLane_embed (s : State) (l c : Fin 4) : (s.holdLane l).embed.get (groupNo l c)
      = (s.embed.get (groupNo l c)).toHolding := by
  simp only [State.holdLane, four, List.foldl, leaveEmbed_embed, Bank.get_upd, groupNo_inj]
  match c with
  | 0 => simp
  | 1 => simp
  | 2 => simp
  | 3 => simp

theorem holdLane_counts (s : State) (l c : Fin 4) : (s.holdLane l).embCounts.get (groupNo l c) = { s.embCounts.get
    (groupNo l c) with owed := 0 } := by
  simp only [State.holdLane, four, List.foldl, leaveEmbed_counts, Bank.get_upd, groupNo_inj]
  match c with
  | 0 => simp
  | 1 => simp
  | 2 => simp
  | 3 => simp

theorem toHolding_idem (st : Store) : st.toHolding.toHolding = st.toHolding := by
  unfold Store.toHolding; split <;> simp_all

/-- R13, R133: the embed stores of a lane after its exit, whatever the bypass state. -/
theorem builderStop_embed (s : State) (l c : Fin 4) : (s.builderStop l).embed.get (groupNo l c)
      = (s.embed.get (groupNo l c)).toHolding := by
  simp only [State.builderStop]
  split
  · simp [holdLane_embed]
  · simp [State.bypassEnter, holdLane_embed, toHolding_idem]
  · simp [holdLane_embed]
  · simp only [State.bypassExit]
    rw [(keeps_triggerAll _).embed]
    simp [holdLane_embed]

theorem builderStop_counts (s : State) (l c : Fin 4) : (s.builderStop l).embCounts.get (groupNo l c)
    = { s.embCounts.get (groupNo l c) with owed := 0 } := by
  simp only [State.builderStop]
  split
  · simp [holdLane_counts]
  · simp [State.bypassEnter, holdLane_counts]
  · simp [holdLane_counts]
  · simp only [State.bypassExit]
    rw [(keeps_triggerAll _).embCounts]
    simp [holdLane_counts]

/-- R98, R99: a trigger handed to one destination. -/
theorem trigger_engine (s : State) (d d' : Fin 96) : (s.trigger d).engine.get d'
    = if d = d' ∧ (s.live.get d').mode = .pcm then { s.engine.get d' with trigger := true } else s.engine.get d' := by
  unfold State.trigger
  split
  · next h =>
    by_cases e : d = d'
    · subst e; simp [h]
    · simp [e]
  · next h =>
    rw [if_neg]
    rintro ⟨rfl, h2⟩
    rw [h] at h2; cases h2

/-- R98, R99: triggers handed to several destinations. -/
theorem triggerAll_engine (ds : List (Fin 96)) : ∀ (s : State) (d' : Fin 96), (s.triggerAll ds).engine.get d'
    = if d' ∈ ds ∧ (s.live.get d').mode = .pcm then { s.engine.get d' with trigger := true }
      else s.engine.get d' := by
  induction ds with
  | nil => intro s d'; simp [State.triggerAll]
  | cons d ds ih =>
    intro s d'
    show ((s.trigger d).triggerAll ds).engine.get d' = _
    rw [ih, trigger_engine, (keeps_trigger d).live]
    by_cases hm : (s.live.get d').mode = .pcm
    · by_cases h1 : d = d'
      · subst h1; simp [hm]
      · simp [hm, h1, Ne.symm h1]
    · simp [hm]

theorem mem_laneDests (l : Fin 4) (n : Fin 16) : laneDest l n ∈ laneDests l :=
  List.mem_map.mpr ⟨n, List.mem_finRange n, rfl⟩

/-- R132, R135: the bypass state after the lane's exit from RUNNING. -/
def Bypass.stopped : Bypass → Bypass
  | .out => .out
  | .entering => .inside
  | .inside => .inside
  | .leaving => .out

/-- R117, R132: the builder of a lane after its exit. -/
theorem builderStop_builders (s : State) (l : Fin 4) : (s.builderStop l).builders
    = s.builders.upd l fun b => { phase := .stopped, acc := 0, bypass := b.bypass.stopped } := by
  simp only [State.builderStop]
  split <;> rename_i h
  · rw [(keeps_holdLane _).builders]; simp
    apply Bank.upd_congr; simp [h, Bypass.stopped]
  · simp only [State.bypassEnter]
    rw [(keeps_holdLane _).builders]; simp
    rw [(keeps_holdLane _).builders]; simp
    apply Bank.upd_congr; simp [h, Bypass.stopped]
  · rw [(keeps_holdLane _).builders]; simp
    apply Bank.upd_congr; simp [h, Bypass.stopped]
  · simp only [State.bypassExit]
    rw [(keeps_triggerAll _).builders]; simp
    rw [(keeps_holdLane _).builders]; simp
    apply Bank.upd_congr; simp [h, Bypass.stopped]

/-- R134: with no bypass that is being left, the exit hands no trigger. -/
theorem builderStop_engine (s : State) (l : Fin 4) (h : (s.builders.get l).bypass ≠ .leaving) :
    (s.builderStop l).engine = s.engine := by
  simp only [State.builderStop]
  split
  · rw [(keeps_holdLane _).engine]; rfl
  · rw [(keeps_bypassEnter _).engine, (keeps_holdLane _).engine]; rfl
  · rw [(keeps_holdLane _).engine]; rfl
  next h1 => exact absurd h1 h

/-- The GROUP_STATE notices depend on the parsers' groups alone. -/
theorem absentNotices_congr {s t : State} (h : t.groups = s.groups) (l : Fin 4) (f : GroupState → Bool) :
    t.absentNotices l f = s.absentNotices l f := by
  unfold State.absentNotices; rw [h]

theorem flush_eq (st : Store) : st.flush = flushed st := rfl

/-- R134: the triggers of a lane's destinations. -/
theorem triggersLane (s : State) (l : Fin 4) : TriggersLane s (s.triggerAll (laneDests l)) l := by
  refine ⟨fun n => ?_, fun d hd => ?_⟩
  · rw [triggerAll_engine]
    by_cases h : (s.live.get (laneDest l n)).mode = .pcm <;> simp [h, mem_laneDests]
  · rw [triggerAll_engine, if_neg]
    rintro ⟨h, -⟩
    obtain ⟨n, -, rfl⟩ := List.mem_map.mp h
    exact hd n rfl

/-- R13, R30, R43: the parser's exit at the groups and stores of another lane. -/
theorem parserStop_other (s : State) {l : Fin 4} {g : Fin 16} (h : groupLane g ≠ l) :
    (s.parserStop l).groups.get g = s.groups.get g ∧ (s.parserStop l).strip.get g = s.strip.get g := by
  have hg : ∀ c, groupNo l c ≠ g := fun c e => h (e ▸ groupNo_lane l c)
  simp [State.parserStop, four, stopGroup_groups, stopGroup_strip, hg]

/-- R130: a lane's groups leave EMBED; those of another lane do not. -/
theorem holdLane_other (s : State) {l : Fin 4} {g : Fin 16} (h : groupLane g ≠ l) :
    (s.holdLane l).embed.get g = s.embed.get g ∧ (s.holdLane l).embCounts.get g = s.embCounts.get g := by
  have hg : ∀ c, groupNo l c ≠ g := fun c e => h (e ▸ groupNo_lane l c)
  simp [State.holdLane, four, leaveEmbed_embed, leaveEmbed_counts, hg]

/-- R13, R133: the builder's exit at the stores of another lane. -/
theorem builderStop_other (s : State) {l : Fin 4} {g : Fin 16} (h : groupLane g ≠ l) :
    (s.builderStop l).embed.get g = s.embed.get g ∧ (s.builderStop l).embCounts.get g = s.embCounts.get g := by
  simp only [State.builderStop]
  split
  · simp [holdLane_other _ h]
  · simp [State.bypassEnter, holdLane_other _ h]
  · simp [holdLane_other _ h]
  · simp only [State.bypassExit]
    rw [(keeps_triggerAll _).embed, (keeps_triggerAll _).embCounts]
    simp [holdLane_other _ h]

theorem leaveRunning_lanes (s : State) (l : Fin 4) : (s.leaveRunning l).lanes
    = s.lanes.upd l fun r => { r with index := 0, inFrame := false } := by
  simp only [State.leaveRunning, State.updLane_lanes]
  rw [(keeps_builderStop _).lanes, (keeps_parserStop _).lanes]

/-- R13: the whole exit at the groups, stores and builders. -/
theorem leaveRunning_left (s : State) (l : Fin 4) (h : StoresOk s) : LeftRunning s (s.leaveRunning l) l := by
  have hp : Keeps absentParts s (s.parserStop l) := keeps_parserStop l
  have hb : Keeps _ _ _ := keeps_builderStop (s := s.parserStop l) l
  have hB : (s.leaveRunning l).builders
      = s.builders.upd l fun b => { phase := .stopped, acc := 0, bypass := b.bypass.stopped } := by
    simp only [State.leaveRunning, State.updLane_builders, builderStop_builders, hp.builders]
  refine ⟨by simp [State.leaveRunning], by simp [hB]; rfl, ?_, ?_, ?_, ?_, ?_⟩
  · intro hl
    have := triggersLane (((((s.parserStop l).updBuilder l fun b => { b with phase := .stopped, acc := 0 }).holdLane
      l).updBuilder l fun b => { b with bypass := .out })) l
    simp only [TriggersLane, State.leaveRunning, State.updLane_engine, State.builderStop, hp.builders, hl,
      State.bypassExit] at this ⊢
    simpa only [State.updBuilder_live, State.updBuilder_engine, (keeps_holdLane l).live, (keeps_holdLane l).engine,
      hp.live, hp.engine] using this
  · intro hl
    simp only [State.leaveRunning, State.updLane_engine]
    rw [builderStop_engine _ _ (by rw [hp.builders]; exact hl), hp.engine]
  · intro c
    simp only [State.leaveRunning, State.updLane_groups, State.updLane_strip, State.updLane_embed,
        State.updLane_embCounts]
    rw [hb.groups, hb.strip, builderStop_embed, builderStop_counts, parserStop_groups, parserStop_strip, hp.embed,
        hp.embCounts]
    refine ⟨?_, rfl, ?_, rfl⟩
    · cases h : (s.groups.get (groupNo l c)).present <;> simp [GroupState.stopped, h]
    · have := (h.2 (groupNo l c)).2.1
      unfold Store.toHolding
      split
      · rfl
      · next hn => rw [← this.resolve_right hn]
  · intro l' hl
    simp [leaveRunning_lanes, hB, Ne.symm hl]
  · intro g hg
    simp only [State.leaveRunning, State.updLane_groups, State.updLane_strip, State.updLane_embed,
        State.updLane_embCounts]
    rw [hb.groups, hb.strip, (builderStop_other _ hg).1, (builderStop_other _ hg).2, hp.embed, hp.embCounts]
    exact ⟨(parserStop_other s hg).1, (parserStop_other s hg).2, rfl, rfl⟩

theorem leaveRunning_builders (s : State) (l l' : Fin 4) (h : l' ≠ l) : (s.leaveRunning l).builders.get l'
    = s.builders.get l' := by
  simp only [State.leaveRunning, State.updLane_builders]
  rw [builderStop_builders, (keeps_parserStop _).builders]; simp [Ne.symm h]

theorem offerFault_other (s : State) {l l' : Fin 4} (k ev) (h : l' ≠ l) : (s.offerFault l k ev).faults.get l'
    = s.faults.get l' := by
  simp [State.offerFault, Ne.symm h]

theorem storesOk_of (s t : State) (h1 : t.strip = s.strip) (h2 : t.embed = s.embed) (h : StoresOk s) : StoresOk t := by
  unfold StoresOk StoresBounded StatesOk at *
  rw [h1, h2]; exact h

/-- `LeftRunning` reads nothing else of the two states. -/
theorem leftRunning_of {s s' t t' : State} {l A B} (h : LeftRunning s t l) (hs : Keeps A s' s)
    (ht : Keeps B t t') (hl : ∀ l', l' ≠ l → s.lanes.get l' = s'.lanes.get l')
    (hi : (t'.lanes.get l).index = 0) (ho : ∀ l', l' ≠ l → t'.lanes.get l' = t.lanes.get l')
    (hA : ∀ p ∈ A, p ∈ [Part.lanes, .relays, .faults, .work, .ports, .events] := by decide)
    (hB : ∀ p ∈ B, p ∈ [Part.lanes, .relays, .faults, .work, .ports, .events] := by decide) :
    LeftRunning s' t' l := by
  have ks := hs.mono hA
  have kt := ht.mono hB
  unfold LeftRunning TriggersLane at *
  rw [kt.builders, kt.groups, kt.strip, kt.embed, kt.embCounts, kt.engine, ← ks.builders, ← ks.groups, ← ks.strip,
    ← ks.embed, ← ks.embCounts, ← ks.engine, ← ks.live]
  refine ⟨hi, h.2.1, h.2.2.1, h.2.2.2.1, h.2.2.2.2.1, fun l' hl' => ⟨?_, (h.2.2.2.2.2.1 l' hl').2⟩, h.2.2.2.2.2.2⟩
  rw [ho l' hl', (h.2.2.2.2.2.1 l' hl').1, hl l' hl']

/-- R1, R11: words that raise no event are only kept. -/
theorem receive_quiet {s : State} {l : Fin 4} {ws : List LaneWord} (h : ¬ RaisesArea s l ws) :
    s.receiveWords l ws = s.updRelay l fun r => r.receive ws := by
  have h1 : s.areaEvent? l ws = none := by
    unfold State.areaEvent?
    split
    · rfl
    · next x hx =>
      refine if_neg fun hc => h ⟨hc.2.2.1, hc.2.2.2.1, x, hx, ?_⟩
      simpa [isCarriageLine, areaWords, and_assoc] using And.intro hc.2.2.2.2 (And.intro hc.1 hc.2.1)
  simp only [State.receiveWords, h1]
  rfl

end Sys2Proof.Machine
end

