-- ==== Sys2Proof/Laws/Fallback.lean ====
section
/-! SUPPORT. What a trip and a release make of the four builders and of the stores of their lanes (R132 to R134). -/

set_option Elab.async false

namespace Sys2Proof.Machine

/-- R132: the bypass state after a trip. -/
def Bypass.tripped (running : Bool) : Bypass → Bypass
  | .out => if running then .entering else .inside
  | .entering => .entering
  | .inside => .inside
  | .leaving => .inside

/-- R132: the bypass state after a release. -/
def Bypass.released (running : Bool) : Bypass → Bypass
  | .out => .out
  | .entering => .out
  | .inside => if running then .leaving else .out
  | .leaving => .leaving

/-- R132: a trip at the builders. -/
theorem tripLane_builders (s : State) (l : Fin 4) : (s.tripLane l).builders
    = s.builders.upd l fun b => { b with bypass := b.bypass.tripped (s.running l) } := by
  unfold State.tripLane
  split <;> rename_i h
  · cases hr : s.running l
    · simp only [State.bypassEnter, Bool.false_eq_true, if_false]
      rw [(keeps_holdLane _).builders]
      simp only [State.updBuilder_builders]; apply Bank.upd_congr; simp [h, Bypass.tripped]
    · simp only [State.updBuilder_builders, if_true]; apply Bank.upd_congr; simp [h, Bypass.tripped]
  · exact (Bank.upd_eq_self _ _ (by rw [h]; cases hb : s.builders.get l; simp_all [Bypass.tripped])).symm
  · exact (Bank.upd_eq_self _ _ (by rw [h]; cases hb : s.builders.get l; simp_all [Bypass.tripped])).symm
  · simp only [State.updBuilder_builders]; apply Bank.upd_congr; simp [h, Bypass.tripped]

/-- R133: a trip at the stores and counts of a group. -/
theorem tripLane_group (s : State) (l : Fin 4) (g : Fin 16) :
    (s.tripLane l).embed.get g
        = (if groupLane g = l ∧ (s.builders.get l).bypass = .out ∧ s.running l = false then
             (s.embed.get g).toHolding else s.embed.get g)
      ∧ (s.tripLane l).embCounts.get g
        = (if groupLane g = l ∧ (s.builders.get l).bypass = .out ∧ s.running l = false then
             { s.embCounts.get g with owed := 0 } else s.embCounts.get g) := by
  unfold State.tripLane
  split <;> rename_i h
  · cases hr : s.running l
    · simp only [State.bypassEnter, Bool.false_eq_true, if_false]
      by_cases hg : groupLane g = l
      · obtain ⟨c, hc⟩ := groupNo_of g
        rw [hg] at hc
        simp only [hc, groupNo_lane, h, and_self, if_true]
        exact ⟨holdLane_embed _ l c, holdLane_counts _ l c⟩
      · simp only [hg, false_and, if_false]
        exact holdLane_other _ hg
    · simp
  · simp [h]
  · simp [h]
  · simp [h]

/-- R132, R133, R162: a trip handed to the four builders. -/
theorem tripAll_spec (s : State) : TripsBuilders s s.tripAll := by
  have hr : ∀ (u : State) (k m : Fin 4), (u.tripLane k).running m = u.running m := by
    intro u k m; unfold State.running; rw [(keeps_tripLane k).lanes]
  have hB : ∀ l : Fin 4, (s.tripAll.builders.get l)
      = { s.builders.get l with bypass := (s.builders.get l).bypass.tripped (s.running l) } := by
    intro l
    simp only [State.tripAll, four, List.foldl, tripLane_builders, hr, Bank.get_upd]
    match l with
    | 0 => simp
    | 1 => simp
    | 2 => simp
    | 3 => simp
  intro l
  refine ⟨?_, fun c => ?_⟩
  · rw [hB]
    cases h : (s.builders.get l).bypass <;> simp [Bypass.tripped, State.running]
  · have hH : ∀ st : Store, st.toHolding = { st with state := if st.state = .flowing then .holding else st.state } := by
      intro st; unfold Store.toHolding; split <;> rfl
    have hg : ∀ k : Fin 4, (l = k) ↔ (k = l) := fun k => eq_comm
    simp only [State.tripAll, four, List.foldl, (tripLane_group _ _ _).1, (tripLane_group _ _ _).2, hr, groupNo_lane,
      tripLane_builders, Bank.get_upd, ← hH]
    have : s.running l = false ↔ (s.lanes.get l).state ≠ .running := by simp [State.running]
    simp only [← this]
    match l with
    | 0 => simp; split <;> simp_all
    | 1 => simp; split <;> simp_all
    | 2 => simp; split <;> simp_all
    | 3 => simp; split <;> simp_all

/-- R132: a release at the builders. -/
theorem releaseLane_builders (s : State) (l : Fin 4) : (s.releaseLane l).builders
    = s.builders.upd l fun b => { b with bypass := b.bypass.released (s.running l) } := by
  unfold State.releaseLane
  split <;> rename_i h
  · exact (Bank.upd_eq_self _ _ (by rw [h]; cases hb : s.builders.get l; simp_all [Bypass.released])).symm
  · simp only [State.updBuilder_builders]; apply Bank.upd_congr; simp [h, Bypass.released]
  · cases hr : s.running l
    · simp only [State.bypassExit, Bool.false_eq_true, if_false]
      rw [(keeps_triggerAll _).builders]
      simp only [State.updBuilder_builders]; apply Bank.upd_congr; simp [h, Bypass.released]
    · simp only [State.updBuilder_builders, if_true]; apply Bank.upd_congr; simp [h, Bypass.released]
  · exact (Bank.upd_eq_self _ _ (by rw [h]; cases hb : s.builders.get l; simp_all [Bypass.released])).symm

/-- R132, R162: a release handed to the four builders. -/
theorem releaseAll_builders (s : State) (l : Fin 4) : s.releaseAll.builders.get l
    = { s.builders.get l with bypass := (s.builders.get l).bypass.released (s.running l) } := by
  have hr : ∀ (u : State) (k m : Fin 4), (u.releaseLane k).running m = u.running m := by
    intro u k m; unfold State.running; rw [(keeps_releaseLane k).lanes]
  simp only [State.releaseAll, four, List.foldl, releaseLane_builders, hr, Bank.get_upd]
  match l with
  | 0 => simp
  | 1 => simp
  | 2 => simp
  | 3 => simp

end Sys2Proof.Machine
end

