-- ==== Sys2Proof/Laws/House.lean ====
section
/-! SUPPORT. What a house tick reads, and its parts in the terms that claims use (R38, R53, R54, R140, R141, R147). -/

set_option Elab.async false

namespace Sys2Proof.Machine

/-- R54: the destinations of the notices of an embed store. -/
theorem embedSlipDests_eq (s : State) (g : Fin 16) : embedSlipDests s g = throughEmbed s g := by
  unfold embedSlipDests throughEmbed
  have : (four.map (groupDest g)) = (List.finRange 96).filter fun d => d.val / 4 = g.val := by revert g; decide
  rw [this, List.filter_filter]
  congr 1; funext d
  rw [Bool.decide_and, beq_eq_decide]

/-- R54: the destinations of the notices of a strip store. -/
theorem stripSlipDests_eq (s : State) (g : Fin 16) : stripSlipDests s g = throughStrip s g := by
  unfold stripSlipDests throughStrip
  congr 1; funext d
  rw [Bool.decide_and, beq_eq_decide, beq_eq_decide]

/-- R53, R54: the notices of a read. -/
theorem readNotices_eq (n : Nat) (ds) (st : Store) : readNotices n st.latch st.readKind ds = readReport n ds st := by
  unfold readNotices readReport Store.readKind
  by_cases h1 : st.fill = 0
  · simp [h1]
  · rw [if_neg h1, if_neg h1]
    by_cases h2 : st.reads = 480 ∧ st.fill ≤ 8
    · rw [if_pos h2, if_pos h2]; simp [slipNotices]
    · rw [if_neg h2, if_neg h2]
      by_cases h3 : st.reads = 480 ∧ 56 ≤ st.fill
      · rw [if_pos h3, if_pos h3]; simp [slipNotices]
      · rw [if_neg h3, if_neg h3]

/-- R53: the notice of a write. -/
theorem writeNotices_eq (n : Nat) (st : Store) : writeNotices n st = writeReport n st := by
  unfold writeNotices writeReport Store.overflowing
  congr 1
  simp [and_assoc]

/-- R140: the magnitude of a value. -/
theorem magnitude_eq (y : Value) : magnitude y = (if y.toInt = -8388608 then 8388607 else y.toInt.natAbs) := by
  unfold magnitude
  have h1 := BitVec.toInt_lt (x := y); have h2 := BitVec.le_toInt (x := y)
  simp at h1 h2
  split <;> omega

/-- What the tick of a destination reads. -/
theorem destTick_congr {s u : State} (h1 : s.live = u.live) (h2 : s.engine = u.engine) (h3 : s.trackers = u.trackers)
   (h4 : s.hist = u.hist) (h5 : s.free = u.free) (d) : s.destTick d = u.destTick d := by
  cases s; cases u; simp only at h1 h2 h3 h4 h5; subst h1 h2 h3 h4 h5; rfl

/-- What raising notices reads. -/
theorem raiseAll_congr {s u : State} (h1 : s.events = u.events) (h2 : s.eventNo = u.eventNo)
    (h3 : s.ref.frameCount = u.ref.frameCount) (ns) :
    (s.raiseAll ns).events = (u.raiseAll ns).events ∧ (s.raiseAll ns).eventNo = (u.raiseAll ns).eventNo
      ∧ (s.raiseAll ns).ref = s.ref := by
  simp [State.raiseAll, State.raiseAllAt, State.raiseAs, h1, h2, h3]

/-- What raising the notices of several events reads. -/
theorem raiseEach_congr (es : List (List Pending)) : ∀ {s u : State}, s.events = u.events → s.eventNo = u.eventNo →
    s.ref.frameCount = u.ref.frameCount →
    (es.foldl (fun s ns => s.raiseAll ns) s).events = (es.foldl (fun s ns => s.raiseAll ns) u).events
      ∧ (es.foldl (fun s ns => s.raiseAll ns) s).eventNo = (es.foldl (fun s ns => s.raiseAll ns) u).eventNo := by
  induction es with
  | nil => intro s u h1 h2 h3; exact ⟨h1, h2⟩
  | cons n ns ih =>
    intro s u h1 h2 h3
    have := raiseAll_congr h1 h2 h3 n
    exact ih this.1 this.2.1 (by rw [this.2.2, (raiseAll_congr (rfl : u.events = u.events) rfl rfl n).2.2, h3])

/-- R38, R39: the blocks that are completed with the tick. -/
theorem completeFlags_spec (fs : List (Fin 96)) : ∀ s : State, ∃ b, s.completeFlags fs = { s with trackers := b }
    ∧ ∀ n, b.get n = (if n ∈ fs then (s.trackers.get n).complete else s.trackers.get n) := by
  induction fs with
  | nil => intro s; exact ⟨s.trackers, rfl, fun n => by simp⟩
  | cons f fs ih =>
    intro s
    obtain ⟨b, h1, h2⟩ := ih (s.updTracker f Tracker.complete)
    refine ⟨b, h1, ?_⟩
    intro n
    rw [h2 n]
    have hid : ∀ t : Tracker, t.complete.complete = t.complete := by
      intro t; unfold Tracker.complete; split
      · rfl
      · rfl
    by_cases h : f = n
    · subst h; simp; intro _; exact hid _
    · simp [h, Ne.symm h]

/-- R140, R141, R147: a tick at a monitor. -/
theorem monitor_tick_spec (m : Monitor) (o : TickOut) (mag : Nat) (hm : mag = magnitude o.out.value) (m' : Monitor)
    (h' : m' = m.tick o.out.value o.clamp o.suspended) :
    (m.activity = .idle ∨ m.activity = .suspended ∧ o.suspended = true → m' = m)
    ∧ (m.activity = .measuring → o.suspended = false →
      m' = { m with ticks := m.ticks + 1, peak := max m.peak mag, clip := m.clip || o.clamp })
    ∧ (m.activity = .measuring → o.suspended = true →
      m' = { m with activity := .suspended, ticks := 0, peak := 0, clip := false, changed := false })
    ∧ (m.activity = .suspended → o.suspended = false →
      m' = { m with activity := .measuring, ticks := 1, peak := mag, clip := o.clamp, changed := m.pendingChanged,
                    pendingChanged := false }) := by
  subst hm h'
  unfold Monitor.tick
  refine ⟨?_, ?_, ?_, ?_⟩
  · rintro (h | ⟨h, h2⟩)
    · simp only [h]
    · simp only [h, h2]
  · intro h h2; simp only [h, h2, Monitor.addTick]
  · intro h h2; simp only [h, h2, Monitor.openWindow]
  · intro h h2; simp [h, h2, Monitor.openWindow, Monitor.addTick]

end Sys2Proof.Machine
end

