-- ==== Sys2Proof/Laws/Takes.lean ====
section
/-! SUPPORT. What a boundary makes of a take list, item by item (R72 to R77). -/

set_option Elab.async false

namespace Sys2Proof.Machine

theorem destItem_inj {d d' : Fin 96} : destItem d = destItem d' ↔ d = d' := by simp [destItem, Fin.ext_iff]
theorem planItem_inj {d d' : Fin 16} : planItem d = planItem d' ↔ d = d' := by simp [planItem, Fin.ext_iff]
theorem destItem_ne {d : Fin 96} {g : Fin 16} : destItem d ≠ planItem g := by
  simp [destItem, planItem, Fin.ext_iff]
  omega

theorem barred_none {s : State} {it l} (h : FreeFor s it l) : s.barredBy it l = none := by
  rcases h with h | h <;> simp [State.barredBy, h]

theorem barred_some {s : State} {it l} (h : ¬ FreeFor s it l) : ∃ o, s.barredBy it l = some o := by
  simp only [FreeFor, not_or] at h
  cases ho : s.owners.get it with
  | none => exact absurd ho h.1
  | some o => exact ⟨o, by simp only [State.barredBy, ho]; rw [if_neg]; intro hc; exact h.2 (by rw [ho, hc])⟩

theorem trigger_xfade (s : State) (d d') : ((s.trigger d).engine.get d').xfade = (s.engine.get d').xfade := by
  unfold State.trigger; split
  · simp; split <;> rfl
  · rfl

theorem triggerAll_xfade (ds : List (Fin 96)) : ∀ (s : State) d', ((s.triggerAll ds).engine.get d').xfade =
    (s.engine.get d').xfade := by
  induction ds with
  | nil => intro s d'; rfl
  | cons x xs ih =>
    intro s d'
    exact (ih (s.trigger x) d').trans (trigger_xfade _ _ _)

theorem enterEmbed_xfade (s : State) (g d) : ((s.enterEmbed g).engine.get d).xfade = (s.engine.get d).xfade := by
  unfold State.enterEmbed; split
  · rfl
  · rw [triggerAll_xfade]; rfl

theorem applyMode_xfade (s : State) (g m d) : ((s.applyMode g m).engine.get d).xfade = (s.engine.get d).xfade := by
  unfold State.applyMode
  split
  · rfl
  · split
    · split
      · rw [enterEmbed_xfade]
      · rfl
    · split <;> rfl

/-- R77: the plan after an application. -/
theorem applyMode_plan (s : State) (g m) : (s.applyMode g m).plan = s.plan.set g m := by
  have he : ∀ (u : State), (u.enterEmbed g).plan = u.plan := by intro u; exact (keeps_enterEmbed g).plan
  unfold State.applyMode
  split
  · next h => exact (Bank.set_get_self _ _ h).symm
  · split
    · split
      · rw [he]
      · rfl
    · split <;> rfl

/-- R75, R95: the crossfade after an application. -/
theorem apply_xfade (st : DestState) (old new : Entry) : (st.apply old new).xfade
    = crossfadeAfter old new st.xfade := by
  unfold DestState.apply crossfadeAfter
  split
  · rfl
  · have : sameSound old new = true ↔ (old.primary = new.primary ∧ old.secondary = new.secondary ∧ old.gain = new.gain
      ∧ old.invert = new.invert ∧ old.delay = new.delay) := by simp [sameSound]; tauto
    by_cases h : sameSound old new = true
    · rw [if_pos h, if_pos (this.mp h)]
    · rw [if_neg h, if_neg (fun hc => h (this.mpr hc))]
      split <;> rfl

/-- R72, R73: the three results of a destination item. -/
theorem dealItem_dest (s : State) (x : TakeItem) (d e) (hx : x.body = .dest d e) :
    (¬ FreeFor s (destItem d) x.stager → ∃ o, s.dealItem x = (s, .refused o))
    ∧ (FreeFor s (destItem d) x.stager → (s.engine.get d).crossfading = true → s.dealItem x = (s, .held))
    ∧ (FreeFor s (destItem d) x.stager → (s.engine.get d).crossfading = false → s.dealItem x = (s.applyEntry d e,
        .applied)) := by
  have hit : x.body.item = destItem d := by rw [hx]; rfl
  simp only [State.dealItem, hit]
  refine ⟨?_, ?_, ?_⟩
  · intro h; obtain ⟨o, ho⟩ := barred_some h; exact ⟨o, by simp only [ho]⟩
  · intro h h2; simp only [barred_none h, hx, h2, if_true]
  · intro h h2; simp only [barred_none h, hx, h2]; rfl

/-- R72, R77: the three results of a plan group item. -/
theorem dealItem_plan (s : State) (x : TakeItem) (g m) (hx : x.body = .plan g m) :
    (¬ FreeFor s (planItem g) x.stager → ∃ o, s.dealItem x = (s, .refused o))
    ∧ (FreeFor s (planItem g) x.stager → s.dealItem x = (s.applyMode g m, .applied)) := by
  have hit : x.body.item = planItem g := by rw [hx]; rfl
  simp only [State.dealItem, hit]
  refine ⟨?_, ?_⟩
  · intro h; obtain ⟨o, ho⟩ := barred_some h; exact ⟨o, by simp only [ho]⟩
  · intro h; simp only [barred_none h, hx]

/-- An item for another target leaves a destination alone. -/
theorem dealItem_other (s : State) (x : TakeItem) (d : Fin 96) (h : x.body.item ≠ destItem d) :
    (s.dealItem x).1.live.get d = s.live.get d ∧ ((s.dealItem x).1.engine.get d).xfade = (s.engine.get d).xfade := by
  unfold State.dealItem
  split
  · exact ⟨rfl, rfl⟩
  · split
    · next d' e hb =>
      have : d' ≠ d := by intro hc; apply h; rw [hb, hc]; rfl
      split
      · exact ⟨rfl, rfl⟩
      · simp [State.applyEntry, this]
    · next g m hb => exact ⟨by rw [(keeps_applyMode _ _).live], applyMode_xfade _ _ _ _⟩

theorem dealItem_otherPlan (s : State) (x : TakeItem) (g : Fin 16) (h : x.body.item ≠ planItem g) :
    (s.dealItem x).1.plan.get g = s.plan.get g := by
  unfold State.dealItem
  split
  · rfl
  · split
    · split <;> rfl
    · next g' m hb =>
      have : g' ≠ g := by intro hc; apply h; rw [hb, hc]; rfl
      simp [applyMode_plan, this]

theorem crossfading_congr {a b : DestState} (h : a.xfade = b.xfade) : a.crossfading
    = b.crossfading := by simp [DestState.crossfading, h]

/-- R72: an item whose target is not in the list is not among those that stay. -/
theorem dealItems_kept (xs : List TakeItem) : ∀ (s : State) it, (∀ x ∈ xs, x.body.item ≠ it) → findItem
    (s.dealItems xs).2.1 it = none := by
  induction xs with
  | nil => intro s it h; rfl
  | cons x xs ih =>
    intro s it h
    simp only [State.dealItems]
    have := ih (s.dealItem x).1 it (fun y hy => h y (by simp [hy]))
    split
    · simp only [findItem, List.find?] at *
      have hx := h x (by simp)
      rw [show (x.body.item == it) = false from by simpa using hx]
      exact this
    · exact this

/-- R72: a destination that is no target of the list keeps its live entry and crossfade. -/
theorem dealItems_other (xs : List TakeItem) : ∀ (s : State) d, (∀ x ∈ xs, x.body.item ≠ destItem d) →
    (s.dealItems xs).1.live.get d = s.live.get d ∧ ((s.dealItems xs).1.engine.get d).xfade =
        (s.engine.get d).xfade := by
  induction xs with
  | nil => intro s d h; exact ⟨rfl, rfl⟩
  | cons x xs ih =>
    intro s d h
    simp only [State.dealItems]
    have h1 := ih (s.dealItem x).1 d (fun y hy => h y (by simp [hy]))
    have h2 := dealItem_other s x d (h x (by simp))
    exact ⟨h1.1.trans h2.1, h1.2.trans h2.2⟩

/-- R72: a plan group that is no target of the list keeps its mode. -/
theorem dealItems_otherPlan (xs : List TakeItem) : ∀ (s : State) g, (∀ x ∈ xs, x.body.item ≠ planItem g) →
    (s.dealItems xs).1.plan.get g = s.plan.get g := by
  induction xs with
  | nil => intro s d h; rfl
  | cons x xs ih =>
    intro s d h
    simp only [State.dealItems]
    exact (ih (s.dealItem x).1 d (fun y hy => h y (by simp [hy]))).trans (dealItem_otherPlan s x d (h x (by simp)))

theorem freeFor_deal (s : State) (x : TakeItem) (it l) : FreeFor (s.dealItem x).1 it l ↔ FreeFor s it l := by
  unfold FreeFor; rw [(keeps_dealItem x).owners]

/-- R72 to R75: what a list with one item for each target makes of each of its destination items. -/
theorem dealItems_dest (xs : List TakeItem) : ∀ (s : State), (xs.map fun x => x.body.item).Nodup → ∀ x ∈ xs, ∀ d e,
    x.body = .dest d e →
    (¬ FreeFor s (destItem d) x.stager → (s.dealItems xs).1.live.get d = s.live.get d ∧ findItem
        (s.dealItems xs).2.1 (destItem d) = none)
    ∧ (FreeFor s (destItem d) x.stager → (s.engine.get d).crossfading = true →
          (s.dealItems xs).1.live.get d = s.live.get d ∧ findItem (s.dealItems xs).2.1 (destItem d)
              = some { x with held := true })
    ∧ (FreeFor s (destItem d) x.stager → (s.engine.get d).crossfading = false →
          (s.dealItems xs).1.live.get d = e ∧ findItem (s.dealItems xs).2.1 (destItem d) = none
          ∧ ((s.dealItems xs).1.engine.get d).xfade = crossfadeAfter (s.live.get d) e (s.engine.get d).xfade) := by
  induction xs with
  | nil => intro s _ x hx; simp at hx
  | cons y ys ih =>
    intro s hnd x hx d e hb
    simp only [List.map_cons, List.nodup_cons, List.mem_map, not_exists, not_and] at hnd
    simp only [State.dealItems]
    have hbi : x.body.item = destItem d := by rw [hb]; rfl
    rcases List.mem_cons.mp hx with rfl | hx
    · have hne : ∀ z ∈ ys, z.body.item ≠ destItem d := fun z hz hc => hnd.1 z hz (hc.trans hbi.symm)
      obtain ⟨o1, o2⟩ := dealItems_other ys (s.dealItem x).1 d hne
      have o3 := dealItems_kept ys (s.dealItem x).1 (destItem d) hne
      obtain ⟨c1, c2, c3⟩ := dealItem_dest s x d e hb
      refine ⟨?_, ?_, ?_⟩
      · intro hf
        obtain ⟨o, k⟩ := c1 hf
        rw [k] at o1 o3 ⊢; exact ⟨o1, o3⟩
      · intro hf hc
        have k := c2 hf hc
        rw [o1, k]
        refine ⟨rfl, ?_⟩
        simp [findItem, hbi]
      · intro hf hc
        have k := c3 hf hc
        rw [o1, o2]
        refine ⟨by rw [k]; simp [State.applyEntry], ?_, ?_⟩
        · rw [k] at o3 ⊢; exact o3
        · rw [k]; simp [State.applyEntry, apply_xfade]
    · have hyx : y.body.item ≠ destItem d := fun hc => hnd.1 x hx (hbi.trans hc.symm)
      obtain ⟨p1, p2⟩ := dealItem_other s y d hyx
      have := ih (s.dealItem y).1 hnd.2 x hx d e hb
      rw [freeFor_deal, p1, p2, crossfading_congr p2] at this
      have hfi : ∀ r : List TakeItem, findItem (if (s.dealItem y).2
          = .held then { y with held := true } :: r else r) (destItem d) = findItem r (destItem d) := by
        intro r; split
        · simp only [findItem, List.find?]
          rw [show (y.body.item == destItem d) = false from by simpa using hyx]
        · rfl
      simp only [hfi]
      exact this

/-- R72, R77: what it makes of each of its plan group items. -/
theorem dealItems_plan (xs : List TakeItem) : ∀ (s : State), (xs.map fun x => x.body.item).Nodup → ∀ x ∈ xs, ∀ g m,
    x.body = .plan g m →
    findItem (s.dealItems xs).2.1 (planItem g) = none
    ∧ (FreeFor s (planItem g) x.stager → (s.dealItems xs).1.plan.get g = m)
    ∧ (¬ FreeFor s (planItem g) x.stager → (s.dealItems xs).1.plan.get g = s.plan.get g) := by
  induction xs with
  | nil => intro s _ x hx; simp at hx
  | cons y ys ih =>
    intro s hnd x hx d e hb
    simp only [List.map_cons, List.nodup_cons, List.mem_map, not_exists, not_and] at hnd
    simp only [State.dealItems]
    have hbi : x.body.item = planItem d := by rw [hb]; rfl
    rcases List.mem_cons.mp hx with rfl | hx
    · have hne : ∀ z ∈ ys, z.body.item ≠ planItem d := fun z hz hc => hnd.1 z hz (hc.trans hbi.symm)
      have o1 := dealItems_otherPlan ys (s.dealItem x).1 d hne
      have o3 := dealItems_kept ys (s.dealItem x).1 (planItem d) hne
      obtain ⟨c1, c2⟩ := dealItem_plan s x d e hb
      have hnh : (s.dealItem x).2 ≠ .held := by
        by_cases hf : FreeFor s (planItem d) x.stager
        · rw [c2 hf]; simp
        · obtain ⟨o, k⟩ := c1 hf
          rw [k]; simp
      rw [if_neg hnh]
      refine ⟨o3, ?_, ?_⟩
      · intro hf; rw [o1, c2 hf, applyMode_plan]; simp
      · intro hf; obtain ⟨o, k⟩ := c1 hf; rw [o1, k]
    · have hyx : y.body.item ≠ planItem d := fun hc => hnd.1 x hx (hbi.trans hc.symm)
      have p1 := dealItem_otherPlan s y d hyx
      have := ih (s.dealItem y).1 hnd.2 x hx d e hb
      rw [freeFor_deal, p1] at this
      have hfi : ∀ r : List TakeItem, findItem (if (s.dealItem y).2
          = .held then { y with held := true } :: r else r) (planItem d) = findItem r (planItem d) := by
        intro r; split
        · simp only [findItem, List.find?]
          rw [show (y.body.item == planItem d) = false from by simpa using hyx]
        · rfl
      rw [hfi]
      exact this

/-- R72, R78: the parts of a boundary that its notices do not touch. -/
theorem boundary_spec (s : State) (dom : Fin 5) :
    (s.boundary dom).live = (s.dealItems (s.takes.get dom)).1.live
      ∧ (s.boundary dom).plan = (s.dealItems (s.takes.get dom)).1.plan
      ∧ (s.boundary dom).engine = (s.dealItems (s.takes.get dom)).1.engine
      ∧ (s.boundary dom).takes = s.takes.set dom (s.dealItems (s.takes.get dom)).2.1
      ∧ (s.boundary dom).owners = s.owners := by
  refine ⟨?_, ?_, ?_, ?_, ?_⟩
  · simp [State.boundary]
  · simp [State.boundary]
  · simp [State.boundary]
  · simp [State.boundary, (keeps_dealItems (s.takes.get dom) s).takes]
  · simp [State.boundary, (keeps_dealItems (s.takes.get dom) s).owners]

/-- A boundary with an empty list changes nothing. -/
theorem boundary_nil {s : State} {dom : Fin 5} (h : s.takes.get dom = []) : s.boundary dom = s := by
  simp only [State.boundary, h, State.dealItems]
  rw [State.setTakes_eq_self _ _ h]
  exact raiseAll_nil s

end Sys2Proof.Machine
end

