-- ==== Sys2Proof/Laws/TakeResults.lean ====
section
/-! SUPPORT. What a boundary makes of triggers, monitors and groups, and the notices it raises (R72 to R78). -/

set_option Elab.async false

namespace Sys2Proof.Machine

/-! ### Triggers -/

/-- R129: a group's entry into EMBED, at its destinations. -/
theorem enterEmbed_engine (s : State) (g : Fin 16) (d : Fin 96) : (s.enterEmbed g).engine.get d
    = if (s.embed.get g).state ≠ .flowing ∧ d ∈ groupDests g ∧ (s.live.get d).mode = .pcm then
        { s.engine.get d with trigger := true } else s.engine.get d := by
  unfold State.enterEmbed
  split
  · next h => simp [h]
  · next h =>
    generalize hu : ((s.updEmbed g Store.toFlowing).updCount g fun _ => .reset) = u
    have h1 : u.live = s.live := by rw [← hu]; rfl
    have h2 : u.engine = s.engine := by rw [← hu]; rfl
    rw [triggerAll_engine, h1, h2]
    by_cases h2 : d ∈ groupDests g ∧ (s.live.get d).mode = .pcm
    · rw [if_pos h2, if_pos ⟨h, h2⟩]
    · rw [if_neg h2, if_neg fun hc => h2 hc.2]

/-- R129: a group's entry into EMBED, at the stores. -/
theorem enterEmbed_embed (s : State) (g g' : Fin 16) : (s.enterEmbed g).embed.get g'
    = if g = g' ∧ (s.embed.get g').state ≠ .flowing then { s.embed.get g' with state := .flowing, reads := 0 }
      else s.embed.get g' := by
  unfold State.enterEmbed
  split
  · next h => rw [if_neg]; rintro ⟨rfl, h2⟩; exact h2 h
  · next h =>
    rw [(keeps_triggerAll _).embed]
    by_cases e : g = g'
    · subst e; simp [h, Store.toFlowing]
    · simp [e]

theorem enterEmbed_counts (s : State) (g g' : Fin 16) : (s.enterEmbed g).embCounts.get g'
    = if g = g' ∧ (s.embed.get g').state ≠ .flowing then { next := 0, owed := 0 } else s.embCounts.get g' := by
  unfold State.enterEmbed
  split
  · next h => rw [if_neg]; rintro ⟨rfl, h2⟩; exact h2 h
  · next h =>
    rw [(keeps_triggerAll _).embCounts]
    by_cases e : g = g'
    · subst e; simp [h, EmbedCount.reset]
    · simp [e]

/-! ### Results -/

/-- What a boundary makes of an item. -/
def verdictOf (s : State) (x : TakeItem) : Deal :=
  match refuser s x with
  | some o => .refused o
  | none => if holdsBack s x then .held else .applied

theorem dealItem_result (s : State) (x : TakeItem) : (s.dealItem x).2 = verdictOf s x := by
  unfold State.dealItem verdictOf
  rw [show s.barredBy x.body.item x.stager = refuser s x from rfl]
  cases refuser s x with
  | some o => rfl
  | none =>
    obtain ⟨b, t, st, h⟩ := x
    cases b with
    | dest d e => simp only [holdsBack]; by_cases hc : (s.engine.get d).crossfading = true <;> simp [hc]
    | plan g m => rfl

theorem refuser_deal (s : State) (x y : TakeItem) : refuser (s.dealItem x).1 y = refuser s y := by
  unfold refuser; rw [(keeps_dealItem x).owners]

theorem holdsBack_deal (s : State) (x y : TakeItem) (h : x.body.item ≠ y.body.item) :
    holdsBack (s.dealItem x).1 y = holdsBack s y := by
  unfold holdsBack
  split
  · next d e hb =>
    exact crossfading_congr (dealItem_other s x d (by rw [hb] at h; exact h)).2
  · rfl

theorem verdict_deal (s : State) (x y : TakeItem) (h : x.body.item ≠ y.body.item) :
    verdictOf (s.dealItem x).1 y = verdictOf s y := by
  unfold verdictOf; rw [refuser_deal, holdsBack_deal s x y h]

theorem dealItems_results (xs : List TakeItem) : ∀ s : State, (xs.map fun x => x.body.item).Nodup →
    (s.dealItems xs).2.2 = xs.map fun x => (x, verdictOf s x) := by
  induction xs with
  | nil => intro s _; rfl
  | cons x xs ih =>
    intro s h
    simp only [List.map_cons, List.nodup_cons, List.mem_map, not_exists, not_and] at h
    simp only [State.dealItems, List.map_cons, dealItem_result]
    rw [ih _ h.2]
    congr 1
    apply List.map_congr_left
    intro y hy
    rw [verdict_deal s x y fun hc => h.1 y hy hc.symm]

theorem countDeals_map (s : State) (xs : List TakeItem) (t : BitVec 4) (r : Deal) :
    countDeals (xs.map fun x => (x, verdictOf s x)) t r = xs.countP fun x => x.tag == t && verdictOf s x == r := by
  simp [countDeals, List.countP_eq_length_filter, List.filter_map, Function.comp_def]

theorem refused_map (s : State) (xs : List TakeItem) :
    refusedNotices (xs.map fun x => (x, verdictOf s x)) = xs.flatMap fun x =>
        match refuser s x with
        | some o => [(.takeRefused, x.body.item.val, x.tag.toNat + lineCode x.stager * 16 + lineCode o * 64)]
        | none => [] := by
  induction xs with
  | nil => rfl
  | cons x xs ih =>
    simp only [refusedNotices] at ih
    rw [List.flatMap_cons, ← ih]
    simp only [refusedNotices, List.map_cons, List.filterMap_cons, verdictOf]
    cases refuser s x with
    | some o => rfl
    | none => cases holdsBack s x <;> rfl

/-- R73, R78: the notices of a boundary, from the state that it finds. -/
theorem boundary_notices (s : State) (dom : Fin 5) (h : takeListOk dom (s.takes.get dom)) :
    refusedNotices (s.dealItems (s.takes.get dom)).2.2 ++ doneNotices dom (s.dealItems (s.takes.get dom)).2.2
      = boundaryNotices s dom := by
  rw [dealItems_results _ _ h.2]
  unfold boundaryNotices
  rw [refused_map]
  congr 1
  generalize s.takes.get dom = xs
  unfold doneNotices
  simp only [countDeals_map]
  have hv1 : ∀ x, (verdictOf s x == .applied) = ((refuser s x == none) && !holdsBack s x) := by
    intro x; unfold verdictOf; cases refuser s x with
    | some o => rfl
    | none => cases holdsBack s x <;> rfl
  have hv2 : ∀ x, (verdictOf s x == .held) = ((refuser s x == none) && holdsBack s x) := by
    intro x; unfold verdictOf; cases refuser s x with
    | some o => rfl
    | none => cases holdsBack s x <;> rfl
  simp only [hv1, hv2]
  have ha : ∀ (k : Nat), k < 16 → ∀ (q : TakeItem → Bool), (xs.countP fun x => x.tag == BitVec.ofNat 4 k &&
      (refuser s x == none && q x))
     = (xs.filter fun x => x.tag.toNat = k ∧ refuser s x = none).countP q := by
    intro k hk q
    rw [List.countP_filter]
    congr 1; funext x
    have : (x.tag == BitVec.ofNat 4 k) = decide (x.tag.toNat = k) := by
      rw [beq_eq_decide]; congr 1
      rw [eq_iff_iff]; constructor
      · intro h; rw [h]; simp; omega
      · intro h; apply BitVec.eq_of_toNat_eq; simp [h]; omega
    rw [this, Bool.decide_and, beq_eq_decide, Bool.and_comm (q x), Bool.and_assoc]
  have hz : ∀ ys : List TakeItem, (ys.countP (fun x => !holdsBack s x) + ys.countP (holdsBack s) = ys.length) := by
    intro ys
    have := List.length_eq_countP_add_countP (holdsBack s) (l := ys)
    have h2 : ys.countP (fun x => !holdsBack s x) = ys.countP (fun a => decide ¬holdsBack s a = true) := by
      congr 1; funext a; cases holdsBack s a <;> rfl
    omega
  unfold allTags
  rw [List.filter_map, List.map_map]
  have key : ∀ l : List Nat, (∀ k ∈ l, k < 16) → List.map ((fun t : BitVec 4 => ((NoticeKind.takeDone, t.toNat,
      dom.val + (xs.countP fun x => x.tag == t && (refuser s x == none && !holdsBack s x)) * 8 + (xs.countP fun x
      => x.tag == t && (refuser s x == none && holdsBack s x)) * 512) : Pending)) ∘ BitVec.ofNat 4)
        (List.filter ((fun t => ((xs.countP fun x => x.tag == t && (refuser s x == none && !holdsBack s x)) +
            (xs.countP fun x => x.tag == t && (refuser s x == none && holdsBack s x))) != 0) ∘ BitVec.ofNat 4) l)
      = l.flatMap fun tag =>
          let mine := xs.filter fun x => x.tag.toNat = tag ∧ refuser s x = none
          if mine = [] then []
          else [(.takeDone, tag, dom.val + (mine.countP fun x => !holdsBack s x) * 8 + (mine.countP
              (holdsBack s)) * 512)] := by
    intro l
    induction l with
    | nil => intro _; rfl
    | cons k l ih =>
      intro hl
      have hk := hl k (by simp)
      rw [List.flatMap_cons, ← ih (fun j hj => hl j (by simp [hj]))]
      have e1 := ha k hk (fun x => !holdsBack s x); have e2 := ha k hk (holdsBack s)
      have hkk : (BitVec.ofNat 4 k).toNat = k := by simp; omega
      rw [List.filter_cons]
      simp only [Function.comp_apply, e1, e2, hz]
      by_cases hm : (xs.filter fun x => x.tag.toNat = k ∧ refuser s x = none) = []
      · rw [if_pos hm, hm]; rfl
      · rw [if_neg hm, if_pos (by simpa using hm)]
        simp only [List.map_cons, Function.comp_apply, e1, e2, hkk]
        rfl
  exact key (List.range 16) (by simp)

/-! ### Monitors, triggers and groups -/

theorem markChanged_eq (m : Monitor) : m.markChanged = changedAfter m := rfl

/-- R76, R142: an item for another target leaves a destination's monitor alone, and its engine but for a trigger. -/
theorem dealItem_untouched (s : State) (x : TakeItem) (d : Fin 96) (h : x.body.item ≠ destItem d) :
    (s.dealItem x).1.monitors.get d = s.monitors.get d
      ∧ ((s.dealItem x).1.engine.get d = s.engine.get d
        ∨ (s.dealItem x).1.engine.get d = { s.engine.get d with trigger := true }) := by
  unfold State.dealItem
  split
  · exact ⟨rfl, .inl rfl⟩
  · split
    · next d' e hb =>
      have hne : d' ≠ d := by intro hc; apply h; rw [hb, hc]; rfl
      split
      · exact ⟨rfl, .inl rfl⟩
      · simp [State.applyEntry, hne]
    · next g m hb =>
      refine ⟨by rw [(keeps_applyMode _ _).monitors], ?_⟩
      unfold State.applyMode
      split
      · exact .inl rfl
      · split
        · split
          · rw [enterEmbed_engine]
            split
            · exact .inr rfl
            · exact .inl rfl
          · exact .inl rfl
        · split <;> exact .inl rfl

theorem dealItems_untouched (xs : List TakeItem) : ∀ (s : State) d, (∀ x ∈ xs, x.body.item ≠ destItem d) →
    (s.dealItems xs).1.monitors.get d = s.monitors.get d
      ∧ ((s.dealItems xs).1.engine.get d = s.engine.get d
        ∨ (s.dealItems xs).1.engine.get d = { s.engine.get d with trigger := true }) := by
  induction xs with
  | nil => intro s d h; exact ⟨rfl, .inl rfl⟩
  | cons x xs ih =>
    intro s d h
    simp only [State.dealItems]
    obtain ⟨h1, h2⟩ := ih (s.dealItem x).1 d (fun y hy => h y (by simp [hy]))
    obtain ⟨h3, h4⟩ := dealItem_untouched s x d (h x (by simp))
    refine ⟨h1.trans h3, ?_⟩
    rcases h2 with h2 | h2 <;> rcases h4 with h4 | h4 <;> simp [h2, h4]

/-- R142: what a list makes of the monitor of a destination that is the target of an item. -/
theorem dealItems_monitor (xs : List TakeItem) : ∀ (s : State), (xs.map fun x => x.body.item).Nodup → ∀ x ∈ xs, ∀ d e,
    x.body = .dest d e →
    (FreeFor s (destItem d) x.stager → (s.engine.get d).crossfading = false →
      (s.dealItems xs).1.monitors.get d = changedAfter (s.monitors.get d))
    ∧ (¬ FreeFor s (destItem d) x.stager ∨ (s.engine.get d).crossfading = true →
      (s.dealItems xs).1.monitors.get d = s.monitors.get d) := by
  induction xs with
  | nil => intro s _ x hx; simp at hx
  | cons y ys ih =>
    intro s hnd x hx d e hb
    simp only [List.map_cons, List.nodup_cons, List.mem_map, not_exists, not_and] at hnd
    simp only [State.dealItems]
    have hbi : x.body.item = destItem d := by rw [hb]; rfl
    rcases List.mem_cons.mp hx with rfl | hx
    · have hne : ∀ z ∈ ys, z.body.item ≠ destItem d := fun z hz hc => hnd.1 z hz (hc.trans hbi.symm)
      rw [(dealItems_untouched ys (s.dealItem x).1 d hne).1]
      obtain ⟨c1, c2, c3⟩ := dealItem_dest s x d e hb
      refine ⟨fun hf hc => by rw [c3 hf hc]; simp [State.applyEntry, markChanged_eq], fun h => ?_⟩
      by_cases hf : FreeFor s (destItem d) x.stager
      · rw [c2 hf (h.resolve_left fun hn => hn hf)]
      · obtain ⟨o, k⟩ := c1 hf
        rw [k]
    · have hyx : y.body.item ≠ destItem d := fun hc => hnd.1 x hx (hbi.trans hc.symm)
      have := ih (s.dealItem y).1 hnd.2 x hx d e hb
      rw [(dealItem_untouched s y d hyx).1, crossfading_congr (dealItem_other s y d hyx).2, freeFor_deal] at this
      exact this

/-- R77: the store and the counts of a group after a change of its mode. -/
theorem applyMode_group (s : State) (g : Fin 16) (m : PlanMode) :
    (s.applyMode g m).embed.get g
      = (if s.plan.get g ≠ m ∧ m = .embed ∧ s.canEmbed (groupLane g) = true ∧ (s.embed.get g).state ≠ .flowing then
          { s.embed.get g with state := .flowing, reads := 0 }
        else if s.plan.get g = .embed ∧ m ≠ .embed then (s.embed.get g).toHolding else s.embed.get g)
    ∧ (s.applyMode g m).embCounts.get g
      = (if s.plan.get g ≠ m ∧ m = .embed ∧ s.canEmbed (groupLane g) = true ∧ (s.embed.get g).state ≠ .flowing then
          { next := 0, owed := 0 }
        else if s.plan.get g = .embed ∧ m ≠ .embed then { s.embCounts.get g with owed := 0 }
        else s.embCounts.get g) := by
  unfold State.applyMode
  by_cases h1 : s.plan.get g = m
  · rw [if_pos h1, if_neg fun h => h.1 h1, if_neg fun h => h.2 (h1.symm.trans h.1), if_neg fun h => h.1 h1,
      if_neg fun h => h.2 (h1.symm.trans h.1)]
    exact ⟨rfl, rfl⟩
  · rw [if_neg h1]
    by_cases h2 : m = .embed
    · subst h2
      by_cases h3 : s.canEmbed (groupLane g) = true
      · simp only [if_true, h3, enterEmbed_embed, enterEmbed_counts]
        by_cases h4 : (s.embed.get g).state = .flowing
        · simp [h4]
        · simp [h4, h1]
      · simp [h3]
    · by_cases h3 : s.plan.get g = .embed
      · simp [h2, h3, State.leaveEmbed]
      · simp [h2, h3]

/-- R77: a change of a group's mode leaves other groups alone. -/
theorem applyMode_group_other (s : State) {g g' : Fin 16} (m : PlanMode) (h : g ≠ g') :
    (s.applyMode g m).embed.get g' = s.embed.get g' ∧ (s.applyMode g m).embCounts.get g' = s.embCounts.get g' := by
  unfold State.applyMode
  split
  · exact ⟨rfl, rfl⟩
  · split
    · split
      · rw [enterEmbed_embed, enterEmbed_counts]; simp [h]
      · exact ⟨rfl, rfl⟩
    · split
      · simp [State.leaveEmbed, h]
      · exact ⟨rfl, rfl⟩

theorem dealItem_group_other (s : State) (x : TakeItem) (g : Fin 16) (h : x.body.item ≠ planItem g) :
    (s.dealItem x).1.embed.get g = s.embed.get g ∧ (s.dealItem x).1.embCounts.get g = s.embCounts.get g := by
  unfold State.dealItem
  split
  · exact ⟨rfl, rfl⟩
  · split
    · split <;> exact ⟨rfl, rfl⟩
    · next g' m hb =>
      exact applyMode_group_other s m fun hc => h (by rw [hb, hc]; rfl)

theorem dealItems_group_other (xs : List TakeItem) : ∀ (s : State) g, (∀ x ∈ xs, x.body.item ≠ planItem g) →
    (s.dealItems xs).1.embed.get g = s.embed.get g ∧ (s.dealItems xs).1.embCounts.get g = s.embCounts.get g := by
  induction xs with
  | nil => intro s g h; exact ⟨rfl, rfl⟩
  | cons x xs ih =>
    intro s g h
    simp only [State.dealItems]
    obtain ⟨h1, h2⟩ := ih (s.dealItem x).1 g (fun y hy => h y (by simp [hy]))
    obtain ⟨h3, h4⟩ := dealItem_group_other s x g (h x (by simp))
    exact ⟨h1.trans h3, h2.trans h4⟩

theorem canEmbed_deal (s : State) (x : TakeItem) (l : Fin 4) : (s.dealItem x).1.canEmbed l = s.canEmbed l := by
  unfold State.canEmbed State.running; rw [(keeps_dealItem x).lanes, (keeps_dealItem x).builders]

/-- R77: what a list makes of the store and the counts of a group. The mode is the one that the group then has. -/
theorem dealItems_group (xs : List TakeItem) : ∀ (s : State) (g : Fin 16), (xs.map fun x => x.body.item).Nodup →
    ∀ m, (s.dealItems xs).1.plan.get g = m →
    (s.dealItems xs).1.embed.get g
      = (if s.plan.get g ≠ m ∧ m = .embed ∧ s.canEmbed (groupLane g) = true ∧ (s.embed.get g).state ≠ .flowing then
          { s.embed.get g with state := .flowing, reads := 0 }
        else if s.plan.get g = .embed ∧ m ≠ .embed then (s.embed.get g).toHolding else s.embed.get g)
    ∧ (s.dealItems xs).1.embCounts.get g
      = (if s.plan.get g ≠ m ∧ m = .embed ∧ s.canEmbed (groupLane g) = true ∧ (s.embed.get g).state ≠ .flowing then
          { next := 0, owed := 0 }
        else if s.plan.get g = .embed ∧ m ≠ .embed then { s.embCounts.get g with owed := 0 }
        else s.embCounts.get g) := by
  induction xs with
  | nil =>
    intro s g _ m hm
    have hm : s.plan.get g = m := hm
    have h1 : ¬ (s.plan.get g ≠ m ∧ m = .embed ∧ s.canEmbed (groupLane g) = true ∧
        (s.embed.get g).state ≠ .flowing) :=
      fun h => h.1 hm
    have h2 : ¬ (s.plan.get g = .embed ∧ m ≠ .embed) := fun h => h.2 (hm.symm.trans h.1)
    rw [if_neg h1, if_neg h2, if_neg h1, if_neg h2]
    exact ⟨rfl, rfl⟩
  | cons x xs ih =>
    intro s g hnd m hm
    simp only [List.map_cons, List.nodup_cons, List.mem_map, not_exists, not_and] at hnd
    simp only [State.dealItems] at hm ⊢
    by_cases hx : x.body.item = planItem g
    · have hne : ∀ z ∈ xs, z.body.item ≠ planItem g := fun z hz hc => hnd.1 z hz (hc.trans hx.symm)
      rw [dealItems_otherPlan xs _ g hne] at hm
      obtain ⟨h1, h2⟩ := dealItems_group_other xs (s.dealItem x).1 g hne
      rw [h1, h2]
      obtain ⟨m', hb⟩ : ∃ m', x.body = .plan g m' := by
        cases hb : x.body with
        | dest d e => rw [hb] at hx; exact absurd hx destItem_ne
        | plan g' m' => rw [hb] at hx; exact ⟨m', by rw [planItem_inj.mp hx]⟩
      obtain ⟨c1, c2⟩ := dealItem_plan s x g m' hb
      by_cases hf : FreeFor s (planItem g) x.stager
      · rw [c2 hf] at hm ⊢
        have : m' = m := by simpa [applyMode_plan] using hm
        subst this
        exact applyMode_group s g m'
      · obtain ⟨o, k⟩ := c1 hf
        rw [k] at hm ⊢
        exact ih' s g m hm
    · obtain ⟨h1, h2⟩ := dealItem_group_other s x g hx
      have := ih (s.dealItem x).1 g hnd.2 m hm
      rw [h1, h2, dealItem_otherPlan s x g hx, canEmbed_deal] at this
      exact this
where
  ih' (s : State) (g : Fin 16) (m : PlanMode) (hm : s.plan.get g = m) :
    s.embed.get g
      = (if s.plan.get g ≠ m ∧ m = .embed ∧ s.canEmbed (groupLane g) = true ∧ (s.embed.get g).state ≠ .flowing then
          { s.embed.get g with state := .flowing, reads := 0 }
        else if s.plan.get g = .embed ∧ m ≠ .embed then (s.embed.get g).toHolding else s.embed.get g)
    ∧ s.embCounts.get g
      = (if s.plan.get g ≠ m ∧ m = .embed ∧ s.canEmbed (groupLane g) = true ∧ (s.embed.get g).state ≠ .flowing then
          { next := 0, owed := 0 }
        else if s.plan.get g = .embed ∧ m ≠ .embed then { s.embCounts.get g with owed := 0 }
        else s.embCounts.get g) := by
    have h1 : ¬ (s.plan.get g ≠ m ∧ m = .embed ∧ s.canEmbed (groupLane g) = true ∧
        (s.embed.get g).state ≠ .flowing) :=
      fun h => h.1 hm
    have h2 : ¬ (s.plan.get g = .embed ∧ m ≠ .embed) := fun h => h.2 (hm.symm.trans h.1)
    rw [if_neg h1, if_neg h2, if_neg h1, if_neg h2]
    exact ⟨rfl, rfl⟩

/-- R96, R112: a change from PCM to PCM keeps a trigger. -/
theorem apply_trigger {st : DestState} {old new : Entry} (h1 : old.mode = .pcm) (h2 : new.mode = .pcm) :
    (st.apply old new).trigger = st.trigger := by
  unfold DestState.apply
  rw [if_neg (by simp [h1, h2])]
  split
  · rfl
  · split <;> rfl

/-- An item leaves a destination's trigger set, unless it makes it DATA or finds it DATA. -/
theorem dealItem_trigger (s : State) (x : TakeItem) (d : Fin 96) (h : (s.engine.get d).trigger = true)
    (h1 : (s.live.get d).mode = .pcm) (h2 : ((s.dealItem x).1.live.get d).mode = .pcm) :
    ((s.dealItem x).1.engine.get d).trigger = true := by
  by_cases hx : x.body.item = destItem d
  · obtain ⟨e, hb⟩ : ∃ e, x.body = .dest d e := by
      cases hb : x.body with
      | plan g m => rw [hb] at hx; exact absurd hx.symm destItem_ne
      | dest d' e => rw [hb] at hx; exact ⟨e, by rw [destItem_inj.mp hx]⟩
    obtain ⟨c1, c2, c3⟩ := dealItem_dest s x d e hb
    by_cases hf : FreeFor s (destItem d) x.stager
    · by_cases hc : (s.engine.get d).crossfading = false
      · rw [c3 hf hc] at h2 ⊢
        simp only [State.applyEntry, State.updMonitor_engine, State.updDest_engine, Bank.get_upd_self]
        rw [apply_trigger h1 (by simpa [State.applyEntry] using h2)]
        exact h
      · rw [c2 hf (by simpa using hc)]; exact h
    · obtain ⟨o, k⟩ := c1 hf
      rw [k]; exact h
  · rcases (dealItem_untouched s x d hx).2 with h3 | h3 <;> simp [h3, h]

/-- The live entry of a destination in the middle of a list is the one before or the one after. -/
theorem deal_between (s : State) (x : TakeItem) (xs : List TakeItem) (d : Fin 96)
    (hnd : ((x :: xs).map fun x => x.body.item).Nodup) :
    (s.dealItem x).1.live.get d = s.live.get d ∨ (s.dealItem x).1.live.get d =
        ((s.dealItem x).1.dealItems xs).1.live.get d := by
  simp only [List.map_cons, List.nodup_cons, List.mem_map, not_exists, not_and] at hnd
  by_cases hx : x.body.item = destItem d
  · right
    rw [(dealItems_other xs _ d fun z hz hc => hnd.1 z hz (hc.trans hx.symm)).1]
  · exact .inl (dealItem_other s x d hx).1

theorem dealItems_trigger (xs : List TakeItem) : ∀ (s : State) (d : Fin 96), (xs.map fun x => x.body.item).Nodup →
    (s.engine.get d).trigger = true → (s.live.get d).mode = .pcm → ((s.dealItems xs).1.live.get d).mode = .pcm →
    ((s.dealItems xs).1.engine.get d).trigger = true := by
  induction xs with
  | nil => intro s d _ h _ _; exact h
  | cons x xs ih =>
    intro s d hnd h h1 h2
    have hb := deal_between s x xs d hnd
    simp only [State.dealItems] at h2 ⊢
    have h3 : ((s.dealItem x).1.live.get d).mode = .pcm := by
      rcases hb with hb | hb <;> rw [hb] <;> assumption
    exact ih _ d (by simp at hnd; simpa using hnd.2) (dealItem_trigger s x d h h1 h3) h3 h2

/-- R77, R98: a list that brings a group into EMBED leaves a trigger at each of its destinations that is PCM before and
after it. -/
theorem dealItems_enter (xs : List TakeItem) : ∀ (s : State) (g : Fin 16) (d : Fin 96),
    (xs.map fun x => x.body.item).Nodup → s.plan.get g ≠ .embed → (s.dealItems xs).1.plan.get g = .embed →
    s.canEmbed (groupLane g) = true → (s.embed.get g).state ≠ .flowing → d ∈ groupDests g →
    (s.live.get d).mode = .pcm → ((s.dealItems xs).1.live.get d).mode = .pcm →
    ((s.dealItems xs).1.engine.get d).trigger = true := by
  induction xs with
  | nil => intro s g d _ h1 h2; exact absurd h2 h1
  | cons x xs ih =>
    intro s g d hnd h1 h2 h3 h4 h5 h6 h7
    have hb := deal_between s x xs d hnd
    have hnd' : (xs.map fun x => x.body.item).Nodup := by simp at hnd; simpa using hnd.2
    simp only [State.dealItems] at h2 h7 ⊢
    have hm : ((s.dealItem x).1.live.get d).mode = .pcm := by
      rcases hb with hb | hb <;> rw [hb] <;> assumption
    by_cases hx : x.body.item = planItem g
    · obtain ⟨m', hb'⟩ : ∃ m', x.body = .plan g m' := by
        cases hb : x.body with
        | dest d e => rw [hb] at hx; exact absurd hx destItem_ne
        | plan g' m' => rw [hb] at hx; exact ⟨m', by rw [planItem_inj.mp hx]⟩
      have hne : ∀ z ∈ xs, z.body.item ≠ planItem g := by
        simp only [List.map_cons, List.nodup_cons, List.mem_map, not_exists, not_and] at hnd
        exact fun z hz hc => hnd.1 z hz (hc.trans hx.symm)
      rw [dealItems_otherPlan xs _ g hne] at h2
      obtain ⟨c1, c2⟩ := dealItem_plan s x g m' hb'
      by_cases hf : FreeFor s (planItem g) x.stager
      · rw [c2 hf] at h2
        have : m' = .embed := by simpa [applyMode_plan] using h2
        subst this
        apply dealItems_trigger xs _ d hnd' _ hm h7
        rw [c2 hf]
        simp only [State.applyMode, if_neg h1, if_true, h3, enterEmbed_engine]
        rw [if_pos ⟨h4, h5, h6⟩]
      · obtain ⟨o, k⟩ := c1 hf
        rw [k] at h2; exact absurd h2 h1
    · obtain ⟨g1, g2⟩ := dealItem_group_other s x g hx
      refine ih _ g d hnd' ?_ h2 ?_ ?_ h5 hm h7
      · rw [dealItem_otherPlan s x g hx]; exact h1
      · rw [canEmbed_deal]; exact h3
      · rw [g1]; exact h4

end Sys2Proof.Machine
end

