-- ==== Sys2Proof/Laws/SwitchLine.lean ====
section
/-! SUPPORT. What a switch line finds, and what the builder and the track map make of it (R11, R72 to R78, R129 to
R134). -/

set_option Elab.async false

namespace Sys2Proof.Machine

theorem mem_four : ∀ c : Fin 4, c ∈ four := by decide

/-- R129: the stores and counts of a lane whose groups may enter EMBED. -/
theorem enterLane_group (s : State) (l : Fin 4) (h : s.canEmbed l = true) (c : Fin 4) :
    (s.enterLane l).embed.get (groupNo l c) = (if s.plan.get (groupNo l c) = .embed
        ∧ (s.embed.get (groupNo l c)).state ≠ .flowing then
        { s.embed.get (groupNo l c) with state := .flowing, reads := 0 } else s.embed.get (groupNo l c))
    ∧ (s.enterLane l).embCounts.get (groupNo l c) = (if s.plan.get (groupNo l c) = .embed
        ∧ (s.embed.get (groupNo l c)).state ≠ .flowing then
        { next := 0, owed := 0 } else s.embCounts.get (groupNo l c)) := by
  unfold State.enterLane
  rw [if_pos h]
  have key : ∀ (cs : List (Fin 4)) (u : State), cs.Nodup → u.plan = s.plan →
     ((cs.foldl (fun s g => if s.plan.get (groupNo l g) = .embed then s.enterEmbed (groupNo l g)
         else s) u).embed.get (groupNo l c)
      = if c ∈ cs ∧ s.plan.get (groupNo l c) = .embed ∧ (u.embed.get (groupNo l c)).state ≠ .flowing then
          { u.embed.get (groupNo l c) with state := .flowing, reads := 0 } else u.embed.get (groupNo l c))
     ∧ ((cs.foldl (fun s g => if s.plan.get (groupNo l g) = .embed then s.enterEmbed (groupNo l g)
         else s) u).embCounts.get (groupNo l c)
      = if c ∈ cs ∧ s.plan.get (groupNo l c) = .embed ∧ (u.embed.get (groupNo l c)).state ≠ .flowing then
          { next := 0, owed := 0 } else u.embCounts.get (groupNo l c)) := by
    intro cs
    induction cs with
    | nil => intro u _ _; simp
    | cons k ks ih =>
      intro u hnd hu
      simp only [List.nodup_cons] at hnd
      simp only [List.foldl_cons]
      by_cases hp : u.plan.get (groupNo l k) = .embed
      · rw [if_pos hp]
        have := ih (u.enterEmbed (groupNo l k)) hnd.2 (by rw [(keeps_enterEmbed _).plan, hu])
        rw [this.1, this.2]
        by_cases hk : k = c
        · subst hk
          rw [hu] at hp
          simp [hnd.1, enterEmbed_embed, enterEmbed_counts, hp]
        · have : groupNo l k ≠ groupNo l c := fun hc => hk ((groupNo_inj l k c).mp hc)
          simp [enterEmbed_embed, enterEmbed_counts, this, Ne.symm hk]
      · rw [if_neg hp]
        have := ih u hnd.2 hu
        rw [this.1, this.2]
        by_cases hk : k = c
        · subst hk; rw [hu] at hp; simp [hp]
        · simp [Ne.symm hk]
  have := key four s (by decide) rfl
  have hc := mem_four c
  simpa [hc] using this

/-- R129: the engine after them: a destination gets at most a trigger. -/
theorem enterLane_engine (s : State) (l : Fin 4) (d : Fin 96) :
    (s.enterLane l).engine.get d = s.engine.get d
      ∨ (s.enterLane l).engine.get d = { s.engine.get d with trigger := true } := by
  unfold State.enterLane
  split
  · clear * -
    generalize four = cs
    induction cs generalizing s with
    | nil => exact .inl rfl
    | cons k ks ih =>
      simp only [List.foldl_cons]
      have h1 : (if s.plan.get (groupNo l k) = .embed then s.enterEmbed (groupNo l k) else s).engine.get d
          = s.engine.get d
        ∨ (if s.plan.get (groupNo l k) = .embed then s.enterEmbed (groupNo l k) else s).engine.get d =
            { s.engine.get d with trigger := true } := by
        split
        · rw [enterEmbed_engine]; split
          · exact .inr rfl
          · exact .inl rfl
        · exact .inl rfl
      rcases ih (if s.plan.get (groupNo l k) = .embed then s.enterEmbed (groupNo l k)
          else s) with h2 | h2 <;> rcases h1 with h1 | h1 <;> simp [h2, h1]
  · exact .inl rfl

/-- R129, R98: a group that enters EMBED hands its PCM destinations a trigger. -/
theorem enterLane_trigger (s : State) (l : Fin 4) (h : s.canEmbed l = true) (c : Fin 4) (d : Fin 96)
    (hd : d ∈ groupDests (groupNo l c))
   (hp : s.plan.get (groupNo l c) = .embed) (hs : (s.embed.get (groupNo l c)).state ≠ .flowing) (hm :
       (s.live.get d).mode = .pcm) :
    ((s.enterLane l).engine.get d).trigger = true := by
  unfold State.enterLane
  rw [if_pos h]
  have key : ∀ (cs : List (Fin 4)) (u : State), cs.Nodup → u.plan = s.plan → u.live = s.live →
     ((u.engine.get d).trigger = true ∨ (c ∈ cs ∧ (u.embed.get (groupNo l c)).state ≠ .flowing)) →
     ((cs.foldl (fun s g => if s.plan.get (groupNo l g) = .embed then s.enterEmbed (groupNo l g)
         else s) u).engine.get d).trigger = true := by
    intro cs
    induction cs with
    | nil => intro u _ _ _ h; simpa using h
    | cons k ks ih =>
      intro u hnd hu hlv hh
      simp only [List.nodup_cons] at hnd
      simp only [List.foldl_cons]
      by_cases hp' : u.plan.get (groupNo l k) = .embed
      · rw [if_pos hp']
        apply ih _ hnd.2 (by rw [(keeps_enterEmbed _).plan, hu]) (by rw [(keeps_enterEmbed _).live, hlv])
        rcases hh with hh | ⟨hc, hh⟩
        · left; rw [enterEmbed_engine]; split
          · rfl
          · exact hh
        · rcases List.mem_cons.mp hc with rfl | hc
          · left; rw [enterEmbed_engine, if_pos ⟨hh, hd, by rw [hlv]; exact hm⟩]
          · right; refine ⟨hc, ?_⟩
            have : groupNo l k ≠ groupNo l c := fun e => hnd.1 ((groupNo_inj l k c).mp e ▸ hc)
            rw [enterEmbed_embed, if_neg fun e => this e.1]; exact hh
      · rw [if_neg hp']
        apply ih _ hnd.2 hu hlv
        rcases hh with hh | ⟨hc, hh⟩
        · exact .inl hh
        · rcases List.mem_cons.mp hc with rfl | hc
          · rw [hu] at hp'; exact absurd hp hp'
          · exact .inr ⟨hc, hh⟩
  refine key four s (by decide) rfl rfl (.inr ⟨mem_four c, hs⟩)

/-- R129 to R134: what the builder's part of a switch line makes of the bypass, the groups and the engine. -/
theorem builderSwitchLine_spec (s : State) (l : Fin 4) (hr : s.running l = true) : ∃ t, s.builderSwitchLine l = t
    ∧ t.builders.get l = { s.builders.get l with
          phase := .engaged
          bypass := match (s.builders.get l).bypass with
            | .out => .out
            | .entering => .inside
            | .inside => .inside
            | .leaving => .out }
    ∧ Keeps [.builders, .embed, .embCounts, .engine] s t
    ∧ (∀ d, t.engine.get d = s.engine.get d ∨ t.engine.get d = { s.engine.get d with trigger := true })
    ∧ ((s.builders.get l).bypass = .leaving → ∀ n : Fin 16, (s.live.get (laneDest l n)).mode = .pcm →
        (t.engine.get (laneDest l n)).trigger = true)
    ∧ (∀ c : Fin 4,
       ((s.builders.get l).bypass = .entering → t.embed.get (groupNo l c) = (s.embed.get (groupNo l c)).toHolding
           ∧ t.embCounts.get (groupNo l c) = { s.embCounts.get (groupNo l c) with owed := 0 })
       ∧ ((s.builders.get l).bypass = .inside → t.embed.get (groupNo l c) = s.embed.get (groupNo l c)
           ∧ t.embCounts.get (groupNo l c) = s.embCounts.get (groupNo l c))
       ∧ ((s.builders.get l).bypass = .out ∨ (s.builders.get l).bypass = .leaving →
          t.embed.get (groupNo l c) = (if s.plan.get (groupNo l c) = .embed
                ∧ (s.embed.get (groupNo l c)).state ≠ .flowing then
              { s.embed.get (groupNo l c) with state := .flowing, reads := 0 } else s.embed.get (groupNo l c))
          ∧ t.embCounts.get (groupNo l c) = (if s.plan.get (groupNo l c) = .embed
                ∧ (s.embed.get (groupNo l c)).state ≠ .flowing then
              { next := 0, owed := 0 } else s.embCounts.get (groupNo l c))
          ∧ (s.plan.get (groupNo l c) = .embed → (s.embed.get (groupNo l c)).state ≠ .flowing →
              ∀ d ∈ groupDests (groupNo l c), (s.live.get d).mode = .pcm → (t.engine.get d).trigger = true))) := by
  have hk := keeps_builderSwitchLine (s := s) l
  refine ⟨_, rfl, ?_⟩
  cases hb : (s.builders.get l).bypass with
  | out =>
    have he : s.builderSwitchLine l = (s.updBuilder l fun b => { b with phase := .engaged }).enterLane l := by
      simp only [State.builderSwitchLine, hb]
    generalize hu : (s.updBuilder l fun b => { b with phase := .engaged }) = u at he
    have hc : u.canEmbed l = true := by subst hu; simpa [State.canEmbed, State.running, hb, Bypass.inBypass] using hr
    have g1 := enterLane_group u l hc
    have g2 := enterLane_engine u l
    have g3 := enterLane_trigger u l hc
    have g4 := (keeps_enterLane (s := u) l).builders
    rw [he] at hk ⊢
    subst hu
    refine ⟨by rw [g4]; simp [hb], hk, g2, by simp, ?_⟩
    intro c
    refine ⟨by simp, by simp, fun _ => ⟨(g1 c).1, (g1 c).2, fun a b d hd hm => g3 c d hd a b hm⟩⟩
  | entering =>
    have he : s.builderSwitchLine l = (((s.updBuilder l fun b => { b with phase := .engaged }).updBuilder l fun b =>
        { b with bypass := .inside }).holdLane l) := by
      simp only [State.builderSwitchLine, hb, State.bypassEnter, State.enterLane]
      rw [if_neg]
      simp [State.canEmbed, State.running, (keeps_holdLane _).builders, Bypass.inBypass]
    rw [he] at hk ⊢
    refine ⟨by rw [(keeps_holdLane _).builders]; simp, hk, fun d => .inl (by rw [(keeps_holdLane _).engine]; rfl),
        by simp, ?_⟩
    intro c
    refine ⟨fun _ => ⟨by rw [holdLane_embed]; rfl, by rw [holdLane_counts]; rfl⟩, by simp, by simp⟩
  | inside =>
    have he : s.builderSwitchLine l = (s.updBuilder l fun b => { b with phase := .engaged }) := by
      simp only [State.builderSwitchLine, hb, State.enterLane]
      rw [if_neg]
      simp [State.canEmbed, State.running, hb, Bypass.inBypass]
    rw [he] at hk ⊢
    refine ⟨by simp [hb], hk, fun d => .inl rfl, by simp, ?_⟩
    intro c
    refine ⟨by simp, fun _ => ⟨rfl, rfl⟩, by simp⟩
  | leaving =>
    have he : s.builderSwitchLine l = ((s.updBuilder l fun b => { b with phase :=
        .engaged }).bypassExit l).enterLane l := by
      simp only [State.builderSwitchLine, hb]
    generalize hu : (s.updBuilder l fun b => { b with phase := .engaged }).bypassExit l = u at he
    have hub : u.builders.get l = { s.builders.get l with phase := .engaged, bypass := .out } := by
      subst hu; rw [State.bypassExit, (keeps_triggerAll _).builders]; simp
    have hul : u.lanes = s.lanes := by subst hu; rw [State.bypassExit, (keeps_triggerAll _).lanes]; rfl
    have hup : u.plan = s.plan := by subst hu; rw [State.bypassExit, (keeps_triggerAll _).plan]; rfl
    have hulv : u.live = s.live := by subst hu; rw [State.bypassExit, (keeps_triggerAll _).live]; rfl
    have hue : u.embed = s.embed := by subst hu; rw [State.bypassExit, (keeps_triggerAll _).embed]; rfl
    have huc : u.embCounts = s.embCounts := by subst hu; rw [State.bypassExit, (keeps_triggerAll _).embCounts]; rfl
    have hueng : ∀ d, u.engine.get d = if d ∈ laneDests l ∧ (s.live.get d).mode = .pcm then
        { s.engine.get d with trigger := true } else s.engine.get d := by
      intro d; subst hu; rw [State.bypassExit, triggerAll_engine]; rfl
    have hc : u.canEmbed l = true := by simp only [State.canEmbed, State.running, hul, hub]; simpa [State.running,
        Bypass.inBypass] using hr
    have g1 := enterLane_group u l hc
    have g2 := enterLane_engine u l
    have g3 := enterLane_trigger u l hc
    have g4 := (keeps_enterLane (s := u) l).builders
    rw [he] at hk ⊢
    rw [hup, hue, huc] at g1
    rw [hup, hue, hulv] at g3
    refine ⟨by rw [g4, hub], hk, ?_, ?_, ?_⟩
    · intro d
      have := hueng d
      rcases g2 d with g | g <;> rw [g, this] <;> split <;> simp
    · intro _ n hm
      have := hueng (laneDest l n)
      rw [if_pos ⟨mem_laneDests l n, hm⟩] at this
      rcases g2 (laneDest l n) with g | g <;> rw [g, this]
    · intro c
      refine ⟨by simp, by simp, fun _ => ⟨(g1 c).1, (g1 c).2, fun a b d hd hm => g3 c d hd a b hm⟩⟩

/-- R1, R10: a line is short after words that end it short. -/
theorem short_iff (s : State) (l : Fin 4) (ws) : ((s.updRelay l fun r => r.receive ws).relays.get l).short
    = true ↔ EndsShort s l ws := by
  simp only [State.updRelay_relays, Bank.get_upd_self, Relay.short, Relay.receive, EndsShort]
  cases h : (s.relays.get l).input with
  | none => simp
  | some x => simp [RelayLine.complete, areaWords]

/-- R9, R11: line 7 in sequence, and the state in which the switch line is taken. -/
theorem lineStart_seven (l : Fin 4) (ws : List LaneWord) (bf : Bool) (s : State)
    (hr : (s.lanes.get l).state = .running) (hw : NothingLeft s l) (hs : ¬ EndsShort s l ws)
        (ha : ¬ RaisesArea s l ws)
    (he : (s.lanes.get l).expected = some 7) :
    ∃ s1, exec (.lineStart l 7 ws bf) s = .next (s1.switchLine l bf) ∧ TookLine7 s s1 l ws ∧ Keeps [.lanes,
        .relays] s s1 := by
  have hs' : ((s.updRelay l fun r => r.receive ws).relays.get l).short = false := by
    rw [Bool.eq_false_iff]; intro h; exact hs ((short_iff s l ws).mp h)
  have hf : (s.updRelay l fun r => r.receive ws).formatLine? l 7 = none := by
    simp only [State.formatLine?, State.updRelay_lanes, hr, if_true, Relay.shortLine, hs']
    simp [Receiver.expects, he]
  have hfw : (s.updRelay l fun r => r.receive ws).finishWork l = (s.updRelay l fun r => r.receive ws) :=
      finishWork_idle hw
  have h7 : ∀ f : Fin 8, 7 < linesPerFrame f := by decide
  refine ⟨(((s.updRelay l fun r => r.receive ws).beginLine l 7).updLane l fun r => r.inSequence 7), ?_, ?_, ?_⟩
  · simp only [exec, execLineStart, receive_quiet ha, State.strobe, hf, State.updRelay_lanes, hr, hfw, State.runLine]
    rfl
  · refine ⟨?_, ?_⟩
    · simp only [State.beginLine, State.updLane_lanes, State.updRelay_lanes, Bank.upd_upd_self]
      apply Bank.upd_congr
      simp [Receiver.inSequence]
      exact h7 _
    · simp [State.beginLine]
  · intro p hp
    cases p <;> first | rfl | exact ⟨rfl, rfl⟩ | simp at hp

/-- R52: a store that leaves FLOWING keeps its sets. -/
theorem toHolding_facts (st : Store) : st.toHolding.state ≠ .flowing ∧ st.toHolding.sets = st.sets := by
  unfold Store.toHolding; split
  · exact ⟨by simp, rfl⟩
  · next h => exact ⟨h, rfl⟩

/-- R72, R73, R78: the monitors, groups and notices of a boundary. -/
theorem boundary_rest (s : State) (dom : Fin 5) (h : takeListOk dom (s.takes.get dom)) :
    (s.boundary dom).monitors = (s.dealItems (s.takes.get dom)).1.monitors
    ∧ (s.boundary dom).embed = (s.dealItems (s.takes.get dom)).1.embed
    ∧ (s.boundary dom).embCounts = (s.dealItems (s.takes.get dom)).1.embCounts
    ∧ (s.boundary dom).events = (s.raiseAll (boundaryNotices s dom)).events
    ∧ (s.boundary dom).eventNo = (s.raiseAll (boundaryNotices s dom)).eventNo := by
  have hk := keeps_dealItems (s.takes.get dom) s
  refine ⟨by simp [State.boundary], by simp [State.boundary], by simp [State.boundary], ?_, ?_⟩
  · simp only [State.boundary]; rw [boundary_notices s dom h]
    simp [State.raiseAll, State.raiseAllAt, State.raiseAs, hk.events, hk.eventNo, hk.ref]
  · simp only [State.boundary]; rw [boundary_notices s dom h]
    simp [State.raiseAll, State.raiseAllAt, State.raiseAs, hk.events, hk.eventNo, hk.ref]

end Sys2Proof.Machine
end

