-- ==== Sys2Proof/Laws/HouseBoundary.lean ====
section
/-! SUPPORT. What a house frame boundary makes of the take lists and of what they change (R70 to R78, R157 to R159). -/

set_option Elab.async false

namespace Sys2Proof.Machine

/-! ### The engine, in a domain whose lane may not embed -/

/-- R75, R96, R112: the whole application of an entry to the engine's state. -/
theorem apply_eq (st : DestState) (old new : Entry) : st.apply old new
    = { st with xfade := crossfadeAfter old new st.xfade
                j := if old.mode = .data ∨ new.mode = .data then none else st.j
                trigger := if old.mode = .data ∨ new.mode = .data then false else st.trigger } := by
  rw [← apply_xfade]
  unfold DestState.apply
  split
  · rfl
  · split
    · rfl
    · split <;> rfl

/-- R77: a mode that a group takes while its lane may not embed hands no trigger. -/
theorem applyMode_engine (s : State) (g : Fin 16) (m : PlanMode) (h : s.canEmbed (groupLane g) = false) :
    (s.applyMode g m).engine = s.engine := by
  unfold State.applyMode
  split
  · rfl
  · simp only [h]; split
    · rfl
    · split <;> rfl

/-- The lanes of the plan groups of a domain may not embed. -/
def Quiet (s : State) (dom : Fin 5) : Prop :=
  ∀ g : Fin 16, itemDomain (planItem g) = dom → s.canEmbed (groupLane g) = false

theorem quiet_deal {s : State} {dom} (h : Quiet s dom) (x : TakeItem) : Quiet (s.dealItem x).1 dom :=
  fun g hg => by rw [canEmbed_deal]; exact h g hg

theorem dealItem_engine_other {s : State} {dom} (hq : Quiet s dom) (x : TakeItem)
    (hx : itemDomain x.body.item = dom) (d : Fin 96) (h : x.body.item ≠ destItem d) :
    (s.dealItem x).1.engine.get d = s.engine.get d := by
  unfold State.dealItem
  split
  · rfl
  · split
    · next d' e hb =>
      have hne : d' ≠ d := by intro hc; apply h; rw [hb, hc]; rfl
      split
      · rfl
      · simp [State.applyEntry, hne]
    · next g m hb =>
      rw [hb] at hx
      rw [applyMode_engine s g m (hq g hx)]

theorem dealItems_engine_other (xs : List TakeItem) : ∀ (s : State) {dom}, Quiet s dom →
    (∀ x ∈ xs, itemDomain x.body.item = dom) → ∀ d : Fin 96, (∀ x ∈ xs, x.body.item ≠ destItem d) →
    (s.dealItems xs).1.engine.get d = s.engine.get d := by
  induction xs with
  | nil => intro s dom _ _ d _; rfl
  | cons x xs ih =>
    intro s dom hq hd d h
    simp only [State.dealItems]
    exact (ih _ (quiet_deal hq x) (fun y hy => hd y (by simp [hy])) d fun y hy => h y (by simp [hy])).trans
      (dealItem_engine_other hq x (hd x (by simp)) d (h x (by simp)))

/-- R72 to R75: what a list makes of the engine's state of a destination that is the target of an item. -/
theorem dealItems_engine (xs : List TakeItem) : ∀ (s : State) {dom}, Quiet s dom →
    (∀ x ∈ xs, itemDomain x.body.item = dom) → (xs.map fun x => x.body.item).Nodup → ∀ x ∈ xs, ∀ d e,
    x.body = .dest d e →
    (FreeFor s (destItem d) x.stager → (s.engine.get d).crossfading = false →
      (s.dealItems xs).1.engine.get d = (s.engine.get d).apply (s.live.get d) e)
    ∧ (¬ FreeFor s (destItem d) x.stager ∨ (s.engine.get d).crossfading = true →
      (s.dealItems xs).1.engine.get d = s.engine.get d) := by
  induction xs with
  | nil => intro s _ _ _ _ x hx; simp at hx
  | cons y ys ih =>
    intro s dom hq hd hnd x hx d e hb
    simp only [List.map_cons, List.nodup_cons, List.mem_map, not_exists, not_and] at hnd
    simp only [State.dealItems]
    have hbi : x.body.item = destItem d := by rw [hb]; rfl
    rcases List.mem_cons.mp hx with rfl | hx
    · have hne : ∀ z ∈ ys, z.body.item ≠ destItem d := fun z hz hc => hnd.1 z hz (hc.trans hbi.symm)
      rw [dealItems_engine_other ys _ (quiet_deal hq x) (fun z hz => hd z (by simp [hz])) d hne]
      obtain ⟨c1, c2, c3⟩ := dealItem_dest s x d e hb
      refine ⟨fun hf hc => by rw [c3 hf hc]; simp [State.applyEntry], fun h => ?_⟩
      by_cases hf : FreeFor s (destItem d) x.stager
      · rw [c2 hf (h.resolve_left fun hn => hn hf)]
      · obtain ⟨o, k⟩ := c1 hf
        rw [k]
    · have hyx : y.body.item ≠ destItem d := fun hc => hnd.1 x hx (hbi.trans hc.symm)
      have := ih (s.dealItem y).1 (quiet_deal hq y) (fun z hz => hd z (by simp [hz])) hnd.2 x hx d e hb
      rw [dealItem_engine_other hq y (hd y (by simp)) d hyx, (dealItem_other s y d hyx).1, freeFor_deal] at this
      exact this

/-! ### One domain -/

/-- What belongs to domain `dom` is the same in both states, and so are lanes, builders and owners. -/
def Local (dom : Fin 5) (s t : State) : Prop :=
  t.takes.get dom = s.takes.get dom
    ∧ (∀ d, itemDomain (destItem d) = dom → t.live.get d = s.live.get d ∧ t.engine.get d = s.engine.get d
        ∧ t.monitors.get d = s.monitors.get d)
    ∧ (∀ g, itemDomain (planItem g) = dom → t.plan.get g = s.plan.get g ∧ t.embed.get g = s.embed.get g
        ∧ t.embCounts.get g = s.embCounts.get g)
    ∧ t.lanes = s.lanes ∧ t.builders = s.builders ∧ t.owners = s.owners

theorem Local.refl (dom : Fin 5) (s : State) : Local dom s s :=
  ⟨rfl, fun _ _ => ⟨rfl, rfl, rfl⟩, fun _ _ => ⟨rfl, rfl, rfl⟩, rfl, rfl, rfl⟩

theorem Local.trans {dom : Fin 5} {s t u : State} (h : Local dom s t) (k : Local dom t u) : Local dom s u :=
  ⟨k.1.trans h.1,
   fun d hd => ⟨(k.2.1 d hd).1.trans (h.2.1 d hd).1, (k.2.1 d hd).2.1.trans (h.2.1 d hd).2.1,
     (k.2.1 d hd).2.2.trans (h.2.1 d hd).2.2⟩,
   fun g hg => ⟨(k.2.2.1 g hg).1.trans (h.2.2.1 g hg).1, (k.2.2.1 g hg).2.1.trans (h.2.2.1 g hg).2.1,
     (k.2.2.1 g hg).2.2.trans (h.2.2.1 g hg).2.2⟩,
   k.2.2.2.1.trans h.2.2.2.1, k.2.2.2.2.1.trans h.2.2.2.2.1, k.2.2.2.2.2.trans h.2.2.2.2.2⟩

/-- Changes of other parts are local to no domain. -/
theorem local_of {A : List Part} {s t : State} (h : Keeps A s t) (dom : Fin 5)
    (hA : ∀ p ∈ A, p ∈ [Part.ref, .events] := by decide) : Local dom s t := by
  have k := h.mono hA
  refine ⟨by rw [k.takes], fun d _ => ?_, fun g _ => ?_, k.lanes, k.builders, k.owners⟩
  · rw [k.live, k.engine, k.monitors]; exact ⟨rfl, rfl, rfl⟩
  · rw [k.plan, k.embed, k.embCounts]; exact ⟨rfl, rfl, rfl⟩

theorem quiet_local {dom dom' : Fin 5} {s t : State} (h : Local dom s t) (hq : Quiet s dom') : Quiet t dom' :=
  fun g hg => by
    have := hq g hg
    unfold State.canEmbed State.running at *
    rw [h.2.2.2.1, h.2.2.2.2.1]; exact this

/-- R70: a boundary of one domain leaves what belongs to another one alone. -/
theorem boundary_local {s : State} {dom dom' : Fin 5} (hq : Quiet s dom) (h : takeListOk dom (s.takes.get dom))
    (hne : dom' ≠ dom) : Local dom' s (s.boundary dom) := by
  obtain ⟨b1, b2, b3, b4, b5⟩ := boundary_spec s dom
  obtain ⟨r1, r2, r3, -⟩ := boundary_rest s dom h
  have hk := keeps_boundary (s := s) dom
  have ht : ∀ {it : Fin 112}, itemDomain it = dom' → ∀ x ∈ s.takes.get dom, x.body.item ≠ it :=
    fun hit x hx hc => hne (hit.symm.trans ((congrArg itemDomain hc).symm.trans (h.1 x hx)))
  refine ⟨by rw [b4]; simp [Ne.symm hne], fun d hd => ?_, fun g hg => ?_, hk.lanes, hk.builders, b5⟩
  · rw [b1, b3, r1]
    exact ⟨(dealItems_other _ s d (ht hd)).1, dealItems_engine_other _ s hq h.1 d (ht hd),
      (dealItems_untouched _ s d (ht hd)).1⟩
  · rw [b2, r2, r3]
    exact ⟨dealItems_otherPlan _ s g (ht hg), (dealItems_group_other _ s g (ht hg)).1,
      (dealItems_group_other _ s g (ht hg)).2⟩

/-- R70 to R77: what a boundary of a domain whose lane may not embed makes of what belongs to it. -/
def DealtQuietly (s t : State) (dom : Fin 5) : Prop :=
  DealsWithTakes s t dom
    ∧ (∀ (x : TakeItem) (d : Fin 96) (e : Entry), x ∈ s.takes.get dom → x.body = .dest d e →
        (¬ FreeFor s (destItem d) x.stager ∨ (s.engine.get d).crossfading = true →
          t.engine.get d = s.engine.get d)
        ∧ (FreeFor s (destItem d) x.stager → (s.engine.get d).crossfading = false →
          t.engine.get d = (s.engine.get d).apply (s.live.get d) e))
    ∧ (∀ g, itemDomain (planItem g) = dom →
        if s.plan.get g = .embed ∧ t.plan.get g ≠ .embed then
          t.embed.get g = (s.embed.get g).toHolding ∧ t.embCounts.get g = { s.embCounts.get g with owed := 0 }
        else t.embed.get g = s.embed.get g ∧ t.embCounts.get g = s.embCounts.get g)
    ∧ (∀ d, itemDomain (destItem d) = dom → findItem (s.takes.get dom) (destItem d) = none →
        t.live.get d = s.live.get d ∧ t.engine.get d = s.engine.get d ∧ t.monitors.get d = s.monitors.get d)
    ∧ (∀ g, itemDomain (planItem g) = dom → findItem (s.takes.get dom) (planItem g) = none →
        t.plan.get g = s.plan.get g)

theorem findItem_none {xs : List TakeItem} {it : Fin 112} (h : findItem xs it = none) :
    ∀ x ∈ xs, x.body.item ≠ it := by
  simpa [findItem] using h

theorem boundary_quiet {s : State} {dom : Fin 5} (hq : Quiet s dom) (h : takeListOk dom (s.takes.get dom)) :
    DealtQuietly s (s.boundary dom) dom := by
  obtain ⟨b1, b2, b3, b4, b5⟩ := boundary_spec s dom
  obtain ⟨r1, r2, r3, -⟩ := boundary_rest s dom h
  have hb4 : (s.boundary dom).takes.get dom = (s.dealItems (s.takes.get dom)).2.1 := by rw [b4]; simp
  unfold DealtQuietly DealsWithTakes
  rw [b1, b2, b3, hb4, r1, r2, r3]
  refine ⟨⟨fun x d e hx hb => ?_, fun x g m hx hb => ?_⟩, fun x d e hx hb => ?_, fun g hg => ?_, fun d hd hf => ?_,
    fun g hg hf => ?_⟩
  · obtain ⟨d1, d2, d3⟩ := dealItems_dest _ s h.2 x hx d e hb
    obtain ⟨m1, m2⟩ := dealItems_monitor _ s h.2 x hx d e hb
    exact ⟨fun hf => ⟨(d1 hf).1, (d1 hf).2, m2 (.inl hf)⟩,
      fun hf hc => ⟨(d2 hf hc).1, (d2 hf hc).2, m2 (.inr hc)⟩,
      fun hf hc => ⟨(d3 hf hc).1, (d3 hf hc).2.1, (d3 hf hc).2.2, m1 hf hc⟩⟩
  · obtain ⟨p1, p2, p3⟩ := dealItems_plan _ s h.2 x hx g m hb
    refine ⟨p1, ?_⟩
    by_cases hf : FreeFor s (planItem g) x.stager
    · rw [p2 hf]; exact (if_pos hf).symm
    · rw [p3 hf]; exact (if_neg hf).symm
  · obtain ⟨e1, e2⟩ := dealItems_engine _ s hq h.1 h.2 x hx d e hb
    exact ⟨e2, e1⟩
  · obtain ⟨g1, g2⟩ := dealItems_group (s.takes.get dom) s g h.2 _ rfl
    rw [g1, g2, hq g hg]
    simp only [Bool.false_eq_true, false_and, and_false, if_false]
    split
    · exact ⟨rfl, rfl⟩
    · exact ⟨rfl, rfl⟩
  · exact ⟨(dealItems_other _ s d (findItem_none hf)).1, dealItems_engine_other _ s hq h.1 d (findItem_none hf),
      (dealItems_untouched _ s d (findItem_none hf)).1⟩
  · exact dealItems_otherPlan _ s g (findItem_none hf)

theorem item_dest {dom : Fin 5} {xs : List TakeItem} (h : takeListOk dom xs) {x : TakeItem} (hx : x ∈ xs) {d e}
    (hb : x.body = .dest d e) : itemDomain (destItem d) = dom := by
  have := h.1 x hx; rw [hb] at this; exact this

theorem item_plan {dom : Fin 5} {xs : List TakeItem} (h : takeListOk dom xs) {x : TakeItem} (hx : x ∈ xs) {g m}
    (hb : x.body = .plan g m) : itemDomain (planItem g) = dom := by
  have := h.1 x hx; rw [hb] at this; exact this

/-- What a boundary makes of its domain does not depend on what belongs to the others, before or after it. -/
theorem dealtQuietly_local {dom : Fin 5} {s u v t : State} (h : takeListOk dom (s.takes.get dom))
    (h1 : Local dom s u) (h2 : DealtQuietly u v dom) (h3 : Local dom v t) : DealtQuietly s t dom := by
  obtain ⟨⟨q1, q2⟩, q3, q4, q5, q6⟩ := h2
  unfold DealtQuietly DealsWithTakes
  have hF : ∀ it l, FreeFor u it l ↔ FreeFor s it l := fun it l => by unfold FreeFor; rw [h1.2.2.2.2.2]
  simp only [h1.1, hF, h1.2.2.2.2.2] at q1 q2 q3 q5 q6
  rw [h3.1]
  refine ⟨⟨fun x d e hx hb => ?_, fun x g m hx hb => ?_⟩, fun x d e hx hb => ?_, fun g hg => ?_, fun d hd hf => ?_,
    fun g hg hf => ?_⟩
  · have hd := item_dest h hx hb
    have := q1 x d e hx hb
    rwa [(h1.2.1 d hd).1, (h1.2.1 d hd).2.1, (h1.2.1 d hd).2.2, ← (h3.2.1 d hd).1, ← (h3.2.1 d hd).2.1,
      ← (h3.2.1 d hd).2.2] at this
  · have hg := item_plan h hx hb
    have := q2 x g m hx hb
    rwa [(h1.2.2.1 g hg).1, ← (h3.2.2.1 g hg).1] at this
  · have hd := item_dest h hx hb
    have := q3 x d e hx hb
    rwa [(h1.2.1 d hd).1, (h1.2.1 d hd).2.1, ← (h3.2.1 d hd).2.1] at this
  · have := q4 g hg
    rwa [(h1.2.2.1 g hg).1, (h1.2.2.1 g hg).2.1, (h1.2.2.1 g hg).2.2, ← (h3.2.2.1 g hg).1, ← (h3.2.2.1 g hg).2.1,
      ← (h3.2.2.1 g hg).2.2] at this
  · have := q5 d hd hf
    rwa [(h1.2.1 d hd).1, (h1.2.1 d hd).2.1, (h1.2.1 d hd).2.2, ← (h3.2.1 d hd).1, ← (h3.2.1 d hd).2.1,
      ← (h3.2.1 d hd).2.2] at this
  · have := q6 g hg hf
    rwa [(h1.2.2.1 g hg).1, ← (h3.2.2.1 g hg).1] at this

/-! ### The boundaries of several domains -/

/-- The notices of a boundary depend on what belongs to its domain. -/
theorem boundaryNotices_local {dom : Fin 5} {s t : State} (h : takeListOk dom (s.takes.get dom))
    (hl : Local dom s t) : boundaryNotices t dom = boundaryNotices s dom := by
  have hr : refuser t = refuser s := by funext x; unfold refuser; rw [hl.2.2.2.2.2]
  have hh : ∀ x ∈ s.takes.get dom, holdsBack t x = holdsBack s x := by
    intro x hx
    unfold holdsBack
    split
    · next d e hb => rw [(hl.2.1 d (item_dest h hx hb)).2.1]
    · rfl
  have hc : ∀ (p : TakeItem → Bool) (neg : Bool), (((s.takes.get dom).filter p).countP fun x => holdsBack t x == neg)
      = ((s.takes.get dom).filter p).countP fun x => holdsBack s x == neg := by
    intro p neg
    refine List.countP_congr fun x hx => ?_
    rw [hh x (List.mem_filter.mp hx).1]
  have h1 : ∀ p : TakeItem → Bool, ((s.takes.get dom).filter p).countP (holdsBack t)
      = ((s.takes.get dom).filter p).countP (holdsBack s) := by
    intro p; simpa using hc p true
  have h2 : ∀ p : TakeItem → Bool, (((s.takes.get dom).filter p).countP fun x => !holdsBack t x)
      = ((s.takes.get dom).filter p).countP fun x => !holdsBack s x := by
    intro p; simpa using hc p false
  unfold boundaryNotices
  simp only [hl.1, hr, h1, h2]

/-- The domains whose boundary is the house frame boundary (R70). -/
def houseDomains (s : State) : List (Fin 5) :=
  (four.filter fun l => (s.lanes.get l).state != LaneState.running).map laneDomain ++ [4]

theorem houseDomains_nodup (s : State) : (houseDomains s).Nodup := by
  unfold houseDomains
  generalize (fun l => (s.lanes.get l).state != LaneState.running) = p
  simp only [four, List.filter]
  cases p 0 <;> cases p 1 <;> cases p 2 <;> cases p 3 <;> decide

theorem mem_houseDomains (s : State) (dom : Fin 5) : dom ∈ houseDomains s
    ↔ dom = 4 ∨ ∃ l, dom = laneDomain l ∧ (s.lanes.get l).state ≠ .running := by
  simp only [houseDomains, List.mem_append, List.mem_map, List.mem_filter, mem_four, true_and, List.mem_singleton,
    bne_iff_ne]
  constructor
  · rintro (⟨l, h, rfl⟩ | rfl)
    · exact .inr ⟨l, rfl, h⟩
    · exact .inl rfl
  · rintro (rfl | ⟨l, rfl, h⟩)
    · exact .inr rfl
    · exact .inl ⟨l, h, rfl⟩

theorem planItem_domain (g : Fin 16) : itemDomain (planItem g) = laneDomain (groupLane g) := by
  revert g; decide

theorem destItem_domain (l : Fin 4) (n : Fin 16) : itemDomain (destItem (laneDest l n)) = laneDomain l := by
  revert l n; decide

theorem laneDomain_inj {l l' : Fin 4} : laneDomain l = laneDomain l' ↔ l = l' := by
  simp [laneDomain, Fin.ext_iff]

theorem laneDomain_ne (l : Fin 4) : laneDomain l ≠ 4 := by revert l; decide

theorem quiet_of_mem {s : State} {dom : Fin 5} (h : dom ∈ houseDomains s) : Quiet s dom := by
  intro g hg
  rw [planItem_domain] at hg
  rcases (mem_houseDomains s dom).mp h with rfl | ⟨l, rfl, hl⟩
  · exact absurd hg (laneDomain_ne _)
  · rw [laneDomain_inj] at hg
    simp [State.canEmbed, State.running, hg, hl]

theorem houseBoundary_eq (s : State) : s.houseBoundary = (houseDomains s).foldl State.boundary s := by
  have : ∀ (ls : List (Fin 4)) (u : State), u.lanes = s.lanes →
      ls.foldl (fun s l => if s.houseBoundaryOf l then s.boundary (laneDomain l) else s) u
        = ((ls.filter fun l => (s.lanes.get l).state != LaneState.running).map laneDomain).foldl State.boundary u := by
    intro ls
    induction ls with
    | nil => intro u _; rfl
    | cons l ls ih =>
      intro u hu
      simp only [List.foldl_cons, List.filter_cons]
      have hb : u.houseBoundaryOf l = ((s.lanes.get l).state != LaneState.running) := by
        rw [State.houseBoundaryOf, State.running, hu]; rfl
      rw [hb]
      cases (s.lanes.get l).state != LaneState.running with
      | true =>
        simp only [if_true, List.map_cons, List.foldl_cons]
        exact ih _ ((keeps_boundary _).lanes.trans hu)
      | false => simpa using ih u hu
  unfold State.houseBoundary houseDomains
  rw [this four s rfl, List.foldl_append]
  rfl

/-- R70, R72: the boundaries of several domains whose lanes may not embed, one after another. -/
theorem boundaries_spec (ds : List (Fin 5)) : ∀ s : State, ds.Nodup → TakesOk s → (∀ dom ∈ ds, Quiet s dom) →
    (∀ dom, dom ∉ ds → Local dom s (ds.foldl State.boundary s))
    ∧ (∀ dom ∈ ds, DealtQuietly s (ds.foldl State.boundary s) dom)
    ∧ ∀ r : State, r.events = s.events → r.eventNo = s.eventNo → r.ref.frameCount = s.ref.frameCount →
      (ds.foldl State.boundary s).events = (ds.foldl (fun u dom => u.raiseAll (boundaryNotices s dom)) r).events
        ∧ (ds.foldl State.boundary s).eventNo
            = (ds.foldl (fun u dom => u.raiseAll (boundaryNotices s dom)) r).eventNo := by
  induction ds with
  | nil =>
    intro s _ _ _
    exact ⟨fun dom _ => .refl dom s, fun _ h => absurd h (by simp), fun r h h2 _ => ⟨h.symm, h2.symm⟩⟩
  | cons d ds ih =>
    intro s hnd hok hq
    obtain ⟨hd, hnd⟩ := List.nodup_cons.mp hnd
    have hqd := hq d (by simp)
    have hl : ∀ dom, dom ≠ d → Local dom s (s.boundary d) := fun dom h => boundary_local hqd (hok d) h
    have hl' : ∀ dom ∈ ds, Local dom s (s.boundary d) := fun dom h => hl dom fun e => hd (e ▸ h)
    have hb := boundary_quiet hqd (hok d)
    have hok' : TakesOk (s.boundary d) := by
      intro dom
      by_cases h : dom = d
      · subst h
        obtain ⟨-, -, -, b4, -⟩ := boundary_spec s dom
        rw [b4, Bank.get_set_self]
        exact kept_ok s (hok dom)
      · rw [(hl dom h).1]; exact hok dom
    have hq' : ∀ dom ∈ ds, Quiet (s.boundary d) dom := fun dom h =>
      quiet_local (hl' dom h) (hq dom (by simp [h]))
    obtain ⟨i1, i2, i3⟩ := ih (s.boundary d) hnd hok' hq'
    refine ⟨fun dom h => ?_, fun dom h => ?_, fun r e1 e2 e3 => ?_⟩
    · exact (hl dom fun e => h (by simp [e])).trans (i1 dom fun hm => h (by simp [hm]))
    · rcases List.mem_cons.mp h with rfl | h
      · exact dealtQuietly_local (hok dom) (.refl dom s) hb (i1 dom hd)
      · exact dealtQuietly_local (hok dom) (hl' dom h) (i2 dom h) (.refl _ _)
    · obtain ⟨-, -, -, b4, b5⟩ := boundary_rest s d (hok d)
      have c := raiseAll_congr e1 e2 e3 (boundaryNotices s d)
      have c0 := raiseAll_congr (rfl : s.events = s.events) rfl rfl (boundaryNotices s d)
      simp only [List.foldl_cons]
      obtain ⟨j1, j2⟩ := i3 (r.raiseAll (boundaryNotices s d)) (c.1.trans b4.symm) (c.2.1.trans b5.symm)
        (by rw [c.2.2, e3, (keeps_boundary d).ref])
      rw [j1, j2]
      have hn : ∀ dom ∈ ds, boundaryNotices (s.boundary d) dom = boundaryNotices s dom := fun dom h =>
        boundaryNotices_local (hok dom) (hl' dom h)
      rw [foldl_congr_mem hn]
      exact ⟨rfl, rfl⟩
where
  kept_ok {dom : Fin 5} (s : State) {xs : List TakeItem} (h : takeListOk dom xs) :
      takeListOk dom (s.dealItems xs).2.1 := by
    induction xs generalizing s with
    | nil => exact h
    | cons x xs ih =>
      have hx : takeListOk dom xs := ⟨fun y hy => h.1 y (by simp [hy]), (List.nodup_cons.mp h.2).2⟩
      have := ih (s.dealItem x).1 hx
      simp only [State.dealItems]
      split
      · refine ⟨fun y hy => ?_, ?_⟩
        · rcases List.mem_cons.mp hy with rfl | hy
          · exact h.1 x (by simp)
          · exact this.1 y hy
        · refine List.nodup_cons.mpr ⟨fun hm => ?_, this.2⟩
          obtain ⟨y, hy, e⟩ := List.mem_map.mp hm
          have hk := dealItems_kept xs (s.dealItem x).1 x.body.item fun z hz hc =>
            (List.nodup_cons.mp h.2).1 (List.mem_map.mpr ⟨z, hz, hc⟩)
          exact findItem_none hk y hy e
      · exact this
  foldl_congr_mem {ds : List (Fin 5)} {f g : Fin 5 → List Pending} (h : ∀ dom ∈ ds, f dom = g dom) (r : State) :
      ds.foldl (fun u dom => u.raiseAll (f dom)) r = ds.foldl (fun u dom => u.raiseAll (g dom)) r := by
    induction ds generalizing r with
    | nil => rfl
    | cons d ds ih =>
      simp only [List.foldl_cons]
      rw [h d (by simp), ih fun dom hm => h dom (by simp [hm])]

/-- R70 to R78: the whole of a house frame boundary at the track map. -/
theorem houseBoundary_spec (s : State) (hok : TakesOk s) : DealsWithHouseTakes s s.houseBoundary
    ∧ ∀ r : State, r.events = s.events → r.eventNo = s.eventNo → r.ref.frameCount = s.ref.frameCount →
      s.houseBoundary.events = (boundaryRaises s r).events
        ∧ s.houseBoundary.eventNo = (boundaryRaises s r).eventNo := by
  obtain ⟨b1, b2, b3⟩ := boundaries_spec (houseDomains s) s (houseDomains_nodup s) hok fun _ h => quiet_of_mem h
  rw [← houseBoundary_eq] at b1 b2 b3
  refine ⟨⟨fun dom h => ?_, fun l hl => ?_, fun l c hl => ?_, fun it hf => ⟨?_, ?_⟩⟩, b3⟩
  · obtain ⟨q1, q2, -⟩ := b2 dom ((mem_houseDomains s dom).mpr h)
    refine ⟨q1, fun x d e hx hb => ⟨(q2 x d e hx hb).1, fun hf hc => ?_⟩⟩
    rw [(q2 x d e hx hb).2 hf hc, apply_eq]
  · have hn : laneDomain l ∉ houseDomains s := by
      rw [mem_houseDomains]
      rintro (h | ⟨l', h, hl'⟩)
      · exact laneDomain_ne l h
      · rw [laneDomain_inj] at h; exact hl' (h ▸ hl)
    obtain ⟨p1, p2, p3, -⟩ := b1 _ hn
    exact ⟨p1, fun n => p2 _ (destItem_domain l n), fun c => p3 _ (by rw [planItem_domain, groupNo_lane])⟩
  · have := (b2 _ ((mem_houseDomains s (laneDomain l)).mpr (.inr ⟨l, rfl, hl⟩))).2.2.1 (groupNo l c)
      (by rw [planItem_domain, groupNo_lane])
    have ht : ∀ st : Store, st.toHolding = { st with state := if st.state = .flowing then .holding else st.state } := by
      intro st; unfold Store.toHolding; split <;> rfl
    simpa only [ht] using this
  · rintro d rfl
    by_cases hm : itemDomain (destItem d) ∈ houseDomains s
    · exact (b2 _ hm).2.2.2.1 d rfl hf
    · exact (b1 _ hm).2.1 d rfl
  · rintro g rfl
    by_cases hm : itemDomain (planItem g) ∈ houseDomains s
    · exact (b2 _ hm).2.2.2.2 g rfl hf
    · exact ((b1 _ hm).2.2.1 g rfl).1

/-- The notices of a house frame boundary do not depend on what raising others or the reference unit changes. -/
theorem boundaryRaises_of {A : List Part} {s u : State} (h : Keeps A s u) (hok : TakesOk s) (r : State)
    (hA : ∀ p ∈ A, p ∈ [Part.ref, .events] := by decide) : boundaryRaises u r = boundaryRaises s r := by
  unfold boundaryRaises
  rw [(h.mono hA).lanes, funext fun u' => funext fun dom =>
    congrArg (State.raiseAll u') (boundaryNotices_local (hok dom) (local_of h dom hA))]

/-- What a house frame boundary deals with lies in no part that raising notices or the reference unit changes. -/
theorem dealsWithHouseTakes_of {A B : List Part} {s u v t : State} (hs : Keeps A s u) (h : DealsWithHouseTakes u v)
    (ht : Keeps B v t) (hA : ∀ p ∈ A, p ∈ [Part.ref, .events] := by decide)
    (hB : ∀ p ∈ B, p ∈ [Part.ref, .events] := by decide) : DealsWithHouseTakes s t := by
  have ks := hs.mono hA
  have kt := ht.mono hB
  unfold DealsWithHouseTakes DealsWithTakes FreeFor at *
  rw [kt.live, kt.takes, kt.engine, kt.monitors, kt.plan, kt.embed, kt.embCounts]
  simpa only [ks.live, ks.takes, ks.engine, ks.monitors, ks.plan, ks.embed, ks.embCounts, ks.owners, ks.lanes] using h

end Sys2Proof.Machine
end

