-- ==== Sys2Proof/Laws/Monitors.lean ====
section
/-! SUPPORT. What a monitor takes keeps its values within Table 7-1 (R139 to R152). -/

set_option Elab.async false

namespace Sys2Proof.Machine

/-- R141: the magnitude of a value is one of 0..8,388,607. -/
theorem magnitude_le (y : Value) : magnitude y ≤ 8388607 := Nat.min_le_right _ _

/-- R140, R147: a tick, at a monitor whose window is not complete. -/
theorem monitorOk_tick {m : Monitor} (h : MonitorOk m) (hd : m.due = false) (y : Value) (clamp suspended : Bool) :
    MonitorOk (m.tick y clamp suspended) := by
  obtain ⟨h1, h2, h3, h4, h5, h6, h7, h8, h9, h10⟩ := h
  have hm := magnitude_le y
  have ht : m.activity = .measuring → m.ticks + 1 ≤ 480 := by
    intro ha
    simp only [Monitor.due, ha, beq_self_eq_true, Bool.true_and, decide_eq_false_iff_not] at hd
    omega
  unfold Monitor.tick
  cases ha : m.activity with
  | idle => exact ⟨h1, h2, h3, h4, h5, h6, h7, h8, h9, h10⟩
  | measuring =>
    cases suspended with
    | true => exact ⟨Nat.zero_le _, h2, h3, h4, Nat.zero_le _, h6, h7, h8, h9, by simp_all [Monitor.openWindow]⟩
    | false => exact ⟨Nat.max_le.mpr ⟨h1, hm⟩, h2, h3, h4, ht ha, h6, h7, h8, h9, h10⟩
  | suspended =>
    cases suspended with
    | true => exact ⟨h1, h2, h3, h4, h5, h6, h7, h8, h9, h10⟩
    | false =>
      exact ⟨Nat.max_le.mpr ⟨Nat.zero_le _, hm⟩, h2, h3, h4, by simp [Monitor.addTick, Monitor.openWindow], h6, h7, h8,
        h9, by simp_all [Monitor.addTick, Monitor.openWindow]⟩

/-- R142: a take application. -/
theorem monitorOk_markChanged {m : Monitor} (h : MonitorOk m) : MonitorOk m.markChanged := by
  unfold Monitor.markChanged
  split <;> exact h

/-- R143 to R145: the completion of a window. -/
theorem monitorOk_settle {m : Monitor} (h : MonitorOk m) : MonitorOk m.settle := by
  obtain ⟨h1, h2, h3, h4, h5, h6, h7, h8, h9, h10⟩ := h
  unfold Monitor.settle
  split
  · refine ⟨Nat.zero_le _, h1, fun l => ?_, ?_, Nat.zero_le _, h6, h7, h8, h9, h10⟩
    · simp only [Monitor.complete, Monitor.openWindow, Bank.get_map]
      exact Nat.max_le.mpr ⟨h3 l, h1⟩
    · simp only [Monitor.complete, Monitor.openWindow, Monitor.nextCount]
      split
      · split <;> omega
      · exact Nat.zero_le _
  · exact ⟨h1, h2, h3, h4, h5, h6, h7, h8, h9, h10⟩

/-- R143: after the completions no window is complete. -/
theorem settle_not_due (m : Monitor) : m.settle.due = false := by
  unfold Monitor.settle
  cases h : m.due with
  | false => simpa using h
  | true => simp [Monitor.complete, Monitor.openWindow, Monitor.due]

/-- R148: settings that MON_SET may write. -/
theorem settings_ok {bs : List Byte} {x : MonSettings} (h : settings? bs = some x) :
    x.silenceAt ≤ 8388607 ∧ x.overloadAt ≤ 8388607 ∧ 1 ≤ x.ns ∧ x.ns ≤ 60000 := by
  unfold settings? at h
  split at h
  · dsimp only at h
    split at h
    · next hc => cases h; exact hc.2
    · cases h
  · cases h

/-- R148: MON_SET with settings in range. -/
theorem monitorOk_set {m : Monitor} (h : MonitorOk m) {x : MonSettings}
    (hx : x.silenceAt ≤ 8388607 ∧ x.overloadAt ≤ 8388607 ∧ 1 ≤ x.ns ∧ x.ns ≤ 60000) : MonitorOk (m.set x) := by
  obtain ⟨h1, h2, h3, h4, h5, h6, h7, h8, h9, h10⟩ := h
  obtain ⟨x1, x2, x3, x4⟩ := hx
  unfold Monitor.set
  cases ha : m.activity <;> cases he : x.enable <;>
    simp_all [MonitorOk, Monitor.withSettings, Monitor.openWindow]

/-- R150: METER_READ. -/
theorem monitorOk_clearHold {m : Monitor} (h : MonitorOk m) (l : Line) : MonitorOk (m.clearHold l) := by
  obtain ⟨h1, h2, h3, h4⟩ := h
  refine ⟨h1, h2, fun k => ?_, h4⟩
  simp only [Monitor.clearHold, Bank.get_set]
  split
  · exact Nat.zero_le _
  · exact h3 k

/-- R152: PATH_RESET. -/
theorem monitorOk_pathReset {m : Monitor} (h : MonitorOk m) : MonitorOk m.pathReset := by
  obtain ⟨h1, h2, h3, h4, h5, h6, h7, h8, h9, h10⟩ := h
  exact ⟨Nat.zero_le _, h2, fun l => by simp [Monitor.pathReset], Nat.zero_le _, Nat.zero_le _, h6, h7, h8, h9, h10⟩

end Sys2Proof.Machine
end

