-- ==== Sys2Proof/Laws/Operands.lean ====
section
/-! SUPPORT. What the readers of single parameter fields make of a field that was written from a value. -/

namespace Sys2Proof.Machine

theorem toNat_ofNat_byte {n : Nat} (h : n < 256) : (BitVec.ofNat 8 n).toNat = n := by
  rw [BitVec.toNat_ofNat]; omega

theorem below_ofNat {n m : Nat} (h : m < n) (hn : n ≤ 256) : below? n (BitVec.ofNat 8 m) = some ⟨m, h⟩ := by
  simp [below?, Nat.mod_eq_of_lt (show m < 256 by omega), h]

theorem below_none {n : Nat} {b : Byte} (h : n ≤ b.toNat) : below? n b = none := by
  simp [below?]; omega

theorem tag_ofNat (t : BitVec 4) : tag? (BitVec.ofNat 8 t.toNat) = some t := by
  have := t.isLt
  simp [tag?, Nat.mod_eq_of_lt (show t.toNat < 256 by omega)]
  omega

theorem planGroup_ofNat (g : Fin 16) : planGroup? (BitVec.ofNat 8 (96 + g.val)) = some g := by
  have := g.isLt
  simp [planGroup?, Nat.mod_eq_of_lt (show 96 + g.val < 256 by omega)]
  omega

theorem planMode_ofCode (m : PlanMode) : PlanMode.ofCode? (BitVec.ofNat 8 m.code) = some m := by cases m <;> rfl

theorem gain_ofCode (g : Gain) : gain? (BitVec.ofNat 8 g.toCode) = some g := by
  cases g with
  | code c => have := c.isLt; simp [gain?, Gain.toCode, Nat.mod_eq_of_lt (show c.val < 256 by omega)]
  | off => simp [gain?, Gain.toCode]

theorem secondary_ofCode (o : Option (Fin 98)) : secondary? (secondaryCode o) = some o := by
  cases o with
  | none => rfl
  | some x => have := x.isLt; simp [secondaryCode, secondary?]; omega

theorem secondaryCode_lt (o : Option (Fin 98)) : secondaryCode o < 128 := by
  cases o with
  | none => decide
  | some x => have := x.isLt; simp only [secondaryCode]; omega

/-- A field of seven bits and one bit above it in one byte. -/
theorem seven_and_one (n : Nat) (b : Bool) (h : n < 128) :
    (BitVec.ofNat 8 (n + bit b * 128)).toNat % 128 = n ∧ (BitVec.ofNat 8 (n + bit b * 128)).getLsbD 7 = b := by
  constructor
  · cases b <;> simp [bit] <;> omega
  · rw [BitVec.getLsbD, Nat.testBit_eq_decide_div_mod_eq, toNat_ofNat_byte (by cases b <;> simp [bit] <;> omega)]
    cases b <;> simp [bit] <;> omega

theorem mode_ofBit (m : Mode) : ∃ b, m.code = bit b ∧ Mode.ofBit b = m := by
  cases m
  · exact ⟨false, rfl, rfl⟩
  · exact ⟨true, rfl, rfl⟩

/-- The number that the two bytes of `be16` spell. -/
theorem be16_spells {n : Nat} (h : n < 65536) :
    (BitVec.ofNat 8 (n / 256)).toNat * 256 + (BitVec.ofNat 8 n).toNat = n := by
  simp; omega

end Sys2Proof.Machine
end

