-- ==== Sys2Proof/Laws/Packets.lean ====
section
/-! SUPPORT. The words of sequence counts, kinds, samples and sets, and what the packet reader takes from an area. -/

namespace Sys2Proof.Machine

theorem wordByte_withParity (b : Byte) : wordByte (withParity b) = b := by revert b; decide
theorem parityOk_withParity (b : Byte) : parityOk (withParity b) = true := by revert b; decide
theorem kindGroup_kindWord (g : Fin 4) : kindGroup (kindWord g) = some g := by revert g; decide

/-- The three words of a sample spell it back. -/
theorem wordsSample_sampleWords (x : Sample) :
    wordsSample (x.value.extractLsb' 0 10) (x.value.extractLsb' 10 10)
      ((0 : BitVec 2) ++ BitVec.ofBool x.z ++ BitVec.ofBool x.c ++ BitVec.ofBool x.u ++ BitVec.ofBool x.v
        ++ x.value.extractLsb' 20 4) = x := by
  obtain ⟨v, a, b, c, d⟩ := x
  simp only [wordsSample, Sample.mk.injEq]
  refine ⟨?_, ?_, ?_, ?_, ?_⟩
  · apply BitVec.eq_of_getLsbD_eq
    intro i hi
    simp only [BitVec.getLsbD_append, BitVec.getLsbD_extractLsb']
    by_cases h1 : i < 10
    · simp [h1]
    · by_cases h2 : i - 10 < 10
      · simp [h1, h2]; congr 1; omega
      · have h3 : i - 10 - 10 < 4 := by omega
        simp [h1, h2, h3]; congr 1; omega
  all_goals simp only [BitVec.getLsbD_append]; simp

/-- The four things of a bank of four. -/
theorem bank_four {α : Type} (b : Bank α 4) : ∃ p q r t, ∃ h, b = ⟨[p, q, r, t], h⟩ := by
  obtain ⟨l, h⟩ := b
  match l, h with
  | [p, q, r, t], h => exact ⟨p, q, r, t, h, rfl⟩

theorem setWords_length (x : SampleSet) : (setWords x).length = 12 := by
  obtain ⟨p, q, r, t, h, e⟩ := bank_four x.ch
  simp [setWords, e, sampleWords]

theorem flatMap_setWords_length (xs : List SampleSet) : (xs.flatMap setWords).length = 12 * xs.length := by
  induction xs with
  | nil => rfl
  | cons x xs ih => rw [List.flatMap_cons, List.length_append, ih, setWords_length, List.length_cons]; omega

/-- One set more at the head of a payload. -/
theorem payloadSets_setWords (x : SampleSet) (rest : List LaneWord) (hd : x.d = false) :
    payloadSets (setWords x ++ rest) = x :: payloadSets rest := by
  obtain ⟨ch, d⟩ := x
  obtain ⟨p, q, r, t, h, e⟩ := bank_four ch
  simp only at hd
  subst hd e
  simp only [setWords, List.flatMap, List.map, List.flatten, sampleWords, List.cons_append, List.nil_append,
    List.append_eq, payloadSets, wordsSample_sampleWords]

/-- A packet of `m` sets takes 7 + 12 m words. -/
theorem makePacket_length (g : Fin 4) (seq : Byte) (sets : List SampleSet) :
    (makePacket g seq sets).words.length = 7 + 12 * sets.length := by
  simp only [Packet.words, makePacket, markWords, List.length_append, List.length_cons, List.length_nil,
    flatMap_setWords_length]
  omega

/-- A packet that is found stands at the head of the words, and the rest follows it. -/
theorem findPacket_words {ws rest : List LaneWord} {p : Packet} (h : findPacket ws = .packet p rest) :
    p.words ++ rest = ws ∧ 7 ≤ p.words.length := by
  unfold findPacket at h
  split at h
  · next m1 m2 m3 tl =>
    split at h
    · next hm =>
      split at h
      · next kind seq len tail =>
        split at h
        · cases h
        · split at h
          · cases h
          · split at h
            · cases h
            · next check after hd =>
              injection h with h1 h2
              subst h1 h2
              constructor
              · simp only [Packet.words, ← hm, List.cons_append, List.nil_append, List.append_assoc]
                rw [← hd, List.take_append_drop]
              · simp [Packet.words, markWords]
      · cases h
    · cases h
  · cases h

/-- The packets that a walk passes take no more words than there are. -/
theorem walkFrom_length (fuel : Nat) : ∀ (pos : Nat) (ws : List LaneWord),
    ((walkFrom fuel pos ws).1.flatMap fun x => x.2.words).length ≤ ws.length := by
  induction fuel with
  | zero => intro pos ws; simp [walkFrom]
  | succ n ih =>
    intro pos ws
    simp only [walkFrom]
    split
    · simp
    · simp
    · next p rest h =>
      have h1 := (findPacket_words h).1
      have h2 := ih (pos + p.words.length) rest
      have h3 := congrArg List.length h1
      simp only [List.flatMap_cons, List.length_append] at *
      omega

end Sys2Proof.Machine
end

