-- ==== Sys2Proof/Laws/Ports.lean ====
section
/-! SUPPORT. What the bits of whole bytes do to a control line port (R166), and the sum that a check byte makes. -/

namespace Sys2Proof.Machine

/-- The eight bits of a byte, most significant first. -/
def byteBits (b : Byte) : List Bool := (List.range 8).map fun i => b.getMsbD i

theorem bitsByte_byteBits (b : Byte) : bitsByte (byteBits b) = b := by revert b; decide

theorem bitsOf_cons (b : Byte) (bs : List Byte) : bitsOf (b :: bs) = byteBits b ++ bitsOf bs := rfl

/-- A clock period of a frame that is judged, but for the delivery of a response. -/
theorem Port.clock_spec {p : Port} (h1 : p.selected = true) (h2 : p.skip = false) (b : Bool) :
    ∃ d, p.clock b = { p.shift b with delivered := d } :=
  ⟨(p.shift b).delivers || p.delivered, by simp [Port.clock, h1, h2]⟩

/-- R166: a bit that does not complete a byte. -/
theorem Port.shift_short {p : Port} (h : p.bits.length < 7) (b : Bool) :
    p.shift b = { p with bits := p.bits ++ [b] } := by simp [Port.shift, h]

/-- R166: a bit that completes a byte. -/
theorem Port.shift_full {p : Port} (h : p.bits.length = 7) (b : Bool) :
    p.shift b = { p with bits := [], length := p.length + 1,
                         stored := if p.stored.length < 28 then p.stored ++ [bitsByte (p.bits ++ [b])]
                                   else p.stored } := by
  simp [Port.shift, h]

/-- R166: bits that do not complete a byte. -/
theorem Port.clockAll_short (bs : List Bool) : ∀ {p : Port}, p.selected = true → p.skip = false →
    p.bits.length + bs.length < 8 → ∃ d, p.clockAll bs = { p with bits := p.bits ++ bs, delivered := d } := by
  induction bs with
  | nil => intro p _ _ _; exact ⟨p.delivered, by simp [Port.clockAll]⟩
  | cons b bs ih =>
    intro p h1 h2 h3
    simp only [List.length_cons] at h3
    obtain ⟨d, hd⟩ := Port.clock_spec h1 h2 b
    rw [Port.shift_short (by omega)] at hd
    obtain ⟨d2, hd2⟩ := ih (p := p.clock b) (by rw [hd]; exact h1) (by rw [hd]; exact h2) (by rw [hd]; simp; omega)
    refine ⟨d2, ?_⟩
    rw [show p.clockAll (b :: bs) = (p.clock b).clockAll bs from rfl, hd2, hd]
    simp

/-- R166: the eight bits of a byte, from a whole number of bytes. -/
theorem Port.clockAll_byte {p : Port} (h1 : p.selected = true) (h2 : p.skip = false) (h3 : p.bits = []) (b : Byte) :
    ∃ d, p.clockAll (byteBits b)
      = { p with length := p.length + 1, stored := if p.stored.length < 28 then p.stored ++ [b] else p.stored,
                 delivered := d } := by
  have hb : byteBits b = (byteBits b).take 7 ++ [b.getMsbD 7] := rfl
  obtain ⟨d, hd⟩ := Port.clockAll_short ((byteBits b).take 7) h1 h2 (by rw [h3]; simp [byteBits])
  rw [h3, List.nil_append] at hd
  generalize hq : p.clockAll ((byteBits b).take 7) = q at hd
  have hql : q.bits.length = 7 := by rw [hd]; rfl
  obtain ⟨d2, hd2⟩ := Port.clock_spec (p := q) (by rw [hd]; exact h1) (by rw [hd]; exact h2) (b.getMsbD 7)
  rw [Port.shift_full hql] at hd2
  refine ⟨d2, ?_⟩
  have hq2 : p.clockAll (byteBits b) = q.clock (b.getMsbD 7) := by
    rw [← hq, hb]
    simp only [Port.clockAll, List.foldl_append, List.foldl_cons, List.foldl_nil]
    rw [← hb]
  have hbits : q.bits ++ [b.getMsbD 7] = byteBits b := by rw [hd]; rfl
  rw [hq2, hd2, hbits, bitsByte_byteBits, hd, h3]

/-- R166: the bits of whole bytes, at most 28 of which are stored. -/
theorem Port.clockAll_bytes (bs : List Byte) : ∀ {p : Port}, p.selected = true → p.skip = false → p.bits = [] →
    p.stored.length + bs.length ≤ 28 →
    ∃ d, p.clockAll (bitsOf bs)
      = { p with length := p.length + bs.length, stored := p.stored ++ bs, delivered := d } := by
  induction bs with
  | nil => intro p _ _ _ _; exact ⟨p.delivered, by simp [Port.clockAll, bitsOf]⟩
  | cons b bs ih =>
    intro p h1 h2 h3 h4
    simp only [List.length_cons] at h4
    obtain ⟨d, hd⟩ := Port.clockAll_byte h1 h2 h3 b
    rw [if_pos (by omega)] at hd
    obtain ⟨d2, hd2⟩ := ih (p := p.clockAll (byteBits b)) (by rw [hd]; exact h1) (by rw [hd]; exact h2)
      (by rw [hd]; exact h3) (by rw [hd]; simp; omega)
    refine ⟨d2, ?_⟩
    rw [bitsOf_cons, show p.clockAll (byteBits b ++ bitsOf bs) = (p.clockAll (byteBits b)).clockAll (bitsOf bs) from by
      simp [Port.clockAll], hd2, hd]
    simp
    omega

/-- R166: the check byte makes the sum of all bytes a multiple of 256. -/
theorem sum_closed (bs : List Byte) : (closed bs).foldl (fun a b => a + b) 0 = 0 := by
  simp only [closed, List.foldl_append, List.foldl_cons, List.foldl_nil, checkByte]
  generalize bs.foldl (fun a b => a + b) 0 = x
  simp

end Sys2Proof.Machine
end

