-- ==== Sys2Proof/Laws/Stores.lean ====
section
/-! SUPPORT. How many sets a store holds, and in which state it is, after each operation on it (R40 to R52), and the
same for the 32 stores of the part. -/

set_option Elab.async false

namespace Sys2Proof.Machine

/-- R40, Table 3-1: a strip store in order. -/
def Store.stripOk (st : Store) : Prop := st.fill ≤ 64 ∧ st.state ≠ .holding ∧ st.reads ≤ 480

/-- R40, Table 3-1: an embed store in order. -/
def Store.embedOk (st : Store) : Prop :=
  st.fill ≤ 64 ∧ (st.state = .holding ∨ st.state = .flowing) ∧ st.reads ≤ 480

theorem readsNext_le (n : Nat) : readsNext n ≤ 480 := by unfold readsNext; split <;> omega

/-- R42, R44: a write to a strip store. -/
theorem Store.stripOk_write {st : Store} (h : st.stripOk) (x : SampleSet) : (st.write x).stripOk := by
  obtain ⟨h1, h2, h3⟩ := h
  simp only [Store.stripOk, Store.fill] at *
  unfold Store.write
  split
  · exact ⟨h1, h2, h3⟩
  · next e => exact absurd e h2
  · next e =>
    simp only [Store.fill]
    split
    · refine ⟨by simp; omega, by split <;> simp, ?_⟩
      simp only; split <;> omega
    · exact ⟨h1, by simp [Store.faultAccess, e], h3⟩
  · next e =>
    simp only [Store.fill]
    split
    · exact ⟨by simp; omega, by simp [e], h3⟩
    · exact ⟨h1, by simp [Store.faultAccess, e], h3⟩

/-- R44, R49: a write to an embed store. -/
theorem Store.embedOk_write {st : Store} (h : st.embedOk) (x : SampleSet) : (st.write x).embedOk := by
  obtain ⟨h1, h2, h3⟩ := h
  simp only [Store.embedOk, Store.fill] at *
  unfold Store.write
  split
  · exact ⟨h1, h2, h3⟩
  · next e => exact ⟨by simp [Store.fill]; omega, by simp [e], h3⟩
  · next e => simp [e] at h2
  · next e =>
    simp only [Store.fill]
    split
    · exact ⟨by simp; omega, by simp [e], h3⟩
    · exact ⟨h1, by simp [Store.faultAccess, e], h3⟩

/-- R45 to R47: the fill, the reads and the state after a read of either kind of store. -/
theorem Store.read_spec (b : Bool) (st : Store) :
    (st.read b).1.fill ≤ st.fill ∧ (st.read b).1.reads ≤ 480
      ∧ ((st.read b).1.state = st.state ∨ b = true ∧ (st.read b).1.state = .priming) := by
  have hr := readsNext_le st.reads
  unfold Store.read
  split
  · exact ⟨Nat.le_refl _, Nat.zero_le _, .inl rfl⟩
  · next hs => exact ⟨by simp [Store.fill, hs]; omega, Nat.zero_le _, .inl rfl⟩
  · next hs _ _ => exact ⟨by simp [Store.fill, Store.readNormal, hs], hr, .inl rfl⟩
  · cases b
    · exact ⟨Nat.le_refl _, by simpa using hr, .inl rfl⟩
    · exact ⟨Nat.le_refl _, Nat.zero_le _, .inr ⟨rfl, rfl⟩⟩

theorem Store.stripOk_read {st : Store} (h : st.stripOk) : (st.read true).1.stripOk := by
  obtain ⟨h1, h2, h3⟩ := h
  obtain ⟨a, b, c⟩ := Store.read_spec true st
  refine ⟨Nat.le_trans a h1, ?_, b⟩
  rcases c with c | ⟨_, c⟩
  · rw [c]; exact h2
  · rw [c]; simp

theorem Store.embedOk_read {st : Store} (h : st.embedOk) : (st.read false).1.embedOk := by
  obtain ⟨h1, h2, h3⟩ := h
  obtain ⟨a, b, c⟩ := Store.read_spec false st
  refine ⟨Nat.le_trans a h1, ?_, b⟩
  rcases c with c | ⟨hc, _⟩
  · rw [c]; exact h2
  · cases hc

/-- R43: a flush. -/
theorem Store.stripOk_flush {st : Store} (h : st.stripOk) : st.flush.stripOk := by
  unfold Store.flush
  split
  · exact h
  · simp [Store.stripOk, Store.fill]

/-- R42: the opening of an IDLE store. -/
theorem Store.stripOk_open {st : Store} (h : st.stripOk) : st.openIdle.stripOk := by
  unfold Store.openIdle
  split
  · simp [Store.stripOk, Store.fill]
  · exact h

theorem Store.embedOk_toFlowing {st : Store} (h : st.embedOk) : st.toFlowing.embedOk := by
  unfold Store.toFlowing
  split
  · exact h
  · exact ⟨h.1, .inr rfl, Nat.zero_le _⟩

theorem Store.embedOk_toHolding {st : Store} (h : st.embedOk) : st.toHolding.embedOk := by
  unfold Store.toHolding
  split
  · exact ⟨h.1, .inl rfl, h.2.2⟩
  · exact h

/-- R51: a head discard. -/
theorem Store.embedOk_discard {st : Store} (h : st.embedOk) (k : Nat) : (st.discard k).embedOk := by
  obtain ⟨h1, h2, h3⟩ := h
  exact ⟨by simp [Store.discard, Store.fill] at *; omega, h2, h3⟩

theorem storesOk_iff (s : State) : StoresOk s ↔ ∀ g, (s.strip.get g).stripOk ∧ (s.embed.get g).embedOk := by
  constructor
  · intro h g
    exact ⟨⟨(h.1 g).1, (h.2 g).1, (h.2 g).2.2.1⟩, ⟨(h.1 g).2, (h.2 g).2.1, (h.2 g).2.2.2⟩⟩
  · intro h
    exact ⟨fun g => ⟨(h g).1.1, (h g).2.1⟩, fun g => ⟨(h g).1.2.1, (h g).2.2.1, (h g).1.2.2, (h g).2.2.2⟩⟩

/-- An update of one strip store that keeps it in order. -/
theorem storesOk_updStrip {s : State} (h : StoresOk s) (g : Fin 16) {f : Store → Store}
    (hf : ∀ st : Store, st.stripOk → (f st).stripOk) : StoresOk (s.updStrip g f) := by
  rw [storesOk_iff] at *
  intro k
  simp only [State.updStrip_strip, State.updStrip_embed, Bank.get_upd]
  split
  · exact ⟨hf _ (h k).1, (h k).2⟩
  · exact h k

/-- An update of one embed store that keeps it in order. -/
theorem storesOk_updEmbed {s : State} (h : StoresOk s) (g : Fin 16) {f : Store → Store}
    (hf : ∀ st : Store, st.embedOk → (f st).embedOk) : StoresOk (s.updEmbed g f) := by
  rw [storesOk_iff] at *
  intro k
  simp only [State.updEmbed_strip, State.updEmbed_embed, Bank.get_upd]
  split
  · exact ⟨(h k).1, hf _ (h k).2⟩
  · exact h k

/-- What leaves both kinds of stores alone keeps them in order. -/
theorem storesOk_of_keeps {A : List Part} {s t : State} (h : StoresOk s) (hk : Keeps A s t)
    (h1 : Part.strip ∉ A := by decide) (h2 : Part.embed ∉ A := by decide) : StoresOk t := by
  rw [storesOk_iff] at *
  intro g
  rw [hk.strip h1, hk.embed h2]
  exact h g

end Sys2Proof.Machine
end

