-- ==== Sys2Proof/Tests/Slice0.lean ====
section
/-! SUPPORT. Small checks of single steps, with figures from the manual's worked sequences and tables, the smoke tests
of WellFormed, and for every obligation with hypotheses a witness that meets them. Each test names the section its
figures come from; a witness is named after its obligation. -/

/- One theorem after another: many small proofs at once ask for more threads than the check's memory limit allows. -/
set_option Elab.async false

namespace Sys2Proof.Tests

open Sys2Proof.Machine

/-! ### Helpers -/

/-- The state of an outcome, if it is a next state. -/
def out : Host.Outcome State Fault Refusal → Option State
  | .next s => some s
  | .fault _ => none
  | .refused _ => none

/-- A value read from the state after a command. -/
def after {α : Type} (c : Instr) (s : State) (f : State → α) : Option α := (out (exec c s)).map f

/-- A frame with ticket 7 at the head of line `l`'s queue. -/
def queued (l : Line) (code : Byte) (params : List Byte) (s : State) : State :=
  s.updPort l fun p => { p with queue := [{ code, ticket := 7, params }] }

/-- The status and payload in line `l`'s slot after a command. -/
def answered (l : Line) (c : Instr) (s : State) : Option (Byte × List Byte) :=
  (after c s fun t => (t.port l).slot.map fun r => (r.status, r.payload)).join

/-- The kinds, subjects and details of the notices in line A's queue, once it has taken what is on its way. -/
def noticesA (s : State) : List (List Nat) :=
  (s.eventQueue .a).takeAll.notices.map fun n => [n.kind.code, n.subject.toNat, n.detail.toNat]

/-- A set whose four channels have one value and V = 0. -/
def flatSet (v :
    Value) : SampleSet := { ch := .fill 4 { value := v, v := false, u := false, c := false, z := false }, d := false }

/-- A record of one value with V = 0. -/
def rec_ (v : Value) : Record := { smp := { value := v, v := false, u := false, c := false, z := false }, d := false }

/-- A store that is FLOWING with `n` sets. -/
def flowing (n : Nat) : Store := { Store.reset .flowing with sets := List.replicate n (flatSet 5) }

/-- Lane `l` RUNNING in format `f`, awaiting line `e`, with line `n` in progress and `ws` of its words received. -/
def running (l : Fin 4) (f : Fin 8) (e n : Nat) (ws : List LaneWord) (s : State) : State :=
  ((s.updLane l fun r => { r with state := .running, format := some f, expected := some e, timer := true,
                                  lastLine := some (BitVec.ofNat 11 n), inFrame := true }).updRelay
    l fun r => { r with input := some { number := BitVec.ofNat 11 n, words := ws, rebuilt := none } }).updBuilder
    l fun b => { b with phase := .engaged }

/-- 280 words of filler. -/
def filler : List LaneWord := List.replicate 280 0

/-! ### WellFormed -/

theorem test_wf_carriageLine_length : (Instr.carriageLine 0 ⟨List.replicate 281 0, none⟩).wf = false := by
  decide +kernel
theorem test_wf_houseTick_repeated_flag : (Instr.houseTick (.fill 32 0) [3, 3] false).wf = false := by
  decide
theorem test_wf_pathReset_repeated : (Instr.pathReset ⟨.c, [.lanes, .lanes]⟩).wf = false := by decide
theorem test_wf_wckEdge_zero : (Instr.wckEdge 0).wf = false := by decide
theorem test_wf_responseDelivered_no_bit : (Instr.responseDelivered .a []).wf = false := by decide
theorem test_wf_houseTick : (Instr.houseTick (.fill 32 0) [3, 4] false).wf = true := by decide

/-! ### The step -/

theorem test_step_idles : (out (step State.reset)).map (fun s => s.pending) = some [] := by decide
theorem test_step_takes_the_front :
    (out (step (State.reset.withPending [.fbkAsserted, .fbkReleased]))).map (fun s => (s.fallback.fbk, s.pending))
      = some (true, [.fbkReleased]) := by decide
theorem test_no_word_spells_a_command : decodeTableWord 8 1 = none := by decide

/-! ### Reset and lanes (chapters 1 and 2) -/

/-- R167, R162: the levels at the end of the reset are taken. -/
theorem test_pinReset : after (.pinReset true false false true) State.reset
    (fun s => (s.fallback.fbk, (s.port .c).skip, (s.port .a).skip)) = some (true, true, false) := by decide

/-- Section 1.10: 241 is expected and 12 arrives. -/
theorem test_lineStart_torn : after (.lineStart 0 12 [] false) (running 0 6 241 240 filler State.reset)
    (fun s => ((s.lanes.get 0).state, (s.lanes.get 0).expected, (s.faults.get 0).map fun c => (c.kind, c.line)))
      = some (.seeking, none, some (.format, 12)) := by decide +kernel

/-- Section 1.9: line 7 of a RUNNING lane engages the builder and lets a group enter EMBED. -/
theorem test_lineStart_switch_line :
    after (.lineStart 2 7 [] false)
        ({ running 2 1 7 6 filler State.reset with plan := State.reset.plan.set 10 .embed })
      (fun s => ((s.embed.get 10).state, (s.lanes.get 2).expected, (s.engine.get 40).trigger))
      = some (.flowing, some 8, true) := by decide +kernel

/-- R2: the oldest waiting line is presented. -/
theorem test_outputLineStart :
    after (.outputLineStart 1) (State.reset.updRelay 1 fun r =>
        { r with waiting := [{ number := 9, words := [], rebuilt := none },
            { number := 10, words := [], rebuilt := none }] })
      (fun s => ((s.relays.get 1).output.map RelayLine.number, (s.relays.get 1).waiting.map RelayLine.number))
      = some (some 9, [10]) := by decide

/-- Section 2.4, second row: an audio packet of group 1 with count 18, in sequence, brings 4 sets. -/
theorem test_carriageLine_packet :
    after (.carriageLine 1 ⟨fillArea (makePacket 0 18 (List.replicate 4 (flatSet 1))).words, none⟩)
      (((running 1 6 144 143 [] State.reset).updGroup 4 fun g =>
        { g with present := true, lastCount := some 17 }).updStrip 4 fun _ => flowing 30)
      (fun s => ((s.groups.get 4).lastCount, (s.strip.get 4).fill, (s.lanes.get 1).accepted, (s.lanes.get 1).gaps))
      = some (some 18, 34, 1, 0) := by decide +kernel

/-- Section 2.4, third row: count 202 where 201 is expected is a gap, and the first set carries D. -/
theorem test_carriageLine_gap :
    after (.carriageLine 1 ⟨fillArea (makePacket 1 202 (List.replicate 3 (flatSet 1))).words, none⟩)
      (((running 1 6 144 143 [] State.reset).updGroup 5 fun g =>
        { g with present := true, lastCount := some 200 }).updStrip 5 fun _ => flowing 33)
      (fun s => (((s.strip.get 5).sets.drop 33).map SampleSet.d, (s.lanes.get 1).gaps,
        (s.faults.get 1).map fun c => (c.kind, c.line)))
      = some ([true, false, false], 1, some (.seqGap, 143)) := by decide +kernel

/-- R48: a walk with two sets to write, for group 1 of lane 1. -/
def twoSets : LaneWork :=
  .walking { line := 143, stamp := 0, no := 0 }
    { sets := [(4, flatSet 1), (4, flatSet 2)], todo := [], entries := [], ending := 280, failed := false }

/-- R48: one access writes one of the two sets, and the other is still to be written. -/
theorem test_carriageLine_one_access :
    after (.carriageLine 1 ⟨[], some 1⟩)
        (((running 1 6 144 143 filler State.reset).updStrip 4 fun _ => flowing 63).setWork 1 twoSets)
      (fun s => ((s.strip.get 4).fill, (s.strip.get 4).overflows, decide (s.work.get 1 = .idle)))
      = some (64, 0, false) := by decide +kernel

/-- R48: the second set then finds the store full. -/
theorem test_carriageLine_rest :
    after (.carriageLine 1 ⟨[], none⟩)
        (((running 1 6 144 143 filler State.reset).updStrip 4 fun _ => flowing 63).setWork 1 twoSets)
      (fun s => ((s.strip.get 4).fill, (s.strip.get 4).overflows, decide (s.work.get 1 = .idle)))
      = some (64, 1, true) := by decide +kernel

/-- R184, R185: FORMAT is offered before the CHECKSUM of a packet still to be judged, raises LANE_FAULT (kind 4), and
is not overwritten by it. -/
theorem test_lineStart_format_first :
    after (.lineStart 0 12 [] false) ((running 0 6 241 240 filler State.reset).setWork 0
        (.walking { line := 240, stamp := 0, no := 0 }
          { sets := [], todo := [(0, { makePacket 0 1 [] with check := 0 })], entries := [], ending := 7,
            failed := false }))
      (fun s => ((s.faults.get 0).map fun c => (c.kind, c.line, c.further), noticesA s))
      = some (some (.format, 12, 1), [[0x32, 0, 12 + 4 * 4096], [0x30, 0, 2 + 1 * 4]]) := by decide +kernel

/-- Section 10.6, last row: LOSS captures the last line number and the stamp. -/
theorem test_lossTimerExpiry :
    after (.lossTimerExpiry 1) ((running 1 6 21 20 [] State.reset).updRef fun r => { r with frameCount := 2213 })
      (fun s => ((s.lanes.get 1).state, (s.faults.get 1).map fun c => (c.kind, c.line, c.stamp)))
      = some (.lost, some (.loss, 20, 2213)) := by decide

/-- Section 2.9: position 191 with captured bit 1 sets the flag. -/
theorem test_channelStatusBlockComplete :
    after (.channelStatusBlockComplete 22) (State.reset.updTracker 22 fun t =>
        { t with collecting := true, pos := 191, bit1 := true }) (fun s => s.trackers.get 22)
      = some { collecting := false, pos := 0, bit1 := true, flag := true } := by decide

/-! ### Arithmetic of one destination (sections 5.15 to 5.17) -/

/-- An entry of gain code 120 with delay 0. -/
def entry (p : Fin 98) (s : Option (Fin 98)) : Entry := { Entry.reset with primary := p, secondary := s }

/-- Cases A to C of Table 5-4: the value of one side in steady state. -/
def steady (e : Entry) (a : Record) (b : Option Record) (factor : Nat) : Int :=
  saturate (rounded (1024 * sideProduct e a b) factor)

theorem test_case_A : steady (entry 0 (some 1)) (rec_ 3000000)
    (some { smp := { value := 2000000, v := true, u := false, c := false, z := false }, d := false }) 1024
        = 3000000 := by
  decide
theorem test_case_B : steady { entry 96 none with gain := .code 108 } (toneRecord 12) none 1024 = 529285 := by decide
theorem test_case_C : steady { entry 0 none with gain := .code 0 } (rec_ 8388607) none 1024 = 8392 := by decide
theorem test_case_E : steady (entry 0 none) (rec_ 1) none 512 = 1 := by decide
theorem test_case_F : steady (entry 0 none) (rec_ (-1)) none 512 = 0 := by decide
theorem test_case_I :
    steady { entry 0 (some 1) with invert := true, gain := .code 144 } (rec_ (-8388608)) (some (rec_ (-8388608))) 1024
      = 8388607 := by decide
/-- Section 5.16, tick 47 of 48. -/
theorem test_crossfade_tick_47 :
    saturate (rounded (mix (rampFactor 47 48) (sideProduct (entry 40 none) (rec_ 4000000) none)
      (sideProduct { entry 41 none with gain := .code 108 } (rec_ (-5000000)) none)) 1024) = -2366161 := by decide
/-- Case L of Table 5-5. -/
theorem test_case_L :
    saturate (rounded (mix (rampFactor 180 480)
      (sideProduct (entry 0 (some 1)) (rec_ 8388607) (some (rec_ 8388607)))
      (sideProduct { entry 0 (some 1) with invert := true } (rec_ 8388607) (some (rec_ 8388607)))) 1024)
      = 4194304 := by decide

/-- R35, R104: the first tick after a reset appends Z with the tone, and counts tone and blocks. -/
theorem test_houseTick :
    after (.houseTick (.fill 32 0) [] false) State.reset
      (fun s => (s.tone, ((s.hist.get 96).read 0).smp.z, (s.engine.get 5).block, s.ref.t)) = some (1, true, 1, 1) := by
  decide +kernel

/-- Line `l`'s queue takes at its next turns what `ts` says. -/
def turning (l : Line) (ts : List Taking) (s : State) : State := s.updEvents l fun q => { q with turns := ts }

/-- R179, R183: line A takes the overflow of embed store 16 before the underflow of strip store 0, line B each as it is
raised, and line C has still to take both; EV is asserted at a line that has taken one. -/
theorem test_houseTick_offers :
    after (.houseTick (.fill 32 0) [] false) (turning .a [some [], some [1, 0]] (turning .c [some [], some []]
        ((State.reset.updStrip 0 fun _ => flowing 0).updEmbed 0 fun _ => flowing 64)))
      (fun s => [.a, .b, .c].map fun l => ((s.eventQueue l).notices.map fun n => n.subject, (s.eventQueue l).ev))
      = some [([16, 0], true), ([0, 16], true), ([], false)] := by decide +kernel

/-- Section 6.3, lines 1 to 3: the accumulator of format 1. -/
theorem test_accumulator : (accStep 1 0, accStep 1 2393, accStep 1 4786) = ((1, 2393), (1, 4786), (2,
    1564)) := by decide

/-! ### Stores (chapter 3) -/

/-- Section 3.10, tick t+2: a SKIP at 58 sets after 480 reads. -/
theorem test_store_skip : ((({ flowing 58 with reads := 480, corrections := 12 } : Store).read true).1.fill,
    (({ flowing 58 with reads := 480, corrections := 12 } : Store).read true).1.corrections,
    (({ flowing 58 with reads := 480, corrections := 12 } : Store).read true).1.reads) = (56, 13, 0) := by decide

/-- Section 3.11: a read of an empty embed store returns the last set with V = 1 and stays FLOWING. -/
theorem test_store_underflow :
    let r := ({ flowing 0 with reads := 102, last := flatSet 9 } : Store).read false
    (r.1.state, r.1.readMark, r.1.underflows, r.1.reads, (r.2.ch.get 0).v, (r.2.ch.get 0).value)
      = (.flowing, true, 1, 103, true, 9) := by decide

/-- Section 3.11: STORE_STATUS of store 17 on line A. -/
theorem test_storeStatus :
    answered .a (.storeStatus .a) (queued .a 0x30 [17] (State.reset.updEmbed 1 fun _ =>
        { flowing 1 with reads := 104, since := .fill 3 true, latch := true, underflows := 2, corrections := 5 }))
      = some (0, [17, 2, 1, 0, 104, 6, 0, 2, 0, 0, 0, 5]) := by decide

/-- Section 3.11: STORE_CLEAR of store 17. -/
theorem test_storeClear :
    after (.storeClear .b) (queued .b 0x31 [17] (State.reset.updEmbed 1 fun _ =>
        { flowing 1 with latch := true, underflows := 2, corrections := 5 }))
      (fun s => ((s.embed.get 1).latch, (s.embed.get 1).underflows, (s.embed.get 1).fill)) = some (false, 0, 1) := by
  decide

/-! ### Engine completions and monitors (chapters 5 and 7) -/

/-- Section 5.16: after tick 48 the crossfade is none. -/
theorem test_crossfadeEnd :
    after (.crossfadeEnd 12) (State.reset.updDest 12 fun d =>
        { d with xfade := some { old := Entry.reset, len := 48, i := 48 } }) (fun s => (s.engine.get 12).xfade)
      = some none := by decide

/-- R97: j = 32 becomes idle. -/
theorem test_softEntryComplete :
    after (.softEntryComplete 12) (State.reset.updDest 12 fun d => { d with j := some 32 })
      (fun s => (s.engine.get 12).j) = some none := by decide

/-- The monitor of section 7.8. -/
def monitor66 : Monitor :=
  { Monitor.reset with enable := true, ns := 3, edge := .both, overloadEvent := true, activity := .measuring,
                       ticks := 480 }

/-- Section 7.8, window 3: SILENT at count 3, with SILENCE_ON of detail 3. -/
theorem test_windowComplete_silence :
    after .windowComplete (State.reset.updMonitor 66 fun _ => { monitor66 with silenceCount := 2, peak := 1500 })
      (fun s => ((s.monitors.get 66).silent, (s.monitors.get 66).silenceCount, noticesA s))
      = some (true, 3, [[0x20, 66, 3]]) := by decide +kernel

/-- Section 7.8, window 6: OVERLOAD with cause CLIP. -/
theorem test_windowComplete_overload :
    after .windowComplete (State.reset.updMonitor 66 fun _ => { monitor66 with peak := 8388607, clip := true })
      (fun s => ((s.monitors.get 66).overloaded, (s.monitors.get 66).holds.get 0, noticesA s))
      = some (true, 8388607, [[0x22, 66, 0]]) := by decide +kernel

/-- Section 7.8: MON_SET of destination 66 opens a fresh window. Ts 2,653 is 0x000A5D, To 7,476,353 is 0x721481. -/
theorem test_monSet :
    after (.monSet .c) (queued .c 0x38 [66, 0x0F, 0x00, 0x0A, 0x5D, 0x72, 0x14, 0x81, 0x00, 0x03] State.reset)
      (fun s => (s.monitors.get 66)) = some { monitor66 with ticks := 0 } := by decide

/-- Section 7.9: a read taken first returns the last peak and line B's hold. 40,000 is 0x009C40, 60,000 0x00EA60. -/
theorem test_meterRead :
    answered .b (.meterRead .b) (queued .b 0x39 [41] (State.reset.updMonitor 41 fun m =>
        { m with activity := .measuring, ticks := 479, peak := 90000, lastPeak := 40000, holds := .fill 3 60000 }))
      = some (0, [41, 0x00, 0x9C, 0x40, 0x00, 0xEA, 0x60, 0, 0, 2]) := by decide

/-! ### Reference and fallback (chapter 8) -/

/-- R154: 20.83 us is good, 31.25 us is missing. -/
theorem test_wckEdge_good : after (.wckEdge 20830000) (State.reset.updRef fun r => { r with intervalOpen := true })
    (fun s => s.ref.good) = some 1 := by decide
theorem test_wckEdge_late :
    after (.wckEdge 31250000) (State.reset.updRef fun r => { r with intervalOpen := true, good := 40 })
      (fun s => s.ref.good) = some 0 := by decide
theorem test_wckMissingInterval :
    after .wckMissingInterval
        (State.reset.updRef fun r => { r with state := .locked, edgeSeen := true, intervalOpen := true })
      (fun s => (s.ref.nonGood, s.ref.intervalOpen)) = some (1, false) := by decide
theorem test_refLock : after .refLock (State.reset.updRef fun r => { r with good := 480, recent := [20833333] })
    (fun s => (s.ref.state, s.ref.period480, noticesA s)) = some (.locked, 20833333, [[0x40, 0, 4]]) := by decide
theorem test_refHoldover : after .refHoldover (State.reset.updRef fun r => { r with state := .locked, nonGood := 2 })
    (fun s => (s.ref.state, noticesA s)) = some (.holdover, [[0x40, 0, 9]]) := by decide

/-- Section 8.6: frame 3 of house format 1 ends at t = 1601. -/
theorem test_houseFrameBoundary :
    after .houseFrameBoundary (State.reset.updRef fun r =>
        { r with format := 1, k := 3, t := 1601, frameCount := 4001, boundaryDue := true })
      (fun s => (s.ref.k, s.ref.t, s.ref.frameCount)) = some (4, 0, 4002) := by decide
theorem test_frame_lengths : (List.range 5).map (fun k => houseFrameLength 1 (k + 1)) = [1601, 1602, 1601, 1602,
    1602] := by
  decide

/-- Section 8.6: a pulse at t = 700 takes a boundary, one at t = 3 is guarded. -/
theorem test_hfpPulse :
    after .hfpPulse (State.reset.updRef fun r => { r with format := 1, k := 4, t := 700, frameCount := 4002 })
      (fun s => (s.ref.k, s.ref.t, s.ref.frameCount, noticesA s)) = some (5, 0, 4003, [[0x40, 1, 4]]) := by decide
theorem test_hfpPulse_guarded :
    after .hfpPulse
        (State.reset.updRef fun r => { r with format := 1, k := 5, t := 3, frameCount := 4003, hfp := true })
      (fun s => (s.ref.k, s.ref.t, s.ref.frameCount)) = some (5, 3, 4003) := by decide

/-- Section 8.5: an armed part with FBK asserted; lane 0 RUNNING goes to ENTERING, lane 2 to IN. -/
theorem test_fbkAsserted :
    after .fbkAsserted { running 0 4 2 1 [] State.reset with fallback := { state := .armed, fbk := false } }
      (fun s => (s.fallback.state, (s.builders.get 0).bypass, (s.builders.get 2).bypass))
      = some (.tripped, .entering, .inside) := by decide
theorem test_fbkReleased : after .fbkReleased { State.reset with fallback := { state := .tripped, fbk := true } }
    (fun s => s.fallback) = some { state := .tripped, fbk := false } := by decide
/-- Section 8.5, first row: ARM from line A into an asserted FBK. -/
theorem test_fallbackArm :
    (answered .a (.fallbackArm .a) (queued .a 0x50 [] { State.reset with fallback := .reset true }),
      after (.fallbackArm .a) (queued .a 0x50 [] { State.reset with fallback := .reset true }) noticesA)
      = (some (0, [2]), some [[0x41, 0, 0x54], [0x41, 0, 0x09]]) := by decide
/-- Section 8.5: DISARM from line C; a lane out of RUNNING goes to OUT at once. -/
theorem test_fallbackDisarm :
    after (.fallbackDisarm .c) (queued .c 0x51 [] ({ running 0 4 2 1 [] State.reset with
        fallback := { state := .tripped, fbk := false },
        builders := .fill 4 { phase := .engaged, acc := 0, bypass := .inside } }))
      (fun s => ((s.builders.get 0).bypass, (s.builders.get 2).bypass, (s.engine.get 32).trigger))
      = some (.leaving, .out, true) := by decide

/-! ### Control lines (chapters 9 and 11) -/

/-- The bits of bytes, most significant first. -/
def bits (bs : List Byte) : List Bool := bs.flatMap fun b => (List.range 8).map fun i => b.getMsbD i

/-- R174, R172: with an empty slot the part sends 5A 00 00 00 A6. -/
theorem test_selectAsserted : after (.selectAsserted .a) State.reset (fun s => (s.port .a).copy.map OutCopy.bytes)
    = some (some [0x5A, 0x00, 0x00, 0x00, 0xA6]) := by decide

/-- A port whose select was just asserted. -/
def selected (l : Line) (s : State) : State := s.updPort l Port.select

/-- Section 9.1: IDENT with ticket 7 is 02 07 00 F7. -/
theorem test_commandFrameEnd_queues :
    after (.commandFrameEnd .a (bits [0x02, 0x07, 0x00, 0xF7])) (selected .a State.reset) (fun s => (s.port .a).queue)
      = some [{ code := 2, ticket := 7, params := [] }] := by decide +kernel
/-- Section 9.9: ticket 11, check byte off by one. -/
theorem test_commandFrameEnd_check :
    answered .b (.commandFrameEnd .b (bits [0x02, 0x0B, 0x00, 0xF4])) (selected .b State.reset)
      = some (7, []) := by decide
/-- R175: 40 bits of a response without payload deliver it. -/
theorem test_responseDelivered :
    after (.responseDelivered .a (bits [1, 0, 0, 0xFF, 0])) (selected .a (State.reset.updPort .a fun p =>
        { p with slot := some { ticket := 9, status := 0, payload := [] } })) (fun s => (s.port .a).delivered)
      = some true := by decide +kernel
theorem test_poll : answered .b (.poll .b) (queued .b 0x01 []
    (State.reset.updPort .b fun p => { p with framing := true }))
    = some (0, [2, 0, 1]) := by decide
theorem test_ident : answered .c (.ident .c) (queued .c 0x02 [] State.reset) = some (0, [0x19, 0x10,
    0x01]) := by decide

/-! ### The track map (chapter 4) -/

/-- The entry bytes of section 4.9, first row: primary 16, secondary absent, gain 120, PCM, delay 0, ramp 2. -/
theorem test_mapStage :
    after (.mapStage .a) (queued .a 0x10 [4, 3, 0x10, 0x7F, 0x78, 0x40, 0x00] State.reset)
        (fun s => s.stagedDest.get 4)
      = some (some { body := { primary := 16, secondary := none, gain := .code 120, invert := false, mode := .pcm,
                               delay := 0, ramp := 2 }, tag := 3, stager := .a }) := by decide
/-- R61: a DATA entry with gain 108 is refused. -/
theorem test_mapStage_data :
    answered .a (.mapStage .a) (queued .a 0x10 [4, 3, 0x10, 0xFF, 0x6C, 0x40, 0x00] State.reset) = some (3, []) := by
  decide
/-- Section 4.9: PLAN_STAGE of item 97, EMBED. -/
theorem test_planStage :
    after (.planStage .a) (queued .a 0x18 [97, 3, 2] State.reset) (fun s => s.stagedPlan.get 1)
      = some (some { body := .embed, tag := 3, stager := .a }) := by decide
theorem test_mapDrop : answered .a (.mapDrop .a) (queued .a 0x11 [97] State.reset) = some (0, [0]) := by decide

/-- A staged record of destination 37, as in section 4.10. -/
def staged37 (s : State) : State :=
  { s with stagedDest := s.stagedDest.set 37 (some { body := entry 43 none, tag := 11, stager := .b }) }

/-- Section 4.10: tag 11 supersedes a HELD item of line A. -/
theorem test_mapTake :
    (answered .b (.mapTake .b) (queued .b 0x12 [11] ((staged37 State.reset).setTakes 2
        [{ body := .dest 37 (entry 42 none), tag := 2, stager := .a, held := true }])),
      after (.mapTake .b) (queued .b 0x12 [11] ((staged37 State.reset).setTakes 2
        [{ body := .dest 37 (entry 42 none), tag := 2, stager := .a, held := true }]))
        (fun s => (noticesA s, (s.takes.get 2).map fun x => (x.tag, x.held))))
      = (some (0, [1, 1]), some ([[0x03, 37, 2 + 16 + 64 + 11 * 256]], [(11, false)])) := by decide +kernel

/-- Sections 4.9 and 4.10: a boundary applies one item, refuses one and holds one. -/
theorem test_boundary :
    after (.lineStart 0 7 [] true) (((running 0 4 7 6 filler State.reset).setTakes 0
        [{ body := .dest 4 { entry 16 none with ramp := 2 }, tag := 3, stager := .a, held := false },
         { body := .dest 5 (entry 17 none), tag := 3, stager := .a, held := false },
         { body := .dest 7 (entry 19 none), tag := 3, stager := .a, held := false }]).setOwner 7 (some .b)
        |>.updDest 5 fun d => { d with xfade := some { old := Entry.reset, len := 480, i := 3 } })
      (fun s => ((s.engine.get 4).remaining, (s.takes.get 0).map (fun x => x.body.item), noticesA s))
      = some (480, [5], [[0x02, 7, 3 + 1 * 16 + 2 * 64], [0x01, 3, 0 + 1 * 8 + 1 * 512]]) := by decide +kernel

theorem test_mapRead : answered .a (.mapRead .a) (queued .a 0x13 [37] (staged37 State.reset))
    = some (0, [37, 97, 127, 120, 0x20, 0, 43, 127, 120, 0x20, 0, 0xAB, 0, 0, 0, 0, 0, 0, 0, 0, 4, 0, 0]) := by decide
theorem test_planRead : answered .a (.planRead .a) (queued .a 0x19 [97] (State.reset.setOwner 97 (some .c)))
    = some (0, [97, 0, 0, 0, 0, 0, 3]) := by decide

/-- Section 4.9: line B protects destination 7, and line A is told so. -/
theorem test_protect : after (.protect .b) (queued .b 0x14 [7] State.reset) (fun s => s.owners.get 7)
    = some (some .b) := by decide
theorem test_protect_barred :
    answered .a (.protect .a) (queued .a 0x14 [7] (State.reset.setOwner 7 (some .b))) = some (2, [2]) := by decide
theorem test_release : answered .a (.release .a) (queued .a 0x15 [7] (State.reset.setOwner 7 (some .b)))
    = some (8, []) := by decide
/-- Section 4.11: FORCE_RELEASE of all frees two items. -/
theorem test_forceRelease :
    (answered .c (.forceRelease .c) (queued .c 0x16 [0xFF] ((State.reset.setOwner 80 (some .b)).setOwner 81
        (some .b))),
      after (.forceRelease .c) (queued .c 0x16 [0xFF] ((State.reset.setOwner 80 (some .b)).setOwner 81
          (some .b))) noticesA)
      = (some (0, [2]), some [[0x04, 80, 2], [0x04, 81, 2]]) := by decide +kernel

/-! ### Lanes, reference and events by command -/

/-- Section 1.9, first row. -/
theorem test_laneFormat :
    after (.laneFormat .c) (queued .c 0x20 [2, 1] (State.reset.updLane 2 fun r => { r with lastLine := some 411 }))
      (fun s => ((s.lanes.get 2).state, (s.lanes.get 2).format, noticesA s))
      = some (.seeking, some 1, [[0x30, 2, 4]]) := by decide
theorem test_laneStatus : answered .a (.laneStatus .a) (queued .a 0x21 [3] State.reset)
    = some (0, [3, 0, 0xFF, 0xFF, 0xFF, 2, 0, 0, 0, 0, 0, 0, 0, 0, 0, 0]) := by decide
theorem test_refFormat : after (.refFormat .c) (queued .c 0x22 [6]
    (State.reset.updRef fun r => { r with k := 3, t := 9 }))
    (fun s => (s.ref.format, s.ref.k, s.ref.t)) = some (6, 1, 9) := by decide
theorem test_refStatus : answered .a (.refStatus .a) (queued .a 0x23 [] State.reset)
    = some (0, [0, 0, 0, 0, 0, 0, 0, 1, 0, 0, 0, 0, 0]) := by decide

/-- Section 10.6: the record read by line B; 2,212 is 0x08A4. -/
theorem test_faultRead :
    answered .b (.faultRead .b) (queued .b 0x48 [1] (State.reset.setFault 1
        (some { kind := .format, line := 12, stamp := 2212, further := 3 }))) = some (0, [1, 4, 4, 0, 12, 0x08, 0xA4,
            3]) := by
  decide
theorem test_faultClear :
    after (.faultClear .c) (queued .c 0x49 [1] (State.reset.setFault 1
        (some { kind := .format, line := 12, stamp := 2212, further := 3 }))) (fun s => s.faults.get 1)
            = some none := by
  decide
/-- Section 10.6: FORMAT overwrites MALFORMED, which had overwritten SEQ_GAP. -/
theorem test_capture_severity :
    (((({ kind := .seqGap, line := 143, stamp := 2210, further := 0 } : Capture).take .malformed 143 2210).take
      .checksum 144 2210).take .format 12 2212)
          = { kind := .format, line := 12, stamp := 2212, further := 3 } := by decide

theorem test_eventSubscribe : answered .a (.eventSubscribe .a) (queued .a 0x40 [0x05] State.reset)
    = some (0, [0x1F, 0x05]) := by decide
theorem test_eventSubscribe_invalid : answered .a (.eventSubscribe .a) (queued .a 0x40 [0x20] State.reset)
    = some (3, []) := by decide

/-- Section 10.4: a notice whose count is 812, or 0x032C. -/
def deferLoss : Notice := { kind := .deferLoss, subject := 18, detail := 1, stamp := 812, mark := true }

theorem test_eventFetch :
    answered .a (.eventFetch .a) (queued .a 0x41 []
        (State.reset.updEvents .a fun q => { q with notices := [deferLoss] }))
      = some (0, [0x12, 1, 18, 0, 1, 0x03, 0x2C, 1, 0]) := by decide
/-- Section 10.4: a notice offered to a full queue marks the tail. -/
theorem test_offer_full :
    let q : EventQueue := { subs := 31, notices := List.replicate 31 deferLoss ++ [{ deferLoss with mark := false }],
                            coming := [{ event := 4, notice := { deferLoss with kind := .silenceOn } }], turns := [] }
    q.take (some [4]) = { subs := 31, notices := List.replicate 32 deferLoss, coming := [], turns := [] } := by decide
/-- R182: of a fetch and an offer at an empty queue either may be first. -/
theorem test_eventFetch_either_first :
    let s := fun ts => queued .a 0x41 [] ((turning .a ts State.reset).raise .refState 1 4)
    (answered .a (.eventFetch .a) (s [some [], some []]), answered .a (.eventFetch .a) (s [some [], some [0]]),
        answered .a (.eventFetch .a) (s []))
      = (some (0, []), some (0, [0x40, 4, 1, 0, 4, 0, 0, 0, 0]), some (0, [0x40, 4, 1, 0, 4, 0, 0, 0, 0])) := by decide

/-- R183: the step that raises a notice of a subscribed class asserts EV. -/
theorem test_ev_follows :
    after (.lossTimerExpiry 1) (running 1 6 21 20 [] State.reset) (fun s => (s.eventQueue .b).ev) = some true := by
  decide +kernel

/-- R177: POLL sees what the queue holds; it takes nothing. -/
theorem test_poll_takes_nothing :
    answered .a (.poll .a) (queued .a 0x01 [] ((turning .a [some []] State.reset).raise .refState 1 4))
      = some (0, [1, 0, 0]) := by decide

/-- R165: the strip stores go to IDLE, a held item to WAITING; the tone count stays. -/
theorem test_pathReset :
    after (.pathReset ⟨.c, allBlocks⟩) (queued .c 0x52 [] ({
        (State.reset.updStrip 3 fun _ => flowing 5) with tone := 17 }.setTakes 2
        [{ body := .dest 37 (entry 42 none), tag := 2, stager := .a, held := true }]))
      (fun s => ((s.strip.get 3).state, (s.takes.get 2).map TakeItem.held, s.tone, noticesA s))
      = some (.idle, [false], 17, [[0x42, 0, 0]]) := by decide +kernel

/-- R165, R79: the track map alone takes the reset; the crossfade goes on and there is no answer yet. -/
theorem test_pathReset_one_block :
    after (.pathReset ⟨.c, [.trackMap]⟩) (queued .c 0x52 [] ((State.reset.setTakes 2
        [{ body := .dest 37 (entry 42 none), tag := 2, stager := .a, held := true }]).updDest 37 fun d =>
          { d with xfade := some { old := Entry.reset, len := 48, i := 3 } }))
      (fun s => ((s.takes.get 2).map TakeItem.held, (s.engine.get 37).crossfading, s.handed, (s.port .c).slot,
        (s.port .c).queue.length)) = some ([false], true, [.trackMap], none, 1) := by decide +kernel

/-- R166: data out is driven only while select is asserted; 5A begins with 0 and goes on with 1. -/
theorem test_dataOut :
    ((State.reset.port .a).dataOut, ((selected .a State.reset).port .a).dataOut,
      (((selected .a State.reset).port .a).clock true).dataOut) = (none, some false, some true) := by decide

/-! ### Witnesses: states and operands that meet the hypotheses of the obligations -/

theorem next_of_out {o : Host.Outcome State Fault Refusal} (h : (out o).isSome = true) : ∃ t, o = .next t := by
  cases o <;> simp_all [out]

theorem next_of_after {c : Instr} {s : State} {f : State → Bool} (h : after c s f = some true) :
    ∃ t, exec c s = .next t ∧ f t = true := by
  unfold after at h
  cases hc : exec c s <;> simp_all [out]

theorem headIs_queued (l : Line) (code : Byte) (ps : List Byte) (s : State) :
    HeadIs (queued l code ps s) l code 7 ps := ⟨[], by simp [queued, State.updPort, State.port]⟩

theorem input_running (l : Fin 4) (f : Fin 8) (e n : Nat) (ws : List LaneWord) (s : State) :
    ((running l f e n ws s).relays.get l).input
      = some { number := BitVec.ofNat 11 n, words := ws, rebuilt := none } := by
  simp [running]

/-- A line that has its 280 words is not short. -/
theorem long_of {s : State} {l : Fin 4} {x : RelayLine} (ws : List LaneWord) (h : (s.relays.get l).input = some x)
    (hx : 280 ≤ x.words.length) : ¬ EndsShort s l ws := by
  rintro ⟨y, hy, hl⟩
  rw [h] at hy
  injection hy with hy
  subst hy
  omega

/-- A line that has its 280 words raises no further event. -/
theorem quiet_of {s : State} {l : Fin 4} {x : RelayLine} (ws : List LaneWord) (h : (s.relays.get l).input = some x)
    (hx : 280 ≤ x.words.length) : ¬ RaisesArea s l ws := by
  rintro ⟨_, _, y, hy, _, _, hl, _⟩
  rw [h] at hy
  injection hy with hy
  subst hy
  omega

theorem filler_long : 280 ≤ filler.length := by decide +kernel

theorem long_running (l : Fin 4) (f : Fin 8) (e n : Nat) (ws : List LaneWord) (s : State) :
    ¬ EndsShort (running l f e n filler s) l ws := long_of ws (input_running ..) filler_long

theorem quiet_running (l : Fin 4) (f : Fin 8) (e n : Nat) (ws : List LaneWord) (s : State) :
    ¬ RaisesArea (running l f e n filler s) l ws := quiet_of ws (input_running ..) filler_long

/-- The 280th word of line 7 raises nothing on a carriage line's account. -/
theorem quiet_switch_line (l : Fin 4) (f : Fin 8) (ws : List LaneWord) (s : State) :
    ¬ RaisesArea (running l f 8 7 ws s) l [0] := by
  rintro ⟨_, _, y, hy, h7, _⟩
  rw [input_running] at hy
  injection hy with hy
  subst hy
  exact h7 rfl

theorem completes_running (l : Fin 4) (f : Fin 8) (e n : Nat) (w0 ws : List LaneWord) (s : State)
    (h : (BitVec.ofNat 11 n).toNat ≠ 7 ∧ (BitVec.ofNat 11 n).toNat ≠ 8 ∧ w0.length < 280 ∧ 280 ≤ (w0 ++ ws).length) :
    CompletesArea (running l f e n w0 s) l (BitVec.ofNat 11 n) w0 ws := by
  simp [CompletesArea, running] at h ⊢
  exact h

/-- Lane 1 SEEKING in format 6, awaiting line `e` after `k` complete frames. -/
def seeking (e : Option Nat) (k : Nat) : State :=
  (running 1 6 1 1 filler State.reset).updLane 1 fun r => { r with state := .seeking, expected := e, frames := k }

theorem long_seeking (e : Option Nat) (k : Nat) : ¬ EndsShort (seeking e k) 1 [] :=
  long_of [] (x := { number := 1, words := filler, rebuilt := none }) (by simp [seeking, running]) filler_long

/-- Lane 0 RUNNING before line 7, with three items in its take list: destination 4 is free, 5 crossfades, line B
protects 7; and an item for its first plan group. -/
def atSwitch : State :=
  (((running 0 4 7 6 filler State.reset).setTakes 0
    [{ body := .dest 4 { entry 16 none with ramp := 2 }, tag := 3, stager := .a, held := false },
     { body := .dest 5 (entry 17 none), tag := 3, stager := .a, held := false },
     { body := .dest 7 (entry 19 none), tag := 3, stager := .a, held := false },
     { body := .plan 0 .embed, tag := 3, stager := .b, held := false }]).setOwner 7 (some .b)).updDest 5
    fun d => { d with xfade := some { old := Entry.reset, len := 480, i := 3 } }

/-- Stores at the edges of their bounds. -/
def fullStores : State := (State.reset.updStrip 0 fun _ => flowing 64).updEmbed 15 fun _ => flowing 64

theorem witness_StepRunsTheFrontCommand :
    (State.reset.withPending [.fbkAsserted, .windowComplete]).pending = .fbkAsserted :: [.windowComplete]
      ∧ State.reset.pending = [] := by decide

theorem witness_StepKeepsStores : ∃ s t : State, StoresOk s ∧ step s = .next t := by
  obtain ⟨t, h⟩ := next_of_out
    (o := step (fullStores.withPending [.houseTick (.fill 32 0) [] false]))
    (by decide +kernel)
  refine ⟨_, t, ?_, h⟩
  unfold StoresOk StoresBounded StatesOk
  decide +kernel

theorem witness_StepKeepsEventQueues : ∃ s t : State, EventsBounded s ∧ step s = .next t := by
  obtain ⟨t, h⟩ := next_of_out (o := step (((State.reset.updRef fun r => { r with good := 480 }).updEvents .a fun q =>
    { q with notices := List.replicate 32 deferLoss }).withPending [.refLock])) (by decide +kernel)
  exact ⟨_, t, by intro l; cases l <;> decide +kernel, h⟩

/-- Line A with 4 frames in its queue and 23 bytes in its slot. -/
def slot23 : State :=
  State.reset.updPort .a fun p =>
    { p with queue := List.replicate 4 { code := 2, ticket := 7, params := [] },
             slot := some { ticket := 1, status := 0, payload := List.replicate 23 0 } }

theorem witness_StepKeepsPorts : ∃ s t : State, PortsOk s ∧ step s = .next t := by
  obtain ⟨t, h⟩ := next_of_out (o := step (slot23.withPending [.ident .a]))
    (by decide +kernel)
  refine ⟨_, t, ⟨by intro l; cases l <;> decide +kernel, ?_⟩, h⟩
  intro l r hr
  have h : ∀ l : Line, ((slot23.port l).slot.map fun r => r.payload.length).getD 0 ≤ 23 := by
    intro l; cases l <;> decide
  have := h l
  rw [show (slot23.port l).slot = some r from hr] at this
  simpa using this

/-- Lane 1 RUNNING with 8 sets owed to its first group, and a packet of 4 sets of it being formed, 3 of them read. -/
def drafting : State :=
  (((running 1 1 9 8 [] State.reset).updBuilder 1 fun b => { b with acc := 4 }).updCount 4 fun c =>
    { c with owed := 8 }).setWork 1
    (.building { line := 6, stamp := 0, no := 0 }
      { n := 4, used := [], draft := some { group := 0, left := 1, sets := List.replicate 3 (flatSet 1) },
        groups := [1, 2, 3] })

theorem witness_StepKeepsBuilders : ∃ s t : State, BuildersOk s ∧ step s = .next t := by
  obtain ⟨t, h⟩ := next_of_out (o := step (drafting.withPending [.carriageLine 1 ⟨[], some 1⟩])) (by decide +kernel)
  refine ⟨_, t, ⟨?_, ?_, ?_⟩, h⟩
  · unfold AccumulatorsBounded
    decide +kernel
  · unfold OwedBounded
    decide +kernel
  · intro l
    match l with
    | 0 => trivial
    | 1 =>
      refine ⟨by decide, fun d hd => ?_⟩
      injection hd with hd
      subst hd
      decide
    | 2 => trivial
    | 3 => trivial

theorem witness_StepKeepsTakeLists : ∃ s t : State, TakesOk s ∧ step s = .next t := by
  obtain ⟨t, h⟩ := next_of_out (o := step (atSwitch.withPending [.lineStart 0 7 [] true])) (by decide +kernel)
  refine ⟨_, t, ?_, h⟩
  unfold TakesOk takeListOk
  decide +kernel

theorem witness_StepKeepsDataEntries : ∃ s t : State, EntriesOk s ∧ step s = .next t := by
  obtain ⟨t, h⟩ := next_of_out (o := step ({ atSwitch with
    live := State.reset.live.set 3 { entry 2 none with mode := .data } }.withPending [.lineStart 0 7 [] true]))
    (by decide +kernel)
  refine ⟨_, t, ⟨by decide +kernel, ?_, by decide +kernel⟩, h⟩
  intro d r hr
  have h : ∀ d, State.reset.stagedDest.get d = none := by decide
  exact absurd ((h d).symm.trans hr) (by simp)

theorem witness_StepKeepsEngine : ∃ s t : State, EngineOk s ∧ step s = .next t := by
  obtain ⟨t, h⟩ := next_of_out (o := step ((State.reset.updDest 12 fun d =>
    { d with xfade := some { old := Entry.reset, len := 48, i := 47 } }).withPending
      [.houseTick (.fill 32 0) [] false])) (by decide +kernel)
  refine ⟨_, t, ?_, h⟩
  unfold EngineOk FactorsBounded DataSteady BlocksEqual
  decide +kernel

theorem witness_StepKeepsMonitors : ∃ s t : State, MonitorsOk s ∧ step s = .next t := by
  obtain ⟨t, h⟩ := next_of_out (o := step ((State.reset.updMonitor 66 fun _ =>
    { monitor66 with peak := 8388607, silenceCount := 3, ns := 3 }).withPending [.windowComplete])) (by decide +kernel)
  refine ⟨_, t, ?_, h⟩
  intro d
  refine ⟨by revert d; decide +kernel, by revert d; decide +kernel, fun l => ?_, by revert d; decide +kernel⟩
  cases l <;> revert d <;> decide +kernel

theorem witness_StepKeepsHistories : ∃ s t : State, HistoriesOk s ∧ step s = .next t := by
  obtain ⟨t, h⟩ := next_of_out
    (o := step (State.reset.withPending [.houseTick (.fill 32 0) [] false]))
    (by decide +kernel)
  refine ⟨_, t, ?_, h⟩
  unfold HistoriesOk
  decide +kernel

theorem witness_LiveEntriesChangeOnlyByTakes :
    (∃ t, exec (.lineStart 0 7 [] true) atSwitch = .next t ∧ t.live.get 4 ≠ atSwitch.live.get 4)
      ∧ ∃ s t : State, exec (.pinReset false false false false) s = .next t ∧ t.live.get 95 ≠ s.live.get 95 := by
  obtain ⟨t, h, hl⟩ := next_of_after (c := .lineStart 0 7 [] true) (s := atSwitch)
    (f := fun t => t.live.get 4 != atSwitch.live.get 4) (by decide +kernel)
  obtain ⟨t', h', hl'⟩ := next_of_after (c := .pinReset false false false false)
    (s := { State.reset with live := State.reset.live.set 95 (entry 3 none) })
    (f := fun t => t.live.get 95 != (State.reset.live.set 95 (entry 3 none)).get 95) (by decide +kernel)
  exact ⟨⟨t, h, by simpa using hl⟩, _, t', h', by simpa using hl'⟩

theorem witness_OnlyLineCUndoesATrip :
    ∃ s t : State, s.fallback.state = .tripped ∧ exec (.fallbackDisarm .c) s = .next t
        ∧ t.fallback.state ≠ .tripped := by
  obtain ⟨t, h, hl⟩ := next_of_after (c := .fallbackDisarm .c)
    (s := queued .c 0x51 [] { State.reset with fallback := { state := .tripped, fbk := true } })
    (f := fun t => t.fallback.state != .tripped) (by decide +kernel)
  exact ⟨_, t, by decide, h, by simpa using hl⟩

theorem witness_PortsAreSeparate :
    (∃ t, exec (.poll .a) State.reset = .next t) ∧ (∀ a b c d, Instr.poll .a ≠ .pinReset a b c d)
      ∧ portLine? (.poll .a) ≠ some .b := by
  refine ⟨next_of_out (by decide +kernel), by simp, by decide⟩

theorem witness_LineStartsAreTaken :
    (State.reset.lanes.get 1).state = .unset
      ∧ ((State.reset.updLane 1 fun r => { r with state := .lost }).lanes.get 1).state = .lost
      ∧ (((running 1 6 625 624 filler State.reset).lanes.get 1).state = .running
          ∧ NothingLeft (running 1 6 625 624 filler State.reset) 1
          ∧ ¬ EndsShort (running 1 6 625 624 filler State.reset) 1 []
          ∧ ¬ RaisesArea (running 1 6 625 624 filler State.reset) 1 []
          ∧ (625 : BitVec 11).toNat = ((running 1 6 625 624 filler State.reset).lanes.get 1).expected.getD 1)
      ∧ RaisesArea (running 1 6 2 1 (List.replicate 279 0) State.reset) 1 [0]
      ∧ ¬ RaisesArea (running 1 6 8 7 (List.replicate 279 0) State.reset) 1 [0]
      ∧ EndsShort ((running 1 6 2 1 [] State.reset).updLane 1 fun r => { r with state := .seeking }) 1
          (List.replicate 279 0)
      ∧ ¬ EndsShort (seeking none 0) 1 [] ∧ ((seeking none 0).lanes.get 1).expected = none
      ∧ (¬ EndsShort (seeking (some 625) 0) 1 [] ∧ ((seeking (some 625) 0).lanes.get 1).expected = some 625
          ∧ (625 : BitVec 11).toNat = linesPerFrame ((seeking (some 625) 0).lanes.get 1).fmt
          ∧ ((seeking (some 625) 0).lanes.get 1).frames = 0)
      ∧ (¬ EndsShort (seeking (some 2) 0) 1 []
          ∧ (2 : BitVec 11).toNat ≠ linesPerFrame ((seeking (some 2) 0).lanes.get 1).fmt
          ∧ ((seeking (some 2) 0).lanes.get 1).state = .seeking ∧ (1 : BitVec 11).toNat ≠ 2) := by
  refine ⟨by decide, by decide, ⟨by decide, rfl, long_running _ _ _ _ _ _, quiet_running _ _ _ _ _ _, by decide⟩,
    ⟨by decide, by decide, _, input_running .., by decide +kernel⟩, quiet_switch_line _ _ _ _,
    ⟨{ number := 1, words := [], rebuilt := none }, by decide, by decide +kernel⟩,
    long_seeking _ _,
    by decide, ⟨long_seeking _ _, by decide, by decide, by decide⟩, long_seeking _ _, by decide⟩

theorem witness_LineStartOutOfSequence :
    StoresOk (running 0 6 241 240 filler State.reset)
      ∧ ((running 0 6 241 240 filler State.reset).lanes.get 0).state = .running
      ∧ NothingLeft (running 0 6 241 240 filler State.reset) 0
      ∧ ¬ EndsShort (running 0 6 241 240 filler State.reset) 0 []
      ∧ ¬ RaisesArea (running 0 6 241 240 filler State.reset) 0 []
      ∧ (1 : BitVec 11).toNat ≠ ((running 0 6 241 240 filler State.reset).lanes.get 0).expected.getD 1
      ∧ (∃ x, ((running 0 6 241 240 [] State.reset).relays.get 0).input = some x
          ∧ x.words.length + (List.replicate 279 (0 : LaneWord)).length < 280 ∧ x.number = 240)
      ∧ StoresOk (running 0 6 241 240 [] State.reset) ∧ NothingLeft (running 0 6 241 240 [] State.reset) 0 := by
  refine ⟨?_, by decide, rfl, long_running _ _ _ _ _ _, quiet_running _ _ _ _ _ _, by decide,
    ⟨{ number := 240, words := [], rebuilt := none }, by decide,
    by decide +kernel, rfl⟩, ?_, rfl⟩
  · unfold StoresOk StoresBounded StatesOk
    decide +kernel
  · unfold StoresOk StoresBounded StatesOk
    decide +kernel

theorem witness_AlignmentEntersRunning :
    ((seeking (some 625) 1).lanes.get 1).state = .seeking ∧ ¬ EndsShort (seeking (some 625) 1) 1 []
      ∧ ((seeking (some 625) 1).lanes.get 1).expected = some (625 : BitVec 11).toNat
      ∧ (625 : BitVec 11).toNat = linesPerFrame ((seeking (some 625) 1).lanes.get 1).fmt
      ∧ ((seeking (some 625) 1).lanes.get 1).frames = 1 :=
  ⟨by decide, long_seeking _ _, by decide, by decide, by decide⟩

theorem witness_LossTimerExpires :
    ((seeking none 0).lanes.get 1).timer = true ∧ ((seeking none 0).lanes.get 1).state = .seeking
      ∧ ((running 1 6 21 20 [] State.reset).lanes.get 1).timer = true
      ∧ ((running 1 6 21 20 [] State.reset).lanes.get 1).state = .running
      ∧ ((running 1 6 21 20 [] State.reset).lanes.get 1).lastLine = some 20
      ∧ StoresOk (running 1 6 21 20 [] State.reset) ∧ NothingLeft (running 1 6 21 20 [] State.reset) 1 := by
  refine ⟨by decide, by decide, by decide, by decide, by decide, ?_, rfl⟩
  unfold StoresOk StoresBounded StatesOk
  decide +kernel

theorem witness_OutputLinesFollowInputLines :
    let x : RelayLine := { number := 9, words := [], rebuilt := none }
    let s := State.reset.updRelay 1 fun r => { r with waiting := [x] }
    ((s.relays.get 1).shown = false ∧ (s.relays.get 1).waiting = x :: [])
      ∧ ((running 1 6 2 1 [] State.reset).relays.get 1).shown = false
      ∧ ((running 1 6 2 1 [] State.reset).relays.get 1).waiting = []
      ∧ ((running 1 6 2 1 [] State.reset).relays.get 1).input
          = some { number := 1, words := [], rebuilt := none } := by
  decide

/-- Lane 1 RUNNING on line 9 with its first group EMBED, its embed store of `n` sets FLOWING and `k` sets owed. -/
def embedding (n k : Nat) : State :=
  ({ running 1 6 10 9 [] State.reset with plan := State.reset.plan.set 4 .embed }.updEmbed 4
    fun _ => flowing n).updCount 4 fun _ => { next := 255, owed := k }

/-- The part after reset with a group of lane 1 in EMBED. -/
def embedPlan : State := { State.reset with plan := State.reset.plan.set 4 .embed }

theorem rebuilt_embedPlan (f : Fin 8) (e n : Nat) (ws : List LaneWord) : IsRebuilt (running 1 f e n ws embedPlan) 1 :=
  ⟨rfl, rfl, 0, by show embedPlan.plan.get (groupNo 1 0) ≠ .pass; decide⟩

theorem forwarded_reset (f : Fin 8) (e n : Nat) (ws : List LaneWord) :
    ¬ IsRebuilt (running 1 f e n ws State.reset) 1 := by
  rintro ⟨_, _, c, h⟩
  exact h ((by decide : ∀ c, State.reset.plan.get (groupNo 1 c) = .pass) c)

theorem witness_CarriageLineIsBuilt :
    (CompletesArea (running 1 6 2 1 (List.replicate 279 0) State.reset) 1 1 (List.replicate 279 0) [0]
        ∧ ¬ IsRebuilt (running 1 6 2 1 (List.replicate 279 0) State.reset) 1
        ∧ CompletesArea (running 1 6 2 1 (List.replicate 279 0) embedPlan) 1 1 (List.replicate 279 0) [0]
        ∧ IsRebuilt (running 1 6 2 1 (List.replicate 279 0) embedPlan) 1
        ∧ (1 : BitVec 11).toNat ≠ linesPerFrame 6)
      ∧ (((embedding 3 8).builders.get 1).phase = .engaged ∧ ((embedding 3 8).builders.get 1).bypass.inBypass = false
          ∧ (embedding 3 8).plan.get (groupNo 1 0) ≠ .pass)
      ∧ ((embedding 3 0).plan.get (groupNo 1 1) ≠ .embed ∧ (State.reset.embed.get 4).state ≠ .flowing)
      ∧ ((embedding 3 8).plan.get (groupNo 1 0) = .embed ∧ ((embedding 3 8).embed.get (groupNo 1 0)).state = .flowing
          ∧ (embedding 3 8).embCounts.get (groupNo 1 0) = { next := 255, owed := 8 }
          ∧ 0 < 1 + 8 ∧ 225 + (7 + 12 * min 4 (1 + 8)) ≤ 280 ∧ 280 < 226 + (7 + 12 * min 4 (1 + 8)) ∧ 8 < 1 + 8)
      ∧ ((embedding 3 7).embCounts.get (groupNo 1 0) = { next := 255, owed := 7 } ∧ 1 + 7 ≤ 8)
      ∧ (¬ RaisesArea (running 1 6 8 7 (List.replicate 279 0) State.reset) 1 [0]
          ∧ NothingLeft (running 1 6 8 7 (List.replicate 279 0) State.reset) 1
          ∧ ((running 1 6 8 7 (List.replicate 279 0) State.reset).relays.get 1).input
              = some { number := 7, words := List.replicate 279 0, rebuilt := none }
          ∧ (State.reset.relays.get 1).input = none)
      ∧ (flowing 0).sets = [] ∧ (flowing 1).sets = flatSet 5 :: []
      ∧ (let st := { flowing 9 with reads := 480 }; st.reads = 480 ∧ 8 < st.fill ∧ st.fill < 56)
      ∧ (let st := { flowing 8 with reads := 480 }; st.reads = 480 ∧ 1 ≤ st.fill ∧ st.fill ≤ 8)
      ∧ (let st := { flowing 56 with reads := 480 };
          st.sets = flatSet 5 :: flatSet 5 :: List.replicate 54 (flatSet 5) ∧ st.reads = 480 ∧ 56 ≤ st.fill) :=
  ⟨⟨completes_running _ _ _ 1 _ _ _ (by decide +kernel), forwarded_reset _ _ _ _,
      completes_running _ _ _ 1 _ _ _ (by decide +kernel), rebuilt_embedPlan _ _ _ _, by decide⟩,
    by decide +kernel, by decide +kernel, by decide +kernel, by decide +kernel,
    ⟨quiet_switch_line _ _ _ _, rfl, input_running .., rfl⟩, by decide +kernel⟩

/-- Section 6.10, line 15 for group 2: 4 sets, 55 words, fit in 68 free words; count 40, next 41. -/
theorem test_dealGroup_fits :
    (((embedding 33 0).updCount 4 fun _ => { next := 40, owed := 0 }).dealGroup 1 0 { line := 15, stamp := 0, no := 0 }
        4 (List.replicate 212 0)).1.embCounts.get 4 = { next := 41, owed := 0 } := by decide +kernel

/-- Section 6.10, line 18 for group 3: 6 + 3 exceeds 8, so one set is given up, and DEFER_LOSS has detail 1. -/
theorem test_dealGroup_gives_up :
    (let s := ((embedding 33 6).dealGroup 1 0 { line := 18, stamp := 0, no := 0 } 3 (List.replicate 255 0)).1
     (s.embCounts.get 4, (s.embed.get 4).fill, (s.embed.get 4).readMark, noticesA s))
      = ({ next := 255, owed := 8 }, 32, true, [[0x12, 20, 1]]) := by decide +kernel

/-- The state of the second row of section 2.4, with a store of 60 sets. -/
def beforePacket : State :=
  (running 1 6 144 143 []
      ((State.reset.updGroup 4 fun g => { g with present := true, lastCount := some 255 }).updStrip 4
    fun _ => flowing 60))

theorem witness_PacketReachesStripStore :
    (CompletesArea beforePacket 1 143 [] (fillArea (makePacket 0 0 (List.replicate 4 (flatSet 1))).words)
      ∧ (List.replicate 4 (flatSet 1)).length ≤ 4 ∧ (∀ y ∈ List.replicate 4 (flatSet 1), y.d = false)
      ∧ (beforePacket.strip.get (groupNo 1 0)).writeMark = false
      ∧ (beforePacket.strip.get (groupNo 1 0)).state ≠ .holding
      ∧ (beforePacket.strip.get (groupNo 1 0)).sets.length + 4 ≤ 64)
      ∧ (CompletesArea (running 1 6 144 143 [] embedPlan) 1 143 [] filler
          ∧ IsRebuilt (running 1 6 144 143 [] embedPlan) 1 ∧ ¬ IsRebuilt (running 1 6 144 143 [] State.reset) 1)
      ∧ (State.reset.strip.get 4).state = .idle
      ∧ kindGroup (makePacket 3 0 []).kind = some 3 ∧ kindGroup 0x0A5 = none
      ∧ (makePacket 3 0 []).check = (makePacket 3 0 []).sum
      ∧ (let p : Packet := { makePacket 3 0 [] with check := 0 }; kindGroup p.kind = some 3 ∧ p.check ≠ p.sum)
      ∧ (beforePacket.groups.get 4).seenLine = false
      ∧ ((beforePacket.groups.get 4).present = true ∧ (beforePacket.groups.get 4).seenFrame = false)
      ∧ (State.reset.groups.get 4).present = false
      ∧ (let st := { flowing 31 with state := .priming }; st.state = .priming ∧ st.fill = 31 ∧ st.fill < 64)
      ∧ ((flowing 63).state = .flowing ∧ (flowing 63).fill < 64)
      ∧ ((flowing 64).state = .flowing ∧ 64 ≤ (flowing 64).fill) :=
  ⟨⟨completes_running _ _ _ 143 _ _ _ (by decide +kernel), by decide +kernel⟩,
    ⟨completes_running _ _ _ 143 _ _ _ (by decide +kernel), rebuilt_embedPlan _ _ _ _, forwarded_reset _ _ _ _⟩,
    by decide +kernel⟩

theorem witness_SwitchLineEntersEmbed :
    let s := running 2 1 7 6 filler { State.reset with plan := State.reset.plan.set 10 .embed }
    (s.lanes.get 2).state = .running ∧ NothingLeft s 2 ∧ ¬ EndsShort s 2 [] ∧ ¬ RaisesArea s 2 []
      ∧ (s.lanes.get 2).expected = some 7
      ∧ (s.builders.get 2).bypass = .out ∧ s.takes.get (laneDomain 2) = []
      ∧ s.plan.get (groupNo 2 2) = .embed ∧ (s.embed.get (groupNo 2 2)).state ≠ .flowing
      ∧ s.plan.get (groupNo 2 3) ≠ .embed ∧ (s.live.get (groupDest (groupNo 2 2) 3)).mode = .pcm
      ∧ ((s.updEmbed 10 fun _ => flowing 3).embed.get (groupNo 2 2)).state = .flowing :=
  ⟨by decide, rfl, long_running _ _ _ _ _ _, quiet_running _ _ _ _ _ _, by decide⟩

/-- Lane 2 RUNNING before line 7 in bypass state `b`, with a FLOWING embed store. -/
def bypassing (b : Bypass) : State :=
  (running 2 1 7 6 filler (State.reset.updEmbed 10 fun _ => flowing 3)).updBuilder 2 fun x => { x with bypass := b }

theorem input_bypassing (b : Bypass) :
    ((bypassing b).relays.get 2).input = some { number := 6, words := filler, rebuilt := none } := by
  simp [bypassing, running]

theorem witness_SwitchLineMovesBypass :
    StoresOk (bypassing .entering)
      ∧ ∀ b : Bypass, ((bypassing b).lanes.get 2).state = .running ∧ NothingLeft (bypassing b) 2
          ∧ ¬ EndsShort (bypassing b) 2 [] ∧ ¬ RaisesArea (bypassing b) 2 []
          ∧ ((bypassing b).lanes.get 2).expected = some 7 ∧ (bypassing b).takes.get (laneDomain 2) = []
          ∧ ((bypassing b).builders.get 2).bypass = b := by
  refine ⟨?_, fun b => ⟨by cases b <;> decide, rfl, long_of [] (input_bypassing b) filler_long,
    quiet_of [] (input_bypassing b) filler_long, by cases b <;> decide⟩⟩
  unfold StoresOk StoresBounded StatesOk
  decide +kernel

theorem atSwitch_takes : TakesOk atSwitch := by
  unfold TakesOk takeListOk
  decide +kernel

theorem input_atSwitch :
    (atSwitch.relays.get 0).input = some { number := 6, words := filler, rebuilt := none } := by
  simp [atSwitch, running]

theorem witness_SwitchLineAppliesTakes :
    TakesOk atSwitch ∧ (atSwitch.lanes.get 0).state = .running ∧ NothingLeft atSwitch 0
      ∧ ¬ EndsShort atSwitch 0 [] ∧ ¬ RaisesArea atSwitch 0 []
      ∧ (atSwitch.lanes.get 0).expected = some 7 ∧ (atSwitch.takes.get (laneDomain 0)).length = 4
      ∧ (FreeFor atSwitch (destItem 4) .a ∧ (atSwitch.engine.get 4).crossfading = false)
      ∧ (FreeFor atSwitch (destItem 5) .a ∧ (atSwitch.engine.get 5).crossfading = true)
      ∧ ¬ FreeFor atSwitch (destItem 7) .a ∧ findItem (atSwitch.takes.get (laneDomain 0)) 8 = none
      ∧ atSwitch.owners.get (planItem 0) = none ∧ atSwitch.plan.get (groupNo 0 0) ≠ .embed
      ∧ (let s := atSwitch.setOwner 96 (some .c)
         s.owners.get (planItem 0) ≠ none ∧ s.owners.get (planItem 0) ≠ some .b)
      ∧ ((atSwitch.updBuilder 0 fun b => { b with bypass := .leaving }).builders.get 0).bypass = .leaving
      ∧ ((atSwitch.updBuilder 0 fun b => { b with bypass := .entering }).builders.get 0).bypass = .entering := by
  refine ⟨atSwitch_takes, by decide, rfl, long_of [] input_atSwitch filler_long, quiet_of [] input_atSwitch filler_long,
    ?_⟩
  unfold FreeFor
  decide +kernel

/-- R77, R129, R130: a plan item lets its group enter or leave EMBED at the switch line, with either order of builder
and track map; a group that leaves keeps its sets. -/
theorem test_switch_line_modes :
    [true, false].map (fun bf => (after (.lineStart 0 7 [] bf) atSwitch
        (fun t => (t.plan.get 0, (t.embed.get 0).state, (t.engine.get 0).trigger)),
      after (.lineStart 0 7 [] bf) (({ atSwitch with plan := State.reset.plan.set 0 .embed }.setTakes 0
          [{ body := .plan 0 .strip, tag := 3, stager := .b, held := false }]).updEmbed 0 fun _ => flowing 5)
        (fun t => (t.plan.get 0, (t.embed.get 0).state, (t.embed.get 0).fill))))
      = List.replicate 2 (some (.embed, .flowing, true), some (.strip, .holding, 5)) := by decide +kernel

/-- R142, R76: a take application marks a measuring monitor, and a suspended one for its next window. -/
theorem test_switch_line_marks :
    after (.lineStart 0 7 [] true) ((atSwitch.updMonitor 4 fun m => { m with activity := .measuring }).updMonitor 5
        fun m => { m with activity := .measuring })
      (fun t => [4, 5].map fun d => (t.monitors.get d).changed) = some [true, false] := by decide +kernel

theorem witness_PacketsRoundTrip :
    ((List.replicate 4 (flatSet 1)).length ≤ 4 ∧ ∀ y ∈ List.replicate 4 (flatSet 1), y.d = false)
      ∧ ([0x2A5, 0x15A, 0x3C2] : List LaneWord).take 3 ≠ [0x2A5, 0x15A, 0x3C3]
      ∧ ([0x0A1, 0x001] : List LaneWord).length < 3
      ∧ (¬ OddParity 0x101 ∧ OddParity 0x001 ∧ OddParity 0x100 ∧ ¬ OddParity 0x200)
      ∧ (OddParity 0x031 ∧ 0xA1 ≤ (0x0A4 : LaneWord).toNat ∧ (0x0A4 : LaneWord).toNat ≤ 0xA4
          ∧ (0x031 : LaneWord).toNat % 256 % 12 ≠ 0)
      ∧ (OddParity 0x13C ∧ 48 < (0x13C : LaneWord).toNat % 256 ∧ (0x13C : LaneWord).toNat % 256 % 12 = 0)
      ∧ (OddParity 0x130 ∧ (0x130 : LaneWord).toNat % 256 % 12 = 0 ∧ (0x130 : LaneWord).toNat % 256 ≤ 48
          ∧ (List.replicate 48 (0 : LaneWord)).length ≤ (0x130 : LaneWord).toNat % 256)
      ∧ (List.replicate 48 (0 : LaneWord)).length = (0x130 : LaneWord).toNat % 256
      ∧ kindGroup 0x0A1 = some 0 ∧ findPacket [0] = .filler ∧ findPacket [0x2A5, 0x15A, 0x3C3] = .broken
      ∧ findPacket ((makePacket 0 1 []).words ++ [7]) = .packet (makePacket 0 1 []) [7] := by
  unfold OddParity
  decide +kernel

/-- R22: an audio packet whose payload reaches the end of the area ends the walk, as does an illegal length; a walk goes
on after a packet. -/
theorem test_walk_ends :
    (let walk := fun ws => walkArea ((makePacket 0 1 []).words ++ ws)
     ((walk ([0x2A5, 0x15A, 0x3C3, 0x0A1, 0x001, 0x10C] ++ List.replicate 12 0)).1.length,
      (walk ([0x2A5, 0x15A, 0x3C3, 0x0A1, 0x001, 0x10C] ++ List.replicate 12 0)).2,
      (walk ([0x2A5, 0x15A, 0x3C3, 0x0A1, 0x001, 0x00D] ++ List.replicate 14 0)).2))
      = (1, (7, true), (7, true)) := by decide +kernel

/-- Tables 11-1 and 11-2, by hand: the value 0x812345 with V and C, in three words and in a slot. -/
theorem test_sample_layouts :
    (let x : Sample := { value := 0x812345, v := true, u := false, c := true, z := false }
     (sampleWords x, slotBits x)) = ([0x345, 0x048, 0x058], 0x812345A0) := by
  decide

theorem witness_EntriesRoundTrip :
    (entry 5 (some 6)).stageable = true ∧ entry? [0x10, 0x7F, 0x78, 0x40, 0x00]
        = some { entry 16 none with ramp := 2 } := by
  decide

theorem witness_SequenceCarriesExactlyS : 1122 < carriagePerSequence 0 ∧ 5614 < carriagePerSequence 1 := by decide

theorem witness_HouseTickAppends :
    8190 + 1 < 8192 ∧ (State.reset.strip.get 15).state ≠ .flowing ∧ State.reset.serial.inStarted = false
      ∧ (State.reset.trackers.get 0).collecting = false
      ∧ (let T : Tracker := { collecting := true, pos := 191, bit1 := true, flag := false }
         T.collecting = true ∧ 191 ≤ T.pos ∧ ({ T with pos := 190 } : Tracker).pos + 1 = 191) := by decide

/-- A tick on which strip store 0 returns a set with Z, C and D as given, with the tracker of its first channel before
it. -/
def tracked (z c d : Bool) (T : Tracker) (fs : List (Fin 96)) : Option Tracker :=
  after (.houseTick (.fill 32 0) fs false) ((State.reset.updStrip 0 fun _ =>
      { flowing 1 with sets := [{ ch := .fill 4 { value := 0, v := false, u := false, c, z }, d }] }).updTracker 0
    fun _ => T) (fun t => t.trackers.get 0)

/-- Section 2.9: Z starts a block, D breaks it, the record after Z brings bit 1, and position 191 completes the block:
with the tick if the operand says so, at the next tick otherwise. -/
theorem test_tracker_steps :
    let T : Tracker := { collecting := true, pos := 5, bit1 := false, flag := false }
    (tracked true false true T [], tracked false false true T [], tracked false true false { T with pos := 0 } [],
      tracked false true false { T with collecting := false } [])
      = (some { T with pos := 0 }, some { T with collecting := false, pos := 0 },
        some { T with pos := 1, bit1 := true }, some { T with collecting := false })
    ∧ (tracked false false false { T with pos := 190, bit1 := true } [0],
        tracked false false false { T with pos := 190, bit1 := true } [],
        tracked false false false { T with pos := 191, bit1 := true } [])
      = (some { collecting := false, pos := 0, bit1 := true, flag := true },
        some { T with pos := 191, bit1 := true },
        some { collecting := false, pos := 0, bit1 := true, flag := true }) := by decide +kernel

theorem witness_HouseTickReadsStripStores :
    (flowing 0).state = .flowing ∧ (flowing 0).sets = []
      ∧ (flowing 9).sets = flatSet 5 :: List.replicate 8 (flatSet 5) ∧ (flowing 9).reads = 0
      ∧ (let st := { flowing 9 with reads := 480 }; st.reads = 480 ∧ 8 < st.fill ∧ st.fill < 56)
      ∧ (let st := { flowing 8 with reads := 480 }; st.reads = 480 ∧ 1 ≤ st.fill ∧ st.fill ≤ 8)
      ∧ (let st := { flowing 56 with reads := 480 };
          st.sets = flatSet 5 :: flatSet 5 :: List.replicate 54 (flatSet 5) ∧ st.reads = 480 ∧ 56 ≤ st.fill) := by
  decide

/-- Destination 5 copies source 40, embed stores hold 64 sets, 63 and one more than 31, and monitors 5 and 66 are in
activity `a`. -/
def computing (a : Activity) : State :=
  (((({ State.reset with live := State.reset.live.set 5 { entry 40 none with mode := .data } }.updEmbed 0
    fun _ => flowing 64).updEmbed 1 fun _ => flowing 63).updEmbed 2 fun _ =>
      { flowing 32 with state := .holding }).updMonitor 5 fun m => { m with activity := a }).updMonitor 66
    fun m => { m with activity := a }

/-- At tick `n` of frame `k` of format `f`, with HFP PRESENT if `h`, and nothing due. -/
def atTick (f : Fin 8) (k n : Nat) (h : Bool) : State :=
  State.reset.updRef fun r => { r with format := f, k, t := n, hfp := h }

theorem witness_HouseTickComputes :
    (∀ (f : Fin 8) (h : Bool), (atTick f 1 (if h then 2000 else 1952) h).settleTick
          = atTick f 1 (if h then 2000 else 1952) h)
      ∧ 1918 + 1 < houseFrameLength 0 1 + (if (atTick 0 1 1918 false).ref.hfp then 48 else 0)
      ∧ 1966 + 1 < houseFrameLength 0 1 + (if (atTick 0 1 1966 true).ref.hfp then 48 else 0)
      ∧ houseFrameLength 1 2 + (if (atTick 1 2 1601 false).ref.hfp then 48 else 0) ≤ 1601 + 1
      ∧ houseFrameLength 3 1 + (if (atTick 3 1 847 true).ref.hfp then 48 else 0) ≤ 847 + 1
      ∧ ([Activity.idle, .measuring, .suspended].all fun a =>
          decide ((computing a).settleTick = computing a) && ((computing a).monitors.get 5).activity == a
            && ((computing a).destTick 5).suspended && !((computing a).destTick 66).suspended)
      ∧ ((computing .idle).embed.get 0).state = .flowing ∧ 64 ≤ ((computing .idle).embed.get 0).fill
      ∧ ((computing .idle).embed.get 1).state = .flowing ∧ ((computing .idle).embed.get 1).fill < 64
      ∧ ((computing .idle).embed.get 2).state = .holding := by
  decide +kernel

/-- R157: the tick that brings t to the length of the frame makes the boundary due, and one 48 ticks later with HFP. -/
theorem test_houseTick_reaches :
    [(1600, false), (1601, false), (1648, true), (1649, true)].map (fun x =>
        after (.houseTick (.fill 32 0) [] false) (atTick 1 2 x.1 x.2) (fun t => (t.ref.t, t.ref.boundaryDue)))
      = [some (1601, false), some (1602, true), some (1649, false), some (1650, true)] := by decide +kernel

/-- R76, R157: with `boundaryFirst` that tick takes the boundary. -/
theorem test_houseTick_boundary_first :
    after (.houseTick (.fill 32 0) [] true) (atTick 1 2 1601 false)
      (fun t => (t.ref.t, t.ref.k, t.ref.frameCount, t.ref.tickCount, t.ref.boundaryDue))
      = some (0, 3, 1, 1, false) := by
  decide +kernel

/-- R44, R49: a full FLOWING store loses the set, one with 63 sets takes it, and a HOLDING one with 32 trims itself. -/
theorem test_houseTick_writes :
    after (.houseTick (.fill 32 0) [] false) (computing .measuring)
      (fun t => ([0, 1, 2].map fun g => ((t.embed.get g).fill, (t.embed.get g).writeMark, (t.embed.get g).overflows),
        [5, 66].map fun d => ((t.monitors.get d).activity, (t.monitors.get d).ticks)))
      = some ([(64, true, 1), (64, false, 0), (32, false, 0)], [(.suspended, 0), (.measuring, 1)]) := by decide +kernel

/-- Destination 3 mixes sources 40 and 41, in a crossfade from source 42 if `x`. -/
def mixing (x : Option Nat) : State :=
  { State.reset with live := State.reset.live.set 3 (entry 40 (some 41)) }.updDest 3 fun d =>
    { d with j := none, trigger := false, xfade := x.map fun i => { old := entry 42 none, len := 48, i } }

/-- The sources of the sides of destination 3 carry no data, and no record that they bring is marked. -/
theorem witness_PcmDestinationMixes :
    (((mixing none).live.get 3).mode = .pcm ∧ (∀ x, ((mixing none).engine.get 3).xfade = some x → x.len ≤ x.i)
        ∧ (∀ n ∈ ((mixing none).live.get 3).sources,
            (mixing none).nonAudio n = false ∧ (((mixing none).hist.get n).read 0).d = false)
        ∧ ((mixing none).engine.get 3).trigger = false ∧ ((mixing none).engine.get 3).blocked = false)
      ∧ (∃ x, ((mixing (some 48)).engine.get 3).xfade = some x ∧ x.len ≤ x.i)
      ∧ (∃ x, ((mixing (some 47)).engine.get 3).xfade = some x ∧ x.i < x.len ∧ 1024 = 1024 * (x.i + 1) / x.len)
      ∧ (∃ x, ((mixing (some 0)).engine.get 3).xfade = some x ∧ x.i < x.len ∧ 21 = 1024 * (x.i + 1) / x.len
          ∧ ∀ n ∈ x.old.sources, (mixing (some 0)).nonAudio n = false)
      ∧ (((mixing none).updDest 3 fun d => { d with trigger := true }).engine.get 3).trigger = true
      ∧ (((mixing none).updDest 3 fun d => { d with blocked := true }).engine.get 3).blocked = true
      ∧ (let s := { mixing none with hist := (mixing none).hist.set 40 [{ rec_ 1 with d := true }] }
         40 ∈ (s.live.get 3).sources ∧ ((s.hist.get 40).read 0).d = true)
      ∧ ((mixing none).engine.get 3).j = none
      ∧ ((((mixing none).updDest 3 fun d => { d with j := some 31 }).engine.get 3).j = some 31 ∧ 31 < 32)
      ∧ (((mixing none).updDest 3 fun d => { d with j := some 32 }).engine.get 3).j = some 32 := by
  refine ⟨⟨by decide, fun x h => (by simp [mixing] at h), by decide +kernel⟩, ⟨_, rfl, by decide⟩,
    ⟨_, rfl, by decide, by decide⟩, ⟨_, rfl, by decide, by decide, by decide +kernel⟩, by decide +kernel⟩

/-- R97 to R101: soft entry restarts at a trigger, rises by 32, and is complete after its 32nd tick. -/
theorem test_soft_entry :
    ((((mixing none).updDest 3 fun d => { d with trigger := true, j := some 9 }).destTick 3).dest.j,
      [0, 31].map fun k => (((mixing none).updDest 3 fun d => { d with j := some k }).destTick 3).dest.e,
      (((mixing none).updDest 3 fun d => { d with j := some 32 }).destTick 3).dest.j)
      = (some 0, [32, 1024], none) := by decide +kernel

/-- Destination 3 weights source 40, which carries data if `flag`. -/
def nonPcm (flag blocked : Bool) : State :=
  ((mixing none).updTracker 40 fun t => { t with flag }).updDest 3 fun d => { d with blocked }

theorem witness_DataSourcesBlock :
    let blocked := fun (r : Bool) (bs : List (Fin 98)) => (nonPcm false true).updDest 3 fun d =>
      { d with resetMark := r, blockers := bs }
    ((nonPcm true false).live.get 3).mode = .pcm
      ∧ [none, some 0, some 47, some 48].map
            (fun i => ((mixing i).engine.get 3).xfade.map fun x => decide (x.i < x.len))
          = [none, some true, some true, some false]
      ∧ 40 ∈ weightedSources ((nonPcm true false).live.get 3) (advanceCrossfade
          ((nonPcm true false).engine.get 3).xfade)
      ∧ (nonPcm true false).nonAudio 40 = true ∧ ((nonPcm true true).engine.get 3).blocked = true
      ∧ ((nonPcm true false).engine.get 3).blocked = false ∧ ((nonPcm false true).live.get 3).mode = .pcm
      ∧ (∀ n ∈ weightedSources ((nonPcm false true).live.get 3) (advanceCrossfade
          ((nonPcm false true).engine.get 3).xfade), (nonPcm false true).nonAudio n = false)
      ∧ ((nonPcm false true).engine.get 3).blocked = true
      ∧ ((blocked true []).engine.get 3).resetMark = true
      ∧ (((blocked false [40]).engine.get 3).resetMark = false ∧ ∀ n ∈ ((blocked false [40]).engine.get 3).blockers,
          n ∈ weightedSources ((blocked false [40]).live.get 3) none)
      ∧ (let s := (blocked false [50]).updTracker 50 fun t => { t with flag := true }
         ∀ n ∈ (s.engine.get 3).blockers, s.nonAudio n = true) := by decide +kernel

/-- Destination 3 copies source 40; it is blocked if `b`, by source 50. -/
def copying (b r : Bool) : State :=
  ({ State.reset with live := State.reset.live.set 3 { entry 40 none with mode := .data, delay := 4095 } }.updTracker
    50 fun t => { t with flag := true }).updDest 3 fun d => { d with blocked := b, blockers := [50], resetMark := r }

theorem witness_DataDestinationCopies :
    ((copying false false).live.get 3).mode = .data
      ∧ ((copying false false).hist.get ((copying false false).live.get 3).primary).read 4095
          = { smp := { value := 0, v := true, u := false, c := false, z := false }, d := false }
      ∧ ((copying false false).engine.get 3).blocked = false ∧ ((copying true false).engine.get 3).blocked = true
      ∧ ((copying true false).engine.get 3).resetMark = false ∧ ((copying true true).engine.get 3).resetMark = true
      ∧ ∀ n ∈ ((copying true false).engine.get 3).blockers, (copying true false).nonAudio n = true := by
  decide +kernel

theorem witness_CompletionsAct :
    let x : Crossfade := { old := Entry.reset, len := 48, i := 48 }
    ((State.reset.updDest 12 fun d => { d with xfade := some x }).engine.get 12).xfade = some x ∧ x.len ≤ x.i
      ∧ ((State.reset.updDest 12 fun d => { d with j := some 32 }).engine.get 12).j = some 32
      ∧ (let s := State.reset.updTracker 22 fun t => { t with collecting := true, pos := 191 }
         (s.trackers.get 22).collecting = true ∧ 191 ≤ (s.trackers.get 22).pos) := by decide

theorem witness_WindowCompletes :
    monitor66.activity = .measuring ∧ 480 ≤ monitor66.ticks ∧ monitor66.silenceCount ≤ monitor66.ns
      ∧ (monitor66.peak < monitor66.silenceAt ∧ monitor66.changed = false)
      ∧ (State.reset.monitors.get 0).activity ≠ .measuring ∧ ({ monitor66 with ticks := 479 } : Monitor).ticks < 480
      ∧ (let m := { monitor66 with peak := 2653 }; m.silenceAt ≤ m.peak) := by decide

theorem witness_MonitorCommandsAct :
    (let ps : List Byte := [BitVec.ofNat 8 95, 0x0F, 0x7F, 0xFF, 0xFF, 0x7F, 0xFF, 0xFF, 0xEA, 0x60];
      HeadIs (queued .c 0x38 ps State.reset) .c 0x38 7 ps ∧ (0x0F : Byte).toNat < 16
        ∧ ofBytes [0x7F, 0xFF, 0xFF] ≤ 8388607 ∧ 1 ≤ ofBytes [0xEA, 0x60] ∧ ofBytes [0xEA, 0x60] ≤ 60000
        ∧ ∀ i, ((queued .c 0x38 ps State.reset).monitors.get i).due = false)
      ∧ (∀ (code : Byte) (ps : List Byte), HeadIs (queued .a code ps State.reset) .a code 7 ps)
      ∧ (State.reset.monitors.get 95).activity = .idle ∧ monitor66.activity ≠ .idle
      ∧ (0x0F : Byte).getLsbD 0 = true ∧ (0x0E : Byte).getLsbD 0 = false
      ∧ 96 ≤ (96 : Byte).toNat ∧ 16 ≤ (16 : Byte).toNat ∧ 8388607 < ofBytes [0x80, 0, 0] ∧ ofBytes [0, 0] = 0
      ∧ 60000 < ofBytes [0xEA, 0x61] :=
  ⟨⟨headIs_queued .., by decide +kernel⟩, fun _ _ => headIs_queued .., by decide⟩

theorem witness_WordClockMovesTheReference :
    (State.reset.ref.intervalOpen = false ∧ State.reset.ref.state ≠ .locked ∧ State.reset.ref.lockDue = false
        ∧ State.reset.ref.holdoverDue = false)
      ∧ (let s := State.reset.updRef fun r => { r with intervalOpen := true, edgeSeen := true }
         s.ref.intervalOpen = true ∧ s.ref.edgeSeen = true ∧ s.ref.lockDue = false ∧ s.ref.holdoverDue = false)
      ∧ (let s := State.reset.updRef fun r => { r with state := .locked, intervalOpen := true, nonGood := 1 }
         s.ref.intervalOpen = true ∧ s.ref.state = .locked ∧ s.ref.lockDue = false ∧ s.ref.holdoverDue = false)
      ∧ 20000000 ≤ 21700000 ∧ (21700000 < 21700001 ∧ 31249999 < 31250000) ∧ 31250000 < 52080000
      ∧ (let s := State.reset.updRef fun r => { r with state := .locked, intervalOpen := true }
         s.ref.state = .locked ∧ s.ref.nonGood = 0 ∧ s.ref.holdoverDue = false)
      ∧ 480 ≤ (State.reset.updRef fun r => { r with good := 480 }).ref.good
      ∧ (let s := State.reset.updRef fun r => { r with state := .locked, nonGood := 2 }
         s.ref.state = .locked ∧ 2 ≤ s.ref.nonGood) := by decide

theorem witness_FramePulseIsGuarded :
    let at_ := fun (n : Nat) (h : Bool) => State.reset.updRef fun r => { r with t := n, hfp := h }
    (∀ h, (at_ 480 h).ref.boundaryDue = false ∧ 480 ≤ (at_ 480 h).ref.t ∧ (at_ 480 h).ref.hfp = h
        ∧ (at_ 479 h).ref.boundaryDue = false ∧ (at_ 479 h).ref.t < 480 ∧ (at_ 479 h).ref.hfp = h)
      ∧ (atTick 0 1 1920 false |>.updRef fun r => { r with boundaryDue := true }).ref.boundaryDue = true
      ∧ TakesOk (State.reset.updRef fun r => { r with t := 480 }) := by
  unfold TakesOk takeListOk
  decide +kernel

/-- Items of line A in the house list: destination 66 is free, 67 crossfades, line B protects 68; and an item of plan
group 8 in the list of lane 2, which is not RUNNING, while lane 1 is. -/
def atBoundary : State :=
  (((((running 1 6 2 1 [] State.reset).updRef fun r => { r with t := 1919, boundaryDue := true }).setTakes 4
    [{ body := .dest 66 (entry 16 none), tag := 3, stager := .a, held := false },
     { body := .dest 67 (entry 17 none), tag := 3, stager := .a, held := false },
     { body := .dest 68 (entry 19 none), tag := 3, stager := .a, held := false }]).setOwner 68 (some .b)).setTakes 2
    [{ body := .plan 8 .embed, tag := 3, stager := .a, held := false }]).updDest 67
    fun d => { d with xfade := some { old := Entry.reset, len := 480, i := 3 } }

theorem witness_BoundaryDealsWithHouseTakes :
    TakesOk atBoundary ∧ atBoundary.ref.boundaryDue = true
      ∧ (FreeFor atBoundary (destItem 66) .a ∧ (atBoundary.engine.get 66).crossfading = false)
      ∧ (FreeFor atBoundary (destItem 67) .a ∧ (atBoundary.engine.get 67).crossfading = true)
      ∧ ¬ FreeFor atBoundary (destItem 68) .a
      ∧ ((2 : Fin 5) = laneDomain 2 ∧ (atBoundary.lanes.get 2).state ≠ .running
          ∧ (atBoundary.takes.get 2).length = 1)
      ∧ (atBoundary.lanes.get 1).state = .running
      ∧ findItem (atBoundary.takes.get (itemDomain 95)) 95 = none
      ∧ (let s := { atBoundary with plan := State.reset.plan.set 8 .embed }
         s.plan.get (groupNo 2 0) = .embed ∧ (s.lanes.get 2).state ≠ .running)
      ∧ atBoundary.ref.hfp = false ∧ (atBoundary.updRef fun r => { r with hfp := true }).ref.hfp = true := by
  unfold TakesOk takeListOk FreeFor
  decide +kernel

/-- R77, R157: an overdue frame makes HFP ABSENT, and a group of a lane that is not RUNNING leaves EMBED with the sets
it had. -/
theorem test_boundary_leaves_embed :
    after .houseFrameBoundary ((({ atBoundary with plan := State.reset.plan.set 8 .embed }.setTakes 2
        [{ body := .plan 8 .pass, tag := 3, stager := .a, held := false }]).updEmbed 8 fun _ => flowing 5).updRef
          fun r => { r with hfp := true })
      (fun t => (t.plan.get 8, (t.embed.get 8).state, (t.embed.get 8).fill, t.ref.hfp, (noticesA t).take 2))
      = some (.pass, .holding, 5, false, [[0x40, 1, 1], [0x01, 3, 2 + 1 * 8]]) := by decide +kernel

theorem witness_FallbackInputTrips :
    ({ State.reset with fallback := { state := .armed, fbk := false } } : State).fallback.state = .armed
      ∧ State.reset.fallback.state ≠ .armed ∧ (State.reset.builders.get 3).bypass = .out
      ∧ (State.reset.lanes.get 3).state ≠ .running
      ∧ (let s := running 3 6 2 1 [] State.reset
         (s.builders.get 3).bypass = .out ∧ (s.lanes.get 3).state = .running) := by decide

/-- R132, R133: a trip moves a RUNNING lane to ENTERING and leaves its store FLOWING; another lane's holds. -/
theorem test_trip :
    after .fbkAsserted ((((
        { running 3 6 2 1 [] State.reset with fallback := { state := .armed, fbk := false } }).updEmbed
        12 fun _ => flowing 5).updEmbed 0 fun _ => flowing 5).updBuilder 3 fun b => { b with acc := 7 })
      (fun t => ((t.builders.get 3).bypass, (t.builders.get 3).acc, (t.embed.get 12).state, (t.builders.get 0).bypass,
        (t.embed.get 0).state, (t.embed.get 0).fill))
      = some (.entering, 7, .flowing, .inside, .holding, 5) := by decide +kernel

/-- R13, R30, R43, R130: LOSS flushes the strip stores of the lane, keeps the counts, and touches no other lane. -/
theorem test_loss_flushes :
    after (.lossTimerExpiry 1) (((((running 1 6 21 20 [] State.reset).updStrip 4 fun _ =>
        { flowing 5 with reads := 12, last := flatSet 5, latch := true, overflows := 3 }).updStrip 0 fun _ =>
          flowing 5).updGroup 4 fun g => { g with present := true, pendingD := true }).updCount 4 fun _ =>
            { next := 9, owed := 2 })
      (fun t => (t.strip.get 4 == { Store.reset .idle with latch := true, overflows := 3 }, t.strip.get 0 == flowing 5,
        (t.groups.get 4).present, (t.groups.get 4).pendingD, t.embCounts.get 4 == { next := 9, owed := 0 }))
      = some (true, true, false, false, true) := by decide +kernel

theorem witness_FallbackCommandsAct :
    (∀ f, HeadIs (queued .b 0x50 [] { State.reset with fallback := f }) .b 0x50 7 []
        ∧ (queued .b 0x50 [] { State.reset with fallback := f }).fallback = f)
      ∧ (∀ f, HeadIs (queued .c 0x51 [] { State.reset with fallback := f }) .c 0x51 7 []
        ∧ (queued .c 0x51 [] { State.reset with fallback := f }).fallback = f)
      ∧ (let s := State.reset.updBuilder 2 fun b => { b with bypass := .inside }
         (s.builders.get 2).bypass = .inside ∧ (s.lanes.get 2).state ≠ .running ∧ (s.builders.get 0).bypass ≠ .inside)
      ∧ ((running 0 4 2 1 [] State.reset).lanes.get 0).state = .running :=
  ⟨fun _ => ⟨headIs_queued .., rfl⟩, fun _ => ⟨headIs_queued .., rfl⟩, by decide, by decide⟩

theorem witness_FramesReachTheQueue :
    (State.reset.port .c).selected = false
      ∧ (let f : Frame := { code := 0x38, ticket := 255, params := List.replicate 10 0 }
         f.params.length ≤ 24 ∧ paramLength? f.code = some (10, 10) ∧ 10 ≤ f.params.length ∧ f.params.length ≤ 10
           ∧ (reservedToC f.code = true → Line.c = .c))
      ∧ (State.reset.port .c).slot = none ∧ (slot23.port .a).selected = false ∧ (slot23.port .a).slot.isSome = true
      ∧ 4 ≤ (slot23.port .a).queue.length ∧ reservedToC 0x02 = false ∧ paramLength? 0x02 = some (0, 0) := by decide

/-- Line B with the bytes `bs` stored and `n` bytes clocked. -/
def received (bs : List Byte) (n : Nat) : State :=
  (selected .b State.reset).updPort .b fun p => { p with stored := bs, length := n }

theorem witness_BadFramesAreNotQueued :
    (let s := (selected .b State.reset).updPort .b fun p => { p with bits := [true] }
     (s.port .b).selected = true ∧ (s.port .b).skip = false ∧ (s.port .b).bits ≠ [])
      ∧ (((received [] 0).port .b).length = 0 ∧ ((received [] 0).port .b).selected = true
          ∧ ((received [] 0).port .b).skip = false ∧ ((received [] 0).port .b).bits = [])
      ∧ ((received [2] 1).port .b).stored = [2] ∧ ((received [2, 11] 2).port .b).stored = [2, 11]
      ∧ (24 < (25 : Byte).toNat ∧ ((received [2, 11, 0] 3).port .b).length ≠ 4 + (0 : Byte).toNat)
      ∧ (let p := (received [2, 11, 0, 0xF4] 4).port .b
         p.stored = 2 :: 11 :: 0 :: [0xF4] ∧ p.length = 4 + (0 : Byte).toNat ∧ p.stored.foldl (fun a b => a + b) 0 ≠ 0)
      ∧ (let p := (received [3, 11, 0, 0xF2] 4).port .b
         p.stored.foldl (fun a b => a + b) 0 = 0 ∧ paramLength? 3 = none)
      ∧ (let p := (received [0x52, 11, 0, 0xA3] 4).port .b
         p.stored.foldl (fun a b => a + b) 0 = 0 ∧ paramLength? 0x52 = some (0, 0) ∧ Line.b ≠ .c)
      ∧ (let p := (received [2, 11, 1, 0, 0xF2] 5).port .b
         p.stored.foldl (fun a b => a + b) 0 = 0 ∧ paramLength? 2 = some (0, 0) ∧ 0 < (1 : Byte).toNat
           ∧ ¬ ((2 : Byte) = 0x16 ∨ (2 : Byte) = 0x20 ∨ (2 : Byte) = 0x22 ∨ (2 : Byte) = 0x51 ∨ (2 : Byte) = 0x52))
      ∧ (let p := (received [0x12, 11, 0, 0xE3] 4).port .b
         p.stored.foldl (fun a b => a + b) 0 = 0 ∧ paramLength? 0x12 = some (1, 1) ∧ (0 : Byte).toNat < 1) := by decide

theorem witness_ResponsesAreDelivered :
    let s := (selected .a slot23).updPort .a fun p => { p with bits := List.replicate 7 false, length := 27 }
    (s.port .a).selected = true ∧ (s.port .a).skip = false ∧ (s.port .a).bits.length ≤ 7
      ∧ ((s.port .a).copy.map fun c => (c.ofResponse, c.bytes.length)) = some (true, 28)
      ∧ (s.port .a).clocked + [true].length = 28 * 8 ∧ (State.reset.port .a).selected = false := by decide

theorem witness_PortCommandsAnswer :
    HeadIs (queued .a 0x02 [] State.reset) .a 0x02 7 [] ∧ HeadIs (queued .c 0x01 [] State.reset) .c 0x01 7 [] :=
  ⟨headIs_queued .., headIs_queued ..⟩

theorem witness_StagingAct :
    let stage := queued .a 0x10 (BitVec.ofNat 8 95 :: BitVec.ofNat 8 (15 : BitVec 4).toNat :: entryBytes
        (entry 16 none))
      (State.reset.setOwner 7 (some .b))
    let plan := queued .a 0x18 [BitVec.ofNat 8 (96 + 15), BitVec.ofNat 8 (15 : BitVec 4).toNat, BitVec.ofNat 8 2]
      (State.reset.setOwner 96 (some .c))
    (HeadIs stage .a 0x10 7 (BitVec.ofNat 8 95 :: BitVec.ofNat 8 (15 : BitVec 4).toNat :: entryBytes (entry 16 none))
        ∧ (entry 16 none).stageable = true ∧ FreeFor stage (destItem 95) .a
        ∧ stage.owners.get (destItem 7) = some .b ∧ Line.b ≠ .a
        ∧ ({ entry 16 (some 17) with mode := .data } : Entry).stageable = false)
      ∧ (HeadIs plan .a 0x18 7 [BitVec.ofNat 8 (96 + 15), BitVec.ofNat 8 (15 : BitVec 4).toNat, BitVec.ofNat 8 2]
        ∧ PlanMode.embed.code = 2 ∧ FreeFor plan (planItem 15) .a ∧ plan.owners.get (planItem 0) = some .c)
      ∧ (∀ b : Byte, HeadIs (queued .a 0x11 [b] State.reset) .a 0x11 7 [b])
      ∧ FreeFor State.reset (destItem 0) .a ∧ FreeFor State.reset (planItem 15) .a
      ∧ (∀ (code : Byte) (ps : List Byte), HeadIs (queued .a code ps State.reset) .a code 7 ps)
      ∧ (State.reset.setOwner 111 (some .c)).owners.get 111 = some .c ∧ 112 ≤ (112 : Byte).toNat
      ∧ 96 ≤ (96 : Byte).toNat ∧ (95 : Byte).toNat < 96 ∧ 16 ≤ (16 : Byte).toNat ∧ 3 ≤ (3 : Byte).toNat
      ∧ entry? [0x10, 0xFF, 0x6C, 0x40, 0x00] = none :=
  ⟨⟨headIs_queued .., by decide, .inl (by decide), by decide, by decide, by decide⟩,
    ⟨headIs_queued .., by decide, .inl (by decide), by decide⟩, fun _ => headIs_queued .., .inl (by decide),
    .inl (by decide), fun _ _ => headIs_queued .., by decide⟩

theorem witness_MapTakeMovesATag :
    HeadIs (queued .b 0x12 [BitVec.ofNat 8 (11 : BitVec 4).toNat] (staged37 State.reset)) .b 0x12 7
        [BitVec.ofNat 8 (11 : BitVec 4).toNat]
      ∧ (staged37 State.reset).stagedDest.get 37 = some { body := entry 43 none, tag := 11, stager := .b }
      ∧ (let plan := State.reset.stagedPlan.set 15 (some { body := .embed, tag := 15, stager := .c })
         ({ State.reset with stagedPlan := plan } : State).stagedPlan.get 15
          = some { body := .embed, tag := 15, stager := .c })
      ∧ (staged37 State.reset).stagedDest.get 38 = none ∧ HeadIs (queued .a 0x12 [16] State.reset) .a 0x12 7 [16]
      ∧ 16 ≤ (16 : Byte).toNat := ⟨headIs_queued .., by decide, by decide, by decide, headIs_queued .., by decide⟩

theorem witness_ProtectionAct :
    (∀ (code : Byte) (l : Line) (ps : List Byte), HeadIs (queued l code ps State.reset) l code 7 ps)
      ∧ FreeFor State.reset 111 .a ∧ (State.reset.setOwner 0 (some .b)).owners.get 0 = some .b ∧ Line.b ≠ .a
      ∧ (State.reset.setOwner 111 (some .a)).owners.get 111 = some .a ∧ State.reset.owners.get 111 ≠ some .a
      ∧ State.reset.owners.get 0 = none ∧ 112 ≤ (112 : Byte).toNat ∧ (254 : Byte) ≠ 0xFF :=
  ⟨fun _ _ _ => headIs_queued .., .inl (by decide), by decide⟩

theorem witness_ReadsAnswer :
    (∀ (code : Byte) (ps : List Byte), HeadIs (queued .a code ps (staged37 State.reset)) .a code 7 ps)
      ∧ (staged37 State.reset).stagedDest.get 37 = some { body := entry 43 none, tag := 11, stager := .b }
      ∧ State.reset.stagedDest.get 95 = none
      ∧ (State.reset.setFault 3 (some { kind := .loss, line := 20, stamp := 2213, further := 255 })).faults.get 3
          = some { kind := .loss, line := 20, stamp := 2213, further := 255 }
      ∧ State.reset.faults.get 3 = none ∧ findItem (atSwitch.takes.get (itemDomain (destItem 4))) (destItem 4)
          = some { body := .dest 4 { entry 16 none with ramp := 2 }, tag := 3, stager := .a, held := false }
      ∧ findItem (atSwitch.takes.get (itemDomain (planItem 0))) (planItem 0)
          = some { body := .plan 0 .embed, tag := 3, stager := .b, held := false }
      ∧ 96 ≤ (96 : Byte).toNat ∧ (95 : Byte).toNat < 96 ∧ 112 ≤ (112 : Byte).toNat ∧ 4 ≤ (4 : Byte).toNat :=
  ⟨fun _ _ => headIs_queued .., by decide +kernel⟩

theorem witness_StoreCommandsAct :
    (∀ (code : Byte) (ps : List Byte), HeadIs (queued .a code ps fullStores) .a code 7 ps)
      ∧ 32 ≤ (32 : Byte).toNat ∧ 32 ≤ (255 : Byte).toNat ∧ fullStores.strip.get 0 = flowing 64
      ∧ fullStores.embed.get 15 = flowing 64 :=
  ⟨fun _ _ => headIs_queued .., by decide⟩

/-- A queue with the DEFER_LOSS of event 3 on its way, behind the same of event 2, and with the turns `ts`. -/
def offered (subs : BitVec 5) (ns : List Notice) (ts : List Taking) : EventQueue :=
  { subs, notices := ns, turns := ts,
    coming := [{ event := 2, notice := deferLoss }, { event := 3, notice := deferLoss }] }

theorem witness_EventCommandsAct :
    (∀ (code : Byte) (ps : List Byte) (q : EventQueue), HeadIs (queued .a code ps (State.reset.updEvents .a fun _ => q))
        .a code 7 ps)
      ∧ (31 : Byte).toNat < 32 ∧ 32 ≤ (32 : Byte).toNat
      ∧ (offered 31 [] [some [3]]).turn.notices = deferLoss :: [] ∧ (offered 31 [] [some []]).turn.notices = []
      ∧ (offered 31 [] []).turn.notices = deferLoss :: [deferLoss] := ⟨fun _ _ _ => headIs_queued .., by decide⟩

theorem witness_NoticesAreOffered :
    ((State.reset.eventQueue .a).turns = [] ∧ (State.reset.eventQueue .a).coming = []
        ∧ (State.reset.eventQueue .a).subs.getLsbD NoticeKind.refState.cls = true)
      ∧ ((offered 31 [] [some [3], none]).turns = some [3] :: [none] ∧ (offered 31 [] [some [3], none]).coming ≠ [])
      ∧ (offered 31 [] []).turns = []
      ∧ (offered 31 [] []).coming = [{ event := 2, notice := deferLoss }] ++ { event := 3, notice := deferLoss } :: []
      ∧ (∀ y ∈ [({ event := 2, notice := deferLoss } : Offer)], y.event ≠ 3)
      ∧ (offered 0 [] []).subs.getLsbD NoticeKind.deferLoss.cls = false
      ∧ (offered 31 [] []).subs.getLsbD NoticeKind.deferLoss.cls = true ∧ (offered 31 [] []).notices.length < 32
      ∧ (let q := offered 31 (List.replicate 32 deferLoss) []
         q.notices = List.replicate 31 deferLoss ++ [deferLoss] ∧ (List.replicate 31 deferLoss).length = 31)
      ∧ (∀ y ∈ (offered 31 [] []).coming, y.event ≠ 4) := by decide

theorem witness_SetupCommandsAct :
    (∀ s, HeadIs (queued .c 0x20 [BitVec.ofNat 8 3, BitVec.ofNat 8 7] s) .c 0x20 7 [BitVec.ofNat 8 3,
        BitVec.ofNat 8 7])
      ∧ (State.reset.lanes.get 3).state ≠ .running
      ∧ (((running 3 1 9 8 [] State.reset).lanes.get 3).state = .running ∧ StoresOk (running 3 1 9 8 [] State.reset)
          ∧ NothingLeft (running 3 1 9 8 [] State.reset) 3)
      ∧ (∀ l s, HeadIs (queued l 0x49 [BitVec.ofNat 8 3] s) l 0x49 7 [BitVec.ofNat 8 3])
      ∧ (∀ s, HeadIs (queued .c 0x22 [BitVec.ofNat 8 7] s) .c 0x22 7 [BitVec.ofNat 8 7])
      ∧ State.reset.ref.boundaryDue = false
      ∧ (queued .c 0x22 [BitVec.ofNat 8 7] (State.reset.updRef fun r => { r with boundaryDue := true })).ref.boundaryDue
          = true
      ∧ 4 ≤ (4 : Byte).toNat ∧ 8 ≤ (8 : Byte).toNat := by
  refine ⟨fun _ => headIs_queued .., by decide, ⟨by decide, ?_, rfl⟩, fun _ _ => headIs_queued ..,
    fun _ => headIs_queued .., by decide⟩
  unfold StoresOk StoresBounded StatesOk
  decide +kernel

theorem witness_PathResetClearsTheAudioPath :
    (∀ bs, HeadIs (queued .c 0x52 [] (State.reset.setHanded bs)) .c 0x52 7 [])
      ∧ State.reset.handed = [] ∧ (∀ l, (State.reset.work.get l).isBuilding = false)
      ∧ (∀ d, (State.reset.monitors.get d).due = false)
      ∧ (∀ b, (∃ u, ResetTo b State.reset u) ∧ b ∉ State.reset.handed)
      ∧ (let s := State.reset.setHanded [.lanes, .strip, .catalogue, .trackMap, .engine, .embed]
         ResetBlock.monitors ∉ s.handed ∧ (∀ b', b' ≠ .monitors → b' ∈ s.handed) ∧ ResetBlock.lanes ∈ s.handed) := by
  refine ⟨fun _ => headIs_queued .., rfl, by decide, by decide +kernel, fun b => ⟨?_, by cases b <;> decide⟩, by decide,
    fun b h => by cases b <;> simp_all [State.setHanded], by decide⟩
  cases b <;> first | exact ⟨_, rfl⟩ | exact ⟨_, _, rfl, rfl⟩

end Sys2Proof.Tests
end

section
/-! The gain table of R92 against its formula, and the product of one side (R91, R93). -/

namespace Sys2Proof.Machine

/-! ### The gain table (R92) -/

/-- R92 for code `c` and factor `k`: `k` is 2^20 * 10^((c - 120)/40) rounded to the nearest integer, that is
`2k - 1 ≤ 2^21 * 10^((c - 120)/40) < 2k + 1`, compared after raising all three to the 40th power. -/
abbrev RoundsGain (c k : Nat) : Prop :=
  0 < k ∧ (2 * k - 1) ^ 40 * 10 ^ 120 ≤ 2097152 ^ 40 * 10 ^ c ∧ 2097152 ^ 40 * 10 ^ c < (2 * k + 1) ^ 40 * 10 ^ 120

/-! The four tables hold one factor of ten (40 codes, 20 dB) each, so their entries are numbered from 0, 40, 80, 120. -/

theorem gainTable0_roundsGain : ∀ p ∈ gainTable0.zipIdx, RoundsGain p.2 p.1 := by decide

theorem gainTable1_roundsGain : ∀ p ∈ gainTable1.zipIdx 40, RoundsGain p.2 p.1 := by decide

theorem gainTable2_roundsGain : ∀ p ∈ gainTable2.zipIdx 80, RoundsGain p.2 p.1 := by decide

theorem gainTable3_roundsGain : ∀ p ∈ gainTable3.zipIdx 120, RoundsGain p.2 p.1 := by decide

/-- K(c) stands in the joined tables at place c; no code falls past their end. -/
theorem gainFactor_code_mem_zipIdx (c : Fin 145) :
    (gainFactor (.code c), c.val) ∈ (gainTable0 ++ gainTable1 ++ gainTable2 ++ gainTable3).zipIdx := by
  have hc : c.val < (gainTable0 ++ gainTable1 ++ gainTable2 ++ gainTable3).length := c.isLt
  rw [List.mem_zipIdx_iff_getElem?, gainFactor, List.getD_eq_getElem?_getD, List.getElem?_eq_getElem hc,
    Option.getD_some]

theorem gainFactor_code_roundsGain (c : Fin 145) : RoundsGain c (gainFactor (.code c)) := by
  have hc := gainFactor_code_mem_zipIdx c
  simp only [List.zipIdx_append, List.mem_append] at hc
  obtain ((h | h) | h) | h := hc
  · exact gainTable0_roundsGain _ h
  · exact gainTable1_roundsGain _ h
  · exact gainTable2_roundsGain _ h
  · exact gainTable3_roundsGain _ h

@[simp] theorem gainFactor_off : gainFactor .off = 0 := rfl

/-- Code 120 is 0 dB. -/
theorem gainFactor_code_120 : gainFactor (.code 120) = 2 ^ 20 := rfl

/-! ### One side (R91, R93) -/

/-- R93 in one equation: the sign of `invert`, the counted values of the two records, the factor of the entry. -/
theorem sideProduct_eq (e : Entry) (a : Record) (b : Option Record) :
    sideProduct e a b
      = (if e.invert then -1 else 1) * (counted a + b.elim 0 counted) * gainFactor e.gain := by
  have hsum : sideProduct e a b
      = (if e.invert then -(counted a + b.elim 0 counted) else counted a + b.elim 0 counted) * gainFactor e.gain := by
    cases b <;> rfl
  rw [hsum]
  cases e.invert <;> simp

theorem sideProduct_eq_zero_of_off {e : Entry} (h : e.gain = .off) (a : Record) (b : Option Record) :
    sideProduct e a b = 0 := by
  simp [sideProduct_eq, h]

/-- Settles O38: each entry of the gain table meets R92, and R93 gives the product of a side. -/
theorem gainFactors : Obligations.GainFactors :=
  ⟨gainFactor_code_roundsGain, gainFactor_off, gainFactor_code_120, sideProduct_eq,
    fun _ a b h => sideProduct_eq_zero_of_off h a b⟩

end Sys2Proof.Machine
end

section
/-! The port commands: POLL's flags byte and state (R177), IDENT's answer (R178). -/

namespace Sys2Proof.Machine

/-! ### POLL's flags byte (R177) -/

/-- The flags byte of R177: FRAMING in bit 0, EV in bit 1. -/
def pollFlags (framing ev : Bool) : Byte := BitVec.ofNat 8 (bit framing + bit ev * 2)

@[simp] theorem pollFlags_getLsbD_zero (framing ev : Bool) : (pollFlags framing ev).getLsbD 0 = framing := by
  revert framing ev; decide

@[simp] theorem pollFlags_getLsbD_one (framing ev : Bool) : (pollFlags framing ev).getLsbD 1 = ev := by
  revert framing ev; decide

theorem EventQueue.ev_iff (q : EventQueue) : q.ev = true ↔ q.notices ≠ [] := by
  simp [EventQueue.ev]

/-- R177 with the flags byte named. -/
theorem pollAnswer_eq (l : Line) (s : State) :
    pollAnswer l s = (s.updPort l fun p => { p with framing := false }, .ok,
      [BitVec.ofNat 8 (lineCode l), BitVec.ofNat 8 ((s.port l).queue.length - 1),
        pollFlags (s.port l).framing (s.eventQueue l).ev]) := rfl

/-! ### Execution from the head of the queue (R177, R178) -/

section
variable {s : State} {l : Line} {ticket : Byte} {ps : List Byte}

/-- IDENT is open to every line: its code is not reserved to C (R176). -/
theorem exec_ident_of_head (h : HeadIs s l 0x02 ticket ps) :
    exec (.ident l) s = .next (s.answer l ticket .ok [0x19, 0x10, 0x01]) :=
  congrArg Host.Outcome.next (execute_of_head h (absurd · (by decide)))

/-- POLL is open to every line: its code is not reserved to C (R176). -/
theorem exec_poll_of_head (h : HeadIs s l 0x01 ticket ps) :
    exec (.poll l) s
      = .next ((s.updPort l fun p => { p with framing := false }).answer l ticket .ok
          [BitVec.ofNat 8 (lineCode l), BitVec.ofNat 8 ((s.port l).queue.length - 1),
            pollFlags (s.port l).framing (s.eventQueue l).ev]) := by
  have hrun : exec (.poll l) s = .next (s.execute l 0x01 fun _ s => pollAnswer l s) := rfl
  rw [hrun, execute_of_head h (absurd · (by decide)), pollAnswer_eq]

end

/-- Settles O51: each command runs from the head of the queue, and bit 1 of the flags byte is EV, by
`EventQueue.ev_iff`. -/
theorem portCommandsAnswer : Obligations.PortCommandsAnswer := by
  intro l ticket ps s
  refine ⟨exec_ident_of_head, fun h =>
    ⟨pollFlags (s.port l).framing (s.eventQueue l).ev, ?_, ?_, exec_poll_of_head h⟩⟩
  · exact pollFlags_getLsbD_zero _ _
  · rw [pollFlags_getLsbD_one]
    exact (s.eventQueue l).ev_iff

end Sys2Proof.Machine
end

section
/-! What a command may change (R171 and every rule's frame), and invariants that lean on parts of the state. -/

/- One theorem after another, here and in the sections below, for the reason that Laws/Keeps gives. -/
set_option Elab.async false

namespace Sys2Proof.Machine

/-! ### The frame of every command -/

theorem keeps_withPending (s : State) (cs : List Instr) : Keeps [.pending] s (s.withPending cs) := by
  intro p hp
  cases p with
  | pending => exact absurd (by decide) hp
  | events => exact ⟨rfl, rfl⟩
  | _ => rfl

theorem keeps_pinReset (fbk selA selB selC : Bool) (s : State) :
    Keeps (touches (.pinReset fbk selA selB selC)) s
      (.afterReset fbk selA selB selC (s.events.map EventQueue.turns) s.free s.pending) := by
  intro p hp
  cases p with
  | free => rfl
  | pending => rfl
  | _ => exact absurd (by simp [touches]) hp

/-- Every command answers a next state, which differs only in the parts that `touches` lists. -/
theorem exec_next_keeps (c : Instr) (s : State) : ∃ t, exec c s = .next t ∧ Keeps (touches c) s t := by
  cases c with
  | pinReset fbk selA selB selC => exact ⟨_, rfl, keeps_pinReset fbk selA selB selC s⟩
  | lineStart l n ws b =>
    exact ⟨_, rfl, (keeps_receiveWords l ws).andThen (keeps_strobe l n b) (C := lineParts ++ boundaryParts)⟩
  | outputLineStart l => exact ⟨_, rfl, keeps_updRelay l _⟩
  | carriageLine l a => exact ⟨_, rfl, keeps_carriageLine l a rfl⟩
  | lossTimerExpiry l => exact ⟨_, rfl, keeps_expireTimer l⟩
  | houseTick slots o b => exact ⟨_, rfl, keeps_houseTick slots o b rfl⟩
  | houseFrameBoundary => exact ⟨_, rfl, keeps_settleBoundary⟩
  | crossfadeEnd d => exact ⟨_, rfl, keeps_updDest d _⟩
  | softEntryComplete d => exact ⟨_, rfl, keeps_updDest d _⟩
  | windowComplete => exact ⟨_, rfl, keeps_completeWindows⟩
  | channelStatusBlockComplete n => exact ⟨_, rfl, keeps_updTracker n _⟩
  | wckEdge n => exact ⟨_, rfl, keeps_wckEdge n⟩
  | wckMissingInterval => exact ⟨_, rfl, keeps_wckMissing⟩
  | refLock => exact ⟨_, rfl, keeps_enterLock⟩
  | refHoldover => exact ⟨_, rfl, keeps_enterHoldover⟩
  | hfpPulse => exact ⟨_, rfl, keeps_hfpPulse⟩
  | fbkAsserted => exact ⟨_, rfl, keeps_assertFbk⟩
  | fbkReleased => exact ⟨_, rfl, keeps_releaseFbk⟩
  | selectAsserted l => exact ⟨_, rfl, keeps_updPort l _⟩
  | commandFrameEnd l bits => exact ⟨_, rfl, keeps_updPort l _⟩
  | responseDelivered l bits => exact ⟨_, rfl, keeps_updPort l _⟩
  | poll l => exact ⟨_, rfl, (keeps_execute l 0x01 fun _ _ => keeps_pollAnswer l).mono (B := [.ports])⟩
  | ident l => exact ⟨_, rfl, keeps_execute l 0x02 fun _ _ => Keeps.refl [] _⟩
  | mapStage l => exact ⟨_, rfl, keeps_execute l 0x10 fun ps _ => keeps_mapStage l ps⟩
  | mapDrop l => exact ⟨_, rfl, keeps_execute l 0x11 fun ps _ => keeps_mapDrop l ps⟩
  | mapTake l => exact ⟨_, rfl, keeps_execute l 0x12 fun ps _ => keeps_mapTake ps⟩
  | mapRead l => exact ⟨_, rfl, keeps_execute l 0x13 fun ps _ => keeps_mapRead ps⟩
  | protect l => exact ⟨_, rfl, keeps_execute l 0x14 fun ps _ => keeps_protect l ps⟩
  | release l => exact ⟨_, rfl, keeps_execute l 0x15 fun ps _ => keeps_release l ps⟩
  | forceRelease l => exact ⟨_, rfl, keeps_execute l 0x16 fun ps _ => keeps_forceRelease ps⟩
  | planStage l => exact ⟨_, rfl, keeps_execute l 0x18 fun ps _ => keeps_planStage l ps⟩
  | planRead l => exact ⟨_, rfl, keeps_execute l 0x19 fun ps _ => keeps_planRead ps⟩
  | laneFormat l => exact ⟨_, rfl, keeps_execute l 0x20 fun ps _ => keeps_laneFormat ps⟩
  | laneStatus l => exact ⟨_, rfl, keeps_execute l 0x21 fun ps _ => keeps_laneStatus ps⟩
  | refFormat l => exact ⟨_, rfl, keeps_execute l 0x22 fun ps _ => keeps_refFormat ps⟩
  | refStatus l => exact ⟨_, rfl, keeps_execute l 0x23 fun _ _ => Keeps.refl [] _⟩
  | storeStatus l => exact ⟨_, rfl, keeps_execute l 0x30 fun ps _ => keeps_storeStatus l ps⟩
  | storeClear l => exact ⟨_, rfl, keeps_execute l 0x31 fun ps _ => keeps_storeClear ps⟩
  | monSet l => exact ⟨_, rfl, keeps_execute l 0x38 fun ps _ => keeps_monSet ps⟩
  | meterRead l => exact ⟨_, rfl, keeps_execute l 0x39 fun ps _ => keeps_meterRead l ps⟩
  | eventSubscribe l =>
    exact ⟨_, rfl, keeps_execute l 0x40 fun ps _ => (keeps_takeOffers l).trans (keeps_eventSubscribe l ps)⟩
  | eventFetch l => exact ⟨_, rfl, keeps_execute l 0x41 fun _ _ => (keeps_takeOffers l).trans (keeps_eventFetch l)⟩
  | faultRead l => exact ⟨_, rfl, keeps_execute l 0x48 fun ps _ => keeps_faultRead ps⟩
  | faultClear l => exact ⟨_, rfl, keeps_execute l 0x49 fun ps _ => keeps_faultClear ps⟩
  | fallbackArm l => exact ⟨_, rfl, keeps_execute l 0x50 fun _ _ => keeps_armFallback l⟩
  | fallbackDisarm l => exact ⟨_, rfl, keeps_execute l 0x51 fun _ _ => keeps_disarmFallback l⟩
  | pathReset h =>
    obtain ⟨l, blocks⟩ := h
    exact ⟨_, rfl, keeps_executePart l 0x52 fun _ _ => keeps_pathReset blocks⟩

theorem exec_keeps {c : Instr} {s t : State} (h : exec c s = .next t) : Keeps (touches c) s t := by
  obtain ⟨u, hu, hk⟩ := exec_next_keeps c s
  rw [h] at hu
  injection hu with hu
  exact hu ▸ hk

theorem pending_not_touched (c : Instr) : Part.pending ∉ touches c := by
  cases c <;> simp [touches, lineParts, boundaryParts, exitParts, frameParts]

/-- Settles O2: the frame of each command, and no command touches the queue of waiting commands. -/
theorem commandsStayInTheirParts : Obligations.CommandsStayInTheirParts := by
  intro c s
  obtain ⟨t, ht, hk⟩ := exec_next_keeps c s
  exact ⟨t, ht, hk.pending (pending_not_touched c), hk⟩

/-! ### The step -/

/-- Settles O1. -/
theorem stepRunsTheFrontCommand : Obligations.StepRunsTheFrontCommand := by
  refine ⟨fun c s rest h => ?_, fun s h => ?_⟩
  · simp [step, h]
  · simp [step, h]

/-- What every command keeps, every step keeps. -/
theorem step_keeps_of_exec {P : State → Prop} (hq : ∀ s cs, P s → P (State.withPending s cs))
    (he : ∀ c s t, P s → exec c s = .next t → P t) : ∀ s t, P s → step s = .next t → P t := by
  intro s t hs h
  cases hp : s.pending with
  | nil =>
    rw [stepRunsTheFrontCommand.2 s hp] at h
    injection h with h
    exact h ▸ hs
  | cons c rest =>
    rw [stepRunsTheFrontCommand.1 c s rest hp] at h
    exact he c _ t (hq s rest hs) h

/-! ### Predicates that read some parts of the state only -/

/-- `P` reads no other part of the state than the listed ones. -/
def Reads (R : List Part) (P : State → Prop) : Prop := ∀ s t, (∀ p ∈ R, p.same s t) → P s → P t

/-- No listed part is one that the command may change. -/
def Spares (R : List Part) (c : Instr) : Bool := R.all fun p => !(touches c).contains p

section
variable {R A : List Part} {P : State → Prop} {s t : State}

theorem Reads.keeps (h : Reads R P) (hk : Keeps A s t) (hs : P s) (hd : ∀ p ∈ R, p ∉ A := by decide) : P t :=
  h s t (fun p hp => hk p (hd p hp)) hs

theorem Reads.of_spares (h : Reads R P) {c : Instr} (hc : Spares R c = true) (hs : P s)
    (he : exec c s = .next t) : P t := by
  refine h.keeps (exec_keeps he) hs fun p hp => ?_
  have := List.all_eq_true.mp hc p hp
  simpa using this

theorem Reads.withPending (h : Reads R P) (cs : List Instr) (hs : P s) (hd : Part.pending ∉ R := by decide) :
    P (s.withPending cs) :=
  h.keeps (keeps_withPending s cs) hs fun _ hp hc => hd (List.mem_singleton.mp hc ▸ hp)

/-- A predicate that every command keeps, of those that touch what it reads, is kept by every step. -/
theorem Reads.step (h : Reads R P)
    (he : ∀ c s t, Spares R c ≠ true → P s → exec c s = .next t → P t) (hd : Part.pending ∉ R := by decide) :
    ∀ s t, P s → step s = .next t → P t :=
  step_keeps_of_exec (fun _ cs hs => h.withPending cs hs hd) fun c s t hs hx =>
    if hc : Spares R c = true then h.of_spares hc hs hx else he c s t hc hs hx

/-- R171: an execution keeps what its block keeps, and what reads no port. -/
theorem Reads.executePart (h : Reads R P) {l : Line} {code : Byte}
    {f : List Byte → State → State × Option (Status × List Byte)} (hf : ∀ ps s, P s → P (f ps s).1) (hs : P s)
    (hd : Part.ports ∉ R := by decide) : P (s.executePart l code f) := by
  have hp : ∀ p ∈ R, p ∉ [Part.ports] := fun _ hp hc => hd (List.mem_singleton.mp hc ▸ hp)
  rcases executePart_cases s l code f with e | ⟨k, ps, -, ⟨-, -, e⟩ | ⟨-, e⟩⟩
  · rw [e]
    exact hs
  · rw [e]
    exact h.keeps (keeps_answer l k _ _) hs hp
  · rw [e]
    exact h.keeps (keeps_conclude l k _) (hf ps s hs) hp

theorem Reads.execute (h : Reads R P) {l : Line} {code : Byte} {f : List Byte → State → Answer}
    (hf : ∀ ps s, P s → P (f ps s).1) (hs : P s) (hd : Part.ports ∉ R := by decide) : P (s.execute l code f) :=
  h.executePart hf hs hd

end

/-- A property of a fold's start that every pass keeps is one of its end. -/
theorem foldl_keeps {α : Type} {P : State → Prop} {f : State → α → State} (hf : ∀ s x, P s → P (f s x))
    (xs : List α) : ∀ s, P s → P (xs.foldl f s) := by
  induction xs with
  | nil => exact fun _ h => h
  | cons x xs ih => exact fun s h => ih _ (hf s x h)

end Sys2Proof.Machine
end

section
/-! What a reset leaves, and the rules of the whole machine that follow from the frames of the commands. -/

set_option Elab.async false

namespace Sys2Proof.Machine

/-! ### The state after a reset -/

/-- Settles O3. -/
theorem resetIsSound : Obligations.ResetIsSound := by
  have hp : ∀ l : Line, State.reset.port l = Port.reset false := fun l => by cases l <;> rfl
  refine ⟨(storesOk_iff _).mpr fun g => ?_, fun l => ?_, ⟨fun l => ?_, fun l r h => ?_⟩,
    ⟨fun l => ?_, fun g => ?_, fun l => ?_⟩, fun dom => ?_, ⟨fun d => ?_, fun d r h => ?_, fun dom x h => ?_⟩,
    ⟨fun d => ?_, fun d _ => ?_, fun d d' => ?_⟩, fun d => ?_, fun n => ?_⟩
  · simp [State.reset, State.afterReset, Store.stripOk, Store.embedOk, Store.fill, Store.reset]
  · simp [State.reset, State.afterReset, State.eventQueue, EventQueue.reset]
  · simp [hp, Port.reset]
  · rw [hp] at h
    cases h
  · simp [State.reset, State.afterReset, Receiver.reset, Builder.reset]
  · simp [State.reset, State.afterReset, EmbedCount.reset]
  · simp [State.reset, State.afterReset]
  · simp [State.reset, State.afterReset, takeListOk]
  · simp [State.reset, State.afterReset, Entry.stageable, Entry.reset]
  · simp [State.reset, State.afterReset] at h
  · simp [State.reset, State.afterReset] at h
  · simp [State.reset, State.afterReset, DestState.reset]
  · simp [State.reset, State.afterReset, DestState.reset]
  · simp [State.reset, State.afterReset, DestState.reset]
  · simp [State.reset, State.afterReset, MonitorOk, Monitor.reset]
  · simp [State.reset, State.afterReset, History.wf, trimSilent]

theorem afterReset_port (fbk selA selB selC : Bool) (ts : Bank (List Taking) 3) (n : Nat) (cs : List Instr)
    (l : Line) : (State.afterReset fbk selA selB selC ts n cs).port l
      = .reset (match l with | .a => selA | .b => selB | .c => selC) := by
  cases l <;> rfl

/-- Settles O4: each bank is filled with the value after pin reset. -/
theorem pinResetClearsEverything : Obligations.PinResetClearsEverything := by
  intro fbk selA selB selC s
  refine ⟨_, rfl, fun _ => Bank.get_fill _ _, fun _ => Bank.get_fill _ _, fun _ => Bank.get_fill _ _,
    fun _ => Bank.get_fill _ _, fun _ => Bank.get_fill _ _, fun n k => ?_, fun _ => Bank.get_fill _ _, rfl, rfl,
    fun _ => ⟨Bank.get_fill _ _, Bank.get_fill _ _⟩, fun _ => ⟨Bank.get_fill _ _, Bank.get_fill _ _⟩,
    fun _ => Bank.get_fill _ _, fun _ => Bank.get_fill _ _, fun _ => Bank.get_fill _ _, fun _ => Bank.get_fill _ _,
    fun _ => Bank.get_fill _ _, fun _ => Bank.get_fill _ _, rfl, rfl, fun l => ?_, fun l => ?_, rfl,
    fun _ => ⟨Bank.get_fill _ _, Bank.get_fill _ _⟩, rfl, rfl, rfl⟩
  · simp [State.afterReset, History.read, Record.silent, Sample.silent]
  · rw [afterReset_port]
    cases l <;> rfl
  · simp [State.afterReset, State.eventQueue, EventQueue.reset]

/-! ### Fallback control (O15) -/

theorem setFallback_fallback (s : State) (a : FallbackState) :
    (s.setFallback a).fallback = { s.fallback with state := a } := rfl

theorem trip_fallback (s : State) : s.trip.fallback = { s.fallback with state := .tripped } :=
  (keeps_tripAll (s := s.setFallback .tripped)).fallback

theorem assertFbk_fallback_tripped {s : State} (h : s.fallback.state = .tripped) :
    s.assertFbk.fallback.state = .tripped := by
  simp [State.assertFbk, h]

theorem armFallback_of_tripped {s : State} (h : s.fallback.state = .tripped) (l : Line) : s.armFallback l = s := by
  simp [State.armFallback, h]

/-- The fallback state reads only the part of fallback control. -/
theorem reads_fallback (a : FallbackState) : Reads [.fallback] fun s => s.fallback.state = a := by
  intro s t h hs
  have : t.fallback = s.fallback := h .fallback (by decide)
  exact this ▸ hs

/-- Settles O15. -/
theorem onlyLineCUndoesATrip : Obligations.OnlyLineCUndoesATrip := by
  intro c s t hs h hne
  by_cases hc : Spares [.fallback] c = true
  · exact absurd ((reads_fallback .tripped).of_spares hc hs h) hne
  · cases c with
    | pinReset fbk selA selB selC => exact .inl ⟨_, _, _, _, rfl⟩
    | fbkAsserted =>
      injection h with h
      exact absurd (h ▸ assertFbk_fallback_tripped hs) hne
    | fbkReleased =>
      injection h with h
      exact absurd (h ▸ hs) hne
    | fallbackArm l =>
      injection h with h
      refine absurd (h ▸ (reads_fallback .tripped).execute (fun _ u hu => ?_) hs) hne
      show (u.armFallback l).fallback.state = _
      rw [armFallback_of_tripped hu]
      exact hu
    | fallbackDisarm l =>
      by_cases hl : l = .c
      · exact .inr (hl ▸ rfl)
      · injection h with h
        rcases execute_cases s l 0x51 fun _ s => fallbackDisarmAnswer l s with e | ⟨k, ps, -, ⟨-, -, e⟩ | ⟨hr, -⟩⟩
        · exact absurd (h ▸ e.symm ▸ hs) hne
        · exact absurd (h ▸ e.symm ▸ hs) hne
        · exact absurd (hr (by decide)) hl
    | _ => exact absurd rfl hc

/-! ### Ports (R171) -/

/-- R166, R170, R172: what a port keeps to. -/
def Port.ok (p : Port) : Prop := p.queue.length ≤ 4 ∧ ∀ r, p.slot = some r → r.payload.length ≤ 23

theorem portsOk_iff (s : State) : PortsOk s ↔ ∀ l, (s.port l).ok :=
  ⟨fun h l => ⟨h.1 l, h.2 l⟩, fun h => ⟨fun l => (h l).1, fun l => (h l).2⟩⟩

/-- The taking of a command of line `l` by its block: it changes no other line's port, nor the queue and the slot of its
own, and its answer has at most 23 bytes of payload (R172). -/
structure BlockTakes (l : Line) (f : List Byte → State → State × Option (Status × List Byte)) : Prop where
  other : ∀ ps s l', l ≠ l' → (f ps s).1.port l' = s.port l'
  own : ∀ ps s, ((f ps s).1.port l).queue = (s.port l).queue ∧ ((f ps s).1.port l).slot = (s.port l).slot
  payload : ∀ ps s st pl, (f ps s).2 = some (st, pl) → pl.length ≤ 23

/-- A block that touches no port takes its commands so. -/
theorem blockTakes_of_keeps {l : Line} {f : List Byte → State → Answer} {A : List Part}
    (hk : ∀ ps s, Keeps A s (f ps s).1) (hp : ∀ ps s, (f ps s).2.2.length ≤ 23)
    (hA : Part.ports ∉ A := by decide) : BlockTakes l fun ps s => ((f ps s).1, some (f ps s).2) where
  other ps s l' _ := (hk ps s).port l' hA
  own ps s := by
    show (State.port (f ps s).1 l).queue = _ ∧ (State.port (f ps s).1 l).slot = _
    rw [(hk ps s).port l hA]
    exact ⟨rfl, rfl⟩
  payload ps s st pl h := by
    injection h with h
    exact (congrArg (fun x => x.2.length) h).symm.trans_le (hp ps s)

/-- R171: an execution changes no other line's port. -/
theorem BlockTakes.port_other {l l' : Line} {f : List Byte → State → State × Option (Status × List Byte)}
    (hf : BlockTakes l f) (h : l ≠ l') (s : State) (code : Byte) : (s.executePart l code f).port l' = s.port l' := by
  rcases executePart_cases s l code f with e | ⟨k, ps, -, ⟨-, -, e⟩ | ⟨-, e⟩⟩
  · rw [e]
  · rw [e, answer_port, if_neg h]
  · rw [e, ← hf.other ps s l' h]
    unfold State.conclude
    split
    · next u st pl hu => rw [answer_port, if_neg h, hu]
    · next u hu => rw [hu]

/-- R171, R172: an answer leaves a port in order. -/
theorem ok_answer {s : State} {l : Line} (h : (s.port l).ok) (k : Byte) (st : Status) {pl : List Byte}
    (hp : pl.length ≤ 23) : ((s.answer l k st pl).port l).ok := by
  rw [answer_port, if_pos rfl]
  refine ⟨?_, fun r hr => ?_⟩
  · simp only [List.length_tail]
    exact Nat.le_trans (Nat.sub_le _ _) h.1
  · injection hr with hr
    exact hr ▸ hp

theorem BlockTakes.port_ok {l : Line} {f : List Byte → State → State × Option (Status × List Byte)}
    (hf : BlockTakes l f) {s : State} (h : (s.port l).ok) (code : Byte) : ((s.executePart l code f).port l).ok := by
  rcases executePart_cases s l code f with e | ⟨k, ps, -, ⟨-, -, e⟩ | ⟨-, e⟩⟩
  · rw [e]
    exact h
  · rw [e]
    exact ok_answer h k _ (by decide)
  · rw [e]
    have ho : (State.port (f ps s).1 l).ok := by
      obtain ⟨h1, h2⟩ := hf.own ps s
      rw [Port.ok, h1, h2]
      exact h
    unfold State.conclude
    split
    · next u st pl hu =>
      rw [hu] at ho
      exact ok_answer ho k st (hf.payload ps s st pl (congrArg Prod.snd hu))
    · next u hu =>
      rw [hu] at ho
      exact ho

/-! ### What comes to a port from its line (R166 to R170, R175) -/

theorem clock_queue_slot (p : Port) (b : Bool) : (p.clock b).queue = p.queue ∧ (p.clock b).slot = p.slot := by
  unfold Port.clock
  split
  · unfold Port.shift
    split <;> exact ⟨rfl, rfl⟩
  · exact ⟨rfl, rfl⟩

theorem clockAll_queue_slot (bits : List Bool) :
    ∀ p : Port, (p.clockAll bits).queue = p.queue ∧ (p.clockAll bits).slot = p.slot := by
  induction bits with
  | nil => exact fun _ => ⟨rfl, rfl⟩
  | cons b bits ih =>
    intro p
    obtain ⟨h1, h2⟩ := ih (p.clock b)
    obtain ⟨h3, h4⟩ := clock_queue_slot p b
    exact ⟨h1.trans h3, h2.trans h4⟩

theorem ok_select {p : Port} (h : p.ok) : p.select.ok := by
  unfold Port.select
  split <;> exact h

theorem ok_clockAll {p : Port} (h : p.ok) (bits : List Bool) : (p.clockAll bits).ok := by
  obtain ⟨h1, h2⟩ := clockAll_queue_slot bits p
  rw [Port.ok, h1, h2]
  exact h

/-- R170: a full queue takes no frame. -/
theorem ok_enqueue {p : Port} (h : p.ok) (f : Frame) : (p.enqueue f).ok := by
  unfold Port.enqueue
  split
  · next hq => exact ⟨by simp; omega, h.2⟩
  · exact h

theorem ok_endFrame {p : Port} (h : p.ok) (l : Line) : (p.endFrame l).ok := by
  have hn : p.noFrame.ok := h
  unfold Port.endFrame
  split
  · split
    · exact hn
    · split
      · exact hn
      · split
        · exact hn
        · split
          · exact ⟨h.1, fun r hr => by injection hr with hr; exact hr ▸ Nat.zero_le _⟩
          · exact ok_enqueue hn _
  · exact h

/-! ### The commands of a control line -/

/-- What a command of control line `l` does to the ports: an event on the line changes its port alone and keeps it in
order; every other one is an execution. -/
def PortCommand (c : Instr) (l : Line) : Prop :=
  (∃ g : Port → Port, (∀ p, p.ok → (g p).ok) ∧ ∀ s, exec c s = .next (s.updPort l g))
    ∨ ∃ code f, BlockTakes l f ∧ ∀ s, exec c s = .next (s.executePart l code f)

/-- An execution of a block that answers whole. -/
theorem portCommand_execute {c : Instr} {l : Line} {A : List Part} (code : Byte) (f : List Byte → State → Answer)
    (he : ∀ s, exec c s = .next (s.execute l code f)) (hk : ∀ ps s, Keeps A s (f ps s).1)
    (hp : ∀ ps s, (f ps s).2.2.length ≤ 23) (hA : Part.ports ∉ A := by decide) : PortCommand c l :=
  .inr ⟨code, _, blockTakes_of_keeps hk hp hA, he⟩

theorem entryBytes_length (e : Entry) : (entryBytes e).length = 5 := rfl

theorem stagedEntryBytes_length (r : Option (Staged Entry)) : (stagedEntryBytes r).length = 6 := by
  cases r <;> rfl

theorem stagedModeBytes_length (r : Option (Staged PlanMode)) : (stagedModeBytes r).length = 2 := by
  cases r <;> rfl

theorem takeEntryBytes_length (x : Option TakeItem) : (takeEntryBytes x).length = 6 := by
  unfold takeEntryBytes
  split <;> rfl

theorem takeModeBytes_length (x : Option TakeItem) : (takeModeBytes x).length = 2 := by
  unfold takeModeBytes
  split <;> rfl

theorem capturePayload_length (c : Option Capture) : (capturePayload c).length = 8 := by
  cases c <;> rfl


@[simp] theorem invalid_payload (s : State) : s.invalid.2.2.length = 0 := rfl
@[simp] theorem protectedBy_payload (s : State) (o : Line) : (s.protectedBy o).2.2.length = 1 := rfl
@[simp] theorem byte_length (n : Nat) : (byte n).length = 1 := rfl
@[simp] theorem be16_length (n : Nat) : (be16 n).length = 2 := rfl
@[simp] theorem be24_length (n : Nat) : (be24 n).length = 3 := rfl

/-- R172: the command that answers most, MAP_READ, does so with 23 bytes. -/
theorem mapPayload_length (s : State) (d : Fin 96) : (s.mapPayload d).length = 23 := by
  simp [State.mapPayload, entryBytes_length, stagedEntryBytes_length, takeEntryBytes_length]

theorem planPayload_length (s : State) (g : Fin 16) : (s.planPayload g).length = 7 := by
  simp [State.planPayload, stagedModeBytes_length, takeModeBytes_length]

theorem stageEntry_payload (s : State) (l : Line) (d t e) : (s.stageEntry l d t e).2.2.length ≤ 23 := by
  unfold State.stageEntry
  split <;> simp

theorem stageMode_payload (s : State) (l : Line) (g t m) : (s.stageMode l g t m).2.2.length ≤ 23 := by
  unfold State.stageMode
  split <;> simp

/-- Every command of a control line is an event on the line or an execution. -/
theorem portCommand_of_line {c : Instr} {l : Line} (h : portLine? c = some l) : PortCommand c l := by
  cases c with
  | selectAsserted k => injection h with h; subst h; exact .inl ⟨_, fun _ => ok_select, fun _ => rfl⟩
  | commandFrameEnd k bits =>
    injection h with h; subst h
    exact .inl ⟨_, fun p hp => ok_endFrame (ok_clockAll hp bits) k, fun _ => rfl⟩
  | responseDelivered k bits =>
    injection h with h; subst h
    exact .inl ⟨_, fun p hp => ok_clockAll hp bits, fun _ => rfl⟩
  | poll k =>
    injection h with h; subst h
    refine .inr ⟨0x01, _, ⟨fun _ s l' hl => ?_, fun _ s => ?_, fun _ s st pl hx => ?_⟩, fun _ => rfl⟩
    · exact (State.updPort_port s k l' _).trans (if_neg hl)
    · show ((s.updPort k _).port k).queue = _ ∧ ((s.updPort k _).port k).slot = _
      rw [State.updPort_port, if_pos rfl]
      exact ⟨rfl, rfl⟩
    · injection hx with hx
      exact (congrArg (fun x => x.2.length) hx).symm.trans_le (by simp [pollAnswer] : _ ≤ 23)
  | ident k =>
    injection h with h; subst h
    exact portCommand_execute 0x02 _ (fun _ => rfl) (fun _ _ => Keeps.refl [] _) fun _ _ => by simp
  | mapStage k =>
    injection h with h; subst h
    refine portCommand_execute 0x10 _ (fun _ => rfl) (fun ps _ => keeps_mapStage k ps) fun ps s => ?_
    unfold mapStageAnswer
    split
    · split
      · exact stageEntry_payload _ _ _ _ _
      · simp
    · simp
  | mapDrop k =>
    injection h with h; subst h
    refine portCommand_execute 0x11 _ (fun _ => rfl) (fun ps _ => keeps_mapDrop k ps) fun ps s => ?_
    unfold mapDropAnswer
    split
    · split <;> simp
    · simp
  | mapTake k =>
    injection h with h; subst h
    refine portCommand_execute 0x12 _ (fun _ => rfl) (fun ps _ => keeps_mapTake ps) fun ps s => ?_
    unfold mapTakeAnswer
    split
    · split <;> simp
    · simp
  | mapRead k =>
    injection h with h; subst h
    refine portCommand_execute 0x13 _ (fun _ => rfl) (fun ps _ => keeps_mapRead ps) fun ps s => ?_
    unfold mapReadAnswer
    split <;> simp [mapPayload_length]
  | protect k =>
    injection h with h; subst h
    refine portCommand_execute 0x14 _ (fun _ => rfl) (fun ps _ => keeps_protect k ps) fun ps s => ?_
    unfold protectAnswer
    split
    · split <;> simp
    · simp
  | release k =>
    injection h with h; subst h
    refine portCommand_execute 0x15 _ (fun _ => rfl) (fun ps _ => keeps_release k ps) fun ps s => ?_
    unfold releaseAnswer
    split
    · split <;> simp
    · simp
  | forceRelease k =>
    injection h with h; subst h
    refine portCommand_execute 0x16 _ (fun _ => rfl) (fun ps _ => keeps_forceRelease ps) fun ps s => ?_
    unfold forceReleaseAnswer
    split <;> simp
  | planStage k =>
    injection h with h; subst h
    refine portCommand_execute 0x18 _ (fun _ => rfl) (fun ps _ => keeps_planStage k ps) fun ps s => ?_
    unfold planStageAnswer
    split
    · split
      · exact stageMode_payload _ _ _ _ _
      · simp
    · simp
  | planRead k =>
    injection h with h; subst h
    refine portCommand_execute 0x19 _ (fun _ => rfl) (fun ps _ => keeps_planRead ps) fun ps s => ?_
    unfold planReadAnswer
    split
    · split <;> simp [planPayload_length]
    · simp
  | laneFormat k =>
    injection h with h; subst h
    refine portCommand_execute 0x20 _ (fun _ => rfl) (fun ps _ => keeps_laneFormat ps) fun ps s => ?_
    unfold laneFormatAnswer
    split
    · split <;> simp
    · simp
  | laneStatus k =>
    injection h with h; subst h
    refine portCommand_execute 0x21 _ (fun _ => rfl) (fun ps _ => keeps_laneStatus ps) fun ps s => ?_
    unfold laneStatusAnswer
    split <;> simp [State.lanePayload]
  | refFormat k =>
    injection h with h; subst h
    refine portCommand_execute 0x22 _ (fun _ => rfl) (fun ps _ => keeps_refFormat ps) fun ps s => ?_
    unfold refFormatAnswer
    split <;> simp
  | refStatus k =>
    injection h with h; subst h
    exact portCommand_execute 0x23 _ (fun _ => rfl) (fun _ _ => Keeps.refl [] _) fun _ _ => by simp [State.refPayload]
  | storeStatus k =>
    injection h with h; subst h
    refine portCommand_execute 0x30 _ (fun _ => rfl) (fun ps _ => keeps_storeStatus k ps) fun ps s => ?_
    unfold storeStatusAnswer
    split <;> simp [Store.payload]
  | storeClear k =>
    injection h with h; subst h
    refine portCommand_execute 0x31 _ (fun _ => rfl) (fun ps _ => keeps_storeClear ps) fun ps s => ?_
    unfold storeClearAnswer
    split <;> simp
  | monSet k =>
    injection h with h; subst h
    refine portCommand_execute 0x38 _ (fun _ => rfl) (fun ps _ => keeps_monSet ps) fun ps s => ?_
    unfold monSetAnswer
    split
    · split <;> simp
    · simp
  | meterRead k =>
    injection h with h; subst h
    refine portCommand_execute 0x39 _ (fun _ => rfl) (fun ps _ => keeps_meterRead k ps) fun ps s => ?_
    unfold meterReadAnswer
    split <;> simp [Monitor.payload]
  | eventSubscribe k =>
    injection h with h; subst h
    refine portCommand_execute 0x40 _ (fun _ => rfl)
      (fun ps _ => (keeps_takeOffers k).trans (keeps_eventSubscribe k ps)) fun ps s => ?_
    unfold eventSubscribeAnswer
    split
    · split <;> simp
    · simp
  | eventFetch k =>
    injection h with h; subst h
    refine portCommand_execute 0x41 _ (fun _ => rfl)
      (fun _ _ => (keeps_takeOffers k).trans (keeps_eventFetch k)) fun ps s => ?_
    unfold eventFetchAnswer
    split <;> simp [Notice.payload]
  | faultRead k =>
    injection h with h; subst h
    refine portCommand_execute 0x48 _ (fun _ => rfl) (fun ps _ => keeps_faultRead ps) fun ps s => ?_
    unfold faultReadAnswer
    split <;> simp [capturePayload_length]
  | faultClear k =>
    injection h with h; subst h
    refine portCommand_execute 0x49 _ (fun _ => rfl) (fun ps _ => keeps_faultClear ps) fun ps s => ?_
    unfold faultClearAnswer
    split <;> simp
  | fallbackArm k =>
    injection h with h; subst h
    exact portCommand_execute 0x50 _ (fun _ => rfl) (fun _ _ => keeps_armFallback k) fun _ _ => by
      simp [fallbackArmAnswer]
  | fallbackDisarm k =>
    injection h with h; subst h
    exact portCommand_execute 0x51 _ (fun _ => rfl) (fun _ _ => keeps_disarmFallback k) fun _ _ => by
      simp [fallbackDisarmAnswer]
  | pathReset hd =>
    injection h with h; subst h
    refine .inr ⟨0x52, _, ⟨fun _ _ l' _ => (keeps_pathReset hd.blocks).port l', fun _ s => ?_, fun _ s st pl hx => ?_⟩,
      fun _ => rfl⟩
    · rw [(keeps_pathReset (s := s) hd.blocks).port hd.line]
      exact ⟨rfl, rfl⟩
    · unfold pathResetAnswer at hx
      dsimp only at hx
      split at hx
      · injection hx with hx
        exact (congrArg (fun x => x.2.length) hx).symm.trans_le (by simp)
      · cases hx
  | _ => cases h

/-- The commands that are not of a control line touch no port, but for a pin reset. -/
theorem spares_ports_of_no_line {c : Instr} (h : portLine? c = none)
    (hpin : ∀ fbk selA selB selC, c ≠ .pinReset fbk selA selB selC) : Spares [.ports] c = true := by
  cases c with
  | pinReset fbk selA selB selC => exact absurd rfl (hpin _ _ _ _)
  | lineStart | outputLineStart | carriageLine | lossTimerExpiry | houseTick | houseFrameBoundary | crossfadeEnd
  | softEntryComplete | windowComplete | channelStatusBlockComplete | wckEdge | wckMissingInterval | refLock
  | refHoldover | hfpPulse | fbkAsserted | fbkReleased => rfl
  | _ => cases h

/-- The port of a line reads only the ports. -/
theorem reads_port (l : Line) (P : Port → Prop) : Reads [.ports] fun s => P (s.port l) := by
  intro s t h hs
  have : t.ports = s.ports := h .ports (by decide)
  simpa [State.port, this] using hs

/-- Settles O16: a command of a line runs on its own port, and every other one touches none. -/
theorem portsAreSeparate : Obligations.PortsAreSeparate := by
  intro c s t l h hpin hl
  cases hc : portLine? c with
  | none => exact (reads_port l (· = s.port l)).of_spares (spares_ports_of_no_line hc hpin) rfl h
  | some k =>
    have hk : k ≠ l := fun e => hl (e ▸ hc)
    rcases portCommand_of_line hc with ⟨g, -, he⟩ | ⟨code, f, hf, he⟩
    · rw [he] at h
      injection h with h
      rw [← h, State.updPort_port, if_neg hk]
    · rw [he] at h
      injection h with h
      rw [← h, hf.port_other hk]

theorem portsOk_exec {c : Instr} {s t : State} (hs : PortsOk s) (h : exec c s = .next t) : PortsOk t := by
  rw [portsOk_iff] at hs ⊢
  intro l
  by_cases hpin : ∃ fbk selA selB selC, c = .pinReset fbk selA selB selC
  · obtain ⟨fbk, selA, selB, selC, rfl⟩ := hpin
    injection h with h
    rw [← h, afterReset_port]
    exact ⟨Nat.zero_le _, fun r hr => by cases hr⟩
  · have hpin' : ∀ fbk selA selB selC, c ≠ .pinReset fbk selA selB selC := fun _ _ _ _ e => hpin ⟨_, _, _, _, e⟩
    by_cases hl : portLine? c = some l
    · rcases portCommand_of_line hl with ⟨g, hg, he⟩ | ⟨code, f, hf, he⟩
      · rw [he] at h
        injection h with h
        rw [← h, State.updPort_port, if_pos rfl]
        exact hg _ (hs l)
      · rw [he] at h
        injection h with h
        exact h ▸ hf.port_ok (hs l) code
    · rw [portsAreSeparate c s t l h hpin' hl]
      exact hs l

/-- Settles O7. -/
theorem stepKeepsPorts : Obligations.StepKeepsPorts :=
  step_keeps_of_exec (fun _ _ h => h) fun _ _ _ => portsOk_exec

/-! ### Histories (O13) -/

theorem reads_historiesOk : Reads [.hist] HistoriesOk := by
  intro s t h hs
  have : t.hist = s.hist := h .hist (by decide)
  exact fun n => this ▸ hs n

/-- A history of reset records alone is in its canonical form. -/
theorem historiesOk_fill {s : State} (h : s.hist = .fill 98 []) : HistoriesOk s := by
  intro n
  simp [h, History.wf, trimSilent]

/-- R34: a tick appends one record to every history. -/
theorem historiesOk_audioTick (s : State) (slots o) : HistoriesOk (s.audioTick slots o) := by
  intro n
  simp only [State.audioTick]
  rw [(keeps_raiseEvents _).hist, (keeps_monitorTicks _).hist, (keeps_tickSerial _).hist, (keeps_writeEmbeds _).hist]
  simp only [State.appendRecords, Bank.get_mapIdx]
  exact History.wf_append _ _

theorem historiesOk_resetBlock {s : State} (h : HistoriesOk s) (b : ResetBlock) : HistoriesOk (s.resetBlock b) := by
  cases b with
  | catalogue => exact historiesOk_fill rfl
  | lanes => exact h
  | strip => exact h
  | trackMap => exact h
  | engine => exact h
  | embed => exact reads_historiesOk.keeps (keeps_finishBuilds.andThen keeps_embedReset (C := lineParts)) h
  | monitors => exact reads_historiesOk.keeps (keeps_monitorsReset (s := s)) h

/-- R165: what the blocks of a PATH_RESET keep, the command keeps, if it reads neither the events nor what is handed. -/
theorem Reads.pathReset {R : List Part} {P : State → Prop} (h : Reads R P) (hb : ∀ s b, P s → P (State.resetBlock s b))
    (blocks : List ResetBlock) {s : State} (hs : P s) (he : Part.events ∉ R := by decide)
    (hh : Part.handed ∉ R := by decide) : P (pathResetAnswer blocks s).1 := by
  have hh' : ∀ p ∈ R, p ∉ [Part.handed] := fun _ hp hc => hh (List.mem_singleton.mp hc ▸ hp)
  have he' : ∀ p ∈ R, p ∉ [Part.events] := fun _ hp hc => he (List.mem_singleton.mp hc ▸ hp)
  have hf : P (blocks.foldl State.handReset s) := by
    refine foldl_keeps (fun u b hu => ?_) blocks s hs
    unfold State.handReset
    split
    · exact hu
    · exact h.keeps (keeps_setHanded _) (hb u b hu) hh'
  unfold pathResetAnswer
  dsimp only
  split
  · exact h.keeps (keeps_raise _ _ _) (h.keeps (keeps_setHanded _) hf hh') he'
  · exact hf

theorem exec_houseTick (slots o b) (s : State) :
    exec (.houseTick slots o b) s
      = .next (if b then ((s.settleTick.updRef RefUnit.tick).settleBoundary).audioTick slots o
          else (s.settleTick.audioTick slots o).updRef RefUnit.tick) := rfl

/-- Settles O13. -/
theorem stepKeepsHistories : Obligations.StepKeepsHistories := by
  refine reads_historiesOk.step fun c s t hc hs h => ?_
  cases c with
  | pinReset fbk selA selB selC => injection h with h; exact historiesOk_fill (h ▸ rfl)
  | houseTick slots o b =>
    rw [exec_houseTick] at h
    injection h with h
    subst h
    split
    · exact historiesOk_audioTick _ _ _
    · exact reads_historiesOk.keeps (keeps_updRef _) (historiesOk_audioTick _ _ _)
  | pathReset hd =>
    injection h with h
    exact h ▸ reads_historiesOk.executePart
      (fun _ _ hu => reads_historiesOk.pathReset (fun _ b hv => historiesOk_resetBlock hv b) hd.blocks hu) hs
  | _ => exact absurd rfl hc

end Sys2Proof.Machine
end

section
/-! Predicates on the stores and on the event queues that every command keeps: what each shared operation does to one,
told once for both (R40 to R52, R181). -/

set_option Elab.async false

namespace Sys2Proof.Machine

/-- `P` reads the stores and the event queues alone, and holds on when notices are raised and when stores take what
keeps them in order. -/
structure StoreSafe (P : State → Prop) : Prop where
  reads : Reads [.strip, .embed, .events] P
  raiseAs : ∀ s no c ns, P s → P (State.raiseAs s no c ns)
  raiseAllAt : ∀ s c ns, P s → P (State.raiseAllAt s c ns)
  newEvent : ∀ s, P s → P (State.newEvent s)
  strips : ∀ (s : State) (b : Bank Store 16), (∀ g, (s.strip.get g).stripOk → (b.get g).stripOk) → P s →
    P { s with strip := b }
  embeds : ∀ (s : State) (b : Bank Store 16), (∀ g, (s.embed.get g).embedOk → (b.get g).embedOk) → P s →
    P { s with embed := b }

namespace StoreSafe

variable {P : State → Prop} (h : StoreSafe P) {A : List Part} {s t : State}
include h

/-- What touches neither stores nor event queues. -/
theorem other (hk : Keeps A s t) (hs : P s) (hd : ∀ p ∈ [Part.strip, .embed, .events], p ∉ A := by decide) : P t :=
  h.reads.keeps hk hs hd

theorem raiseAll (ns) (hs : P s) : P (s.raiseAll ns) := h.raiseAllAt s _ ns hs

theorem updStrip (g) {f : Store → Store} (hf : ∀ st : Store, st.stripOk → (f st).stripOk) (hs : P s) :
    P (s.updStrip g f) := by
  refine h.strips s _ (fun g' hg => ?_) hs
  rw [Bank.get_upd]
  split
  · exact hf _ hg
  · exact hg

theorem updEmbed (g) {f : Store → Store} (hf : ∀ st : Store, st.embedOk → (f st).embedOk) (hs : P s) :
    P (s.updEmbed g f) := by
  refine h.embeds s _ (fun g' hg => ?_) hs
  rw [Bank.get_upd]
  split
  · exact hf _ hg
  · exact hg

/-! ### The parser (R20 to R32) -/

theorem offerFault (l k ev) (hs : P s) : P (s.offerFault l k ev) :=
  h.raiseAs _ _ _ _ (h.other (keeps_setFault l _) hs)

theorem reportMalformed (l ev) (hs : P s) : P (s.reportMalformed l ev) :=
  h.offerFault _ _ _ (h.other (keeps_updLane l _) hs)

theorem reportChecksum (l ev) (hs : P s) : P (s.reportChecksum l ev) :=
  h.offerFault _ _ _ (h.other (keeps_updLane l _) hs)

theorem reportGap (l ev) (hs : P s) : P (s.reportGap l ev) :=
  h.offerFault _ _ _ (h.other (keeps_updLane l _) hs)

theorem checkSequence (l ev g c) (hs : P s) : P (s.checkSequence l ev g c) := by
  have ha : P (s.reportAccepted l) := h.other (keeps_updLane l _) hs
  refine h.other (keeps_updGroup g _) ?_
  split
  · exact h.reportGap l ev ha
  · exact ha

/-- R29: the opening of an IDLE store for an accepted packet. -/
theorem openStore (g) (hs : P s) : P (if (s.strip.get g).state = .idle then
    (s.updStrip g Store.openIdle).updGroup g fun gs => { gs with pendingD := true } else s) := by
  split
  · exact h.other (keeps_updGroup g _) (h.updStrip g (fun _ => Store.stripOk_open) hs)
  · exact hs

theorem markPresent (no g) (hs : P s) : P (s.markPresent no g) := by
  have hp : P (if (s.groups.get g).present then s else
      (s.updGroup g fun gs => { gs with present := true, pendingD := true }).raiseAs no s.ref.frameCount
        [(.groupState, g.val, 1)]) := by
    split
    · exact hs
    · exact h.raiseAs _ _ _ _ (h.other (keeps_updGroup g _) hs)
  exact h.other (keeps_updGroup g _) (h.openStore g hp)

theorem writeSet (g x) (hs : P s) : P (s.writeSet g x) :=
  h.other (keeps_updGroup g _) (h.raiseAll _ (h.updStrip g (fun _ hst => Store.stripOk_write hst _) hs))

theorem writeSets (xs) (hs : P s) : P (s.writeSets xs) :=
  foldl_keeps (P := P) (fun _ x hu => h.writeSet x.1 x.2 hu) xs s hs

theorem judgePacket (l ev p) (hs : P s) : P (s.judgePacket l ev p).1 := by
  unfold State.judgePacket
  split
  · exact hs
  · dsimp only
    split
    · exact h.reportChecksum l ev (h.other (keeps_updGroup _ _) hs)
    · split
      · exact h.reportMalformed l ev hs
      · exact h.markPresent _ _ (h.checkSequence l ev _ _ (h.other (keeps_updGroup _ _) hs))

theorem judgeAll (l ev) (ps : List (Nat × Packet)) : ∀ s : State, P s → P (s.judgeAll l ev ps).1 := by
  induction ps with
  | nil => exact fun _ hs => hs
  | cons p ps ih => exact fun s hs => ih _ (h.writeSets _ (h.judgePacket l ev p.2 hs))

theorem endWalk (l ev b) (hs : P s) : P (s.endWalk l ev b) := by
  unfold State.endWalk
  split
  · exact h.reportMalformed l ev hs
  · exact hs

theorem finishWalk (l ev) (w : Walk) (hs : P s) : P (w.finish l ev s).1 :=
  h.endWalk _ _ _ (h.judgeAll l ev w.todo _ (h.writeSets _ hs))

theorem makeAbsent (g) (hs : P s) : P (s.makeAbsent g) :=
  h.updStrip g (fun _ => Store.stripOk_flush) (h.other (keeps_updGroup g _) hs)

theorem reviewGroup (g) (hs : P s) : P (s.reviewGroup g) := by
  refine h.other (keeps_updGroup g _) ?_
  split
  · exact h.makeAbsent g hs
  · exact hs

theorem frameEnd (l) (hs : P s) : P (s.frameEnd l) :=
  h.other (keeps_updLane l _) (h.raiseAll _ (foldl_keeps (P := P) (fun _ _ hu => h.reviewGroup _ hu) four s hs))

theorem endLine (l ev) (hs : P s) : P (s.endLine l ev) := by
  unfold State.endLine
  split
  · exact h.frameEnd l hs
  · exact hs

theorem stopGroup (g) (hs : P s) : P (s.stopGroup g) := by
  refine h.updStrip g (fun _ => Store.stripOk_flush) (h.other (keeps_updGroup g _) ?_)
  split
  · exact h.makeAbsent g hs
  · exact hs

/-! ### Entering and leaving EMBED (R129, R130, R133) -/

theorem leaveEmbed (g) (hs : P s) : P (s.leaveEmbed g) :=
  h.other (keeps_updCount g _) (h.updEmbed g (fun _ => Store.embedOk_toHolding) hs)

theorem enterEmbed (g) (hs : P s) : P (s.enterEmbed g) := by
  unfold State.enterEmbed
  split
  · exact hs
  · exact h.other (keeps_triggerAll _)
      (h.other (keeps_updCount g _) (h.updEmbed g (fun _ => Store.embedOk_toFlowing) hs))

theorem holdLane (l) (hs : P s) : P (s.holdLane l) := foldl_keeps (P := P) (fun _ _ hu => h.leaveEmbed _ hu) four s hs

theorem enterLane (l) (hs : P s) : P (s.enterLane l) := by
  unfold State.enterLane
  split
  · refine foldl_keeps (P := P) (fun u c hu => ?_) four s hs
    split
    · exact h.enterEmbed _ hu
    · exact hu
  · exact hs

theorem bypassEnter (l) (hs : P s) : P (s.bypassEnter l) := h.holdLane l (h.other (keeps_updBuilder l _) hs)

theorem bypassExit (l) (hs : P s) : P (s.bypassExit l) := h.other (keeps_bypassExit l) hs

theorem tripLane (l) (hs : P s) : P (s.tripLane l) := by
  unfold State.tripLane
  split
  · split
    · exact h.other (keeps_updBuilder l _) hs
    · exact h.bypassEnter l hs
  · exact hs
  · exact hs
  · exact h.other (keeps_updBuilder l _) hs

theorem builderSwitchLine (l) (hs : P s) : P (s.builderSwitchLine l) := by
  have hb : P (s.updBuilder l fun b => { b with phase := .engaged }) := h.other (keeps_updBuilder l _) hs
  refine h.enterLane l ?_
  split
  · exact hb
  · exact h.bypassEnter l hb
  · exact hb
  · exact h.bypassExit l hb

theorem builderStop (l) (hs : P s) : P (s.builderStop l) := by
  have hb : P ((s.updBuilder l fun b => { b with phase := .stopped, acc := 0 }).holdLane l) :=
    h.holdLane l (h.other (keeps_updBuilder l _) hs)
  unfold State.builderStop
  dsimp only
  split
  · exact hb
  · exact h.bypassEnter l hb
  · exact hb
  · exact h.bypassExit l hb

/-! ### The builder on a line (R118 to R127) -/

theorem readEmbed (g) (hs : P s) : P (s.readEmbed g).1 :=
  h.raiseAll _ (h.updEmbed g (fun _ => Store.embedOk_read) hs)

theorem readSets (g) (n : Nat) : ∀ s : State, P s → P (s.readSets g n).1 := by
  induction n with
  | zero => exact fun _ hs => hs
  | succ n ih => exact fun s hs => ih _ (h.readEmbed g hs)

theorem placePacket (l c n xs) (hs : P s) : P (s.placePacket l c n xs).1 := h.other (keeps_updCount _ _) hs

theorem deferSets (g ev n) (hs : P s) : P (s.deferSets g ev n) := by
  unfold State.deferSets
  dsimp only
  split
  · exact h.other (keeps_updCount g _) hs
  · exact h.raiseAs _ _ _ _
      (h.other (keeps_updCount g _) (h.updEmbed g (fun _ hst => Store.embedOk_discard hst _) hs))

theorem dealGroup (l c ev n used) (hs : P s) : P (s.dealGroup l c ev n used).1 := by
  unfold State.dealGroup
  split
  · exact hs
  · exact h.placePacket _ _ _ _ (h.readSets _ _ _ hs)
  · exact h.deferSets _ _ _ hs

theorem dealGroups (l ev n) (cs : List (Fin 4)) :
    ∀ (s : State) (used), P s → P (s.dealGroups l ev n cs used).1 := by
  induction cs with
  | nil => exact fun _ _ hs => hs
  | cons c cs ih => exact fun s used hs => ih _ _ (h.dealGroup l c ev n used hs)

theorem finishBuilding (l ev) (b : Build) (hs : P s) : P (b.finish l ev s) := by
  have hd : P (b.finishDraft l s).1 := by
    unfold Build.finishDraft
    split
    · exact hs
    · exact h.placePacket _ _ _ _ (h.readSets _ _ _ hs)
  exact h.other (keeps_updRelay l _) (h.dealGroups l ev b.n b.groups _ _ hd)

theorem startBuild (l ev w) (hs : P s) : P (s.startBuild l ev w).1 := h.other (keeps_startBuild l ev w) hs

theorem buildLine (l ev w) (hs : P s) : P (s.buildLine l ev w) := by
  have hb := h.startBuild l ev w hs
  unfold State.buildLine
  split
  · next u b hu =>
    rw [hu] at hb
    exact h.finishBuilding l ev b hb
  · next u hu =>
    rw [hu] at hb
    exact hb

/-! ### The accesses of a carriage-line event -/

theorem finish (l) (w : LaneWork) (hs : P s) : P (w.finish l s) := by
  cases w with
  | idle => exact hs
  | walking ev w => exact h.endLine l ev (h.buildLine l ev _ (h.finishWalk l ev w hs))
  | building ev b => exact h.endLine l ev (h.finishBuilding l ev b hs)

theorem advanceWalk (l ev) (w : Walk) (hs : P s) : P (LaneWork.advanceWalk l ev w s).1 := by
  unfold LaneWork.advanceWalk
  split
  · exact h.writeSet _ _ hs
  · exact h.judgePacket l ev _ hs
  · have hb := h.startBuild l ev { entries := w.entries, ending := w.ending, failed := w.failed }
      (h.endWalk l ev w.failed hs)
    split
    · next u b hu =>
      rw [hu] at hb
      exact hb
    · next u hu =>
      rw [hu] at hb
      exact h.endLine l ev hb

theorem advanceBuild (l ev) (b : Build) (hs : P s) : P (LaneWork.advanceBuild l ev b s).1 := by
  unfold LaneWork.advanceBuild
  split
  · exact h.readEmbed _ hs
  · exact h.placePacket _ _ _ _ hs
  · split
    · exact hs
    · exact hs
    · exact h.deferSets _ _ _ hs
  · exact h.endLine l ev (h.other (keeps_updRelay l _) hs)

theorem run (l) (k : Nat) : ∀ (w : LaneWork) (s : State), P s → P (w.run l k s).1 := by
  induction k with
  | zero => exact fun _ _ hs => hs
  | succ k ih =>
    intro w s hs
    refine ih _ _ ?_
    cases w with
    | idle => exact hs
    | walking ev w => exact h.advanceWalk l ev w hs
    | building ev b => exact h.advanceBuild l ev b hs

theorem workOn (l w k) (hs : P s) : P (s.workOn l w k) := by
  cases k with
  | none => exact h.other (keeps_setWork l _) (h.finish l w hs)
  | some k => exact h.other (keeps_setWork l _) (h.run l k w s hs)

theorem finishWork (l) (hs : P s) : P (s.finishWork l) := h.workOn l _ _ hs

theorem takeArea (l n area k) (hs : P s) : P (s.takeArea l n area k) :=
  h.workOn _ _ _ (h.other (keeps_clearSeenLine l) (h.newEvent _ (h.newEvent _ hs)))

theorem receiveWords (l ws) (hs : P s) : P (s.receiveWords l ws) := by
  have hr : P (s.receive l ws) := h.other (keeps_receive l ws) hs
  unfold State.receiveWords
  split
  · exact h.takeArea _ _ _ _ hr
  · exact hr

/-! ### The track map (R72 to R78) -/

theorem applyMode (g m) (hs : P s) : P (s.applyMode g m) := by
  have hp : P { s with plan := s.plan.set g m } := by
    refine h.other (A := [.plan]) (fun p hp => ?_) hs
    cases p with
    | plan => exact absurd (by decide) hp
    | events => exact ⟨rfl, rfl⟩
    | _ => rfl
  unfold State.applyMode
  dsimp only
  split
  · exact hs
  · split
    · split
      · exact h.enterEmbed g hp
      · exact hp
    · split
      · exact h.leaveEmbed g hp
      · exact hp

theorem dealItem (x) (hs : P s) : P (s.dealItem x).1 := by
  unfold State.dealItem
  split
  · exact hs
  · split
    · split
      · exact hs
      · exact h.other (keeps_applyEntry _ _) hs
    · exact h.applyMode _ _ hs

theorem dealItems (xs : List TakeItem) : ∀ s : State, P s → P (s.dealItems xs).1 := by
  induction xs with
  | nil => exact fun _ hs => hs
  | cons x xs ih => exact fun s hs => ih _ (h.dealItem x hs)

theorem boundary (dom) (hs : P s) : P (s.boundary dom) :=
  h.raiseAll _ (h.other (keeps_setTakes dom _) (h.dealItems _ s hs))

theorem houseBoundary (hs : P s) : P s.houseBoundary := by
  refine h.boundary 4 (foldl_keeps (P := P) (fun u l hu => ?_) four s hs)
  split
  · exact h.boundary _ hu
  · exact hu

/-! ### Line starts and exits (R6 to R15) -/

theorem leaveRunning (l) (hs : P s) : P (s.leaveRunning l) :=
  h.other (keeps_updLane l _) (h.builderStop l (foldl_keeps (P := P) (fun _ _ hu => h.stopGroup _ hu) four s hs))

theorem seekLine (l b n) (hs : P s) : P (s.seekLine l b n) := by
  unfold State.seekLine
  split
  · exact h.raiseAll _ (h.other (keeps_updBuilder l _) (h.other (keeps_updLane l _) hs))
  · exact h.other (keeps_updLane l _) hs

theorem switchLine (l b) (hs : P s) : P (s.switchLine l b) := by
  unfold State.switchLine
  split
  · exact h.boundary _ (h.builderSwitchLine l hs)
  · exact h.builderSwitchLine l (h.boundary _ hs)

theorem runLine (l n b) (hs : P s) : P (s.runLine l n b) := by
  have hl : P (s.updLane l fun r => r.inSequence n.toNat) := h.other (keeps_updLane l _) hs
  unfold State.runLine
  dsimp only
  split
  · exact h.switchLine l b hl
  · exact hl

theorem beginLine (l n) (hs : P s) : P (s.beginLine l n) := h.other (keeps_beginLine l n) hs

theorem strobe (l n b) (hs : P s) : P (s.strobe l n b) := by
  unfold State.strobe
  split
  · refine h.seekLine _ _ _ (h.raiseAs _ _ _ _ (h.other (keeps_updLane l _) (h.leaveRunning l ?_)))
    exact h.other (keeps_updLane l _)
      (h.beginLine l n (h.finishWork l (h.offerFault _ _ _ (h.newEvent _ hs))))
  · split
    · exact h.beginLine l n hs
    · exact h.seekLine _ _ _ (h.beginLine l n hs)
    · exact h.runLine _ _ _ (h.beginLine l n (h.finishWork l hs))
    · exact h.seekLine _ _ _ (h.raiseAll _ (h.other (keeps_updLane l _) (h.beginLine l n hs)))

theorem expireTimer (l) (hs : P s) : P (s.expireTimer l) := by
  unfold State.expireTimer
  dsimp only
  split
  · split
    · exact h.raiseAs _ _ _ _ (h.leaveRunning l (h.other (keeps_updLane l _)
        (h.finishWork l (h.offerFault _ _ _ (h.newEvent _ hs)))))
    · exact h.other (keeps_updLane l _) hs
    · exact hs
    · exact hs
  · exact hs

theorem setLaneFormat (l f) (hs : P s) : P (s.setLaneFormat l f) := by
  unfold State.setLaneFormat
  dsimp only
  split
  · exact h.raiseAll _ (h.other (keeps_updLane l _) (h.leaveRunning l (h.other (keeps_updLane l _)
      (h.finishWork l hs))))
  · exact h.raiseAll _ (h.other (keeps_updLane l _) hs)

/-! ### The reference unit, fallback control and the monitors -/

theorem raise (k a b) (hs : P s) : P (s.raise k a b) := h.raiseAll _ hs

theorem enterLock (hs : P s) : P s.enterLock := by
  unfold State.enterLock
  split
  · exact h.raise _ _ _ (h.other (keeps_updRef _) hs)
  · exact hs

theorem enterHoldover (hs : P s) : P s.enterHoldover := by
  unfold State.enterHoldover
  split
  · exact h.raise _ _ _ (h.other (keeps_updRef _) hs)
  · exact hs

theorem settleRef (hs : P s) : P s.settleRef := h.enterHoldover (h.enterLock hs)

theorem judgeGood (n) (hs : P s) : P (s.judgeGood n) := h.other (keeps_updRef _) (h.settleRef hs)

theorem judgeNonGood (hs : P s) : P s.judgeNonGood := h.other (keeps_updRef _) (h.settleRef hs)

theorem closeInterval (n) (hs : P s) : P (s.closeInterval n) := by
  unfold State.closeInterval
  split
  · exact h.judgeGood n hs
  · exact h.judgeNonGood hs
  · split
    · exact h.judgeNonGood hs
    · exact h.judgeNonGood (h.judgeNonGood hs)

theorem setHfp (b) (hs : P s) : P (s.setHfp b) := by
  unfold State.setHfp
  split
  · exact hs
  · exact h.raise _ _ _ (h.other (keeps_updRef _) hs)

theorem frameBoundary (hs : P s) : P s.frameBoundary := h.houseBoundary (h.other (keeps_updRef _) hs)

theorem settleBoundary (hs : P s) : P s.settleBoundary := by
  unfold State.settleBoundary
  split
  · exact h.frameBoundary (h.setHfp _ hs)
  · exact hs

theorem hfpPulse (hs : P s) : P s.hfpPulse := by
  have hb := h.settleBoundary hs
  unfold State.hfpPulse
  dsimp only
  split
  · exact h.setHfp _ (h.frameBoundary hb)
  · exact h.setHfp _ hb

theorem tripAll (hs : P s) : P s.tripAll := foldl_keeps (P := P) (fun _ _ hu => h.tripLane _ hu) four s hs

theorem trip (hs : P s) : P s.trip := by
  have hf : P (s.setFallback .tripped) := h.other (keeps_setFallback _) hs
  exact h.tripAll hf

theorem assertFbk (hs : P s) : P s.assertFbk := by
  have hf : P { s with fallback := { s.fallback with fbk := true } } := by
    refine h.other (A := [.fallback]) (fun p hp => ?_) hs
    cases p with
    | fallback => exact absurd (by decide) hp
    | events => exact ⟨rfl, rfl⟩
    | _ => rfl
  unfold State.assertFbk
  dsimp only
  split
  · exact h.raiseAll _ (h.trip hf)
  · exact hf
  · exact hf

theorem armFallback (l) (hs : P s) : P (s.armFallback l) := by
  unfold State.armFallback
  split
  · split
    · exact h.raiseAll _ (h.trip hs)
    · exact h.raiseAll _ (h.other (keeps_setFallback _) hs)
  · exact hs
  · exact hs

theorem disarmFallback (l) (hs : P s) : P (s.disarmFallback l) := by
  unfold State.disarmFallback
  split
  · exact hs
  · exact h.raiseAll _ (h.other (keeps_setFallback _) hs)
  · exact h.raiseAll _ (h.other keeps_releaseAll (h.other (keeps_setFallback _) hs))

theorem completeWindows (hs : P s) : P s.completeWindows := by
  refine h.raiseAllAt _ _ _ (h.other (A := [.monitors]) (fun p hp => ?_) hs)
  cases p with
  | monitors => exact absurd (by decide) hp
  | events => exact ⟨rfl, rfl⟩
  | _ => rfl

/-! ### The house tick (R33, R113) -/

theorem readStrips (hs : P s) : P s.readStrips := by
  refine h.strips s _ (fun g hg => ?_) hs
  rw [Bank.get_map]
  unfold Store.tickRead
  split
  · exact Store.stripOk_read hg
  · exact hg

theorem writeEmbeds (outs) (hs : P s) : P (s.writeEmbeds outs) := by
  refine h.embeds s _ (fun g hg => ?_) hs
  rw [Bank.get_mapIdx]
  exact Store.embedOk_write hg _

theorem audioTick (slots o) (hs : P s) : P (s.audioTick slots o) := by
  have hr := h.other (keeps_completeFlags o) (h.other (keeps_stepTrackers (s.tickRecords slots)) (h.readStrips hs))
  exact foldl_keeps (P := P) (fun _ ns hu => h.raiseAll ns hu) _ _
    (h.other (keeps_monitorTicks _) (h.other (keeps_tickSerial _)
      (h.writeEmbeds _ (h.other (keeps_appendRecords _) (h.other (keeps_applyTicks _) hr)))))

theorem settleTick (hs : P s) : P s.settleTick := by
  refine h.settleBoundary (h.completeWindows ?_)
  refine h.other (A := [.trackers, .engine]) (fun p hp => ?_) hs
  cases p with
  | trackers => exact absurd (by decide) hp
  | engine => exact absurd (by decide) hp
  | events => exact ⟨rfl, rfl⟩
  | _ => rfl

/-! ### PATH_RESET (R165) -/

theorem finishBuilds (hs : P s) : P s.finishBuilds := by
  refine foldl_keeps (P := P) (fun u l hu => ?_) four s hs
  unfold State.finishBuild
  split
  · exact h.finishWork l hu
  · exact hu

theorem embedReset (hs : P s) : P s.embedReset := by
  have he : P { s with embed := .fill 16 (.reset .holding) } :=
    h.embeds s _ (fun g _ => by simp [Store.embedOk, Store.fill, Store.reset]) hs
  refine h.other (A := [.builders, .embCounts]) (fun p hp => ?_) he
  cases p with
  | builders => exact absurd (by decide) hp
  | embCounts => exact absurd (by decide) hp
  | events => exact ⟨rfl, rfl⟩
  | _ => rfl

theorem stripReset (hs : P s) : P s.stripReset :=
  h.strips s _ (fun g _ => by simp [Store.stripOk, Store.fill, Store.reset]) hs

theorem resetBlock (b) (hs : P s) : P (s.resetBlock b) := by
  have hf : ∀ {A : List Part} {t : State}, Keeps A s t →
      (∀ p ∈ [Part.strip, .embed, .events], p ∉ A) → P t := fun hk hA => h.other hk hs hA
  cases b with
  | strip => exact h.stripReset hs
  | embed => exact h.embedReset (h.finishBuilds hs)
  | monitors =>
    refine h.other (A := [.monitors]) (fun p hp => ?_) (h.completeWindows hs)
    cases p with
    | monitors => exact absurd (by decide) hp
    | events => exact ⟨rfl, rfl⟩
    | _ => rfl
  | lanes =>
    refine h.other (A := [.lanes]) (fun p hp => ?_) hs
    cases p with
    | lanes => exact absurd (by decide) hp
    | events => exact ⟨rfl, rfl⟩
    | _ => rfl
  | catalogue =>
    refine h.other (A := [.hist, .trackers, .engine]) (fun p hp => ?_) hs
    cases p with
    | hist | trackers | engine => exact absurd (by decide) hp
    | events => exact ⟨rfl, rfl⟩
    | _ => rfl
  | trackMap =>
    refine h.other (A := [.takes]) (fun p hp => ?_) hs
    cases p with
    | takes => exact absurd (by decide) hp
    | events => exact ⟨rfl, rfl⟩
    | _ => rfl
  | engine =>
    refine h.other (A := [.engine]) (fun p hp => ?_) hs
    cases p with
    | engine => exact absurd (by decide) hp
    | events => exact ⟨rfl, rfl⟩
    | _ => rfl

theorem pathReset (blocks) (hs : P s) : P (pathResetAnswer blocks s).1 := by
  have hf : P (blocks.foldl State.handReset s) := by
    refine foldl_keeps (P := P) (fun u b hu => ?_) blocks s hs
    unfold State.handReset
    split
    · exact hu
    · exact h.other (keeps_setHanded _) (h.resetBlock b hu)
  unfold pathResetAnswer
  dsimp only
  split
  · exact h.raise _ _ _ (h.other (keeps_setHanded _) hf)
  · exact hf

/-! ### The commands -/

omit h in
/-- The updates of one store by the commands of chapter 3 keep what a store keeps to. -/
theorem keeps_order_of_same {f : Store → Store}
    (hf : ∀ st, (f st).sets = st.sets ∧ (f st).state = st.state ∧ (f st).reads = st.reads) :
    (∀ st : Store, st.stripOk → (f st).stripOk) ∧ ∀ st : Store, st.embedOk → (f st).embedOk := by
  constructor <;> intro st hst <;> obtain ⟨h1, h2, h3⟩ := hf st
  · simpa only [Store.stripOk, Store.fill, h1, h2, h3] using hst
  · simpa only [Store.embedOk, Store.fill, h1, h2, h3] using hst

theorem updStore (n) {f : Store → Store}
    (hf : ∀ st, (f st).sets = st.sets ∧ (f st).state = st.state ∧ (f st).reads = st.reads) (hs : P s) :
    P (s.updStore n f) := by
  unfold State.updStore
  split
  · exact h.updStrip _ (keeps_order_of_same hf).1 hs
  · exact h.updEmbed _ (keeps_order_of_same hf).2 hs

/-- Every command that is not a pin reset and reaches no event queue directly keeps `P`. -/
theorem exec {c : Instr} (hs : P s) (he : exec c s = .next t)
    (hpin : ∀ fbk selA selB selC, c ≠ .pinReset fbk selA selB selC)
    (hq : ∀ l, c ≠ .eventSubscribe l ∧ c ≠ .eventFetch l) : P t := by
  by_cases hc : Spares [.strip, .embed, .events] c = true
  · exact h.reads.of_spares hc hs he
  · cases c with
    | pinReset fbk selA selB selC => exact absurd rfl (hpin _ _ _ _)
    | eventSubscribe l => exact absurd rfl (hq l).1
    | eventFetch l => exact absurd rfl (hq l).2
    | lineStart l n ws b => injection he with he; exact he ▸ h.strobe l n b (h.receiveWords l ws hs)
    | carriageLine l a =>
      injection he with he
      have hr : P (s.receive l a.words) := h.other (keeps_receive l _) hs
      subst he
      split
      · exact h.takeArea _ _ _ _ hr
      · exact h.workOn _ _ _ hr
    | lossTimerExpiry l => injection he with he; exact he ▸ h.expireTimer l hs
    | houseTick slots o b =>
      rw [exec_houseTick] at he
      injection he with he
      subst he
      split
      · exact h.audioTick _ _ (h.settleBoundary (h.other (keeps_updRef _) (h.settleTick hs)))
      · exact h.other (keeps_updRef _) (h.audioTick _ _ (h.settleTick hs))
    | houseFrameBoundary => injection he with he; exact he ▸ h.settleBoundary hs
    | windowComplete => injection he with he; exact he ▸ h.completeWindows hs
    | wckEdge n =>
      injection he with he
      subst he
      refine h.other (keeps_updRef _) ?_
      split
      · exact h.closeInterval n hs
      · exact hs
    | wckMissingInterval =>
      injection he with he
      subst he
      unfold State.wckMissing
      split
      · exact h.other (keeps_updRef _) (h.judgeNonGood hs)
      · exact hs
    | refLock => injection he with he; exact he ▸ h.enterLock hs
    | refHoldover => injection he with he; exact he ▸ h.enterHoldover hs
    | hfpPulse => injection he with he; exact he ▸ h.hfpPulse hs
    | fbkAsserted => injection he with he; exact he ▸ h.assertFbk hs
    | mapTake l =>
      injection he with he
      refine he ▸ h.reads.execute (fun ps u hu => ?_) hs
      unfold mapTakeAnswer
      split
      · split
        · next tag _ =>
          exact h.raiseAll _ (h.other (Keeps.foldl (fun _ _ => keeps_joinTake _) _ _)
            (h.other (keeps_unstageTag tag) hu))
        · exact hu
      · exact hu
    | forceRelease l =>
      injection he with he
      refine he ▸ h.reads.execute (fun ps u hu => ?_) hs
      unfold forceReleaseAnswer
      split
      · exact h.raiseAll _ (h.other (Keeps.foldl (fun _ _ => keeps_setOwner _ _) _ _) hu)
      · exact hu
    | laneFormat l =>
      injection he with he
      refine he ▸ h.reads.execute (fun ps u hu => ?_) hs
      unfold laneFormatAnswer
      split
      · split
        · exact h.setLaneFormat _ _ hu
        · exact hu
      · exact hu
    | refFormat l =>
      injection he with he
      refine he ▸ h.reads.execute (fun ps u hu => ?_) hs
      unfold refFormatAnswer
      split
      · exact h.other (keeps_updRef _) (h.settleBoundary hu)
      · exact hu
    | storeStatus l =>
      injection he with he
      refine he ▸ h.reads.execute (fun ps u hu => ?_) hs
      unfold storeStatusAnswer
      split
      · exact h.updStore _ (fun _ => ⟨rfl, rfl, rfl⟩) hu
      · exact hu
    | storeClear l =>
      injection he with he
      refine he ▸ h.reads.execute (fun ps u hu => ?_) hs
      unfold storeClearAnswer
      split
      · exact h.updStore _ (fun _ => ⟨rfl, rfl, rfl⟩) hu
      · exact hu
    | monSet l =>
      injection he with he
      refine he ▸ h.reads.execute (fun ps u hu => ?_) hs
      unfold monSetAnswer
      split
      · split
        · exact h.other (keeps_updMonitor _ _) (h.completeWindows hu)
        · exact hu
      · exact hu
    | fallbackArm l =>
      injection he with he
      exact he ▸ h.reads.execute (fun _ _ hu => h.armFallback l hu) hs
    | fallbackDisarm l =>
      injection he with he
      exact he ▸ h.reads.execute (fun _ _ hu => h.disarmFallback l hu) hs
    | pathReset hd =>
      injection he with he
      exact he ▸ h.reads.executePart (fun _ _ hu => h.pathReset hd.blocks hu) hs
    | _ => exact absurd rfl hc

end StoreSafe

/-! ### Stores (O5) -/

theorem storeSafe_storesOk : StoreSafe StoresOk where
  reads s t h hs := by
    have h1 : t.strip = s.strip := h .strip (by decide)
    have h2 : t.embed = s.embed := h .embed (by decide)
    exact storesOk_of s t h1 h2 hs
  raiseAs s no c ns hs := storesOk_of_keeps hs (keeps_raiseAs no c ns)
  raiseAllAt s c ns hs := storesOk_of_keeps hs (keeps_raiseAllAt c ns)
  newEvent s hs := storesOk_of_keeps hs keeps_newEvent
  strips s b hb hs := by
    rw [storesOk_iff] at hs ⊢
    exact fun g => ⟨hb g (hs g).1, (hs g).2⟩
  embeds s b hb hs := by
    rw [storesOk_iff] at hs ⊢
    exact fun g => ⟨(hs g).1, hb g (hs g).2⟩

theorem reads_storesOk : Reads [.strip, .embed] StoresOk := fun s t h hs =>
  storesOk_of s t (h .strip (by decide)) (h .embed (by decide)) hs

/-- Settles O5. -/
theorem stepKeepsStores : Obligations.StepKeepsStores := by
  refine reads_storesOk.step fun c s t hc hs h => ?_
  cases c with
  | pinReset fbk selA selB selC =>
    injection h with h
    exact storesOk_of State.reset t (h ▸ rfl) (h ▸ rfl) resetIsSound.1
  | eventSubscribe | eventFetch => exact absurd rfl hc
  | _ => exact storeSafe_storesOk.exec hs h (by simp) (by simp)

/-! ### Event queues (O6) -/

theorem storeSafe_eventsBounded : StoreSafe EventsBounded where
  reads s t h hs l := by
    have h1 : t.events = s.events := (h .events (by decide)).1
    have : t.eventQueue l = s.eventQueue l := by rw [State.eventQueue, h1]; rfl
    exact this ▸ hs l
  raiseAs s no c ns hs := eventsBounded_raiseAs hs no c ns
  raiseAllAt s c ns hs := eventsBounded_raiseAllAt c ns hs
  newEvent s hs := hs
  strips s b _ hs := hs
  embeds s b _ hs := hs

theorem reads_eventsBounded : Reads [.events] EventsBounded := fun s t h hs l => by
  have h1 : t.events = s.events := (h .events (by decide)).1
  have : t.eventQueue l = s.eventQueue l := by rw [State.eventQueue, h1]; rfl
  exact this ▸ hs l

/-- An update of one queue that keeps it within 32 notices. -/
theorem eventsBounded_updEvents {s : State} (h : EventsBounded s) (l : Line) {f : EventQueue → EventQueue}
    (hf : ∀ q : EventQueue, q.notices.length ≤ 32 → (f q).notices.length ≤ 32) : EventsBounded (s.updEvents l f) := by
  intro l'
  rw [State.updEvents_eventQueue]
  split
  · exact hf _ (h l')
  · exact h l'

theorem eventsBounded_takeOffers {s : State} (h : EventsBounded s) (l : Line) : EventsBounded (s.takeOffers l) :=
  eventsBounded_updEvents h l fun q => q.turn_length

theorem eventsBounded_fetch {s : State} (h : EventsBounded s) (l : Line) :
    EventsBounded (eventFetchAnswer l s).1 := by
  unfold eventFetchAnswer
  split
  · exact h
  · next n rest hn =>
    intro l'
    have hl : rest.length ≤ 32 := by
      have := h l
      rw [hn, List.length_cons] at this
      omega
    show ((s.updEvents l _).eventQueue l').notices.length ≤ 32
    rw [State.updEvents_eventQueue]
    split
    · exact hl
    · exact h l'

theorem eventsBounded_subscribe {s : State} (h : EventsBounded s) (l : Line) (ps) :
    EventsBounded (eventSubscribeAnswer l ps s).1 := by
  unfold eventSubscribeAnswer
  split
  · split
    · exact eventsBounded_updEvents h l fun _ hq => hq
    · exact h
  · exact h

/-- Settles O6. -/
theorem stepKeepsEventQueues : Obligations.StepKeepsEventQueues := by
  refine reads_eventsBounded.step fun c s t hc hs h => ?_
  cases c with
  | pinReset fbk selA selB selC =>
    injection h with h
    intro l
    rw [← h]
    simp [State.afterReset, State.eventQueue, EventQueue.reset]
  | eventSubscribe l =>
    injection h with h
    exact h ▸ reads_eventsBounded.execute
      (fun ps _ hu => eventsBounded_subscribe (eventsBounded_takeOffers hu l) l ps) hs
  | eventFetch l =>
    injection h with h
    exact h ▸ reads_eventsBounded.execute (fun _ _ hu => eventsBounded_fetch (eventsBounded_takeOffers hu l) l) hs
  | _ => exact storeSafe_eventsBounded.exec hs h (by simp) (by simp)

end Sys2Proof.Machine
end

section
/-! Predicates on take lists, live entries, the engine and the monitors: what a boundary, and every command that brings
one, does to them (R70 to R78). -/

set_option Elab.async false

namespace Sys2Proof.Machine

/-! ### What a boundary keeps of its list (R72) -/

/-- The items that stay are items of the list, in their order, but for their hold marks. -/
theorem dealItems_kept_spec (xs : List TakeItem) : ∀ s : State,
    ((s.dealItems xs).2.1.map fun x => x.body.item).Sublist (xs.map fun x => x.body.item)
      ∧ ∀ y ∈ (s.dealItems xs).2.1, ∃ x ∈ xs, y.body = x.body ∧ y.stager = x.stager := by
  induction xs with
  | nil => exact fun _ => ⟨List.Sublist.refl _, fun y hy => by cases hy⟩
  | cons x xs ih =>
    intro s
    obtain ⟨h1, h2⟩ := ih (s.dealItem x).1
    have h3 : ∀ y ∈ ((s.dealItem x).1.dealItems xs).2.1, ∃ z ∈ x :: xs, y.body = z.body ∧ y.stager = z.stager := by
      intro y hy
      obtain ⟨z, hz, e⟩ := h2 y hy
      exact ⟨z, List.mem_cons_of_mem _ hz, e⟩
    simp only [State.dealItems, List.map_cons]
    split
    · refine ⟨h1.cons_cons _, fun y hy => ?_⟩
      rcases List.mem_cons.mp hy with rfl | hy
      · exact ⟨x, List.mem_cons_self, rfl, rfl⟩
      · exact h3 y hy
    · exact ⟨h1.cons _, h3⟩

/-- `P` reads take lists, live and staged entries, engine, monitors and owners alone, and holds on when a destination
gets a trigger, when a waiting item of a list is applied, and when a list loses items. -/
structure TakeSafe (P : State → Prop) : Prop where
  reads : Reads [.takes, .live, .stagedDest, .engine, .monitors, .owners] P
  trigger : ∀ s d, P s → P (State.trigger s d)
  applyEntry : ∀ (s : State) dom x d e, x ∈ s.takes.get dom → x.body = .dest d e → FreeFor s (destItem d) x.stager →
    P s → P (s.applyEntry d e)
  setTakes : ∀ (s : State) dom ys,
    (ys.map fun x => x.body.item).Sublist ((s.takes.get dom).map fun x => x.body.item) →
    (∀ y ∈ ys, ∃ x ∈ s.takes.get dom, y.body = x.body ∧ y.stager = x.stager) → P s → P (s.setTakes dom ys)

namespace TakeSafe

variable {P : State → Prop} (h : TakeSafe P) {A : List Part} {s t : State}
include h

/-- What touches nothing that `P` reads. -/
theorem other (hk : Keeps A s t) (hs : P s)
    (hd : ∀ p ∈ [Part.takes, .live, .stagedDest, .engine, .monitors, .owners], p ∉ A := by decide) : P t :=
  h.reads.keeps hk hs hd

theorem triggerAll (ds) (hs : P s) : P (s.triggerAll ds) :=
  foldl_keeps (P := P) (fun u d hu => h.trigger u d hu) ds s hs

/-! ### Entering and leaving EMBED and bypass -/

theorem enterEmbed (g) (hs : P s) : P (s.enterEmbed g) := by
  unfold State.enterEmbed
  split
  · exact hs
  · exact h.triggerAll _ (h.other (keeps_updCount g _) (h.other (keeps_updEmbed g _) hs))

theorem enterLane (l) (hs : P s) : P (s.enterLane l) := by
  unfold State.enterLane
  split
  · refine foldl_keeps (P := P) (fun u c hu => ?_) four s hs
    split
    · exact h.enterEmbed _ hu
    · exact hu
  · exact hs

theorem bypassExit (l) (hs : P s) : P (s.bypassExit l) := h.triggerAll _ (h.other (keeps_updBuilder l _) hs)

theorem releaseLane (l) (hs : P s) : P (s.releaseLane l) := by
  unfold State.releaseLane
  split
  · exact hs
  · exact h.other (keeps_updBuilder l _) hs
  · split
    · exact h.other (keeps_updBuilder l _) hs
    · exact h.bypassExit l hs
  · exact hs

theorem builderSwitchLine (l) (hs : P s) : P (s.builderSwitchLine l) := by
  have hb : P (s.updBuilder l fun b => { b with phase := .engaged }) := h.other (keeps_updBuilder l _) hs
  refine h.enterLane l ?_
  split
  · exact hb
  · exact h.other (keeps_bypassEnter l) hb
  · exact hb
  · exact h.bypassExit l hb

theorem builderStop (l) (hs : P s) : P (s.builderStop l) := by
  have hb : P ((s.updBuilder l fun b => { b with phase := .stopped, acc := 0 }).holdLane l) :=
    h.other (keeps_holdLane l) (h.other (keeps_updBuilder l _) hs)
  unfold State.builderStop
  dsimp only
  split
  · exact hb
  · exact h.other (keeps_bypassEnter l) hb
  · exact hb
  · exact h.bypassExit l hb

/-! ### Boundaries -/

theorem applyMode (g m) (hs : P s) : P (s.applyMode g m) := by
  have hp : P { s with plan := s.plan.set g m } := by
    refine h.other (A := [.plan]) (fun p hp => ?_) hs
    cases p with
    | plan => exact absurd (by decide) hp
    | events => exact ⟨rfl, rfl⟩
    | _ => rfl
  unfold State.applyMode
  dsimp only
  split
  · exact hs
  · split
    · split
      · exact h.enterEmbed g hp
      · exact hp
    · split
      · exact h.other (keeps_leaveEmbed g) hp
      · exact hp

theorem dealItem {dom} {x : TakeItem} (hx : x ∈ s.takes.get dom) (hs : P s) : P (s.dealItem x).1 := by
  obtain ⟨b, tag, stager, held⟩ := x
  cases b with
  | dest d e =>
    obtain ⟨h1, h2, h3⟩ := dealItem_dest s ⟨.dest d e, tag, stager, held⟩ d e rfl
    by_cases hf : FreeFor s (destItem d) stager
    · cases hc : (s.engine.get d).crossfading with
      | true => rw [h2 hf hc]; exact hs
      | false => rw [h3 hf hc]; exact h.applyEntry s dom _ d e hx rfl hf hs
    · obtain ⟨o, ho⟩ := h1 hf
      rw [ho]
      exact hs
  | plan g m =>
    obtain ⟨h1, h2⟩ := dealItem_plan s ⟨.plan g m, tag, stager, held⟩ g m rfl
    by_cases hf : FreeFor s (planItem g) stager
    · rw [h2 hf]
      exact h.applyMode g m hs
    · obtain ⟨o, ho⟩ := h1 hf
      rw [ho]
      exact hs

theorem dealItems {dom} (xs : List TakeItem) :
    ∀ s : State, (∀ x ∈ xs, x ∈ s.takes.get dom) → P s → P (s.dealItems xs).1 := by
  induction xs with
  | nil => exact fun _ _ hs => hs
  | cons x xs ih =>
    intro s hx hs
    refine ih (s.dealItem x).1 (fun y hy => ?_) (h.dealItem (hx x List.mem_cons_self) hs)
    rw [(keeps_dealItem x).takes]
    exact hx y (List.mem_cons_of_mem _ hy)

theorem boundary (dom) (hs : P s) : P (s.boundary dom) := by
  obtain ⟨h1, h2⟩ := dealItems_kept_spec (s.takes.get dom) s
  refine h.other (keeps_raiseAll _) (h.setTakes _ dom _ ?_ ?_ (h.dealItems (dom := dom) _ s (fun _ hx => hx) hs))
  · rw [(keeps_dealItems _ s).takes]
    exact h1
  · rw [(keeps_dealItems _ s).takes]
    exact h2

theorem houseBoundary (hs : P s) : P s.houseBoundary := by
  refine h.boundary 4 (foldl_keeps (P := P) (fun u l hu => ?_) four s hs)
  split
  · exact h.boundary _ hu
  · exact hu

theorem frameBoundary (hs : P s) : P s.frameBoundary := h.houseBoundary (h.other (keeps_updRef _) hs)

theorem settleBoundary (hs : P s) : P s.settleBoundary := by
  unfold State.settleBoundary
  split
  · exact h.frameBoundary (h.other (keeps_setHfp _) hs)
  · exact hs

theorem hfpPulse (hs : P s) : P s.hfpPulse := by
  have hb := h.settleBoundary hs
  unfold State.hfpPulse
  dsimp only
  split
  · exact h.other (keeps_setHfp _) (h.frameBoundary hb)
  · exact h.other (keeps_setHfp _) hb

/-! ### Line starts and exits -/

theorem leaveRunning (l) (hs : P s) : P (s.leaveRunning l) :=
  h.other (keeps_updLane l _) (h.builderStop l (h.other (keeps_parserStop l) hs))

theorem switchLine (l b) (hs : P s) : P (s.switchLine l b) := by
  unfold State.switchLine
  split
  · exact h.boundary _ (h.builderSwitchLine l hs)
  · exact h.builderSwitchLine l (h.boundary _ hs)

theorem runLine (l n b) (hs : P s) : P (s.runLine l n b) := by
  have hl : P (s.updLane l fun r => r.inSequence n.toNat) := h.other (keeps_updLane l _) hs
  unfold State.runLine
  dsimp only
  split
  · exact h.switchLine l b hl
  · exact hl

theorem strobe (l n b) (hs : P s) : P (s.strobe l n b) := by
  have hw : ∀ u : State, P u → P ((u.finishWork l).beginLine l n) := fun u hu =>
    h.other (keeps_beginLine l n) (h.other (keeps_finishWork l) hu)
  unfold State.strobe
  split
  · refine h.other (keeps_seekLine _ _ _) (h.other (keeps_raiseAs _ _ _) (h.other (keeps_updLane l _)
      (h.leaveRunning l (h.other (keeps_updLane l _) (hw _ ?_)))))
    exact h.other (keeps_offerFault _ _ _) (h.other keeps_newEvent hs)
  · split
    · exact h.other (keeps_beginLine l n) hs
    · exact h.other (keeps_seekLine _ _ _) (h.other (keeps_beginLine l n) hs)
    · exact h.runLine _ _ _ (hw s hs)
    · exact h.other (keeps_seekLine _ _ _) (h.other (keeps_raiseLaneState _ _ _) (h.other (keeps_updLane l _)
        (h.other (keeps_beginLine l n) hs)))

theorem expireTimer (l) (hs : P s) : P (s.expireTimer l) := by
  unfold State.expireTimer
  dsimp only
  split
  · split
    · exact h.other (keeps_raiseAs _ _ _) (h.leaveRunning l (h.other (keeps_updLane l _)
        (h.other (keeps_finishWork l) (h.other (keeps_offerFault _ _ _) (h.other keeps_newEvent hs)))))
    · exact h.other (keeps_updLane l _) hs
    · exact hs
    · exact hs
  · exact hs

theorem setLaneFormat (l f) (hs : P s) : P (s.setLaneFormat l f) := by
  unfold State.setLaneFormat
  dsimp only
  split
  · exact h.other (keeps_raiseAll _) (h.other (keeps_updLane l _) (h.leaveRunning l (h.other (keeps_updLane l _)
      (h.other (keeps_finishWork l) hs))))
  · exact h.other (keeps_raiseLaneState _ _ _) (h.other (keeps_updLane l _) hs)

theorem disarmFallback (l) (hs : P s) : P (s.disarmFallback l) := by
  unfold State.disarmFallback
  split
  · exact hs
  · exact h.other (keeps_raiseAll _) (h.other (keeps_setFallback _) hs)
  · exact h.other (keeps_raiseAll _) (foldl_keeps (P := P) (fun _ _ hu => h.releaseLane _ hu) four
      (s.setFallback .disarmed) (h.other (keeps_setFallback _) hs))

/-! ### The commands -/

omit h in
/-- The commands that reach what `TakeSafe` reads by a boundary, by triggers, or not at all. -/
def Plain : Instr → Bool
  | .lineStart _ _ _ _ | .lossTimerExpiry _ | .houseFrameBoundary | .hfpPulse | .refFormat _ | .laneFormat _
  | .fallbackDisarm _ => true
  | c => Spares [.takes, .live, .stagedDest, .engine, .monitors, .owners] c

theorem exec {c : Instr} (hc : Plain c = true) (hs : P s) (he : exec c s = .next t) : P t := by
  cases c with
  | lineStart l n ws b =>
    injection he with he
    exact he ▸ h.strobe l n b (h.other (keeps_receiveWords l ws) hs)
  | lossTimerExpiry l => injection he with he; exact he ▸ h.expireTimer l hs
  | houseFrameBoundary => injection he with he; exact he ▸ h.settleBoundary hs
  | hfpPulse => injection he with he; exact he ▸ h.hfpPulse hs
  | refFormat l =>
    injection he with he
    refine he ▸ h.reads.execute (fun ps u hu => ?_) hs
    unfold refFormatAnswer
    split
    · exact h.other (keeps_updRef _) (h.settleBoundary hu)
    · exact hu
  | laneFormat l =>
    injection he with he
    refine he ▸ h.reads.execute (fun ps u hu => ?_) hs
    unfold laneFormatAnswer
    split
    · split
      · exact h.setLaneFormat _ _ hu
      · exact hu
    · exact hu
  | fallbackDisarm l =>
    injection he with he
    exact he ▸ h.reads.execute (fun _ _ hu => h.disarmFallback l hu) hs
  | _ => exact h.reads.of_spares hc hs he

end TakeSafe

end Sys2Proof.Machine
end

section
/-! Take lists, live entries, the engine and the monitors are kept in order by every step (R58, R61, R65, R74, R97, R104,
R139), and live entries change by takes only (R72). -/

set_option Elab.async false

namespace Sys2Proof.Machine

/-- A property of a fold's start that every pass over a thing of the list keeps is one of its end. -/
theorem foldl_keeps_mem {α : Type} {P : State → Prop} {f : State → α → State} (xs : List α) :
    ∀ s, (∀ u, ∀ x ∈ xs, P u → P (f u x)) → P s → P (xs.foldl f s) := by
  induction xs with
  | nil => exact fun _ _ hs => hs
  | cons x xs ih =>
    exact fun s hf hs => ih _ (fun u y hy => hf u y (List.mem_cons_of_mem _ hy)) (hf s x List.mem_cons_self hs)

/-! ### The start of a tick (assumption 8) -/

/-- What the next tick settles before the windows: blocks, crossfades and soft entries that are complete. -/
def State.endTransitions (s : State) : State :=
  { s.completeBlocks with engine := s.engine.map fun st => st.endCrossfade.endSoftEntry }

theorem settleTick_eq (s : State) : s.settleTick = s.endTransitions.completeWindows.settleBoundary := rfl

theorem keeps_endTransitions (s : State) : Keeps [.trackers, .engine] s s.endTransitions := by
  intro p hp
  cases p with
  | trackers | engine => exact absurd (by decide) hp
  | events => exact ⟨rfl, rfl⟩
  | _ => rfl

/-- A predicate that a tick's computation and the completions before it keep is kept by HOUSE_TICK. -/
theorem houseTick_of_takeSafe {P : State → Prop} (h : TakeSafe P) (h1 : ∀ s, P s → P (State.endTransitions s))
    (h2 : ∀ s, P s → P (State.completeWindows s)) (h3 : ∀ s slots o, P s → P (State.audioTick s slots o))
    {slots o b} {s t : State} (hs : P s) (he : exec (.houseTick slots o b) s = .next t) : P t := by
  rw [exec_houseTick] at he
  injection he with he
  have hq : P s.settleTick := h.settleBoundary (h2 _ (h1 _ hs))
  subst he
  split
  · exact h3 _ _ _ (h.settleBoundary (h.other (keeps_updRef _) hq))
  · exact h.other (keeps_updRef _) (h3 _ _ _ hq)

/-! ### Take lists (O9) -/

theorem reads_takesOk : Reads [.takes] TakesOk := by
  intro s t h hs dom
  have : t.takes = s.takes := h .takes (by decide)
  exact this ▸ hs dom

theorem takesOk_setTakes {s : State} (h : TakesOk s) {dom : Fin 5} {xs : List TakeItem} (hx : takeListOk dom xs) :
    TakesOk (s.setTakes dom xs) := by
  intro dom'
  rw [State.setTakes_takes, Bank.get_set]
  split
  · next e => exact e ▸ hx
  · exact h dom'

/-- R66, R67: a take item joins the list of its domain, in place of the one held for its target. -/
theorem takesOk_joinTake {s : State} (h : TakesOk s) (x : TakeItem) : TakesOk (s.joinTake x) := by
  obtain ⟨h1, h2⟩ := h (itemDomain x.body.item)
  refine takesOk_setTakes h ⟨fun y hy => ?_, ?_⟩
  · rcases List.mem_append.mp hy with hy | hy
    · exact h1 y (List.mem_filter.mp hy).1
    · rw [List.mem_singleton.mp hy]
  · rw [List.map_append, List.nodup_append]
    refine ⟨h2.sublist (List.filter_sublist.map _), by simp, fun a ha b hb => ?_⟩
    obtain ⟨y, hy, rfl⟩ := List.mem_map.mp ha
    have hyx : y.body.item ≠ x.body.item := by simpa using (List.mem_filter.mp hy).2
    simp only [List.map_cons, List.map_nil, List.mem_singleton] at hb
    exact hb ▸ hyx

theorem takesOk_takeTag {s : State} (h : TakesOk s) (tag : BitVec 4) : TakesOk (s.takeTag tag) :=
  reads_takesOk.keeps (keeps_raiseAll _) (foldl_keeps (P := TakesOk) (fun _ x hu => takesOk_joinTake hu x) _ _
    (reads_takesOk.keeps (keeps_unstageTag tag) h))

/-- R79: the hold marks are no part of the rule. -/
theorem takesOk_takesReset {s : State} (h : TakesOk s) : TakesOk s.takesReset := by
  intro dom
  obtain ⟨h1, h2⟩ := h dom
  simp only [State.takesReset, Bank.get_map]
  refine ⟨fun x hx => ?_, by rw [List.map_map]; exact h2⟩
  obtain ⟨y, hy, rfl⟩ := List.mem_map.mp hx
  exact h1 y hy

theorem takeSafe_takesOk : TakeSafe TakesOk where
  reads s t h hs := reads_takesOk s t (fun p hp => h p (by simp_all)) hs
  trigger s d hs := reads_takesOk.keeps (keeps_trigger d) hs
  applyEntry s dom x d e _ _ _ hs := reads_takesOk.keeps (keeps_applyEntry d e) hs
  setTakes s dom ys h1 h2 hs := by
    refine takesOk_setTakes hs ⟨fun y hy => ?_, (hs dom).2.sublist h1⟩
    obtain ⟨x, hx, hb, -⟩ := h2 y hy
    rw [hb]
    exact (hs dom).1 x hx

/-- What only the track map's block of a PATH_RESET touches. -/
theorem Reads.resetBlock_takes {R : List Part} {P : State → Prop} (h : Reads R P)
    (ht : ∀ s, P s → P (State.takesReset s)) {s : State} (hs : P s) (b : ResetBlock)
    (hd : ∀ p ∈ R, p ∉ [Part.hist, .trackers, .engine, .monitors] ++ lineParts := by decide) : P (s.resetBlock b) := by
  by_cases hb : b = .trackMap
  · subst hb
    exact ht s hs
  · have hk : Keeps ([Part.hist, .trackers, .engine, .monitors] ++ lineParts) s (s.resetBlock b) := by
      intro p hp
      cases p with
      | takes =>
        cases b with
        | trackMap => exact absurd rfl hb
        | embed => exact (keeps_finishBuilds.andThen keeps_embedReset (C := lineParts)).takes
        | monitors => exact (keeps_monitorsReset (s := s)).takes
        | lanes | strip | catalogue | engine => rfl
      | handed =>
        cases b with
        | embed => exact (keeps_finishBuilds.andThen keeps_embedReset (C := lineParts)).handed
        | monitors => exact (keeps_monitorsReset (s := s)).handed
        | lanes | strip | catalogue | trackMap | engine => rfl
      | _ => exact keeps_resetBlock b _ fun hq => hp (by revert hq; decide)
    exact h.keeps hk hs hd

/-- Settles O9. -/
theorem stepKeepsTakeLists : Obligations.StepKeepsTakeLists := by
  refine reads_takesOk.step fun c s t hc hs h => ?_
  cases c with
  | pinReset fbk selA selB selC =>
    injection h with h
    rw [← h]
    intro dom
    simp [State.afterReset, takeListOk]
  | houseTick slots o b =>
    exact houseTick_of_takeSafe takeSafe_takesOk (fun s => reads_takesOk.keeps (keeps_endTransitions s))
      (fun _ => reads_takesOk.keeps keeps_completeWindows) (fun _ _ _ => reads_takesOk.keeps (keeps_audioTick _ _)) hs h
  | mapTake l =>
    injection h with h
    refine h ▸ reads_takesOk.execute (fun ps u hu => ?_) hs
    unfold mapTakeAnswer
    split
    · split
      · exact takesOk_takeTag hu _
      · exact hu
    · exact hu
  | pathReset hd =>
    injection h with h
    exact h ▸ reads_takesOk.executePart (fun _ _ hu => reads_takesOk.pathReset
      (fun _ b hv => reads_takesOk.resetBlock_takes (fun _ => takesOk_takesReset) hv b) hd.blocks hu) hs
  | crossfadeEnd | softEntryComplete | windowComplete | mapStage | mapDrop | protect | release | forceRelease
  | monSet | meterRead => exact absurd rfl hc
  | _ => exact takeSafe_takesOk.exec rfl hs h

/-! ### The DATA rule (O10) -/

theorem reads_entriesOk : Reads [.live, .stagedDest, .takes] EntriesOk := by
  intro s t h hs
  have h1 : t.live = s.live := h .live (by decide)
  have h2 : t.stagedDest = s.stagedDest := h .stagedDest (by decide)
  have h3 : t.takes = s.takes := h .takes (by decide)
  unfold EntriesOk
  rw [h1, h2, h3]
  exact hs

/-- R61: the entry that bytes spell obeys the DATA rule. -/
theorem entry?_stageable {bs : List Byte} {e : Entry} (h : entry? bs = some e) : e.stageable = true := by
  unfold entry? at h
  split at h
  · dsimp only at h
    split at h
    · split at h
      · split at h
        · next hs =>
          injection h with h
          exact h ▸ hs
        · cases h
      · cases h
    · cases h
  · cases h

theorem entriesOk_joinTake {s : State} (h : EntriesOk s) {x : TakeItem} (hx : x.stageable = true) :
    EntriesOk (s.joinTake x) := by
  obtain ⟨h1, h2, h3⟩ := h
  refine ⟨h1, h2, fun dom y hy => ?_⟩
  simp only [State.joinTake, State.setTakes_takes, Bank.get_set] at hy
  split at hy
  · next e =>
    rcases List.mem_append.mp hy with hy | hy
    · exact h3 _ y (List.mem_filter.mp hy).1
    · exact List.mem_singleton.mp hy ▸ hx
  · exact h3 dom y hy

/-- R66: the items of a tag have the entries of its staged records. -/
theorem stageable_taggedItems {s : State} (h : EntriesOk s) {tag : BitVec 4} {x : TakeItem}
    (hx : x ∈ s.taggedItems tag) : x.stageable = true := by
  rcases List.mem_append.mp hx with hx | hx
  · obtain ⟨d, -, hd⟩ := List.mem_filterMap.mp hx
    split at hd
    · next r hr =>
      split at hd
      · injection hd with hd
        exact hd ▸ h.2.1 d r hr
      · cases hd
    · cases hd
  · obtain ⟨g, -, hg⟩ := List.mem_filterMap.mp hx
    split at hg
    · split at hg
      · injection hg with hg
        exact hg ▸ rfl
      · cases hg
    · cases hg

theorem entriesOk_unstageTag {s : State} (h : EntriesOk s) (tag : BitVec 4) : EntriesOk (s.unstageTag tag) := by
  obtain ⟨h1, h2, h3⟩ := h
  refine ⟨h1, fun d r hr => ?_, h3⟩
  simp only [State.unstageTag, Bank.get_map] at hr
  exact h2 d r (Option.filter_eq_some_iff.mp hr).1

theorem entriesOk_takeTag {s : State} (h : EntriesOk s) (tag : BitVec 4) : EntriesOk (s.takeTag tag) :=
  reads_entriesOk.keeps (keeps_raiseAll _) (foldl_keeps_mem (P := EntriesOk) _ _
    (fun _ _ hx hu => entriesOk_joinTake hu (stageable_taggedItems h hx)) (entriesOk_unstageTag h tag))

theorem entriesOk_takesReset {s : State} (h : EntriesOk s) : EntriesOk s.takesReset := by
  obtain ⟨h1, h2, h3⟩ := h
  refine ⟨h1, h2, fun dom x hx => ?_⟩
  simp only [State.takesReset, Bank.get_map] at hx
  obtain ⟨y, hy, rfl⟩ := List.mem_map.mp hx
  exact h3 dom y hy

/-- R61 to R63: a change of one staged record. -/
theorem entriesOk_setStaged {s : State} (h : EntriesOk s) (d : Fin 96) {r : Option (Staged Entry)}
    (hr : ∀ x, r = some x → x.body.stageable = true) : EntriesOk { s with stagedDest := s.stagedDest.set d r } := by
  obtain ⟨h1, h2, h3⟩ := h
  refine ⟨h1, fun d' x hx => ?_, h3⟩
  rw [Bank.get_set] at hx
  split at hx
  · exact hr x hx
  · exact h2 d' x hx

theorem takeSafe_entriesOk : TakeSafe EntriesOk where
  reads s t h hs := reads_entriesOk s t (fun p hp => h p (by revert hp; revert p; decide)) hs
  trigger s d hs := reads_entriesOk.keeps (keeps_trigger d) hs
  applyEntry s dom x d e hx hb _ hs := by
    obtain ⟨h1, h2, h3⟩ := hs
    refine ⟨fun d' => ?_, h2, h3⟩
    show ((s.live.set d e).get d').stageable = true
    rw [Bank.get_set]
    split
    · have := h3 dom x hx
      rwa [TakeItem.stageable, hb] at this
    · exact h1 d'
  setTakes s dom ys _ h2 hs := by
    obtain ⟨e1, e2, e3⟩ := hs
    refine ⟨e1, e2, fun dom' y hy => ?_⟩
    rw [State.setTakes_takes, Bank.get_set] at hy
    split at hy
    · obtain ⟨x, hx, hb, -⟩ := h2 y hy
      have := e3 dom x hx
      rwa [TakeItem.stageable, ← hb] at this
    · exact e3 dom' y hy

/-- Settles O10. -/
theorem stepKeepsDataEntries : Obligations.StepKeepsDataEntries := by
  refine reads_entriesOk.step fun c s t hc hs h => ?_
  cases c with
  | pinReset fbk selA selB selC =>
    injection h with h
    rw [← h]
    exact ⟨fun d => by simp [State.afterReset, Entry.stageable, Entry.reset],
      fun d r hr => by simp [State.afterReset] at hr, fun dom x hx => by simp [State.afterReset] at hx⟩
  | houseTick slots o b =>
    exact houseTick_of_takeSafe takeSafe_entriesOk (fun s => reads_entriesOk.keeps (keeps_endTransitions s))
      (fun _ => reads_entriesOk.keeps keeps_completeWindows)
      (fun _ _ _ => reads_entriesOk.keeps (keeps_audioTick _ _)) hs h
  | mapStage l =>
    injection h with h
    refine h ▸ reads_entriesOk.execute (fun ps u hu => ?_) hs
    unfold mapStageAnswer
    split
    · split
      · next d t e _ _ he =>
        unfold State.stageEntry
        split
        · exact hu
        · exact entriesOk_setStaged hu d fun x hx => by
            injection hx with hx
            exact hx ▸ entry?_stageable he
      · exact hu
    · exact hu
  | mapDrop l =>
    injection h with h
    refine h ▸ reads_entriesOk.execute (fun ps u hu => ?_) hs
    unfold mapDropAnswer
    split
    · split
      · exact hu
      · dsimp only
        unfold State.unstage
        split
        · exact entriesOk_setStaged hu _ fun x hx => by cases hx
        · exact hu
    · exact hu
  | mapTake l =>
    injection h with h
    refine h ▸ reads_entriesOk.execute (fun ps u hu => ?_) hs
    unfold mapTakeAnswer
    split
    · split
      · exact entriesOk_takeTag hu _
      · exact hu
    · exact hu
  | pathReset hd =>
    injection h with h
    exact h ▸ reads_entriesOk.executePart (fun _ _ hu => reads_entriesOk.pathReset
      (fun _ b hv => reads_entriesOk.resetBlock_takes (fun _ => entriesOk_takesReset) hv b) hd.blocks hu) hs
  | crossfadeEnd | softEntryComplete | windowComplete | protect | release | forceRelease | monSet
  | meterRead => exact absurd rfl hc
  | _ => exact takeSafe_entriesOk.exec rfl hs h

/-! ### The engine (O11) -/

theorem reads_engineOk : Reads [.live, .engine] EngineOk := by
  intro s t h hs
  have h1 : t.live = s.live := h .live (by decide)
  have h2 : t.engine = s.engine := h .engine (by decide)
  unfold EngineOk FactorsBounded DataSteady BlocksEqual
  rw [h1, h2]
  exact hs

/-- From `a` to `b` the block counter stays, the factor keeps its bound, and no crossfade begins. -/
def DestState.Tame (a b : DestState) : Prop :=
  b.block = a.block ∧ (a.e ≤ 1024 → b.e ≤ 1024) ∧ (a.xfade = none → b.xfade = none)

theorem DestState.tame_refl (a : DestState) : a.Tame a := ⟨rfl, id, id⟩

theorem engineOk_of_tame {s t : State} (hl : t.live = s.live)
    (he : ∀ d, (s.engine.get d).Tame (t.engine.get d)) (h : EngineOk s) : EngineOk t := by
  obtain ⟨h1, h2, h3⟩ := h
  refine ⟨fun d => (he d).2.1 (h1 d), fun d hd => (he d).2.2 (h2 d (hl ▸ hd)), fun d d' => ?_⟩
  rw [(he d).1, (he d').1]
  exact h3 d d'

theorem engineOk_updDest {s : State} (h : EngineOk s) (d : Fin 96) {f : DestState → DestState}
    (hf : ∀ st : DestState, st.Tame (f st)) : EngineOk (s.updDest d f) := by
  refine engineOk_of_tame (s := s) rfl (fun d' => ?_) h
  rw [State.updDest_engine, Bank.get_upd]
  split
  · exact hf _
  · exact DestState.tame_refl _

theorem tame_endCrossfade (st : DestState) : st.Tame st.endCrossfade := by
  unfold DestState.endCrossfade
  split
  · split
    · exact st.tame_refl
    · exact ⟨rfl, id, fun _ => rfl⟩
  · exact st.tame_refl

theorem tame_endSoftEntry (st : DestState) : st.Tame st.endSoftEntry := by
  unfold DestState.endSoftEntry
  split
  · split
    · exact ⟨rfl, id, id⟩
    · exact st.tame_refl
  · exact st.tame_refl

theorem engineOk_trigger {s : State} (h : EngineOk s) (d : Fin 96) : EngineOk (s.trigger d) := by
  unfold State.trigger
  split
  · exact engineOk_updDest h d fun st => ⟨rfl, id, id⟩
  · exact h

/-- R74, R75: a cut to DATA ends the crossfade. -/
theorem engineOk_applyEntry {s : State} (h : EngineOk s) (d : Fin 96) (e : Entry) : EngineOk (s.applyEntry d e) := by
  obtain ⟨h1, h2, h3⟩ := h
  have he : ∀ d', (s.applyEntry d e).engine.get d'
      = if d = d' then (s.engine.get d').apply (s.live.get d) e else s.engine.get d' := fun d' => by
    simp [State.applyEntry]
  have hb : ∀ d', ((s.applyEntry d e).engine.get d').block = (s.engine.get d').block
      ∧ ((s.applyEntry d e).engine.get d').e = (s.engine.get d').e := by
    intro d'
    rw [he]
    split
    · rw [apply_eq]
      exact ⟨rfl, rfl⟩
    · exact ⟨rfl, rfl⟩
  refine ⟨fun d' => (hb d').2 ▸ h1 d', fun d' hd => ?_, fun d' d'' => ?_⟩
  · have hl : (s.applyEntry d e).live.get d' = if d = d' then e else s.live.get d' := by simp [State.applyEntry]
    rw [hl] at hd
    rw [he]
    split at hd
    · next hdd =>
      rw [if_pos hdd, apply_xfade, crossfadeAfter, if_pos (.inr hd)]
    · next hdd =>
      rw [if_neg hdd]
      exact h2 d' hd
  · rw [(hb d').1, (hb d'').1]
    exact h3 d' d''

theorem engineOk_endTransitions {s : State} (h : EngineOk s) : EngineOk s.endTransitions := by
  refine engineOk_of_tame (s := s) rfl (fun d => ?_) h
  simp only [State.endTransitions, Bank.get_map]
  obtain ⟨a1, a2, a3⟩ := tame_endCrossfade (s.engine.get d)
  obtain ⟨b1, b2, b3⟩ := tame_endSoftEntry (s.engine.get d).endCrossfade
  exact ⟨b1.trans a1, fun x => b2 (a2 x), fun x => b3 (a3 x)⟩

/-- The engine after a tick is what its computation made of it. -/
theorem audioTick_engine (s : State) (slots o) : (s.audioTick slots o).engine
    = (((s.readStrips.stepTrackers (s.tickRecords slots)).completeFlags o).destTicks).map TickOut.dest := by
  simp only [State.audioTick]
  rw [(keeps_raiseEvents _).engine, (keeps_monitorTicks _).engine, (keeps_tickSerial _).engine,
    (keeps_writeEmbeds _).engine, (keeps_appendRecords _).engine]
  rfl

/-- R97, R104, R110: what a tick makes of every destination. -/
theorem engineOk_audioTick {s : State} (h : EngineOk s) (slots o) : EngineOk (s.audioTick slots o) := by
  obtain ⟨h1, h2, h3⟩ := h
  have hk : Keeps [.strip, .trackers] s ((s.readStrips.stepTrackers (s.tickRecords slots)).completeFlags o) :=
    (keeps_readStrips.andThen (keeps_stepTrackers _) (C := [.strip, .trackers])).andThen (keeps_completeFlags o)
  have he := fun d => destTick_spec ((s.readStrips.stepTrackers (s.tickRecords slots)).completeFlags o) d
  have hd : ∀ d, (s.audioTick slots o).engine.get d
      = (((s.readStrips.stepTrackers (s.tickRecords slots)).completeFlags o).destTick d).dest := fun d => by
    rw [audioTick_engine]
    simp [State.destTicks]
  refine ⟨fun d => ?_, fun d hm => ?_, fun d d' => ?_⟩
  · rw [hd]
    exact (he d).1
  · rw [hd]
    refine (he d).2.2.2.2 ?_
    rw [hk.live, ← (keeps_audioTick (s := s) slots o).live]
    exact hm
  · rw [hd, hd, (he d).2.1, (he d').2.1, hk.engine, (h3 d d').1]
    exact ⟨rfl, blockNext_le _⟩

theorem takeSafe_engineOk : TakeSafe EngineOk where
  reads s t h hs := reads_engineOk s t (fun p hp => h p (by revert hp; revert p; decide)) hs
  trigger s d hs := engineOk_trigger hs d
  applyEntry s dom x d e _ _ _ hs := engineOk_applyEntry hs d e
  setTakes s dom ys _ _ hs := hs

theorem engineOk_resetBlock {s : State} (h : EngineOk s) (b : ResetBlock) : EngineOk (s.resetBlock b) := by
  cases b with
  | catalogue =>
    refine engineOk_of_tame (s := s) rfl (fun d => ?_) h
    simp only [State.resetBlock, State.catalogueReset, Bank.get_map]
    exact ⟨rfl, id, id⟩
  | engine =>
    refine engineOk_of_tame (s := s) rfl (fun d => ?_) h
    simp only [State.resetBlock, State.engineReset, Bank.get_mapIdx]
    exact ⟨rfl, id, fun _ => rfl⟩
  | embed => exact reads_engineOk.keeps (keeps_finishBuilds.andThen keeps_embedReset (C := lineParts)) h
  | monitors => exact reads_engineOk.keeps (keeps_monitorsReset (s := s)) h
  | lanes | strip | trackMap => exact h

/-- Settles O11. -/
theorem stepKeepsEngine : Obligations.StepKeepsEngine := by
  refine reads_engineOk.step fun c s t hc hs h => ?_
  cases c with
  | pinReset fbk selA selB selC =>
    injection h with h
    rw [← h]
    exact ⟨fun d => by simp [State.afterReset, DestState.reset], fun d _ => by simp [State.afterReset, DestState.reset],
      fun d d' => by simp [State.afterReset, DestState.reset]⟩
  | houseTick slots o b =>
    exact houseTick_of_takeSafe takeSafe_engineOk (fun _ => engineOk_endTransitions)
      (fun _ => reads_engineOk.keeps keeps_completeWindows) (fun _ _ _ hu => engineOk_audioTick hu _ _) hs h
  | crossfadeEnd d => injection h with h; exact h ▸ engineOk_updDest hs d tame_endCrossfade
  | softEntryComplete d => injection h with h; exact h ▸ engineOk_updDest hs d tame_endSoftEntry
  | pathReset hd =>
    injection h with h
    exact h ▸ reads_engineOk.executePart (fun _ _ hu => reads_engineOk.pathReset
      (fun _ b hv => engineOk_resetBlock hv b) hd.blocks hu) hs
  | mapStage | mapDrop | mapTake | windowComplete | protect | release | forceRelease | monSet | meterRead =>
    exact absurd rfl hc
  | _ => exact takeSafe_engineOk.exec rfl hs h

/-! ### The monitors (O12) -/

theorem reads_monitors (Q : Monitor → Prop) : Reads [.monitors] fun s => ∀ d, Q (s.monitors.get d) := by
  intro s t h hs d
  have : t.monitors = s.monitors := h .monitors (by decide)
  exact this ▸ hs d

/-- A property of every monitor that a CHANGED mark keeps. -/
theorem takeSafe_monitors {Q : Monitor → Prop} (hQ : ∀ m, Q m → Q (Monitor.markChanged m)) :
    TakeSafe fun s => ∀ d, Q (s.monitors.get d) where
  reads s t h hs := reads_monitors Q s t (fun p hp => h p (by simp_all)) hs
  trigger s d hs := (reads_monitors Q).keeps (keeps_trigger d) hs
  applyEntry s dom x d e _ _ _ hs := by
    intro d'
    simp only [State.applyEntry, State.updMonitor_monitors, State.updDest_monitors, Bank.get_upd]
    split
    · exact hQ _ (hs d')
    · exact hs d'
  setTakes s dom ys _ _ hs := hs

theorem markChanged_due (m : Monitor) : m.markChanged.due = m.due := by
  unfold Monitor.markChanged
  split <;> rfl

/-- In order, and with no window to be completed. -/
def Monitor.settled (m : Monitor) : Prop := MonitorOk m ∧ m.due = false

theorem settled_markChanged (m : Monitor) (h : m.settled) : m.markChanged.settled :=
  ⟨monitorOk_markChanged h.1, (markChanged_due m).trans h.2⟩

theorem completeWindows_monitors (s : State) : s.completeWindows.monitors = s.monitors.map Monitor.settle := rfl

theorem settled_completeWindows {s : State} (h : MonitorsOk s) (d : Fin 96) :
    (s.completeWindows.monitors.get d).settled := by
  rw [completeWindows_monitors, Bank.get_map]
  exact ⟨monitorOk_settle (h d), settle_not_due _⟩

theorem monitorsOk_completeWindows {s : State} (h : MonitorsOk s) : MonitorsOk s.completeWindows :=
  fun d => (settled_completeWindows h d).1

theorem monitorsOk_updMonitor {s : State} (h : MonitorsOk s) (d : Fin 96) {f : Monitor → Monitor}
    (hf : ∀ m, MonitorOk m → MonitorOk (f m)) : MonitorsOk (s.updMonitor d f) := by
  intro d'
  rw [State.updMonitor_monitors, Bank.get_upd]
  split
  · exact hf _ (h d')
  · exact h d'

/-- R140, R147: a tick at monitors none of which has a complete window. -/
theorem monitorsOk_audioTick {s : State} (h : ∀ d, (s.monitors.get d).settled) (slots o) :
    MonitorsOk (s.audioTick slots o) := by
  have hk : Keeps [.strip, .trackers] s ((s.readStrips.stepTrackers (s.tickRecords slots)).completeFlags o) :=
    (keeps_readStrips.andThen (keeps_stepTrackers _) (C := [.strip, .trackers])).andThen (keeps_completeFlags o)
  intro d
  simp only [State.audioTick]
  rw [(keeps_raiseEvents _).monitors]
  simp only [State.monitorTicks, Bank.get_mapIdx]
  rw [(keeps_tickSerial _).monitors, (keeps_writeEmbeds _).monitors, (keeps_appendRecords _).monitors,
    (keeps_applyTicks _).monitors, hk.monitors]
  exact monitorOk_tick (h d).1 (h d).2 _ _ _

theorem takeSafe_monitorsOk : TakeSafe MonitorsOk := takeSafe_monitors fun _ => monitorOk_markChanged

/-- A tick settles the windows before its computation. -/
theorem monitorsOk_houseTick {s t : State} (h : MonitorsOk s) {slots o b}
    (he : exec (.houseTick slots o b) s = .next t) : MonitorsOk t := by
  have hq := takeSafe_monitors settled_markChanged
  have h1 : ∀ d, (s.settleTick.monitors.get d).settled := by
    refine hq.settleBoundary (settled_completeWindows ?_)
    exact (reads_monitors MonitorOk).keeps (keeps_endTransitions s) h
  rw [exec_houseTick] at he
  injection he with he
  subst he
  split
  · exact monitorsOk_audioTick (hq.settleBoundary (hq.other (keeps_updRef _) h1)) _ _
  · exact (reads_monitors MonitorOk).keeps (keeps_updRef _) (monitorsOk_audioTick h1 _ _)

theorem monitorsOk_resetBlock {s : State} (h : MonitorsOk s) (b : ResetBlock) : MonitorsOk (s.resetBlock b) := by
  cases b with
  | monitors =>
    intro d
    simp only [State.resetBlock, State.monitorsReset, Bank.get_map]
    exact monitorOk_pathReset (monitorsOk_completeWindows h d)
  | embed => exact (reads_monitors MonitorOk).keeps (keeps_finishBuilds.andThen keeps_embedReset (C := lineParts)) h
  | lanes | strip | trackMap | catalogue | engine => exact h

/-- Settles O12. -/
theorem stepKeepsMonitors : Obligations.StepKeepsMonitors := by
  have hr : Reads [.monitors] MonitorsOk := reads_monitors MonitorOk
  refine hr.step fun c s t hc hs h => ?_
  cases c with
  | pinReset fbk selA selB selC =>
    injection h with h
    rw [← h]
    intro d
    simp [State.afterReset, MonitorOk, Monitor.reset]
  | houseTick slots o b => exact monitorsOk_houseTick hs h
  | windowComplete => injection h with h; exact h ▸ monitorsOk_completeWindows hs
  | monSet l =>
    injection h with h
    refine h ▸ hr.execute (fun ps u hu => ?_) hs
    unfold monSetAnswer
    split
    · split
      · next hx =>
        exact monitorsOk_updMonitor (monitorsOk_completeWindows hu) _ fun _ hm => monitorOk_set hm (settings_ok hx)
      · exact hu
    · exact hu
  | meterRead l =>
    injection h with h
    refine h ▸ hr.execute (fun ps u hu => ?_) hs
    unfold meterReadAnswer
    split
    · exact monitorsOk_updMonitor hu _ fun _ hm => monitorOk_clearHold hm l
    · exact hu
  | pathReset hd =>
    injection h with h
    exact h ▸ hr.executePart (fun _ _ hu => hr.pathReset (fun _ b hv => monitorsOk_resetBlock hv b) hd.blocks hu) hs
  | mapStage | mapDrop | mapTake | crossfadeEnd | softEntryComplete | protect | release | forceRelease =>
    exact absurd rfl hc
  | _ => exact takeSafe_monitorsOk.exec rfl hs h

/-! ### Live entries (O14) -/

/-- In `t`, reached from `s` within one command, every take item is one of `s`, and the live entry of destination `d` is
that of `s` or was brought by an item of `s` that no other line's protection bars. -/
def LiveByTakes (s : State) (d : Fin 96) (t : State) : Prop :=
  t.owners = s.owners
    ∧ (∀ dom, ∀ y ∈ t.takes.get dom, ∃ x ∈ s.takes.get dom, y.body = x.body ∧ y.stager = x.stager)
    ∧ (t.live.get d = s.live.get d
      ∨ ∃ (dom : Fin 5) (x : TakeItem), x ∈ s.takes.get dom ∧ x.body = .dest d (t.live.get d)
          ∧ FreeFor s (destItem d) x.stager)

theorem liveByTakes_refl (s : State) (d : Fin 96) : LiveByTakes s d s :=
  ⟨rfl, fun _ y hy => ⟨y, hy, rfl, rfl⟩, .inl rfl⟩

theorem reads_liveByTakes (s : State) (d : Fin 96) : Reads [.takes, .live, .owners] (LiveByTakes s d) := by
  intro t u h ht
  have h1 : u.takes = t.takes := h .takes (by decide)
  have h2 : u.live = t.live := h .live (by decide)
  have h3 : u.owners = t.owners := h .owners (by decide)
  unfold LiveByTakes
  rw [h1, h2, h3]
  exact ht

theorem takeSafe_liveByTakes (s : State) (d : Fin 96) : TakeSafe (LiveByTakes s d) where
  reads t u h ht := reads_liveByTakes s d t u (fun p hp => h p (by revert hp; revert p; decide)) ht
  trigger t d' ht := (reads_liveByTakes s d).keeps (keeps_trigger d') ht
  applyEntry t dom y d' e hy hb hf ht := by
    obtain ⟨h1, h2, h3⟩ := ht
    have hl : (t.applyEntry d' e).live.get d = if d' = d then e else t.live.get d := by simp [State.applyEntry]
    refine ⟨h1, h2, ?_⟩
    rw [hl]
    split
    · next hd =>
      subst hd
      obtain ⟨x, hx, hxb, hxs⟩ := h2 dom y hy
      refine .inr ⟨dom, x, hx, hxb ▸ hb, ?_⟩
      rw [← hxs]
      unfold FreeFor at hf ⊢
      rwa [h1] at hf
    · exact h3
  setTakes t dom ys _ hk ht := by
    obtain ⟨h1, h2, h3⟩ := ht
    refine ⟨h1, fun dom' y hy => ?_, h3⟩
    rw [State.setTakes_takes, Bank.get_set] at hy
    split at hy
    · next e =>
      subst e
      obtain ⟨x, hx, hb, hst⟩ := hk y hy
      obtain ⟨z, hz, hzb, hzs⟩ := h2 dom x hx
      exact ⟨z, hz, hb.trans hzb, hst.trans hzs⟩
    · exact h2 dom' y hy

/-- Settles O14. -/
theorem liveEntriesChangeOnlyByTakes : Obligations.LiveEntriesChangeOnlyByTakes := by
  intro c s t d h hne
  have hr : Reads [.live] fun u => u.live.get d = s.live.get d := fun u v hv hu => by
    have : v.live = u.live := hv .live (by decide)
    show v.live.get d = _
    rw [this]
    exact hu
  by_cases hc : Spares [.live] c = true
  · exact absurd (hr.of_spares hc rfl h) hne
  by_cases hpin : ∃ fbk selA selB selC, c = .pinReset fbk selA selB selC
  · exact .inl hpin
  have hs := liveByTakes_refl s d
  have ht : LiveByTakes s d t := by
    cases c with
    | pinReset => exact absurd ⟨_, _, _, _, rfl⟩ hpin
    | houseTick slots o b =>
      exact houseTick_of_takeSafe (takeSafe_liveByTakes s d)
        (fun u => (reads_liveByTakes s d).keeps (keeps_endTransitions u))
        (fun _ => (reads_liveByTakes s d).keeps keeps_completeWindows)
        (fun _ _ _ => (reads_liveByTakes s d).keeps (keeps_audioTick _ _)) hs h
    | crossfadeEnd | softEntryComplete | windowComplete | mapStage | mapDrop | mapTake | protect | release
    | forceRelease | monSet | meterRead | pathReset => exact absurd rfl hc
    | _ => exact (takeSafe_liveByTakes s d).exec rfl hs h
  exact .inr (ht.2.2.resolve_left hne)

end Sys2Proof.Machine
end

section
/-! Distribution: the accumulators, the owed counts and what is left of the lanes' carriage-line events stay in their
bounds (R117, R118, R126). -/

set_option Elab.async false

namespace Sys2Proof.Machine

/-! ### Distribution (R118) -/

/-- R118: a step from below F*C gives at most 4 sets, and the accumulator stays below F*C. -/
theorem accStep_bounded (f : Fin 8) (acc : Nat) (h : acc < carriagePerSequence f) :
    (accStep f acc).1 ≤ 4 ∧ (accStep f acc).2 < carriagePerSequence f := by
  have hpos : 0 < carriagePerSequence f := Nat.lt_of_le_of_lt (Nat.zero_le _) h
  have hs : ∀ f : Fin 8, setsPerSequence f ≤ 4 * carriagePerSequence f := by decide
  have := hs f
  exact ⟨Nat.le_of_lt_succ (Nat.div_lt_of_lt_mul (by omega)), Nat.mod_lt _ hpos⟩

theorem carriagePerSequence_pos (f : Fin 8) : 0 < carriagePerSequence f := by revert f; decide

theorem stepBase_lt {f : Fin 8} {acc : Nat} (n : BitVec 11) (i : Nat) (h : acc < carriagePerSequence f) :
    stepBase acc n i < carriagePerSequence f := by
  unfold stepBase
  split
  · exact carriagePerSequence_pos f
  · exact h

/-! ### Changes that the bounds do not notice -/

/-- From `s` to `t` no lane state, format or accumulator changes, no count of owed sets rises, and nothing is begun or
ended of the lanes' events. -/
structure Calm (s t : State) : Prop where
  state : ∀ l, (t.lanes.get l).state = (s.lanes.get l).state
  fmt : ∀ l, (t.lanes.get l).fmt = (s.lanes.get l).fmt
  acc : ∀ l, (t.builders.get l).acc = (s.builders.get l).acc
  owed : ∀ g, (t.embCounts.get g).owed ≤ (s.embCounts.get g).owed
  work : t.work = s.work

namespace Calm

theorem refl (s : State) : Calm s s := ⟨fun _ => rfl, fun _ => rfl, fun _ => rfl, fun _ => Nat.le_refl _, rfl⟩

theorem trans {s t u : State} (h : Calm s t) (h' : Calm t u) : Calm s u :=
  ⟨fun l => (h'.state l).trans (h.state l), fun l => (h'.fmt l).trans (h.fmt l), fun l => (h'.acc l).trans (h.acc l),
    fun g => (h'.owed g).trans (h.owed g), h'.work.trans h.work⟩

/-- A change of other parts. -/
theorem of_keeps {A : List Part} {s t : State} (h : Keeps A s t)
    (hA : ∀ p ∈ [Part.lanes, .builders, .embCounts, .work], p ∉ A := by decide) : Calm s t := by
  have h1 := h.lanes (hA _ (by decide))
  have h2 := h.builders (hA _ (by decide))
  have h3 := h.embCounts (hA _ (by decide))
  exact ⟨fun l => by rw [h1], fun l => by rw [h1], fun l => by rw [h2], fun g => by rw [h3], h.work (hA _ (by decide))⟩

theorem andThen {A : List Part} {s t u : State} (h : Calm s t) (hk : Keeps A t u)
    (hA : ∀ p ∈ [Part.lanes, .builders, .embCounts, .work], p ∉ A := by decide) : Calm s u := h.trans (of_keeps hk hA)

theorem foldl {α : Type} {f : State → α → State} (hf : ∀ s x, Calm s (f s x)) (xs : List α) :
    ∀ s, Calm s (xs.foldl f s) := by
  induction xs with
  | nil => exact refl
  | cons x xs ih => exact fun s => (hf s x).trans (ih _)

theorem updLane (s : State) (l : Fin 4) {f : Receiver → Receiver}
    (h : (f (s.lanes.get l)).state = (s.lanes.get l).state ∧ (f (s.lanes.get l)).format = (s.lanes.get l).format) :
    Calm s (s.updLane l f) := by
  have hl : ∀ l', (((s.updLane l f).lanes.get l').state = (s.lanes.get l').state)
      ∧ ((s.updLane l f).lanes.get l').fmt = (s.lanes.get l').fmt := by
    intro l'
    rw [State.updLane_lanes, Bank.get_upd]
    split
    · next e =>
      subst e
      exact ⟨h.1, by rw [Receiver.fmt, h.2]; rfl⟩
    · exact ⟨rfl, rfl⟩
  exact ⟨fun l' => (hl l').1, fun l' => (hl l').2, fun _ => rfl, fun _ => Nat.le_refl _, rfl⟩

theorem updBuilder (s : State) (l : Fin 4) {f : Builder → Builder} (h : ∀ b, (f b).acc = b.acc) :
    Calm s (s.updBuilder l f) := by
  refine ⟨fun _ => rfl, fun _ => rfl, fun l' => ?_, fun _ => Nat.le_refl _, rfl⟩
  rw [State.updBuilder_builders, Bank.get_upd]
  split
  · exact h _
  · rfl

theorem updCount (s : State) (g : Fin 16) {f : EmbedCount → EmbedCount} (h : ∀ c, (f c).owed ≤ c.owed) :
    Calm s (s.updCount g f) := by
  refine ⟨fun _ => rfl, fun _ => rfl, fun _ => rfl, fun g' => ?_, rfl⟩
  rw [State.updCount_embCounts, Bank.get_upd]
  split
  · exact h _
  · exact Nat.le_refl _

/-! ### Entering and leaving EMBED, and the track map -/

theorem leaveEmbed (s : State) (g : Fin 16) : Calm s (s.leaveEmbed g) :=
  (of_keeps (keeps_updEmbed g _)).trans (updCount _ g fun _ => Nat.zero_le _)

theorem enterEmbed (s : State) (g : Fin 16) : Calm s (s.enterEmbed g) := by
  unfold State.enterEmbed
  split
  · exact refl s
  · exact ((of_keeps (keeps_updEmbed g _)).trans (updCount _ g fun _ => Nat.zero_le _)).andThen (keeps_triggerAll _)

theorem holdLane (s : State) (l : Fin 4) : Calm s (s.holdLane l) := foldl (fun u c => leaveEmbed u (groupNo l c)) four s

theorem enterLane (s : State) (l : Fin 4) : Calm s (s.enterLane l) := by
  unfold State.enterLane
  split
  · refine foldl (fun u c => ?_) four s
    split
    · exact enterEmbed u _
    · exact refl u
  · exact refl s

theorem bypassEnter (s : State) (l : Fin 4) : Calm s (s.bypassEnter l) :=
  (updBuilder s l (f := fun b => { b with bypass := .inside }) fun _ => rfl).trans (holdLane _ l)

theorem bypassExit (s : State) (l : Fin 4) : Calm s (s.bypassExit l) :=
  (updBuilder s l (f := fun b => { b with bypass := .out }) fun _ => rfl).andThen (keeps_triggerAll _)

theorem tripLane (s : State) (l : Fin 4) : Calm s (s.tripLane l) := by
  unfold State.tripLane
  split
  · split
    · exact updBuilder s l fun _ => rfl
    · exact bypassEnter s l
  · exact refl s
  · exact refl s
  · exact updBuilder s l fun _ => rfl

theorem releaseLane (s : State) (l : Fin 4) : Calm s (s.releaseLane l) := by
  unfold State.releaseLane
  split
  · exact refl s
  · exact updBuilder s l fun _ => rfl
  · split
    · exact updBuilder s l fun _ => rfl
    · exact bypassExit s l
  · exact refl s

theorem builderSwitchLine (s : State) (l : Fin 4) : Calm s (s.builderSwitchLine l) := by
  have hb : Calm s (s.updBuilder l fun b => { b with phase := .engaged }) := updBuilder s l fun _ => rfl
  unfold State.builderSwitchLine
  dsimp only
  split
  · exact hb.trans (enterLane _ l)
  · exact (hb.trans (bypassEnter _ l)).trans (enterLane _ l)
  · exact hb.trans (enterLane _ l)
  · exact (hb.trans (bypassExit _ l)).trans (enterLane _ l)

theorem setPlan (s : State) (g : Fin 16) (m : PlanMode) : Calm s { s with plan := s.plan.set g m } :=
  ⟨fun _ => rfl, fun _ => rfl, fun _ => rfl, fun _ => Nat.le_refl _, rfl⟩

theorem applyMode (s : State) (g : Fin 16) (m : PlanMode) : Calm s (s.applyMode g m) := by
  unfold State.applyMode
  dsimp only
  split
  · exact refl s
  · split
    · split
      · exact (setPlan s g m).trans (enterEmbed _ g)
      · exact setPlan s g m
    · split
      · exact (setPlan s g m).trans (leaveEmbed _ g)
      · exact setPlan s g m

theorem dealItem (s : State) (x : TakeItem) : Calm s (s.dealItem x).1 := by
  unfold State.dealItem
  split
  · exact refl s
  · split
    · split
      · exact refl s
      · exact of_keeps (keeps_applyEntry _ _)
    · exact applyMode _ _ _

theorem dealItems (xs : List TakeItem) : ∀ s : State, Calm s (s.dealItems xs).1 := by
  induction xs with
  | nil => exact refl
  | cons x xs ih => exact fun s => (dealItem s x).trans (ih _)

theorem boundary (s : State) (dom : Fin 5) : Calm s (s.boundary dom) :=
  ((dealItems _ s).andThen (keeps_setTakes dom _)).andThen (keeps_raiseAll _)

theorem houseBoundary (s : State) : Calm s s.houseBoundary := by
  refine (foldl (fun u l => ?_) four s).trans (boundary _ 4)
  split
  · exact boundary u _
  · exact refl u

theorem frameBoundary (s : State) : Calm s s.frameBoundary := (of_keeps (keeps_updRef _)).trans (houseBoundary _)

theorem settleBoundary (s : State) : Calm s s.settleBoundary := by
  unfold State.settleBoundary
  split
  · exact (of_keeps (keeps_setHfp _)).trans (frameBoundary _)
  · exact refl s

theorem hfpPulse (s : State) : Calm s s.hfpPulse := by
  unfold State.hfpPulse
  dsimp only
  split
  · exact ((settleBoundary s).trans (frameBoundary _)).andThen (keeps_setHfp _)
  · exact (settleBoundary s).andThen (keeps_setHfp _)

theorem tripAll (s : State) : Calm s s.tripAll := foldl tripLane four s

theorem trip (s : State) : Calm s s.trip := (of_keeps (keeps_setFallback .tripped)).trans (tripAll _)

theorem releaseAll (s : State) : Calm s s.releaseAll := foldl releaseLane four s

theorem assertFbk (s : State) : Calm s s.assertFbk := by
  have hf : Calm s { s with fallback := { s.fallback with fbk := true } } :=
    ⟨fun _ => rfl, fun _ => rfl, fun _ => rfl, fun _ => Nat.le_refl _, rfl⟩
  unfold State.assertFbk
  dsimp only
  split
  · exact (hf.trans (trip _)).andThen (keeps_raiseAll _)
  · exact hf
  · exact hf

theorem armFallback (s : State) (l : Line) : Calm s (s.armFallback l) := by
  unfold State.armFallback
  split
  · split
    · exact (trip s).andThen (keeps_raiseAll _)
    · exact (of_keeps (keeps_setFallback _)).andThen (keeps_raiseAll _)
  · exact refl s
  · exact refl s

theorem disarmFallback (s : State) (l : Line) : Calm s (s.disarmFallback l) := by
  unfold State.disarmFallback
  split
  · exact refl s
  · exact (of_keeps (keeps_setFallback _)).andThen (keeps_raiseAll _)
  · exact ((of_keeps (keeps_setFallback _)).trans (releaseAll _)).andThen (keeps_raiseAll _)

/-! ### The parser and the readers of the stores -/

/-- The parser keeps states and formats, and touches nothing else that the bounds read. -/
theorem of_sameReceiver {A : List Part} {s t : State} (h : ∀ l, SameReceiver s t l) (hk : Keeps A s t)
    (hA : ∀ p ∈ [Part.builders, .embCounts, .work], p ∉ A := by decide) : Calm s t := by
  have h2 := hk.builders (hA _ (by decide))
  have h3 := hk.embCounts (hA _ (by decide))
  exact ⟨fun l => (h l).1, fun l => by rw [Receiver.fmt, (h l).2.1]; rfl, fun l => by rw [h2], fun g => by rw [h3],
    hk.work (hA _ (by decide))⟩

theorem writeSet (s : State) (g x) : Calm s (s.writeSet g x) :=
  ((of_keeps (keeps_writeStrip g _)).andThen (keeps_updGroup g _))

theorem judgePacket (s : State) (l ev p) : Calm s (s.judgePacket l ev p).1 :=
  of_sameReceiver (fun l' => sameReceiver_judgePacket s l' l ev p) (keeps_judgePacket l ev p)

theorem endWalk (s : State) (l ev b) : Calm s (s.endWalk l ev b) := by
  unfold State.endWalk
  split
  · exact (updLane s l ⟨rfl, rfl⟩).andThen (keeps_offerFault _ _ _)
  · exact refl s

theorem finishWalk (s : State) (l ev) (w : Walk) : Calm s (w.finish l ev s).1 :=
  ((foldl (fun u x => writeSet u x.1 x.2) w.sets s).trans
    (of_sameReceiver (fun l' => sameReceiver_judgeAll l' l ev w.todo _) (keeps_judgeAll l ev w.todo _))).trans
      (endWalk _ l ev _)

theorem endLine (s : State) (l ev) : Calm s (s.endLine l ev) := by
  unfold State.endLine
  split
  · refine (of_keeps (keeps_parserFrameEnd l)).trans (updLane _ l ⟨?_, ?_⟩) <;> rfl
  · exact refl s

theorem readEmbed (s : State) (g) : Calm s (s.readEmbed g).1 := of_keeps (keeps_readEmbed g)

theorem readSets (s : State) (g n) : Calm s (s.readSets g n).1 := of_keeps (keeps_readSets g n s)

theorem beginLine (s : State) (l n) : Calm s (s.beginLine l n) :=
  (of_keeps (keeps_updRelay l _)).trans (updLane _ l ⟨rfl, rfl⟩)

end Calm

/-! ### The bounds while an event of one lane is being taken -/

/-- R118, R126: what is left of an event of lane `l` keeps the bounds. -/
def WorkOkAt (s : State) (l : Fin 4) (w : LaneWork) : Prop :=
  match w with
  | .idle => True
  | .walking _ _ => (s.lanes.get l).state = .running
  | .building _ b =>
    b.n ≤ 4 ∧ ∀ d : Draft, b.draft = some d →
      b.n + (s.embCounts.get (groupNo l d.group)).owed ≤ 8 + d.left + d.sets.length

/-- The bounds but for what is left of lane `l`'s event. -/
structure BoundsBut (l : Fin 4) (s : State) : Prop where
  acc : AccumulatorsBounded s
  owed : OwedBounded s
  work : ∀ k, k ≠ l → WorkOkAt s k (s.work.get k)

theorem buildersOk_iff (s : State) (l : Fin 4) : BuildersOk s ↔ BoundsBut l s ∧ WorkOkAt s l (s.work.get l) := by
  constructor
  · exact fun ⟨ha, ho, hw⟩ => ⟨⟨ha, ho, fun k _ => hw k⟩, hw l⟩
  · rintro ⟨⟨ha, ho, hw⟩, hl⟩
    refine ⟨ha, ho, fun k => ?_⟩
    by_cases e : k = l
    · exact e ▸ hl
    · exact hw k e

section
variable {s t : State} {l : Fin 4} {w : LaneWork}

theorem WorkOkAt.calm (hc : Calm s t) (h : WorkOkAt s l w) : WorkOkAt t l w := by
  cases w with
  | idle => trivial
  | walking ev w => exact (hc.state l).trans h
  | building ev b =>
    obtain ⟨hn, hd⟩ := h
    refine ⟨hn, fun d e => ?_⟩
    have h1 := hd d e
    have h2 := hc.owed (groupNo l d.group)
    omega

theorem BoundsBut.calm (hc : Calm s t) (h : BoundsBut l s) : BoundsBut l t where
  acc k := by
    have := h.acc k
    rw [hc.state, hc.fmt, hc.acc]
    exact this
  owed g := (hc.owed g).trans (h.owed g)
  work k hk := by
    rw [hc.work]
    exact (h.work k hk).calm hc

theorem BuildersOk.calm (hc : Calm s t) (h : BuildersOk s) : BuildersOk t := by
  obtain ⟨h1, h2⟩ := (buildersOk_iff s 0).mp h
  exact (buildersOk_iff t 0).mpr ⟨h1.calm hc, by rw [hc.work]; exact h2.calm hc⟩

/-- A group of the lane is owed a new number of sets, at most 8. -/
theorem BoundsBut.updCount (h : BoundsBut l s) (c : Fin 4) {f : EmbedCount → EmbedCount}
    (hf : (f (s.embCounts.get (groupNo l c))).owed ≤ 8) : BoundsBut l (s.updCount (groupNo l c) f) where
  acc := h.acc
  owed g := by
    rw [State.updCount_embCounts, Bank.get_upd]
    split
    · next e => exact e ▸ hf
    · exact h.owed g
  work k hk := by
    have hg : ∀ c', groupNo l c ≠ groupNo k c' := fun c' e => hk (by
      have := congrArg groupLane e
      rw [groupNo_lane, groupNo_lane] at this
      exact this.symm)
    have h1 := h.work k hk
    show WorkOkAt _ k (s.work.get k)
    cases hw : s.work.get k with
    | idle => trivial
    | walking ev w =>
      rw [hw] at h1
      exact h1
    | building ev b =>
      rw [hw] at h1
      obtain ⟨hn, hd⟩ := h1
      refine ⟨hn, fun d e => ?_⟩
      rw [State.updCount_embCounts, Bank.get_upd_ne _ _ (hg _)]
      exact hd d e

/-- R118: the accumulator of a RUNNING lane steps; its line has at most 4 sets. -/
theorem BoundsBut.stepAccumulator (h : BoundsBut l s) (hr : (s.lanes.get l).state = .running) (n : BitVec 11) :
    BoundsBut l (s.stepAccumulator l n).1 ∧ (s.stepAccumulator l n).2 ≤ 4 := by
  have ha := h.acc l
  rw [if_pos hr] at ha
  have hb := accStep_bounded (s.lanes.get l).fmt _ (stepBase_lt n (s.lanes.get l).index ha)
  refine ⟨⟨fun k => ?_, h.owed, h.work⟩, hb.1⟩
  have hk := h.acc k
  simp only [State.stepAccumulator, State.updBuilder_builders, State.updBuilder_lanes, Bank.get_upd]
  by_cases e : l = k
  · subst e
    rw [if_pos hr, if_pos rfl]
    exact hb.2
  · rw [if_neg e]
    exact hk

theorem BoundsBut.startBuild (h : BoundsBut l s) (hr : (s.lanes.get l).state = .running) (ev) (r) :
    BoundsBut l (s.startBuild l ev r).1
      ∧ ∀ b, (s.startBuild l ev r).2 = some b → b.n ≤ 4 ∧ b.draft = none := by
  obtain ⟨h1, h2⟩ := h.stepAccumulator hr ev.line
  refine ⟨h1, fun b hb => ?_⟩
  unfold State.startBuild at hb
  dsimp only at hb
  split at hb
  · injection hb with hb
    exact hb ▸ ⟨h2, rfl⟩
  · cases hb

/-! ### Packets and deferrals (R123 to R126) -/

theorem readSets_length (g : Fin 16) (n : Nat) : ∀ s : State, (s.readSets g n).2.length = n := by
  induction n with
  | zero => exact fun _ => rfl
  | succ n ih => exact fun s => congrArg (· + 1) (ih _)

theorem BoundsBut.placePacket (h : BoundsBut l s) (c : Fin 4) {n : Nat} {xs : List SampleSet}
    (hn : n + (s.embCounts.get (groupNo l c)).owed ≤ 8 + xs.length) : BoundsBut l (s.placePacket l c n xs).1 :=
  h.updCount c (Nat.sub_le_of_le_add hn)

theorem BoundsBut.deferSets (h : BoundsBut l s) (c : Fin 4) (ev) (n : Nat) :
    BoundsBut l (s.deferSets (groupNo l c) ev n) := by
  unfold State.deferSets
  dsimp only
  split
  · next hn => exact h.updCount c hn
  · have he : BoundsBut l (s.updEmbed (groupNo l c) fun st =>
        st.discard ((s.embCounts.get (groupNo l c)).owed + n - 8)) := h.calm (.of_keeps (keeps_updEmbed _ _))
    exact (he.updCount c (Nat.le_refl 8)).calm (.of_keeps (keeps_raiseAs _ _ _))

/-- R123: a packet that is sent brings its group to at most 8 owed sets. -/
theorem sent_bounded (h : BoundsBut l s) {c : Fin 4} {n m used : Nat} (hn : n ≤ 4)
    (hd : s.groupDeal l c n used = .send m) : n + (s.embCounts.get (groupNo l c)).owed ≤ 8 + m := by
  have ho := h.owed (groupNo l c)
  unfold State.groupDeal at hd
  dsimp only at hd
  split at hd
  · split at hd
    · cases hd
    · split at hd
      · injection hd with hd
        subst hd
        unfold packetSets
        omega
      · cases hd
  · cases hd

theorem BoundsBut.dealGroup (h : BoundsBut l s) (c ev) {n : Nat} (hn : n ≤ 4) (used) :
    BoundsBut l (s.dealGroup l c ev n used).1 := by
  unfold State.dealGroup
  split
  · exact h
  · next m hd =>
    refine (h.calm (.readSets s _ m)).placePacket c ?_
    rw [readSets_length, (keeps_readSets _ _ s).embCounts]
    exact sent_bounded h hn hd
  · exact h.deferSets c ev n

theorem BoundsBut.dealGroups (ev) {n : Nat} (hn : n ≤ 4) (cs : List (Fin 4)) :
    ∀ (s : State) (used), BoundsBut l s → BoundsBut l (s.dealGroups l ev n cs used).1 := by
  induction cs with
  | nil => exact fun _ _ hs => hs
  | cons c cs ih => exact fun s used hs => ih _ _ (hs.dealGroup c ev hn used)

theorem BoundsBut.finishBuilding (h : BoundsBut l s) (ev) {b : Build} (hb : WorkOkAt s l (.building ev b)) :
    BoundsBut l (b.finish l ev s) := by
  obtain ⟨hn, hd⟩ := hb
  have hf : BoundsBut l (b.finishDraft l s).1 := by
    unfold Build.finishDraft
    split
    · exact h
    · next d e =>
      refine (h.calm (.readSets s _ d.left)).placePacket d.group ?_
      have := hd d e
      rw [List.length_append, readSets_length, (keeps_readSets _ _ s).embCounts]
      omega
  exact (BoundsBut.dealGroups ev hn b.groups _ _ hf).calm (.of_keeps (keeps_updRelay l _))

theorem BoundsBut.buildLine (h : BoundsBut l s) (hr : (s.lanes.get l).state = .running) (ev r) :
    BoundsBut l (s.buildLine l ev r) := by
  obtain ⟨h1, h2⟩ := h.startBuild hr ev r
  unfold State.buildLine
  split
  · next u b hu =>
    rw [hu] at h1 h2
    obtain ⟨hn, hd⟩ := h2 b rfl
    exact h1.finishBuilding ev ⟨hn, fun d e => by rw [hd] at e; cases e⟩
  · next u hu =>
    rw [hu] at h1
    exact h1

/-! ### The accesses of an event -/

theorem BoundsBut.finish (h : BoundsBut l s) (hw : WorkOkAt s l w) : BoundsBut l (w.finish l s) := by
  cases w with
  | idle => exact h
  | walking ev w =>
    have hc := Calm.finishWalk s l ev w
    exact ((h.calm hc).buildLine ((hc.state l).trans hw) ev _).calm (.endLine _ l ev)
  | building ev b => exact (h.finishBuilding ev hw).calm (.endLine _ l ev)

theorem BoundsBut.advanceWalk (h : BoundsBut l s) (ev) {w : Walk} (hr : (s.lanes.get l).state = .running) :
    BoundsBut l (LaneWork.advanceWalk l ev w s).1
      ∧ WorkOkAt (LaneWork.advanceWalk l ev w s).1 l (LaneWork.advanceWalk l ev w s).2 := by
  unfold LaneWork.advanceWalk
  split
  · exact ⟨h.calm (.writeSet s _ _), ((Calm.writeSet s _ _).state l).trans hr⟩
  · exact ⟨h.calm (.judgePacket s l ev _), ((Calm.judgePacket s l ev _).state l).trans hr⟩
  · have hc := Calm.endWalk s l ev w.failed
    obtain ⟨h1, h2⟩ := (h.calm hc).startBuild ((hc.state l).trans hr) ev
      { entries := w.entries, ending := w.ending, failed := w.failed }
    split
    · next u b hu =>
      rw [hu] at h1 h2
      obtain ⟨hn, hd⟩ := h2 b rfl
      exact ⟨h1, hn, fun d e => by rw [hd] at e; cases e⟩
    · next u hu =>
      rw [hu] at h1
      exact ⟨h1.calm (.endLine _ l ev), trivial⟩

theorem BoundsBut.advanceBuild (h : BoundsBut l s) (ev) {b : Build} (hb : WorkOkAt s l (.building ev b)) :
    BoundsBut l (LaneWork.advanceBuild l ev b s).1
      ∧ WorkOkAt (LaneWork.advanceBuild l ev b s).1 l (LaneWork.advanceBuild l ev b s).2 := by
  obtain ⟨hn, hd⟩ := hb
  unfold LaneWork.advanceBuild
  split
  · next g k xs hdr =>
    have h1 := hd _ hdr
    refine ⟨h.calm (.readEmbed s _), hn, fun d e => ?_⟩
    injection e with e
    subst e
    rw [(keeps_readEmbed _).embCounts, List.length_append]
    simp only [List.length_singleton] at h1 ⊢
    omega
  · next g xs hdr =>
    exact ⟨h.placePacket g (hd _ hdr), hn, fun d e => by cases e⟩
  · next c cs hdr _ =>
    split
    · exact ⟨h, hn, fun d e => by rw [hdr] at e; cases e⟩
    · next m hm =>
      refine ⟨h, hn, fun d e => ?_⟩
      injection e with e
      subst e
      exact sent_bounded h hn hm
    · exact ⟨h.deferSets c ev b.n, hn, fun d e => by rw [hdr] at e; cases e⟩
  · exact ⟨(h.calm (.of_keeps (keeps_updRelay l _))).calm (.endLine _ l ev), trivial⟩

theorem BoundsBut.run (k : Nat) : ∀ (w : LaneWork) (s : State), BoundsBut l s → WorkOkAt s l w →
    BoundsBut l (w.run l k s).1 ∧ WorkOkAt (w.run l k s).1 l (w.run l k s).2 := by
  induction k with
  | zero => exact fun _ _ h hw => ⟨h, hw⟩
  | succ k ih =>
    intro w s h hw
    have ha : BoundsBut l (w.advance l s).1 ∧ WorkOkAt (w.advance l s).1 l (w.advance l s).2 := by
      cases w with
      | idle => exact ⟨h, hw⟩
      | walking ev w => exact h.advanceWalk ev hw
      | building ev b => exact h.advanceBuild ev hw
    exact ih _ _ ha.1 ha.2

/-- What is left of the lane's event is put down. -/
theorem BoundsBut.setWork (h : BoundsBut l s) (hw : WorkOkAt s l w) : BuildersOk (s.setWork l w) := by
  refine (buildersOk_iff _ l).mpr ⟨⟨h.acc, h.owed, fun k hk => ?_⟩, ?_⟩
  · rw [State.setWork_work, Bank.get_set, if_neg (Ne.symm hk)]
    exact h.work k hk
  · rw [State.setWork_work, Bank.get_set_self]
    exact hw

theorem BoundsBut.workOn (h : BoundsBut l s) (hw : WorkOkAt s l w) (k) : BuildersOk (s.workOn l w k) := by
  cases k with
  | none => exact (h.finish hw).setWork trivial
  | some k =>
    obtain ⟨h1, h2⟩ := BoundsBut.run k w s h hw
    exact h1.setWork h2

theorem buildersOk_finishWork (h : BuildersOk s) (l : Fin 4) : BuildersOk (s.finishWork l) := by
  obtain ⟨h1, h2⟩ := (buildersOk_iff s l).mp h
  exact h1.workOn h2 none

theorem buildersOk_takeArea (h : BuildersOk s) (hr : (s.lanes.get l).state = .running) (n area k) :
    BuildersOk (s.takeArea l n area k) := by
  have hc : Calm s (s.newEvent.newEvent.clearSeenLine l) :=
    ((Calm.of_keeps keeps_newEvent).andThen keeps_newEvent).andThen (keeps_clearSeenLine l)
  have hw : WorkOkAt (s.newEvent.newEvent.clearSeenLine l) l
      (.start { line := n, stamp := s.ref.frameCount, no := s.eventNo } area) := (hc.state l).trans hr
  exact (((buildersOk_iff s l).mp h).1.calm hc).workOn hw k

/-- R11: the event is one of a RUNNING lane. -/
theorem running_of_areaEvent {ws : List LaneWord} {x} (h : s.areaEvent? l ws = some x) :
    (s.lanes.get l).state = .running := by
  unfold State.areaEvent? at h
  split at h
  · cases h
  · split at h
    · next hc => exact hc.2.2.1
    · cases h

theorem buildersOk_receiveWords (h : BuildersOk s) (l : Fin 4) (ws) : BuildersOk (s.receiveWords l ws) := by
  have hc : Calm s (s.receive l ws) := .of_keeps (keeps_receive l ws)
  unfold State.receiveWords
  split
  · next hx => exact buildersOk_takeArea (h.calm hc) ((hc.state l).trans (running_of_areaEvent hx)) _ _ _
  · exact h.calm hc

/-! ### A lane leaves and enters RUNNING (R8, R13, R15) -/

/-- Nothing is left of the event of a lane that has finished it. -/
theorem finishWork_work (s : State) (l : Fin 4) : (s.finishWork l).work.get l = .idle := by
  simp [State.finishWork, State.workOn]

/-- A lane is stopped: it is not RUNNING and its accumulator is 0. -/
theorem buildersOk_stop (h : BuildersOk s) (hw : ∀ ev w, s.work.get l ≠ .walking ev w)
    (hs : (t.lanes.get l).state ≠ .running) (ha : (t.builders.get l).acc = 0)
    (hl : ∀ k, k ≠ l → t.lanes.get k = s.lanes.get k ∧ (t.builders.get k).acc = (s.builders.get k).acc)
    (ho : ∀ g, (t.embCounts.get g).owed ≤ (s.embCounts.get g).owed) (hk : t.work = s.work) : BuildersOk t := by
  obtain ⟨h1, h2, h3⟩ := h
  have hd : ∀ (k : Fin 4) (b : Build), ∀ d : Draft, b.draft = some d →
      b.n + (s.embCounts.get (groupNo k d.group)).owed ≤ 8 + d.left + d.sets.length →
      b.n + (t.embCounts.get (groupNo k d.group)).owed ≤ 8 + d.left + d.sets.length := fun k b d _ hb => by
    have := ho (groupNo k d.group)
    omega
  refine ⟨fun k => ?_, fun g => (ho g).trans (h2 g), fun k => ?_⟩
  · by_cases e : k = l
    · subst e
      rw [if_neg hs]
      exact ha
    · rw [(hl k e).1, (hl k e).2]
      exact h1 k
  · have hwk := h3 k
    rw [hk]
    cases hx : s.work.get k with
    | idle => trivial
    | walking ev w =>
      by_cases e : k = l
      · exact absurd (e ▸ hx) (hw ev w)
      · rw [hx] at hwk
        show (t.lanes.get k).state = .running
        rw [(hl k e).1]
        exact hwk
    | building ev b =>
      rw [hx] at hwk
      exact ⟨hwk.1, fun d e => hd k b d e (hwk.2 d e)⟩

/-- R13, R117: the lane's state is no more RUNNING, and the blocks take the exit. -/
theorem buildersOk_leaveRunning (h : BuildersOk s) (l : Fin 4) (hw : s.work.get l = .idle) {f : Receiver → Receiver}
    (hf : ∀ r, (f r).state ≠ .running) : BuildersOk ((s.updLane l f).leaveRunning l) := by
  refine buildersOk_stop (l := l) h (by simp [hw]) ?_ ?_ (fun k hk => ⟨?_, ?_⟩) (fun g => ?_) ?_
  · simp [leaveRunning_lanes, hf]
  · simp [State.leaveRunning, builderStop_builders]
  · simp [leaveRunning_lanes, Ne.symm hk]
  · rw [leaveRunning_builders _ _ _ hk]
    rfl
  · obtain ⟨c, hc⟩ := groupNo_of g
    have hp : ∀ u : State, (u.parserStop l).embCounts = u.embCounts := fun u => (keeps_parserStop l).embCounts
    by_cases e : groupLane g = l
    · rw [e] at hc
      subst hc
      simp [State.leaveRunning, builderStop_counts]
    · simp [State.leaveRunning, builderStop_other _ e, hp]
  · exact (keeps_leaveRunning l).work

/-- A change of the receiver of a lane that is not RUNNING, which stays so. -/
theorem buildersOk_updLane (h : BuildersOk s) (l : Fin 4) (hs : (s.lanes.get l).state ≠ .running)
    {f : Receiver → Receiver} (hf : (f (s.lanes.get l)).state ≠ .running) : BuildersOk (s.updLane l f) := by
  have ha := h.1 l
  rw [if_neg hs] at ha
  refine buildersOk_stop (l := l) h (fun ev w hw => ?_) (by simpa using hf) ha (fun k hk => ⟨?_, rfl⟩)
    (fun _ => Nat.le_refl _) rfl
  · have := h.2.2 l
    rw [hw] at this
    exact hs this
  · simp [Ne.symm hk]

theorem align_state (r : Receiver) (b n) : (r.align b n).state = r.state := by
  unfold Receiver.align Receiver.breakAlignment Receiver.awaitOne
  split
  · rfl
  · split
    · rfl
    · split
      · split <;> rfl
      · rfl

theorem buildersOk_enterRunning (h : BuildersOk s) (l : Fin 4) (hs : (s.lanes.get l).state ≠ .running) :
    BuildersOk (s.enterRunning l) := by
  have ha := h.1 l
  rw [if_neg hs] at ha
  have hb : BuildersOk (s.updLane l fun r =>
      { r with state := .running, frames := 0, expected := none, index := 0, timer := true, inFrame := false }) := by
    obtain ⟨h1, h2, h3⟩ := h
    refine ⟨fun k => ?_, h2, fun k => ?_⟩
    · have hk := h1 k
      simp only [State.updLane_lanes, State.updLane_builders, Bank.get_upd]
      by_cases e : l = k
      · subst e
        rw [if_pos rfl, if_pos rfl, ha]
        exact carriagePerSequence_pos _
      · rw [if_neg e]
        exact hk
    · have hk := h3 k
      show WorkOkAt _ k (s.work.get k)
      cases hw : s.work.get k with
      | idle => trivial
      | walking ev w =>
        rw [hw] at hk
        show ((s.lanes.upd l _).get k).state = .running
        rw [Bank.get_upd]
        split
        · rfl
        · exact hk
      | building ev b =>
        rw [hw] at hk
        exact hk
  exact (hb.calm (.updBuilder _ l (f := fun b => { b with phase := .awaiting }) fun _ => rfl)).calm
    (.of_keeps (keeps_raiseLaneState l _ _))

theorem buildersOk_seekLine (h : BuildersOk s) (l : Fin 4) (hs : (s.lanes.get l).state ≠ .running) (b n) :
    BuildersOk (s.seekLine l b n) := by
  unfold State.seekLine
  split
  · exact buildersOk_enterRunning h l hs
  · exact buildersOk_updLane h l hs (by rw [show _ = _ from align_state _ _ _]; exact hs)

/-! ### Line starts, the loss timer and LANE_FORMAT -/

theorem buildersOk_runLine (h : BuildersOk s) (l n b) : BuildersOk (s.runLine l n b) := by
  have hl : Calm s (s.updLane l fun r => r.inSequence n.toNat) := .updLane s l ⟨rfl, rfl⟩
  unfold State.runLine
  dsimp only
  split
  · unfold State.switchLine
    split
    · exact h.calm ((hl.trans (.builderSwitchLine _ l)).trans (.boundary _ _))
    · exact h.calm ((hl.trans (.boundary _ _)).trans (.builderSwitchLine _ l))
  · exact h.calm hl

theorem buildersOk_strobe (h : BuildersOk s) (l n b) : BuildersOk (s.strobe l n b) := by
  unfold State.strobe
  split
  · next m _ =>
    have hf : BuildersOk ((s.newEvent.offerFault l .format
        { line := m, stamp := s.ref.frameCount, no := s.eventNo }).finishWork l) :=
      buildersOk_finishWork (h.calm ((Calm.of_keeps keeps_newEvent).andThen (keeps_offerFault _ _ _))) l
    have hw : (((s.newEvent.offerFault l .format
        { line := m, stamp := s.ref.frameCount, no := s.eventNo }).finishWork l).beginLine l n).work.get l = .idle :=
      finishWork_work _ l
    have hx := buildersOk_leaveRunning (hf.calm (.beginLine _ l n)) l hw (f := fun r => { r with state := .seeking })
      (by simp)
    refine buildersOk_seekLine ?_ l ?_ _ _
    · exact (buildersOk_updLane hx l (by simp [leaveRunning_lanes]) (by simp [Receiver.seek])).calm
        (.of_keeps (keeps_raiseAs _ _ _))
    · simp [State.leaveForFormat, Receiver.seek]
  · have hc : Calm s (s.beginLine l n) := .beginLine s l n
    split
    · exact h.calm hc
    · next hs => exact buildersOk_seekLine (h.calm hc) l (by rw [hc.state, hs]; decide) _ _
    · exact buildersOk_runLine ((buildersOk_finishWork h l).calm (.beginLine _ l n)) l n b
    · next hs =>
      refine buildersOk_seekLine ((buildersOk_updLane (h.calm hc) l (by rw [hc.state, hs]; decide) ?_).calm
        (.of_keeps (keeps_raiseLaneState l _ _))) l ?_ _ _
      · simp [Receiver.seek]
      · simp [State.raiseLaneState, Receiver.seek]

theorem buildersOk_expireTimer (h : BuildersOk s) (l : Fin 4) : BuildersOk (s.expireTimer l) := by
  unfold State.expireTimer
  dsimp only
  split
  · split
    · have hf := buildersOk_finishWork (h.calm ((Calm.of_keeps keeps_newEvent).andThen (keeps_offerFault l .loss
        { line := (s.lanes.get l).lastLine.getD 0, stamp := s.ref.frameCount, no := s.eventNo }))) l
      exact (buildersOk_leaveRunning hf l (finishWork_work _ l) (by simp)).calm (.of_keeps (keeps_raiseAs _ _ _))
    · exact h.calm (.updLane s l ⟨rfl, rfl⟩)
    · exact h
    · exact h
  · exact h

theorem buildersOk_setLaneFormat (h : BuildersOk s) (l f) : BuildersOk (s.setLaneFormat l f) := by
  unfold State.setLaneFormat
  dsimp only
  split
  · have hx := buildersOk_leaveRunning (buildersOk_finishWork h l) l (finishWork_work s l)
      (f := fun r => { r with state := .seeking }) (by simp)
    exact (buildersOk_updLane hx l (by simp [leaveRunning_lanes]) (by simp [Receiver.seek])).calm
      (.of_keeps (keeps_raiseAll _))
  · next hs =>
    exact (buildersOk_updLane h l hs (by simp [Receiver.seek])).calm (.of_keeps (keeps_raiseLaneState l _ _))

/-! ### PATH_RESET -/

theorem buildersOk_embedReset (h : BuildersOk s) : BuildersOk s.embedReset := by
  obtain ⟨-, -, h3⟩ := h
  refine ⟨fun k => ?_, fun g => by simp [State.embedReset, EmbedCount.reset], fun k => ?_⟩
  · simp only [State.embedReset, Bank.get_map]
    split
    · exact carriagePerSequence_pos _
    · trivial
  · have hk := h3 k
    show WorkOkAt _ k (s.work.get k)
    cases hw : s.work.get k with
    | idle => trivial
    | walking ev w =>
      rw [hw] at hk
      exact hk
    | building ev b =>
      rw [hw] at hk
      refine ⟨hk.1, fun d _ => ?_⟩
      have := hk.1
      simp only [State.embedReset, Bank.get_fill, EmbedCount.reset]
      omega

theorem buildersOk_finishBuilds (h : BuildersOk s) : BuildersOk s.finishBuilds := by
  refine foldl_keeps (P := BuildersOk) (fun u l hu => ?_) four s h
  unfold State.finishBuild
  split
  · exact buildersOk_finishWork hu l
  · exact hu

theorem buildersOk_resetBlock (h : BuildersOk s) (b : ResetBlock) : BuildersOk (s.resetBlock b) := by
  cases b with
  | lanes =>
    have hc : Calm s s.lanesReset := by
      refine ⟨fun l => ?_, fun l => ?_, fun _ => rfl, fun _ => Nat.le_refl _, rfl⟩ <;>
        simp [State.lanesReset, Receiver.fmt]
    exact h.calm hc
  | embed => exact buildersOk_embedReset (buildersOk_finishBuilds h)
  | monitors => exact h.calm (.of_keeps (keeps_monitorsReset (s := s)))
  | strip | catalogue | trackMap | engine => exact h

end

/-! ### Every command -/

theorem reads_buildersOk : Reads [.lanes, .builders, .embCounts, .work] BuildersOk := by
  intro s t h hs
  have h1 : t.lanes = s.lanes := h .lanes (by decide)
  have h2 : t.builders = s.builders := h .builders (by decide)
  have h3 : t.embCounts = s.embCounts := h .embCounts (by decide)
  have h4 : t.work = s.work := h .work (by decide)
  unfold BuildersOk AccumulatorsBounded OwedBounded WorkOk
  rw [h1, h2, h3, h4]
  exact hs

/-- Settles O8. -/
theorem stepKeepsBuilders : Obligations.StepKeepsBuilders := by
  refine reads_buildersOk.step fun c s t hc hs h => ?_
  cases c with
  | pinReset fbk selA selB selC =>
    injection h with h
    rw [← h]
    refine reads_buildersOk State.reset _ (fun p hp => ?_) resetIsSound.2.2.2.1
    fin_cases hp <;> rfl
  | lineStart l n ws b =>
    injection h with h
    exact h ▸ buildersOk_strobe (buildersOk_receiveWords hs l ws) l n b
  | carriageLine l a =>
    injection h with h
    have hc : Calm s (s.receive l a.words) := .of_keeps (keeps_receive l a.words)
    subst h
    split
    · next hx => exact buildersOk_takeArea (hs.calm hc) ((hc.state l).trans (running_of_areaEvent hx)) _ _ _
    · obtain ⟨h1, h2⟩ := (buildersOk_iff _ l).mp (hs.calm hc)
      exact h1.workOn h2 _
  | lossTimerExpiry l => injection h with h; exact h ▸ buildersOk_expireTimer hs l
  | houseTick slots o b =>
    rw [exec_houseTick] at h
    injection h with h
    have hq : BuildersOk s.settleTick :=
      ((hs.calm (.of_keeps (keeps_endTransitions s))).calm (.of_keeps keeps_completeWindows)).calm (.settleBoundary _)
    subst h
    split
    · exact ((hq.calm (.of_keeps (keeps_updRef _))).calm (.settleBoundary _)).calm (.of_keeps (keeps_audioTick _ _))
    · exact (hq.calm (.of_keeps (keeps_audioTick _ _))).calm (.of_keeps (keeps_updRef _))
  | houseFrameBoundary => injection h with h; exact h ▸ hs.calm (.settleBoundary s)
  | hfpPulse => injection h with h; exact h ▸ hs.calm (.hfpPulse s)
  | fbkAsserted => injection h with h; exact h ▸ hs.calm (.assertFbk s)
  | laneFormat l =>
    injection h with h
    refine h ▸ reads_buildersOk.execute (fun ps u hu => ?_) hs
    unfold laneFormatAnswer
    split
    · split
      · exact buildersOk_setLaneFormat hu _ _
      · exact hu
    · exact hu
  | refFormat l =>
    injection h with h
    refine h ▸ reads_buildersOk.execute (fun ps u hu => ?_) hs
    unfold refFormatAnswer
    split
    · exact (hu.calm (.settleBoundary u)).calm (.of_keeps (keeps_updRef _))
    · exact hu
  | fallbackArm l =>
    injection h with h
    exact h ▸ reads_buildersOk.execute (fun _ u hu => hu.calm (.armFallback u l)) hs
  | fallbackDisarm l =>
    injection h with h
    exact h ▸ reads_buildersOk.execute (fun _ u hu => hu.calm (.disarmFallback u l)) hs
  | pathReset hd =>
    injection h with h
    exact h ▸ reads_buildersOk.executePart (fun _ _ hu => reads_buildersOk.pathReset
      (fun _ b hv => buildersOk_resetBlock hv b) hd.blocks hu) hs
  | _ => exact absurd rfl hc

end Sys2Proof.Machine
end

section
/-! Line starts and the loss timer (R6 to R13), and the relay (R2). -/

set_option Elab.async false

namespace Sys2Proof.Machine

/-! ### What the rest of a carriage-line event leaves of the receivers and relays -/

/-- The receiver `r` with the index and the packet counters of `q`. -/
def Receiver.counting (r q : Receiver) : Receiver :=
  { r with index := q.index, accepted := q.accepted, checksum := q.checksum, malformed := q.malformed, gaps := q.gaps }

/-- From `s` to `t` only the receiver of lane `l` changes, and of it only the index and the packet counters. -/
def Counts (l : Fin 4) (s t : State) : Prop :=
  (∀ k, k ≠ l → t.lanes.get k = s.lanes.get k) ∧ t.lanes.get l = (s.lanes.get l).counting (t.lanes.get l)

namespace Counts

theorem of_lanes {l : Fin 4} {s t : State} (h : t.lanes = s.lanes) : Counts l s t := by
  rw [Counts, h]
  exact ⟨fun _ _ => rfl, rfl⟩

theorem of_keeps {A : List Part} {l : Fin 4} {s t : State} (h : Keeps A s t)
    (hA : Part.lanes ∉ A := by decide) : Counts l s t := of_lanes (h.lanes hA)

theorem trans {l : Fin 4} {s t u : State} (h : Counts l s t) (h' : Counts l t u) : Counts l s u :=
  ⟨fun k hk => (h'.1 k hk).trans (h.1 k hk), by
    have e := h'.2
    rw [h.2] at e
    exact e⟩

theorem updLane (s : State) (l : Fin 4) {f : Receiver → Receiver} (h : ∀ r : Receiver, f r = r.counting (f r)) :
    Counts l s (s.updLane l f) := by
  refine ⟨fun k hk => ?_, ?_⟩
  · rw [State.updLane_lanes, Bank.get_upd_ne _ _ (Ne.symm hk)]
  · rw [State.updLane_lanes, Bank.get_upd_self]
    exact h _

theorem offerFault (s : State) (l l' : Fin 4) (k ev) : Counts l s (s.offerFault l' k ev) := of_lanes rfl

theorem reportMalformed (s : State) (l : Fin 4) (ev) : Counts l s (s.reportMalformed l ev) :=
  (updLane s l (f := fun r => { r with malformed := satInc r.malformed }) fun _ => rfl).trans (offerFault _ l l _ _)

theorem reportChecksum (s : State) (l : Fin 4) (ev) : Counts l s (s.reportChecksum l ev) :=
  (updLane s l (f := fun r => { r with checksum := satInc r.checksum }) fun _ => rfl).trans (offerFault _ l l _ _)

theorem reportGap (s : State) (l : Fin 4) (ev) : Counts l s (s.reportGap l ev) :=
  (updLane s l (f := fun r => { r with gaps := satInc r.gaps }) fun _ => rfl).trans (offerFault _ l l _ _)

theorem checkSequence (s : State) (l : Fin 4) (ev g c) : Counts l s (s.checkSequence l ev g c) := by
  have h1 : Counts l s (s.reportAccepted l) :=
    updLane s l (f := fun r => { r with accepted := satInc r.accepted }) fun _ => rfl
  unfold State.checkSequence
  refine trans ?_ (of_keeps (keeps_updGroup _ _))
  split
  · exact h1.trans (reportGap _ l ev)
  · exact h1

theorem judgePacket (s : State) (l : Fin 4) (ev p) : Counts l s (s.judgePacket l ev p).1 := by
  unfold State.judgePacket
  split
  · exact of_lanes rfl
  · dsimp only
    split
    · exact (of_keeps (keeps_updGroup _ _)).trans (reportChecksum _ l ev)
    · split
      · exact reportMalformed s l ev
      · exact ((of_keeps (keeps_updGroup _ _)).trans (checkSequence _ l ev _ _)).trans
          (of_lanes (markPresent_lanes _ _ _))

theorem judgeAll (l : Fin 4) (ev) (ps : List (Nat × Packet)) : ∀ s : State, Counts l s (s.judgeAll l ev ps).1 := by
  induction ps with
  | nil => exact fun _ => of_lanes rfl
  | cons p ps ih => exact fun s => ((judgePacket s l ev p.2).trans (of_lanes (writeSets_lanes _ _))).trans (ih _)

theorem endWalk (s : State) (l : Fin 4) (ev b) : Counts l s (s.endWalk l ev b) := by
  unfold State.endWalk
  split
  · exact reportMalformed s l ev
  · exact of_lanes rfl

theorem finishWalk (s : State) (l : Fin 4) (ev) (w : Walk) : Counts l s (w.finish l ev s).1 :=
  ((of_lanes (writeSets_lanes _ s)).trans (judgeAll l ev w.todo _)).trans (endWalk _ l ev _)

theorem frameEnd (s : State) (l : Fin 4) : Counts l s (s.frameEnd l) :=
  (of_keeps (keeps_parserFrameEnd l)).trans (updLane _ l (f := fun r =>
    { r with index := if r.index + 1 < framesPerSequence r.fmt then r.index + 1 else 0 }) fun _ => rfl)

theorem endLine (s : State) (l : Fin 4) (ev) : Counts l s (s.endLine l ev) := by
  unfold State.endLine
  split
  · exact frameEnd s l
  · exact of_lanes rfl

theorem finish (s : State) (l : Fin 4) (w : LaneWork) : Counts l s (w.finish l s) := by
  cases w with
  | idle => exact of_lanes rfl
  | walking ev w =>
    exact ((finishWalk s l ev w).trans (of_keeps (keeps_buildLine l ev _))).trans (endLine _ l ev)
  | building ev b => exact (of_keeps (keeps_finishBuilding l ev b)).trans (endLine _ l ev)

theorem finishWork (s : State) (l : Fin 4) : Counts l s (s.finishWork l) :=
  (finish s l (s.work.get l)).trans (of_keeps (keeps_setWork l _))

end Counts

/-- R2: the rest of an event may rebuild the area of the line in progress of its lane; no relay changes else. -/
def Rebuilds (l : Fin 4) (s t : State) : Prop :=
  (∀ k, k ≠ l → t.relays.get k = s.relays.get k)
    ∧ (t.relays.get l = s.relays.get l ∨ ∃ area, t.relays.get l = (s.relays.get l).rebuild area)

theorem rebuilds_finish (s : State) (l : Fin 4) (w : LaneWork) : Rebuilds l s (w.finish l s) := by
  have hb : ∀ (u : State) (b : Build) ev, Rebuilds l u (b.finish l ev u) := by
    intro u b ev
    have hd : ((b.finishDraft l u).1.dealGroups l ev b.n b.groups (b.finishDraft l u).2).1.relays = u.relays := by
      rw [(keeps_dealGroups l ev b.n b.groups _ _).relays, (keeps_finishDraft l b).relays]
    refine ⟨fun k hk => ?_, .inr ⟨fillArea
      ((b.finishDraft l u).1.dealGroups l ev b.n b.groups (b.finishDraft l u).2).2, ?_⟩⟩
    · show ((((b.finishDraft l u).1.dealGroups l ev b.n b.groups (b.finishDraft l u).2).1.relays.upd l _).get k) = _
      rw [hd, Bank.get_upd_ne _ _ (Ne.symm hk)]
    · show ((((b.finishDraft l u).1.dealGroups l ev b.n b.groups (b.finishDraft l u).2).1.relays.upd l _).get l) = _
      rw [hd, Bank.get_upd_self]
      rfl
  have he : ∀ (u : State) ev, (u.endLine l ev).relays = u.relays := fun u ev => (keeps_endLine l ev).relays
  cases w with
  | idle => exact ⟨fun _ _ => rfl, .inl rfl⟩
  | walking ev w =>
    have hw : (w.finish l ev s).1.relays = s.relays := (keeps_finishWalk l ev w).relays
    show Rebuilds l s (((w.finish l ev s).1.buildLine l ev (w.finish l ev s).2).endLine l ev)
    unfold Rebuilds
    rw [he]
    unfold State.buildLine
    have hs : ((w.finish l ev s).1.startBuild l ev (w.finish l ev s).2).1.relays = s.relays := by
      rw [(keeps_startBuild l ev _).relays, hw]
    split
    · next u b hu =>
      rw [hu] at hs
      have := hb u b ev
      unfold Rebuilds at this
      rwa [show u.relays = s.relays from hs] at this
    · next u hu =>
      rw [hu] at hs
      rw [show u.relays = s.relays from hs]
      exact ⟨fun _ _ => rfl, .inl rfl⟩
  | building ev b =>
    show Rebuilds l s ((b.finish l ev s).endLine l ev)
    unfold Rebuilds
    rw [he]
    exact hb s b ev

theorem rebuilds_finishWork (s : State) (l : Fin 4) : Rebuilds l s (s.finishWork l) := rebuilds_finish s l _

/-- A rebuilt area is no part of what makes a line short. -/
theorem shortLine_rebuild (r : Relay) (area : List LaneWord) : (r.rebuild area).shortLine = r.shortLine := by
  obtain ⟨input, _, _, _⟩ := r
  cases input <;> rfl

theorem shortLine_finishWork (s : State) (l : Fin 4) :
    ((s.finishWork l).relays.get l).shortLine = (s.relays.get l).shortLine := by
  rcases (rebuilds_finishWork s l).2 with e | ⟨area, e⟩
  · rw [e]
  · rw [e, shortLine_rebuild]

/-! ### Words and the strobe -/

theorem receive_nil (s : State) (l : Fin 4) : s.receive l [] = s := by
  refine State.updRelay_eq_self s l ?_
  cases h : s.relays.get l with
  | mk input shown waiting output => cases input <;> simp [Relay.receive]

theorem not_raisesArea_nil (s : State) (l : Fin 4) : ¬ RaisesArea s l [] := by
  rintro ⟨-, -, x, -, -, -, h1, h2⟩
  simp only [List.length_nil, Nat.add_zero] at h2
  omega

theorem receiveWords_nil (s : State) (l : Fin 4) : s.receiveWords l [] = s := by
  rw [receive_quiet (not_raisesArea_nil s l)]
  exact receive_nil s l

/-- R11: the words of a line start raise an event as they would in a CARRIAGE_LINE. -/
theorem areaEvent_isSome {s : State} {l : Fin 4} {ws : List LaneWord} (h : RaisesArea s l ws) :
    ∃ x, s.areaEvent? l ws = some x := by
  obtain ⟨hr, hf, x, hx, h7, h8, h1, h2⟩ := h
  refine ⟨(x.number, (x.words ++ ws).take areaWords), ?_⟩
  have hc : isCarriageLine x.number = true := by simp [isCarriageLine, h7, h8]
  have h3 : (x.words ++ ws).length ≥ areaWords := by
    rw [List.length_append]
    exact h2
  unfold State.areaEvent?
  rw [hx]
  exact if_pos ⟨h1, h3, hr, hf, hc⟩

theorem shortLine_of_not_short {s : State} {l : Fin 4} {ws : List LaneWord} (h : ¬ EndsShort s l ws) :
    ((s.updRelay l fun r => r.receive ws).relays.get l).shortLine = none := by
  have hs : ((s.updRelay l fun r => r.receive ws).relays.get l).short = false :=
    Bool.eq_false_iff.mpr fun e => h ((short_iff s l ws).mp e)
  rw [Relay.shortLine, hs]
  rfl

/-- R9: in RUNNING, a line start after a complete line and in sequence offers no FORMAT. -/
theorem formatLine_none {s : State} {l : Fin 4} {n : BitVec 11} (hs : (s.relays.get l).shortLine = none)
    (he : n.toNat = (s.lanes.get l).expected.getD 1) : s.formatLine? l n = none := by
  unfold State.formatLine?
  rw [hs]
  simp [Receiver.expects, he]

theorem formatLine_of_not_running {s : State} {l : Fin 4} (n : BitVec 11) (h : (s.lanes.get l).state ≠ .running) :
    s.formatLine? l n = none := if_neg h

theorem not_raisesArea_of {s : State} {l : Fin 4} (ws : List LaneWord) (h : (s.lanes.get l).state ≠ .running) :
    ¬ RaisesArea s l ws := fun hr => h hr.1

theorem not_raisesArea_of_short {s : State} {l : Fin 4} {ws : List LaneWord} (h : EndsShort s l ws) :
    ¬ RaisesArea s l ws := by
  obtain ⟨x, hx, h1⟩ := h
  rintro ⟨-, -, y, hy, -, -, -, h2⟩
  rw [hx] at hy
  injection hy with hy
  subst hy
  omega

/-- The state in which a line start is judged, after the words of the line that it ends and its own number. -/
def State.begun (s : State) (l : Fin 4) (n : BitVec 11) (ws : List LaneWord) : State :=
  (s.updRelay l fun r => (r.receive ws).begin n).updLane l fun r => { r with lastLine := some n }

theorem begun_eq (s : State) (l : Fin 4) (n : BitVec 11) (ws : List LaneWord) :
    (s.updRelay l fun r => r.receive ws).beginLine l n = s.begun l n ws := by
  rw [State.beginLine, State.updRelay_updRelay]
  rfl

theorem begun_lane (s : State) (l : Fin 4) (n : BitVec 11) (ws : List LaneWord) :
    (s.begun l n ws).lanes.get l = { s.lanes.get l with lastLine := some n } := by simp [State.begun]

theorem strobe_unset {s : State} {l : Fin 4} (n ws bf) (h : (s.lanes.get l).state = .unset) :
    exec (.lineStart l n ws bf) s = .next (s.begun l n ws) := by
  have hn : (s.lanes.get l).state ≠ .running := by rw [h]; decide
  show Host.Outcome.next ((s.receiveWords l ws).strobe l n bf) = _
  rw [receive_quiet (not_raisesArea_of ws hn), State.strobe, formatLine_of_not_running n (by exact hn)]
  simp only [State.updRelay_lanes, h, begun_eq]

theorem strobe_seeking {s : State} {l : Fin 4} (n ws bf) (h : (s.lanes.get l).state = .seeking) :
    exec (.lineStart l n ws bf) s
      = .next ((s.begun l n ws).seekLine l ((s.updRelay l fun r => r.receive ws).relays.get l).short n) := by
  have hn : (s.lanes.get l).state ≠ .running := by rw [h]; decide
  show Host.Outcome.next ((s.receiveWords l ws).strobe l n bf) = _
  rw [receive_quiet (not_raisesArea_of ws hn), State.strobe, formatLine_of_not_running n (by exact hn)]
  simp only [State.updRelay_lanes, h, begun_eq]

theorem strobe_lost {s : State} {l : Fin 4} (n ws bf) (h : (s.lanes.get l).state = .lost) :
    exec (.lineStart l n ws bf) s
      = .next ((((s.begun l n ws).updLane l Receiver.seek).raiseLaneState l .lost .seeking).seekLine l false n) := by
  have hn : (s.lanes.get l).state ≠ .running := by rw [h]; decide
  show Host.Outcome.next ((s.receiveWords l ws).strobe l n bf) = _
  rw [receive_quiet (not_raisesArea_of ws hn), State.strobe, formatLine_of_not_running n (by exact hn)]
  simp only [State.updRelay_lanes, h, begun_eq]

theorem strobe_running {s : State} {l : Fin 4} (n ws bf) (h : (s.lanes.get l).state = .running)
    (hw : NothingLeft s l) (hs : ¬ EndsShort s l ws) (ha : ¬ RaisesArea s l ws)
    (he : n.toNat = (s.lanes.get l).expected.getD 1) :
    exec (.lineStart l n ws bf) s = .next ((s.begun l n ws).runLine l n bf) := by
  show Host.Outcome.next ((s.receiveWords l ws).strobe l n bf) = _
  rw [receive_quiet ha, State.strobe, formatLine_none (shortLine_of_not_short hs) (by exact he)]
  simp only [State.updRelay_lanes, h]
  rw [finishWork_idle (by exact hw), begun_eq]

/-- R7: in SEEKING a line start that does not complete the alignment only moves it on. -/
theorem seekLine_align {s : State} {l : Fin 4} {b : Bool} {n : BitVec 11}
    (h : (s.lanes.get l).aligned b n.toNat = false) :
    s.seekLine l b n = s.updLane l fun r => { r.align b n.toNat with timer := true } := by
  rw [State.seekLine, h]
  rfl

/-- R9, R11: a line start in sequence in RUNNING finds the event of the words and what is left of an earlier one
taken. -/
theorem strobe_finishWork {s : State} {l : Fin 4} {n : BitVec 11} (bf) (hr : (s.lanes.get l).state = .running)
    (hs : (s.relays.get l).shortLine = none) (he : n.toNat = (s.lanes.get l).expected.getD 1) :
    (s.finishWork l).strobe l n bf = s.strobe l n bf := by
  have hl : (s.finishWork l).lanes.get l = (s.lanes.get l).counting ((s.finishWork l).lanes.get l) :=
    (Counts.finishWork s l).2
  have hr' : ((s.finishWork l).lanes.get l).state = .running := by
    rw [hl]
    exact hr
  have he' : n.toNat = ((s.finishWork l).lanes.get l).expected.getD 1 := by
    rw [hl]
    exact he
  rw [State.strobe, State.strobe, formatLine_none hs he,
    formatLine_none ((shortLine_finishWork s l).trans hs) he']
  simp only [hr, hr']
  rw [finishWork_idle (finishWork_work s l)]

/-- R1, R11: a line start with words is one without, after the words and the event that they raise. -/
theorem lineStart_words (s : State) (l : Fin 4) (n ws bf) :
    exec (.lineStart l n ws bf) s = exec (.lineStart l n [] bf) (s.receiveWords l ws) := by
  show Host.Outcome.next ((s.receiveWords l ws).strobe l n bf)
    = .next (((s.receiveWords l ws).receiveWords l []).strobe l n bf)
  rw [receiveWords_nil]

/-- R11: what CARRIAGE_LINE makes of words that raise an event. -/
theorem carriageLine_of_raises {s : State} {l : Fin 4} {ws : List LaneWord} (h : RaisesArea s l ws) :
    exec (.carriageLine l ⟨ws, none⟩) s = .next (s.receiveWords l ws) := by
  obtain ⟨x, hx⟩ := areaEvent_isSome h
  simp only [exec, execCarriageLine, State.receiveWords, hx]

/-- R11: CARRIAGE_LINE with words that raise no event takes what is left of an earlier one. -/
theorem carriageLine_of_quiet {s : State} {l : Fin 4} {ws : List LaneWord} (h : ¬ RaisesArea s l ws) :
    exec (.carriageLine l ⟨ws, none⟩) s = .next ((s.updRelay l fun r => r.receive ws).finishWork l) := by
  have hx : s.areaEvent? l ws = none := by
    unfold State.areaEvent?
    split
    · rfl
    · next x hx =>
      refine if_neg fun hc => h ?_
      obtain ⟨h1, h2, h3, h4, h5⟩ := hc
      simp only [isCarriageLine, Bool.and_eq_true, bne_iff_ne] at h5
      rw [List.length_append] at h2
      exact ⟨h3, h4, x, hx, h5.1, h5.2, h1, h2⟩
  simp only [exec, execCarriageLine, hx]
  rfl

/-- Settles O17, by the state of the lane and, in SEEKING, by what the alignment expects. -/
theorem lineStartsAreTaken : Obligations.LineStartsAreTaken := by
  intro l n ws bf s s1 h1
  have h1 : s1 = s.begun l n ws := h1
  subst h1
  have hseek : (s.lanes.get l).state = .seeking → ∀ b,
      ((s.updRelay l fun r => r.receive ws).relays.get l).short = b →
      (s.lanes.get l).aligned b n.toNat = false → ∀ f : Receiver → Receiver,
      { { s.lanes.get l with lastLine := some n }.align b n.toNat with timer := true }
        = f { s.lanes.get l with lastLine := some n } →
      exec (.lineStart l n ws bf) s = .next ((s.begun l n ws).updLane l f) := by
    intro hs b hb ha f hf
    rw [strobe_seeking n ws bf hs, hb, seekLine_align (by rw [begun_lane]; exact ha)]
    exact congrArg _ (State.updLane_congr _ l (by rw [begun_lane]; exact hf))
  have hnot : ¬ EndsShort s l ws → ((s.updRelay l fun r => r.receive ws).relays.get l).short = false :=
    fun h => Bool.eq_false_iff.mpr fun e => h ((short_iff s l ws).mp e)
  refine ⟨strobe_unset n ws bf, fun hs => ?_, fun hs hw hsh ha he h7 => ?_, fun h => ?_, fun hs hsh => ?_,
    fun hs hsh he => ?_, fun e hs hsh he => ⟨fun hn hL => ?_, fun hn hL hf => ?_, fun hn => ?_⟩⟩
  · rw [strobe_lost n ws bf hs, seekLine_align (by simp [Receiver.aligned, Receiver.seek, State.raiseLaneState])]
    have hp : ∀ f : Receiver → Receiver, (((s.begun l n ws).updLane l Receiver.seek).raiseLaneState l .lost
        .seeking).updLane l f = ((s.begun l n ws).raiseLaneState l .lost .seeking).updLane l fun r => f r.seek := by
      intro f
      show (((s.begun l n ws).updLane l Receiver.seek).updLane l f).raiseLaneState l .lost .seeking = _
      rw [State.updLane_updLane]
      rfl
    rw [hp]
    rfl
  · rw [strobe_running n ws bf hs hw hsh ha he]
    have h7' : isSwitchLine n = false := by simp [isSwitchLine, h7]
    simp only [State.runLine, h7']
    rfl
  · by_cases hr : RaisesArea s l ws
    · exact ⟨_, carriageLine_of_raises hr, lineStart_words s l n ws bf⟩
    · obtain ⟨hs, hsh, he⟩ := h.resolve_left hr
      refine ⟨_, carriageLine_of_quiet hr, ?_⟩
      rw [lineStart_words, receive_quiet hr]
      show Host.Outcome.next ((State.receiveWords _ l []).strobe l n bf)
        = .next ((State.receiveWords _ l []).strobe l n bf)
      rw [receiveWords_nil, receiveWords_nil, strobe_finishWork bf (by exact hs) (shortLine_of_not_short hsh)
        (by exact he)]
  · exact hseek hs true ((short_iff s l ws).mpr hsh) rfl _ rfl
  · refine hseek hs false (hnot hsh) (by simp [Receiver.aligned, he]) _ ?_
    simp only [Receiver.align, he]
    rfl
  · refine hseek hs false (hnot hsh) (by simp [Receiver.aligned, hL]) _ ?_
    have hL' : n.toNat ≠ linesPerFrame ({ s.lanes.get l with lastLine := some n } : Receiver).fmt := hL
    simp only [Receiver.align, he, hn, Bool.false_eq_true, if_false, if_true]
    rw [if_neg (by rw [← hn]; exact hL')]
  · refine hseek hs false (hnot hsh) (by simp [Receiver.aligned, hf]) _ ?_
    have hL' : n.toNat = linesPerFrame ({ s.lanes.get l with lastLine := some n } : Receiver).fmt := hL
    simp only [Receiver.align, he, hn, Bool.false_eq_true, if_false, if_true]
    rw [if_pos (by rw [← hn]; exact hL')]
  · refine hseek hs false (hnot hsh) (by simp [Receiver.aligned, he, Ne.symm hn]) _ ?_
    simp only [Receiver.align, he, Bool.false_eq_true, if_false, if_neg hn]
    rfl

/-- Settles O19. -/
theorem alignmentEntersRunning : Obligations.AlignmentEntersRunning := by
  intro l n ws bf s hs hsh he hL hf
  have hb : ((s.updRelay l fun r => r.receive ws).relays.get l).short = false :=
    Bool.eq_false_iff.mpr fun e => hsh ((short_iff s l ws).mp e)
  have ha : ((s.begun l n ws).lanes.get l).aligned false n.toNat = true := by
    rw [begun_lane]
    simp only [Receiver.aligned, he, hf, Bool.not_false, Bool.true_and, beq_self_eq_true, Bool.and_true, beq_iff_eq]
    exact hL
  rw [strobe_seeking n ws bf hs, hb, State.seekLine, if_pos ha, State.enterRunning, State.begun,
    State.updLane_updLane]
  rfl

/-- Settles O21. -/
theorem outputLinesFollowInputLines : Obligations.OutputLinesFollowInputLines := by
  intro l s hs
  refine ⟨fun x rest hw => ⟨_, rfl, ?_⟩, fun x hw hx => ⟨_, rfl, ?_⟩⟩ <;>
    refine ⟨?_, ?_, ?_, fun l' hl => by simp [Ne.symm hl], keeps_updRelay l _⟩
  all_goals simp [Relay.present, Relay.presented, *]

end Sys2Proof.Machine
end

section
/-! A lane's exit from RUNNING: FORMAT and LOSS (R9, R10, R13, R184, R185). -/

set_option Elab.async false

namespace Sys2Proof.Machine

/-! ### The capture record (R184) -/

theorem faultRank_eq (k : FaultKind) : faultRank k = k.severity := by cases k <;> rfl

theorem satInc_byte (c : Byte) : satInc c = if c = 255 then 255 else c + 1 := by
  have h : BitVec.allOnes 8 = 255 := by decide
  rw [satInc, h]
  split
  · next e => exact e
  · rfl

theorem offeredTo_eq (c : Option Capture) (k : FaultKind) (line stamp) :
    some (offeredTo c k line stamp) = captureAfter c k line stamp := by
  cases c with
  | none => rfl
  | some c =>
    simp only [offeredTo, captureAfter, Capture.take, faultRank_eq, satInc_byte]
    split <;> rfl

theorem offerFault_capture (s : State) (l : Fin 4) (k : FaultKind) (ev : AreaEvent) :
    (s.offerFault l k ev).faults.get l = captureAfter (s.faults.get l) k ev.line ev.stamp := by
  rw [offerFault_faults, if_pos rfl, offeredTo_eq]

/-! ### The exit -/

/-- R13: what an exit leaves, for a state that differs from the one in which the event began in nothing that the exit
reads of the groups, stores and builders. -/
theorem leftRunning_of_exit {s u t : State} {l : Fin 4} {f : Receiver → Receiver} {A B : List Part}
    (hst : StoresOk s) (hs : Keeps A s u) (ho : ∀ k, k ≠ l → u.lanes.get k = s.lanes.get k)
    (ht : Keeps B ((u.updLane l f).leaveRunning l) t) (hi : (t.lanes.get l).index = 0)
    (hk : ∀ k, k ≠ l → t.lanes.get k = s.lanes.get k)
    (hA : ∀ p ∈ A, p ∈ [Part.lanes, .relays, .faults, .work, .ports, .events] := by decide)
    (hB : ∀ p ∈ B, p ∈ [Part.lanes, .relays, .faults, .work, .ports, .events] := by decide) : LeftRunning s t l := by
  have hv : Keeps [.lanes, .relays, .faults, .work, .ports, .events] s (u.updLane l f) :=
    (hs.mono hA).andThen (keeps_updLane l f)
  have hso : StoresOk (u.updLane l f) :=
    storesOk_of s _ (hv.strip (by decide)) (hv.embed (by decide)) hst
  refine leftRunning_of (leaveRunning_left _ l hso) hv ht (fun k e => ?_) hi (fun k e => ?_) (fun p hp => hp) hB
  · rw [State.updLane_lanes, Bank.get_upd_ne _ _ (Ne.symm e)]
    exact ho k e
  · rw [hk k e, leaveRunning_lanes, State.updLane_lanes, Bank.upd_upd_self, Bank.get_upd_ne _ _ (Ne.symm e)]
    exact (ho k e).symm

/-- R9, R10, R185: the FORMAT that a line start offers, before what is left of an event is taken. -/
def State.formatOffered (s : State) (l : Fin 4) (m : BitVec 11) : State :=
  s.newEvent.offerFault l .format { line := m, stamp := s.ref.frameCount, no := s.eventNo }

/-- R9, R10: the line start that leaves RUNNING, from the state `u` in which its line is begun. -/
def State.exitFormat (u : State) (l : Fin 4) (n : BitVec 11) (no : Nat) : State :=
  (u.leaveForFormat l no).updLane l fun r => { r.align false n.toNat with timer := true }

theorem exitFormat_lanes (u : State) (l : Fin 4) (n : BitVec 11) (no : Nat) : (u.exitFormat l n no).lanes
    = u.lanes.upd l fun r => { r with
        state := .seeking, frames := 0, expected := if n.toNat = 1 then some 2 else none, index := 0, timer := true,
        inFrame := false } := by
  simp only [State.exitFormat, State.leaveForFormat, State.updLane_lanes, State.raiseAs_lanes, leaveRunning_lanes,
    Bank.upd_upd_self]
  exact Bank.upd_congr _ _ rfl

theorem keeps_exitFormat {u : State} (l : Fin 4) (n : BitVec 11) (no : Nat) :
    Keeps exitParts u (u.exitFormat l n no) :=
  (keeps_leaveForFormat l no).andThen (keeps_updLane l _)

/-- What follows the exit itself. -/
theorem keeps_exitFormat_left (u : State) (l : Fin 4) (n : BitVec 11) (no : Nat) :
    Keeps [.lanes, .events] ((u.updLane l fun r => { r with state := .seeking }).leaveRunning l)
      (u.exitFormat l n no) :=
  ((keeps_updLane l _).andThen (keeps_raiseAs _ _ _) (C := [.lanes, .events])).andThen (keeps_updLane l _)

theorem exitFormat_events (u : State) (l : Fin 4) (n : BitVec 11) (no : Nat) : (u.exitFormat l n no).events
    = (u.raiseAs no u.ref.frameCount (u.exitNotices l .seeking)).events := by
  simp only [State.exitFormat, State.leaveForFormat, State.updLane_events, State.raiseAs_events]
  rw [(keeps_leaveRunning l).events]
  rfl

theorem formatOffered_events (s : State) (l : Fin 4) (m : BitVec 11) (ws : List LaneWord) :
    ((s.updRelay l fun r => r.receive ws).formatOffered l m).events
      = (s.raiseAs s.eventNo s.ref.frameCount (laneFaultOf (s.faults.get l) l .format m)).events := rfl

/-- R9: FORMAT's line number, where the line in progress is short or the number out of sequence. -/
theorem formatLine_some {s : State} {l : Fin 4} {n m : BitVec 11} {ws : List LaneWord}
    (hr : (s.lanes.get l).state = .running)
    (h : (∃ x, (s.relays.get l).input = some x ∧ x.words.length + ws.length < 280 ∧ m = x.number)
      ∨ (¬ EndsShort s l ws ∧ ¬ RaisesArea s l ws ∧ n.toNat ≠ (s.lanes.get l).expected.getD 1 ∧ m = n)) :
    ¬ RaisesArea s l ws ∧ (s.updRelay l fun r => r.receive ws).formatLine? l n = some m := by
  rcases h with ⟨x, hx, hlen, rfl⟩ | ⟨hs, ha, hn, rfl⟩
  · have hsh : EndsShort s l ws := ⟨x, hx, hlen⟩
    refine ⟨not_raisesArea_of_short hsh, ?_⟩
    have h1 : ((s.updRelay l fun r => r.receive ws).relays.get l).shortLine = some x.number := by
      rw [Relay.shortLine, if_pos ((short_iff s l ws).mpr hsh)]
      simp [Relay.receive, hx]
    unfold State.formatLine?
    rw [if_pos (by exact hr), h1]
  · refine ⟨ha, ?_⟩
    unfold State.formatLine?
    rw [if_pos (by exact hr), shortLine_of_not_short hs]
    simp [Receiver.expects, hn]

theorem lineStart_format {s : State} {l : Fin 4} {n m : BitVec 11} {ws : List LaneWord} (bf)
    (ha : ¬ RaisesArea s l ws) (hf : (s.updRelay l fun r => r.receive ws).formatLine? l n = some m) :
    exec (.lineStart l n ws bf) s = .next
      (((((s.updRelay l fun r => r.receive ws).formatOffered l m).finishWork l).beginLine l n).exitFormat l n
        s.eventNo) := by
  show Host.Outcome.next ((s.receiveWords l ws).strobe l n bf) = _
  rw [receive_quiet ha, State.strobe, hf]
  refine congrArg _ (seekLine_align ?_)
  simp [State.leaveForFormat, Receiver.seek, Receiver.aligned]

/-- Settles O18. -/
theorem lineStartOutOfSequence : Obligations.LineStartOutOfSequence := by
  intro l n m ws bf s hr hm
  obtain ⟨ha, hf⟩ := formatLine_some hr hm
  have hx := lineStart_format bf ha hf
  refine ⟨fun hst hw => ⟨_, hx, ?_⟩, _, hx, ?_, ?_⟩
  · generalize hF : (s.updRelay l fun r => r.receive ws).formatOffered l m = F
    have hFk : Keeps [.relays, .faults, .events] s F := by
      rw [← hF]
      exact ((keeps_updRelay l _).andThen keeps_newEvent (C := [.relays, .faults, .events])).andThen
        (keeps_offerFault _ _ _)
    have hFr : F.relays = s.relays.upd l fun r => r.receive ws := by rw [← hF]; rfl
    rw [finishWork_idle (show F.work.get l = .idle by rw [hFk.work]; exact hw)]
    have hB : Keeps [.lanes, .relays, .faults, .events] s (F.beginLine l n) := hFk.andThen (keeps_beginLine l n)
    have hBl : (F.beginLine l n).lanes = s.lanes.upd l fun r => { r with lastLine := some n } := by
      rw [State.beginLine, State.updLane_lanes, State.updRelay_lanes, hFk.lanes]
    have hT := keeps_exitFormat (u := F.beginLine l n) l n s.eventNo
    have hTl : ((F.beginLine l n).exitFormat l n s.eventNo).lanes = s.lanes.upd l fun r => { r with
        lastLine := some n, state := .seeking, frames := 0, expected := if n.toNat = 1 then some 2 else none,
        index := 0, timer := true, inFrame := false } := by
      rw [exitFormat_lanes, hBl, Bank.upd_upd_self]
    have hTg : ((F.beginLine l n).exitFormat l n s.eventNo).lanes.get l = { s.lanes.get l with
        lastLine := some n, state := .seeking, frames := 0, expected := if n.toNat = 1 then some 2 else none,
        index := 0, timer := true, inFrame := false } := by
      rw [hTl, Bank.get_upd_self]
    have hTo : ∀ k, k ≠ l → ((F.beginLine l n).exitFormat l n s.eventNo).lanes.get k = s.lanes.get k := fun k hk => by
      rw [hTl, Bank.get_upd_ne _ _ (Ne.symm hk)]
    have hTr : ((F.beginLine l n).exitFormat l n s.eventNo).relays
        = s.relays.upd l fun r => (r.receive ws).begin n := by
      rw [hT.relays, State.beginLine, State.updLane_relays, State.updRelay_relays, hFr, Bank.upd_upd_self]
    have hTf : ((F.beginLine l n).exitFormat l n s.eventNo).faults = F.faults := hT.faults
    rw [hTg, CountersKept, hTg]
    refine ⟨rfl, rfl, rfl, rfl, rfl, ?_, rfl, ⟨rfl, rfl, rfl, rfl⟩, ?_, ?_, ?_, fun k hk => ⟨?_, ?_⟩, ?_⟩
    · refine leftRunning_of_exit hst hB (fun k hk => ?_) (t := (F.beginLine l n).exitFormat l n s.eventNo)
        (f := fun r => { r with state := .seeking })
        (keeps_exitFormat_left _ l n _) (by rw [hTg]) hTo
      rw [hBl, Bank.get_upd_ne _ _ (Ne.symm hk)]
    · rw [hTr, Bank.get_upd_self]
    · rw [hTf, ← hF, State.formatOffered, offerFault_capture]
      rfl
    · have hn : (F.beginLine l n).exitNotices l .seeking
          = s.absentNotices l (fun _ => true) ++ [(.laneState, l.val, 2 + 1 * 4)] := by
        rw [State.exitNotices, absentNotices_congr (hB.groups (by decide))]
        rfl
      rw [exitFormat_events, hn, State.raiseAs_events, show (F.beginLine l n).ref = s.ref from hB.ref (by decide),
        show (F.beginLine l n).events = F.events from rfl, ← hF, formatOffered_events]
      rfl
    · rw [hTr, Bank.get_upd_ne _ _ (Ne.symm hk)]
    · rw [hTf, ← hF, State.formatOffered, offerFault_other _ _ _ hk]
      rfl
    · exact (hB.mono (B := .relays :: .faults :: exitParts)).andThen (hT.mono (B := .relays :: .faults :: exitParts))
  · rw [exitFormat_lanes, Bank.get_upd_self]
  · rw [(keeps_exitFormat l n s.eventNo).faults]
    rfl

/-- R10: the state in which the loss timer's expiry is taken by the blocks, after LOSS and what is left of an event. -/
def State.lossOffered (s : State) (l : Fin 4) (n : BitVec 11) : State :=
  s.newEvent.offerFault l .loss { line := n, stamp := s.ref.frameCount, no := s.eventNo }

/-- R10, R13: the lane goes to LOST. -/
def State.exitLost (u : State) (l : Fin 4) (no : Nat) (c : BitVec 16) : State :=
  ((u.updLane l fun r => { r with state := .lost, expected := none, timer := false }).leaveRunning l).raiseAs no c
    (u.exitNotices l .lost)

theorem exitLost_lanes (u : State) (l : Fin 4) (no : Nat) (c : BitVec 16) : (u.exitLost l no c).lanes
    = u.lanes.upd l fun r => { r with state := .lost, expected := none, timer := false, index := 0,
                                      inFrame := false } := by
  simp only [State.exitLost, State.raiseAs_lanes, leaveRunning_lanes, State.updLane_lanes, Bank.upd_upd_self]

theorem keeps_exitLost {u : State} (l : Fin 4) (no : Nat) (c : BitVec 16) : Keeps exitParts u (u.exitLost l no c) :=
  (((keeps_updLane l _).mono (B := exitParts)).andThen (keeps_leaveRunning l) (C := exitParts)).andThen
    (keeps_raiseAs _ _ _)

/-- Settles O20. -/
theorem lossTimerExpires : Obligations.LossTimerExpires := by
  intro l s ht
  refine ⟨fun hs => ?_, fun n hr hn => ?_⟩
  · show Host.Outcome.next (s.expireTimer l) = _
    simp only [State.expireTimer, ht, hs, if_true]
  have hx : exec (.lossTimerExpiry l) s
      = .next (((s.lossOffered l n).finishWork l).exitLost l s.eventNo s.ref.frameCount) := by
    show Host.Outcome.next (s.expireTimer l) = _
    simp only [State.expireTimer, ht, hr, hn, if_true, Option.getD_some]
    rfl
  refine ⟨fun hst hw => ⟨_, hx, ?_⟩, _, hx, ?_, ?_⟩
  · generalize hF : s.lossOffered l n = F
    have hFk : Keeps [.faults, .events] s F := by
      rw [← hF]
      exact (keeps_newEvent.mono (B := [.faults, .events])).andThen (keeps_offerFault _ _ _)
    rw [finishWork_idle (show F.work.get l = .idle by rw [hFk.work]; exact hw)]
    have hT := keeps_exitLost (u := F) l s.eventNo s.ref.frameCount
    have hTl : (F.exitLost l s.eventNo s.ref.frameCount).lanes = s.lanes.upd l fun r =>
        { r with state := .lost, expected := none, timer := false, index := 0, inFrame := false } := by
      rw [exitLost_lanes, hFk.lanes]
    have hTg : (F.exitLost l s.eventNo s.ref.frameCount).lanes.get l =
        { s.lanes.get l with state := .lost, expected := none, timer := false, index := 0, inFrame := false } := by
      rw [hTl, Bank.get_upd_self]
    have hTf : (F.exitLost l s.eventNo s.ref.frameCount).faults = F.faults := hT.faults
    rw [hTg, CountersKept, hTg]
    refine ⟨rfl, rfl, hn, ?_, rfl, ⟨rfl, rfl, rfl, rfl⟩, ?_, ?_, fun k hk => ?_, ?_⟩
    · refine leftRunning_of_exit hst hFk (fun k _ => by rw [hFk.lanes])
        (f := fun r => { r with state := .lost, expected := none, timer := false })
        (keeps_raiseAs s.eventNo s.ref.frameCount (F.exitNotices l .lost)) ?_ (fun k hk => ?_)
      · exact congrArg Receiver.index hTg
      · exact (congrArg (Bank.get · k) hTl).trans (Bank.get_upd_ne _ _ (Ne.symm hk))
    · rw [hTf, ← hF, State.lossOffered, offerFault_capture]
      rfl
    · have hn : F.exitNotices l .lost = s.absentNotices l (fun _ => true) ++ [(.laneState, l.val, 2 + 3 * 4)] := by
        rw [State.exitNotices, absentNotices_congr hFk.groups]
        rfl
      rw [State.exitLost, hn, State.raiseAs_events, (keeps_leaveRunning l).events, State.updLane_events,
        State.raiseAs_events]
      refine congrArg (fun e : Bank EventQueue 3 => e.map _) ?_
      rw [← hF]
      rfl
    · rw [hTf, ← hF, State.lossOffered, offerFault_other _ _ _ hk]
      rfl
    · exact (hFk.mono (B := .faults :: exitParts)).andThen (hT.mono (B := .faults :: exitParts))
  · rw [exitLost_lanes, Bank.get_upd_self]
  · rw [(keeps_exitLost l s.eventNo s.ref.frameCount).faults]
    rfl

end Sys2Proof.Machine
end

section
/-! The encodings of packets, entries and serial slots (R20 to R22, R26, R37, R61, R127, R137, R187, R188), and the
distribution of a sequence (R118, R119). -/

set_option Elab.async false

namespace Sys2Proof.Machine

/-! ### Distribution (O30) -/

/-- R118: the steps of a sequence share out what the accumulator takes up. -/
theorem accRun_eq (f : Fin 8) (k : Nat) : ∀ acc, acc < carriagePerSequence f →
    accRun f k acc = ((acc + k * setsPerSequence f) / carriagePerSequence f,
      (acc + k * setsPerSequence f) % carriagePerSequence f) := by
  have hpos := carriagePerSequence_pos f
  induction k with
  | zero =>
    intro acc h
    simp [accRun, Nat.div_eq_of_lt h, Nat.mod_eq_of_lt h]
  | succ k ih =>
    intro acc h
    have hs : acc + (k + 1) * setsPerSequence f
        = (accStep f acc).2 + k * setsPerSequence f + carriagePerSequence f * (accStep f acc).1 := by
      have := Nat.mod_add_div (acc + setsPerSequence f) (carriagePerSequence f)
      simp only [accStep, Nat.add_mul, Nat.one_mul]
      omega
    rw [accRun, ih _ (accStep_bounded f acc h).2, hs, Nat.add_mul_div_left _ _ hpos, Nat.add_mul_mod_self_left,
      Nat.add_comm (accStep f acc).1]

/-- Settles O30. -/
theorem sequenceCarriesExactlyS : Obligations.SequenceCarriesExactlyS := by
  intro f
  refine ⟨?_, accStep_bounded f⟩
  have hpos := carriagePerSequence_pos f
  rw [accRun_eq f _ 0 hpos, Nat.zero_add, Nat.mul_div_cancel_left _ hpos, Nat.mul_mod_right]

/-! ### Serial slots (O29) -/

theorem slotSample_slotBits (x : Sample) : slotSample (slotBits x) = x := by
  obtain ⟨v, a, b, c, d⟩ := x
  simp only [slotSample, slotBits, Sample.mk.injEq]
  refine ⟨?_, ?_, ?_, ?_, ?_⟩
  · apply BitVec.eq_of_getLsbD_eq
    intro i hi
    simp only [BitVec.getLsbD_extractLsb', BitVec.getLsbD_append, BitVec.getLsbD_ofBool, hi, decide_true,
      Bool.true_and]
    rw [if_neg (by omega), if_neg (by omega), if_neg (by omega), if_neg (by omega), if_neg (by omega)]
    congr 1
    omega
  all_goals simp only [BitVec.getLsbD_append]; simp

/-- R137: the bits of an output slot in the order sent. -/
theorem slotBits_getMsbD (x : Sample) (i : Nat) : (slotBits x).getMsbD i
    = if i < 24 then x.value.getMsbD i else if i = 24 then x.v else if i = 25 then x.u else if i = 26 then x.c
      else if i = 27 then x.z else false := by
  simp only [slotBits, BitVec.getMsbD_append]
  by_cases h1 : i < 24
  · simp [h1, show ¬ 28 ≤ i by omega, show ¬ 27 ≤ i by omega, show ¬ 26 ≤ i by omega, show ¬ 25 ≤ i by omega,
      show ¬ 24 ≤ i by omega]
  · by_cases h2 : i < 28
    · obtain rfl | rfl | rfl | rfl : i = 24 ∨ i = 25 ∨ i = 26 ∨ i = 27 := by omega
      all_goals simp
    · simp [show 28 ≤ i by omega, show ¬ i < 24 by omega, show i ≠ 24 by omega, show i ≠ 25 by omega,
        show i ≠ 26 by omega, show i ≠ 27 by omega]

theorem slotSample_value_getMsbD (b : BitVec 32) {i : Nat} (hi : i < 24) :
    (slotSample b).value.getMsbD i = b.getMsbD i := by
  simp only [slotSample, BitVec.getMsbD_eq_getLsbD, BitVec.getLsbD_extractLsb']
  have h1 : 24 - 1 - i < 24 := by omega
  have h2 : 8 + (24 - 1 - i) = 32 - 1 - i := by omega
  simp [hi, h2, show i < 32 by omega]
  omega

/-- The words of a list of blocks of one length. -/
theorem getElem?_flatMap_blocks {α β : Type} {f : α → List β} {n : Nat} (hf : ∀ x, (f x).length = n) (xs : List α) :
    ∀ i k, k < n → (xs.flatMap f)[n * i + k]? = xs[i]?.bind fun x => (f x)[k]? := by
  induction xs with
  | nil => intro i k _; simp
  | cons x xs ih =>
    intro i k hk
    rw [List.flatMap_cons]
    cases i with
    | zero =>
      rw [Nat.mul_zero, Nat.zero_add, List.getElem?_append_left (by rw [hf]; exact hk)]
      rfl
    | succ i =>
      rw [List.getElem?_append_right (by rw [hf, Nat.mul_succ]; omega), hf,
        show n * (i + 1) + k - n = n * i + k by rw [Nat.mul_succ]; omega, ih i k hk]
      rfl

theorem flatMap_blocks_length {α β : Type} {f : α → List β} {n : Nat} (hf : ∀ x, (f x).length = n) (xs : List α) :
    (xs.flatMap f).length = n * xs.length := by
  induction xs with
  | nil => rfl
  | cons x xs ih => rw [List.flatMap_cons, List.length_append, ih, hf, List.length_cons, Nat.mul_succ, Nat.add_comm]

theorem sentBits_length {w : Nat} (b : BitVec w) : (sentBits b).length = w := by simp [sentBits]

theorem portFrame_length (outs : Bank Sample 32) (p : Fin 2) : (portFrame outs p).length = 512 := by
  rw [portFrame, flatMap_blocks_length (fun _ => sentBits_length _), List.length_finRange]

theorem portFrame_getElem (outs : Bank Sample 32) (p : Fin 2) (i : Fin 16) {k : Nat} (hk : k < 32) :
    (portFrame outs p)[32 * i.val + k]?
      = some ((slotBits (outs.get ⟨p.val * 16 + i.val, by omega⟩)).getMsbD k) := by
  rw [portFrame, getElem?_flatMap_blocks (fun _ => sentBits_length _) _ _ _ hk]
  simp [sentBits, hk]

/-- Settles O29. -/
theorem slotsRoundTrip : Obligations.SlotsRoundTrip := by
  refine ⟨fun x => ⟨slotSample_slotBits x, ?_⟩, fun x => ?_, fun b => ?_,
    fun outs p => ⟨portFrame_length outs p, fun i k hk => portFrame_getElem outs p i hk⟩⟩
  · apply BitVec.eq_of_getLsbD_eq
    intro i hi
    simp only [BitVec.getLsbD_extractLsb', slotBits, BitVec.getLsbD_append]
    simp [hi]
  · refine ⟨fun i hi => ?_, ?_, ?_, ?_, ?_, fun i hi => ?_⟩ <;> rw [slotBits_getMsbD]
    · rw [if_pos hi]
    · rfl
    · rfl
    · rfl
    · rfl
    · rw [if_neg (by omega), if_neg (by omega), if_neg (by omega), if_neg (by omega), if_neg (by omega)]
  · refine ⟨fun i hi => slotSample_value_getMsbD b hi, ?_, ?_, ?_, ?_⟩ <;>
      simp [slotSample, BitVec.getMsbD_eq_getLsbD]

/-! ### Entries (O28) -/

theorem secondaryCode_of {n : Nat} {o : Option (Fin 98)} (h : secondary? n = some o) : secondaryCode o = n := by
  unfold secondary? at h
  split at h
  · next e =>
    injection h with h
    subst h
    exact e.symm
  · split at h
    · injection h with h
      subst h
      rfl
    · cases h

theorem toCode_of {b : Byte} {g : Gain} (h : gain? b = some g) : g.toCode = b.toNat := by
  unfold gain? at h
  split at h
  · injection h with h
    subst h
    rfl
  · split at h
    · next e =>
      injection h with h
      subst h
      exact e.symm
    · cases h

theorem code_ofBit (b : Bool) : (Mode.ofBit b).code = bit b := by cases b <;> rfl

theorem toCode_lt (g : Gain) : g.toCode < 256 := by
  cases g with
  | code c => have := c.isLt; simp only [Gain.toCode]; omega
  | off => decide

/-- A byte of seven bits and the one above them. -/
theorem byte_eq_seven_and_one (b : Byte) : BitVec.ofNat 8 (b.toNat % 128 + bit (b.getLsbD 7) * 128) = b := by
  revert b; decide

/-- R61: the bytes of an entry spell it if it obeys the DATA rule, and none otherwise. -/
theorem entry?_entryBytes_eq (e : Entry) : entry? (entryBytes e) = if e.stageable then some e else none := by
  obtain ⟨p, sec, g, inv, mode, delay, ramp⟩ := e
  have h0 := seven_and_one p.val inv (by omega)
  have h1 := seven_and_one (secondaryCode sec) (mode.code == 1) (secondaryCode_lt sec)
  have hm : bit (mode.code == 1) = mode.code := by cases mode <;> rfl
  have hmo : Mode.ofBit (mode.code == 1) = mode := by cases mode <;> rfl
  rw [hm] at h1
  have hd := be16_spells (n := delay.val + ramp.val * 8192) (by omega)
  have hlt := delay.isLt
  have hr := ramp.isLt
  have e1 : (delay.val + ramp.val * 8192) % 8192 = delay.val := by omega
  have e2 : (delay.val + ramp.val * 8192) / 8192 = ramp.val := by omega
  have hc : p.val < 98 ∧ delay.val < 8001 ∧ delay.val + ramp.val * 8192 < 32768 := ⟨p.isLt, hlt, by omega⟩
  simp only [entry?, entryBytes, be16, List.cons_append, List.nil_append, h0.1, h0.2, h1.1, h1.2,
    secondary_ofCode, gain_ofCode, hd, e1, e2, hmo]
  simp [hc]

theorem entry?_entryBytes {e : Entry} (h : e.stageable = true) : entry? (entryBytes e) = some e := by
  rw [entry?_entryBytes_eq, if_pos h]

/-- The bytes of a number of two bytes. -/
theorem be16_of_bytes (a b : Byte) : be16 (a.toNat * 256 + b.toNat) = [a, b] := by
  have hb := b.isLt
  have h1 : (a.toNat * 256 + b.toNat) / 256 = a.toNat := by omega
  have h2 : BitVec.ofNat 8 (a.toNat * 256 + b.toNat) = b := by
    apply BitVec.eq_of_toNat_eq
    rw [BitVec.toNat_ofNat]
    omega
  rw [be16, h1, h2, BitVec.ofNat_toNat]
  simp

/-- R61: bytes that spell an entry are its bytes. -/
theorem entryBytes_entry? {bs : List Byte} {e : Entry} (h : entry? bs = some e) : entryBytes e = bs := by
  unfold entry? at h
  split at h
  · next b0 b1 b2 b3 b4 =>
    dsimp only at h
    split at h
    · next sec g hsec hg =>
      split at h
      · next hb =>
        split at h
        · injection h with h
          subst h
          simp only [entryBytes, secondaryCode_of hsec, toCode_of hg, code_ofBit, byte_eq_seven_and_one,
            Nat.mod_add_div', be16_of_bytes, BitVec.ofNat_toNat]
          simp
        · cases h
      · cases h
    · cases h
  · cases h

/-- Settles O28. -/
theorem entriesRoundTrip : Obligations.EntriesRoundTrip := by
  refine ⟨fun e he => entry?_entryBytes he, fun e => ⟨_, _, _, _, _, rfl, ?_, ?_, ?_, ?_⟩,
    fun bs e h => ⟨entryBytes_entry? h, entry?_stageable h⟩⟩
  · have := e.primary.isLt
    rw [toNat_ofNat_byte (by cases e.invert <;> simp [bit] <;> omega)]
    cases e.invert <;> rfl
  · have := secondaryCode_lt e.secondary
    rw [toNat_ofNat_byte (by cases e.mode <;> simp only [Mode.code] <;> omega)]
    congr 1
    cases e.mode <;> rfl
  · rw [toNat_ofNat_byte (toCode_lt e.gain)]
    cases e.gain <;> rfl
  · have h1 := e.delay.isLt
    have h2 := e.ramp.isLt
    rw [be16_spells (by omega), Nat.mul_comm]

/-! ### Packets (O27) -/

/-- R187: the parity check is that of Table 11-1. -/
theorem parityOk_iff (w : LaneWord) : parityOk w = true ↔ OddParity w := by
  simp [parityOk, OddParity, onesBelow9, List.countP_eq_length_filter]

theorem wordByte_toNat (w : LaneWord) : (wordByte w).toNat = w.toNat % 256 := by
  simp [wordByte]

/-- R21: the audio kinds. -/
theorem kindGroup_iff (k : LaneWord) (c : Fin 4) : kindGroup k = some c ↔ k.toNat = 0xA1 + c.val := by
  have e : ∀ n : Nat, n < 1024 → (k = BitVec.ofNat 10 n ↔ k.toNat = n) := fun n hn => by
    rw [← BitVec.toNat_inj, BitVec.toNat_ofNat, Nat.mod_eq_of_lt hn]
  have h1 := e 0xA1 (by decide)
  have h2 := e 0xA2 (by decide)
  have h3 := e 0xA3 (by decide)
  have h4 := e 0xA4 (by decide)
  unfold kindGroup
  split
  · next h => rw [h1.mp h]; revert c; decide
  · next n1 =>
    split
    · next h => rw [h2.mp h]; revert c; decide
    · next n2 =>
      split
      · next h => rw [h3.mp h]; revert c; decide
      · next n3 =>
        split
        · next h => rw [h4.mp h]; revert c; decide
        · next n4 =>
          have := c.isLt
          have m1 : k.toNat ≠ 161 := fun h => n1 (h1.mpr h)
          have m2 : k.toNat ≠ 162 := fun h => n2 (h2.mpr h)
          have m3 : k.toNat ≠ 163 := fun h => n3 (h3.mpr h)
          have m4 : k.toNat ≠ 164 := fun h => n4 (h4.mpr h)
          constructor
          · intro h; cases h
          · intro h; omega

theorem kindGroup_isSome (k : LaneWord) : (kindGroup k).isSome = true ↔ 0xA1 ≤ k.toNat ∧ k.toNat ≤ 0xA4 := by
  rw [Option.isSome_iff_exists]
  simp only [kindGroup_iff]
  constructor
  · rintro ⟨c, h⟩
    have := c.isLt
    omega
  · rintro ⟨h1, h2⟩
    exact ⟨⟨k.toNat - 0xA1, by omega⟩, by simp only; omega⟩

/-- R22: a length that no audio packet has. -/
theorem illegalLength_iff (kind len : LaneWord) : illegalLength kind len = true ↔
    (0xA1 ≤ kind.toNat ∧ kind.toNat ≤ 0xA4) ∧ (len.toNat % 256 % 12 ≠ 0 ∨ 48 < len.toNat % 256) := by
  rw [← kindGroup_isSome]
  simp [illegalLength, wordByte_toNat]

/-- R22: what the parser finds after a mark and three words. -/
theorem findPacket_mark (kind seq len : LaneWord) (tail : List LaneWord) :
    findPacket (0x2A5 :: 0x15A :: 0x3C3 :: kind :: seq :: len :: tail)
      = if !parityOk seq || !parityOk len then .broken
        else if illegalLength kind len then .broken
        else match tail.drop (wordByte len).toNat with
          | [] => .broken
          | check :: after => .packet { kind, seq, len, payload := tail.take (wordByte len).toNat, check } after := by
  simp only [findPacket, markWords, if_true] <;> rfl

/-- R22, check 1. -/
theorem findPacket_parity {kind seq len : LaneWord} (tail : List LaneWord) (h : ¬ (OddParity seq ∧ OddParity len)) :
    findPacket (0x2A5 :: 0x15A :: 0x3C3 :: kind :: seq :: len :: tail) = .broken := by
  rw [findPacket_mark, if_pos]
  rw [← parityOk_iff, ← parityOk_iff, ← Bool.and_eq_true, Bool.not_eq_true] at h
  rw [← Bool.not_and, h]
  rfl

theorem parity_checked {seq len : LaneWord} (hs : OddParity seq) (hl : OddParity len) :
    ¬ (!parityOk seq || !parityOk len) = true := by
  rw [(parityOk_iff seq).mpr hs, (parityOk_iff len).mpr hl]
  decide

/-- R22: a packet whose checks hold and which lies within the area. -/
theorem findPacket_whole {kind seq len check : LaneWord} {payload : List LaneWord} (rest : List LaneWord)
    (hs : OddParity seq) (hl : OddParity len)
    (hk : 0xA1 ≤ kind.toNat ∧ kind.toNat ≤ 0xA4 → len.toNat % 256 % 12 = 0 ∧ len.toNat % 256 ≤ 48)
    (hp : payload.length = len.toNat % 256) :
    findPacket (0x2A5 :: 0x15A :: 0x3C3 :: kind :: seq :: len :: (payload ++ check :: rest))
      = .packet { kind, seq, len, payload, check } rest := by
  have hi : ¬ illegalLength kind len = true := fun h => by
    obtain ⟨h1, h2⟩ := (illegalLength_iff kind len).mp h
    have := hk h1
    omega
  rw [findPacket_mark, if_neg (parity_checked hs hl), if_neg hi, wordByte_toNat, ← hp, List.drop_left, List.take_left]

/-- R187: a checksum is a sum modulo 1024. -/
theorem sumWords_toNat (ws : List LaneWord) : (sumWords ws).toNat = (ws.map BitVec.toNat).sum % 1024 := by
  have h : ∀ a : LaneWord, (ws.foldl (fun a w => a + w) a).toNat = (a.toNat + (ws.map BitVec.toNat).sum) % 1024 := by
    induction ws with
    | nil => intro a; have := a.isLt; simp; omega
    | cons w ws ih =>
      intro a
      rw [List.foldl_cons, ih, BitVec.toNat_add, List.map_cons, List.sum_cons]
      omega
  have := h 0
  rwa [show BitVec.toNat (0 : LaneWord) = 0 from rfl, Nat.zero_add] at this

/-- R20, R22: what a walk finds does not depend on where it begins, nor on the bound on its packets. -/
theorem walkFrom_shift (k : Nat) (n : Nat) : ∀ (m pos : Nat) (ws : List LaneWord), ws.length < n → ws.length < m →
    walkFrom n (pos + k) ws = ((walkFrom m pos ws).1.map fun x => (x.1 + k, x.2),
      (walkFrom m pos ws).2.1 + k, (walkFrom m pos ws).2.2) := by
  induction n with
  | zero => intro m pos ws h; omega
  | succ n ih =>
    intro m pos ws hn hm
    obtain ⟨m, rfl⟩ : ∃ m', m = m' + 1 := ⟨m - 1, by omega⟩
    simp only [walkFrom]
    split
    · rfl
    · rfl
    · next p rest h =>
      obtain ⟨h1, h2⟩ := findPacket_words h
      have hl := congrArg List.length h1
      rw [List.length_append] at hl
      have hpos : pos + k + p.words.length = pos + p.words.length + k := by omega
      rw [hpos, ih m _ rest (by omega) (by omega)]
      rfl

theorem words_length (p : Packet) : p.words.length = 7 + p.payload.length := by
  simp [Packet.words, markWords]
  omega

theorem walkArea_packet {area rest : List LaneWord} {p : Packet} (h : findPacket area = .packet p rest) :
    walkArea area = ((0, p) :: (walkArea rest).1.map fun x => (x.1 + (7 + p.payload.length), x.2),
      (walkArea rest).2.1 + (7 + p.payload.length), (walkArea rest).2.2) := by
  have hl := congrArg List.length (findPacket_words h).1
  rw [List.length_append, words_length] at hl
  have hw : walkArea area = ((0, p) :: (walkFrom area.length (0 + p.words.length) rest).1,
      (walkFrom area.length (0 + p.words.length) rest).2) := by
    rw [walkArea, walkFrom, h]
  rw [hw, words_length, walkFrom_shift (7 + p.payload.length) area.length (rest.length + 1) 0 rest (by omega)
    (by omega)]
  rfl

/-- The length word of the packets that the builder forms. -/
theorem lengthWord {sets : List SampleSet} (h : sets.length ≤ 4) :
    (withParity (BitVec.ofNat 8 (12 * sets.length))).toNat % 256 = 12 * sets.length := by
  rw [← wordByte_toNat, wordByte_withParity, BitVec.toNat_ofNat]
  omega

theorem oddParity_withParity (b : Byte) : OddParity (withParity b) := (parityOk_iff _).mp (parityOk_withParity b)

/-- R127, R22: the parser finds the packet that the builder formed. -/
theorem findPacket_makePacket (g : Fin 4) (seq : Byte) {sets : List SampleSet} (rest : List LaneWord)
    (h : sets.length ≤ 4) :
    findPacket ((makePacket g seq sets).words ++ rest) = .packet (makePacket g seq sets) rest := by
  have hw : (makePacket g seq sets).words ++ rest = 0x2A5 :: 0x15A :: 0x3C3 :: kindWord g :: withParity seq
      :: withParity (BitVec.ofNat 8 (12 * sets.length)) :: (sets.flatMap setWords
        ++ (makePacket g seq sets).check :: rest) := by
    simp [Packet.words, makePacket, markWords]
  rw [hw]
  refine findPacket_whole rest (oddParity_withParity _) (oddParity_withParity _) (fun _ => ?_) ?_
  · rw [lengthWord h]
    omega
  · rw [lengthWord h, flatMap_setWords_length]

theorem payloadSets_flatMap {sets : List SampleSet} (h : ∀ y ∈ sets, y.d = false) :
    payloadSets (sets.flatMap setWords) = sets := by
  induction sets with
  | nil => rfl
  | cons y ys ih =>
    rw [List.flatMap_cons, payloadSets_setWords y _ (h y List.mem_cons_self),
      ih fun z hz => h z (List.mem_cons_of_mem _ hz)]

/-- R187: the three words of a sample, bit by bit. -/
theorem sampleWords_bits (x : Sample) : ∃ w1 w2 w3 : LaneWord, sampleWords x = [w1, w2, w3]
    ∧ (∀ i, i < 10 → w1.getLsbD i = x.value.getLsbD i ∧ w2.getLsbD i = x.value.getLsbD (10 + i))
    ∧ (∀ i, i < 4 → w3.getLsbD i = x.value.getLsbD (20 + i))
    ∧ w3.getLsbD 4 = x.v ∧ w3.getLsbD 5 = x.u ∧ w3.getLsbD 6 = x.c ∧ w3.getLsbD 7 = x.z
    ∧ w3.getLsbD 8 = false ∧ w3.getLsbD 9 = false := by
  refine ⟨_, _, _, rfl, fun i hi => ?_, fun i hi => ?_, ?_, ?_, ?_, ?_, ?_, ?_⟩
  · simp [hi]
  · simp only [BitVec.getLsbD_append]
    simp [hi]
  all_goals simp only [BitVec.getLsbD_append]; simp

theorem wordsSample_bits (w1 w2 w3 : LaneWord) :
    (∀ i, i < 10 → (wordsSample w1 w2 w3).value.getLsbD i = w1.getLsbD i
      ∧ (wordsSample w1 w2 w3).value.getLsbD (10 + i) = w2.getLsbD i)
    ∧ ∀ i, i < 4 → (wordsSample w1 w2 w3).value.getLsbD (20 + i) = w3.getLsbD i := by
  refine ⟨fun i hi => ⟨?_, ?_⟩, fun i hi => ?_⟩ <;>
    simp only [wordsSample, BitVec.getLsbD_append, BitVec.getLsbD_extractLsb']
  · simp [hi]
  · simp [hi]
  · simp [hi, show ¬ 20 + i < 10 by omega, show 20 + i - 10 = 10 + i by omega]

/-- Settles O27. -/
theorem packetsRoundTrip : Obligations.PacketsRoundTrip := by
  refine ⟨fun g seq sets rest h hd => ⟨findPacket_makePacket g seq rest h, kindGroup_kindWord g,
      wordByte_withParity seq, payloadSets_flatMap hd, rfl⟩,
    fun g seq sets h => ⟨kindWord g, withParity seq, withParity (BitVec.ofNat 8 (12 * sets.length)),
      (makePacket g seq sets).check, rfl, ?_, ?_, oddParity_withParity _, lengthWord h, oddParity_withParity _, rfl⟩,
    fun p => sumWords_toNat _, sampleWords_bits, ?_, fun f rest => ⟨_, rfl, rfl, fun i => ?_⟩,
    fun ws h => ?_, fun ws h => ?_, ?_, kindGroup_iff, fun area => ⟨fun h => ?_, fun h => ?_,
      fun p rest h => walkArea_packet h⟩⟩
  · exact (kindGroup_iff _ g).mp (kindGroup_kindWord g)
  · rw [← wordByte_toNat, wordByte_withParity]
  · rintro w1 w2 w3 x rfl
    exact ⟨(wordsSample_bits w1 w2 w3).1, (wordsSample_bits w1 w2 w3).2, rfl, rfl, rfl, rfl⟩
  · match i with
    | 0 => rfl
    | 1 => rfl
    | 2 => rfl
    | 3 => rfl
  · unfold findPacket
    split
    · exact if_neg fun e => h (by rw [← markWords, ← e]; rfl)
    · rfl
  · match ws, h with
    | [], _ => rfl
    | [_], _ => rfl
    | [_, _], _ => rfl
  · rintro kind seq len tail ws P rfl rfl
    refine ⟨fun h => findPacket_parity tail h, fun hs hl => ⟨fun h1 h2 h3 => ?_, fun h => ?_, ?_⟩⟩
    · rw [findPacket_mark, if_neg (parity_checked hs hl), if_pos ((illegalLength_iff kind len).mpr ⟨⟨h1, h2⟩, h3⟩)]
    · rw [findPacket_mark, if_neg (parity_checked hs hl), List.drop_eq_nil_of_le (by rw [wordByte_toNat]; exact h)]
      split <;> rfl
    · rintro hk payload rest check hp rfl
      exact findPacket_whole rest hs hl hk hp
  · rw [walkArea, walkFrom, h]
  · rw [walkArea, walkFrom, h]

end Sys2Proof.Machine
end

section
/-! CARRIAGE_LINE: what the builder makes of an area (R118 to R127), and the reads of its stores (R45 to R47). -/

set_option Elab.async false

namespace Sys2Proof.Machine

/-! ### The words that complete an area -/

/-- R11: the event of line `n` in `s`. -/
def State.areaOf (s : State) (n : BitVec 11) : AreaEvent := { line := n, stamp := s.ref.frameCount, no := s.eventNo }

/-- R20 to R28: the state and the result that the parser hands to the builder. -/
def State.walked (s : State) (l : Fin 4) (n : BitVec 11) (ws area : List LaneWord) : State × WalkResult :=
  (s.receive l ws).newEvent.newEvent.stripWalk l (s.areaOf n) area

/-- R118 to R127: the state that the builder leaves, before the frame end. -/
def State.built (s : State) (l : Fin 4) (n : BitVec 11) (ws area : List LaneWord) : State :=
  (s.walked l n ws area).1.buildLine l (s.areaOf n) (s.walked l n ws area).2

theorem raisesArea_of_completes {s : State} {l : Fin 4} {n : BitVec 11} {w0 ws : List LaneWord}
    (h : CompletesArea s l n w0 ws) : RaisesArea s l ws := by
  obtain ⟨hr, hf, h7, h8, hi, h1, h2⟩ := h
  rw [List.length_append] at h2
  exact ⟨hr, hf, _, hi, h7, h8, h1, h2⟩

theorem areaEvent_of_completes {s : State} {l : Fin 4} {n : BitVec 11} {w0 ws : List LaneWord}
    (h : CompletesArea s l n w0 ws) : s.areaEvent? l ws = some (n, (w0 ++ ws).take 280) := by
  obtain ⟨hr, hf, h7, h8, hi, h1, h2⟩ := h
  have hc : isCarriageLine n = true := by simp [isCarriageLine, h7, h8]
  unfold State.areaEvent?
  rw [hi]
  exact if_pos ⟨h1, h2, hr, hf, hc⟩

theorem carriageLine_completes {s : State} {l : Fin 4} {n : BitVec 11} {w0 ws : List LaneWord} (j)
    (h : CompletesArea s l n w0 ws) : exec (.carriageLine l ⟨ws, j⟩) s
      = .next ((s.receive l ws).takeArea l n ((w0 ++ ws).take 280) j) := by
  simp only [exec, execCarriageLine, areaEvent_of_completes h]

/-- R11, R20 to R30, R118 to R127: the event whole. -/
theorem carriageLine_built {s : State} {l : Fin 4} {n : BitVec 11} {w0 ws area : List LaneWord}
    (h : CompletesArea s l n w0 ws) (ha : area = (w0 ++ ws).take 280) : exec (.carriageLine l ⟨ws, none⟩) s
      = .next (((s.built l n ws area).endLine l (s.areaOf n)).setWork l .idle) := by
  subst ha
  rw [carriageLine_completes none h]
  show Host.Outcome.next ((((LaneWork.start (s.areaOf n) _).finish l
    ((s.receive l ws).newEvent.newEvent.clearSeenLine l))).setWork l .idle) = _
  rw [LaneWork.finish_start]
  rfl

theorem parsesTo_walked (s : State) (l : Fin 4) (n : BitVec 11) (ws area : List LaneWord) :
    ParsesTo s l n ws area (s.walked l n ws area).1 := parsesTo_stripWalk s l n ws area

theorem keeps_walked (s : State) (l : Fin 4) (n : BitVec 11) (ws area : List LaneWord) :
    Keeps [.relays, .lanes, .groups, .strip, .faults, .events] s (s.walked l n ws area).1 := by
  obtain ⟨s1, es, ev, -, -, -, h⟩ := parsesTo_walked s l n ws area
  exact h

theorem walked_relays (s : State) (l : Fin 4) (n : BitVec 11) (ws area : List LaneWord) :
    (s.walked l n ws area).1.relays = s.relays.upd l fun r => r.receive ws := by
  rw [State.walked, (keeps_stripWalk l _ area).relays]
  rfl

theorem sameReceiver_walked (s : State) (l : Fin 4) (n : BitVec 11) (ws area : List LaneWord) :
    SameReceiver s (s.walked l n ws area).1 l :=
  (sameReceiver_of_lanes (s := s) rfl).trans (sameReceiver_stripWalk _ l l _ area)

theorem walked_fmt (s : State) (l : Fin 4) (n : BitVec 11) (ws area : List LaneWord) :
    ((s.walked l n ws area).1.lanes.get l).fmt = (s.lanes.get l).fmt := by
  rw [Receiver.fmt, (sameReceiver_walked s l n ws area).2.1]
  rfl

theorem keeps_built (s : State) (l : Fin 4) (n : BitVec 11) (ws area : List LaneWord) :
    Keeps buildParts (s.walked l n ws area).1 (s.built l n ws area) := keeps_buildLine l _ _

/-- R118 to R127: the builder's part of the event. -/
theorem built_spec {s : State} {l : Fin 4} {n : BitVec 11} {ws area : List LaneWord} {k : Nat}
    (hr : (s.lanes.get l).state = .running)
    (hk : k = (if n.toNat = 1 ∧ (s.lanes.get l).index = 0 then 0 else (s.builders.get l).acc)
      + setsPerSequence (s.lanes.get l).fmt) :
    (IsRebuilt s l → ∃ v w, BuildsTo s l n area k (s.walked l n ws area).1 v w
      ∧ s.built l n ws area = v.placeArea l w)
    ∧ (¬ IsRebuilt s l → s.built l n ws area = (s.walked l n ws area).1.updBuilder l fun b =>
        { b with acc := k % carriagePerSequence (s.lanes.get l).fmt }) := by
  have hu := keeps_walked s l n ws area
  have hl := sameReceiver_walked s l n ws area
  refine buildLine_spec hr hu.builders hu.plan ⟨hl.1, walked_fmt s l n ws area, hl.2.2⟩ rfl hk ?_
  have := judgeAll_packets l (s.areaOf n) (walkArea area).1
    (((s.receive l ws).newEvent.newEvent.clearSeenLine l).writeSets [])
  simpa [State.walked, State.stripWalk, Walk.finish, Walk.start] using this

/-! ### What is placed (R122, R123) -/

/-- R123: a group's packet is placed after the words that are there, if it fits. -/
theorem dealGroup_used (s : State) (l c : Fin 4) (ev : AreaEvent) (n : Nat) (used : List LaneWord) :
    used <+: (s.dealGroup l c ev n used).2
      ∧ (used.length ≤ 280 → (s.dealGroup l c ev n used).2.length ≤ 280) := by
  unfold State.dealGroup
  split
  · exact ⟨List.prefix_refl _, id⟩
  · next m hm =>
    refine ⟨List.prefix_append _ _, fun _ => ?_⟩
    unfold State.groupDeal at hm
    dsimp only at hm
    split at hm
    · split at hm
      · cases hm
      · split at hm
        · next hfit =>
          injection hm with hm
          subst hm
          show (used ++ (makePacket c _ _).words).length ≤ 280
          rw [List.length_append, makePacket_length, readSets_length]
          exact hfit
        · cases hm
    · cases hm
  · exact ⟨List.prefix_refl _, id⟩

/-- R122: the kept packets fit. -/
theorem keptOf_length (s : State) (l : Fin 4) (area : List LaneWord) (h : area.length ≤ 280) :
    (keptOf s l area).length ≤ 280 := by
  have h1 : ((walkArea area).1.flatMap fun x => x.2.words).length ≤ area.length := walkFrom_length _ _ _
  have h2 : (keptOf s l area).Sublist ((walkArea area).1.flatMap fun x => x.2.words) :=
    List.filter_sublist.flatMap _
  exact h2.length_le.trans (h1.trans h)

/-- R118 to R126: what the builder's way through the groups keeps, and what it places. -/
theorem buildsTo_spec {s u v : State} {l : Fin 4} {n : BitVec 11} {area w : List LaneWord} {k : Nat}
    (h : BuildsTo s l n area k u v w) (ha : area.length ≤ 280) :
    keptOf s l area <+: w ∧ w.length ≤ 280
      ∧ Keeps sendParts (u.updBuilder l fun b => { b with acc := k % carriagePerSequence (s.lanes.get l).fmt }) v := by
  obtain ⟨s0, s1, s2, s3, w1, w2, w3, ev, m, -, -, rfl, e0, e1, e2, e3⟩ := h
  have step : ∀ {t t' : State} {c x x'}, t.dealGroup l c ev m x = (t', x') →
      x <+: x' ∧ (x.length ≤ 280 → x'.length ≤ 280) ∧ Keeps sendParts t t' := by
    intro t t' c x x' e
    have h1 := dealGroup_used t l c ev m x
    have h2 := keeps_dealGroup (s := t) l c ev m x
    rw [e] at h1 h2
    exact ⟨h1.1, h1.2, h2⟩
  obtain ⟨p0, l0, k0⟩ := step e0
  obtain ⟨p1, l1, k1⟩ := step e1
  obtain ⟨p2, l2, k2⟩ := step e2
  obtain ⟨p3, l3, k3⟩ := step e3
  exact ⟨((p0.trans p1).trans p2).trans p3, l3 (l2 (l1 (l0 (keptOf_length s l area ha)))),
    ((k0.trans k1).trans k2).trans k3⟩

theorem endLine_of_ne {s : State} {l : Fin 4} {ev : AreaEvent} (h : ev.line.toNat ≠ linesPerFrame (s.lanes.get l).fmt) :
    s.endLine l ev = s := if_neg h

theorem fillArea_length {w : List LaneWord} (h : w.length ≤ 280) : (fillArea w).length = 280 := by
  have : areaWords = 280 := rfl
  simp only [fillArea, List.length_append, List.length_replicate]
  omega

theorem prefix_fillArea {a w : List LaneWord} (h : a <+: w) : a <+: fillArea w := h.trans (List.prefix_append _ _)

/-- R11, R118 to R127: words that complete an area. -/
theorem carriageLine_whole : ∀ (l : Fin 4) (n : BitVec 11) (w0 ws area : List LaneWord) (k : Nat) (s : State),
    CompletesArea s l n w0 ws → area = (w0 ++ ws).take 280 →
    k = (if n.toNat = 1 ∧ (s.lanes.get l).index = 0 then 0 else (s.builders.get l).acc)
          + setsPerSequence (s.lanes.get l).fmt →
    ∃ t y, exec (.carriageLine l ⟨ws, none⟩) s = .next t ∧ t.work.get l = .idle
      ∧ (t.builders.get l).acc = k % carriagePerSequence (s.lanes.get l).fmt
      ∧ (t.relays.get l).input = some y ∧ y.number = n ∧ y.words = w0 ++ ws
      ∧ (∃ u, ParsesTo s l n ws area u
          ∧ (IsRebuilt s l → y.area.length = 280 ∧ keptOf s l area <+: y.area
            ∧ ∃ v w, BuildsTo s l n area k u v w ∧ y.area = w ++ List.replicate (280 - w.length) 0
                ∧ t.embed = v.embed ∧ t.embCounts = v.embCounts
                ∧ (n.toNat ≠ linesPerFrame (s.lanes.get l).fmt → t.events = v.events ∧ t.eventNo = v.eventNo))
          ∧ (¬ IsRebuilt s l → y.area = area ∧ t.embed = s.embed ∧ t.embCounts = s.embCounts
            ∧ (n.toNat ≠ linesPerFrame (s.lanes.get l).fmt → t.events = u.events ∧ t.eventNo = u.eventNo)))
      ∧ (∀ l', l' ≠ l → t.relays.get l' = s.relays.get l' ∧ t.builders.get l' = s.builders.get l'
          ∧ t.lanes.get l' = s.lanes.get l')
      ∧ Keeps lineParts s t := by
  intro l n w0 ws area k s h ha hk
  have hx := carriageLine_built h ha
  obtain ⟨hr, -, -, -, hi, -, hlen⟩ := h
  have hal : area.length = 280 := by
    rw [ha, List.length_take]
    omega
  obtain ⟨hyes, hno⟩ := built_spec (ws := ws) (area := area) hr hk
  have hu := keeps_walked s l n ws area
  have hur := walked_relays s l n ws area
  have hB := keeps_built s l n ws area
  have hE : Keeps (.work :: .lanes :: .events :: absentParts) (s.built l n ws area)
      (((s.built l n ws area).endLine l (s.areaOf n)).setWork l .idle) :=
    (keeps_endLine l _).andThen (keeps_setWork l _)
  have hfmt : ((s.built l n ws area).lanes.get l).fmt = (s.lanes.get l).fmt := by
    rw [hB.lanes]
    exact walked_fmt s l n ws area
  have hq : n.toNat ≠ linesPerFrame (s.lanes.get l).fmt →
      ((s.built l n ws area).endLine l (s.areaOf n)).setWork l .idle = (s.built l n ws area).setWork l .idle :=
    fun hn => by rw [endLine_of_ne (by rw [hfmt]; exact hn)]
  have hother : ∀ l', l' ≠ l → (((s.built l n ws area).endLine l (s.areaOf n)).setWork l .idle).lanes.get l'
      = s.lanes.get l' := fun l' hl => by
    have h1 := ((Counts.finishWalk ((s.receive l ws).newEvent.newEvent.clearSeenLine l) l (s.areaOf n)
      (.start area)).trans (Counts.of_keeps hB)).trans (Counts.endLine _ l (s.areaOf n))
    exact (h1.1 l' hl).trans (by rw [(keeps_clearSeenLine l).lanes]; rfl)
  have hkeep : Keeps lineParts s (((s.built l n ws area).endLine l (s.areaOf n)).setWork l .idle) :=
    keeps_carriageLine l _ hx
  by_cases hreb : IsRebuilt s l
  · obtain ⟨v, w, hbt, hbe⟩ := hyes hreb
    obtain ⟨hp, hwl, hv⟩ := buildsTo_spec hbt hal.le
    rw [hbe] at hx hE hq hother hkeep
    have hvr : v.relays = s.relays.upd l fun r => r.receive ws := by
      rw [hv.relays]
      exact hur
    have hvb : v.builders = s.builders.upd l fun b =>
        { b with acc := k % carriagePerSequence (s.lanes.get l).fmt } := by
      rw [hv.builders, State.updBuilder_builders, hu.builders]
    refine ⟨_, { number := n, words := w0 ++ ws, rebuilt := some (fillArea w) }, hx, by simp, ?_, ?_, rfl, rfl,
      ⟨_, parsesTo_walked s l n ws area, fun _ => ⟨fillArea_length hwl, prefix_fillArea hp, v, w, hbt, rfl, hE.embed,
        hE.embCounts, fun hn => ?_⟩, fun hn => absurd hreb hn⟩, fun l' hl => ⟨?_, ?_, hother l' hl⟩, hkeep⟩
    · rw [hE.builders]
      show (v.builders.get l).acc = _
      rw [hvb, Bank.get_upd_self]
    · rw [hE.relays]
      show ((v.relays.upd l _).get l).input = _
      rw [hvr, Bank.get_upd_self, Bank.get_upd_self]
      simp [Relay.rebuild, Relay.receive, hi]
    · rw [hq hn]
      exact ⟨rfl, rfl⟩
    · rw [hE.relays]
      show (v.relays.upd l _).get l' = _
      rw [hvr, Bank.get_upd_ne _ _ (Ne.symm hl), Bank.get_upd_ne _ _ (Ne.symm hl)]
    · rw [hE.builders]
      show v.builders.get l' = _
      rw [hvb, Bank.get_upd_ne _ _ (Ne.symm hl)]
  · have hbe := hno hreb
    rw [hbe] at hx hE hq hother hkeep
    refine ⟨_, { number := n, words := w0 ++ ws, rebuilt := none }, hx, by simp, ?_, ?_, rfl, rfl,
      ⟨_, parsesTo_walked s l n ws area, fun hn => absurd hn hreb, fun _ => ⟨ha.symm, ?_, ?_, fun hn => ?_⟩⟩,
      fun l' hl => ⟨?_, ?_, hother l' hl⟩, hkeep⟩
    · rw [hE.builders, State.updBuilder_builders, Bank.get_upd_self]
    · rw [hE.relays, State.updBuilder_relays, hur, Bank.get_upd_self]
      simp [Relay.receive, hi]
    · exact hE.embed.trans hu.embed
    · exact hE.embCounts.trans hu.embCounts
    · rw [hq hn]
      exact ⟨rfl, rfl⟩
    · rw [hE.relays, State.updBuilder_relays, hur, Bank.get_upd_ne _ _ (Ne.symm hl)]
    · rw [hE.builders, State.updBuilder_builders, Bank.get_upd_ne _ _ (Ne.symm hl), hu.builders]

/-- R48: the event in two parts. -/
theorem carriageLine_parts (l : Fin 4) (n : BitVec 11) (w0 ws : List LaneWord) (j : Nat) (s : State)
    (h : CompletesArea s l n w0 ws) : ∃ u, exec (.carriageLine l ⟨ws, some j⟩) s = .next u
      ∧ exec (.carriageLine l ⟨[], none⟩) u = exec (.carriageLine l ⟨ws, none⟩) s := by
  refine ⟨_, carriageLine_completes (some j) h, ?_⟩
  rw [carriageLine_completes none h, carriageLine_of_quiet (not_raisesArea_nil _ l)]
  exact congrArg _ ((congrArg (State.finishWork · l) (receive_nil _ l)).trans (workOn_none_of_some _ l _ j))

theorem run_idle (l : Fin 4) (k : Nat) (s : State) : LaneWork.idle.run l k s = (s, .idle) := by
  induction k with
  | zero => rfl
  | succ k ih => exact ih

/-- A lane with nothing left of its last event has nothing to work on. -/
theorem workOn_idle {s : State} {l : Fin 4} (h : s.work.get l = .idle) (j : Option Nat) :
    s.workOn l (s.work.get l) j = s := by
  cases j with
  | none => exact finishWork_idle h
  | some k =>
    rw [h, State.workOn]
    simp only [run_idle]
    exact State.setWork_eq_self s l h

/-- R2, R4: words that raise no event are received, and forwarded. -/
theorem carriageLine_received (l : Fin 4) (ws : List LaneWord) (j : Option Nat) (s : State) (h : ¬ RaisesArea s l ws)
    (hw : NothingLeft s l) : exec (.carriageLine l ⟨ws, j⟩) s = .next (s.updRelay l fun r => r.receive ws) := by
  have hx : s.areaEvent? l ws = none := by
    cases he : s.areaEvent? l ws with
    | none => rfl
    | some x =>
      unfold State.areaEvent? at he
      split at he
      · cases he
      · next y hy =>
        split at he
        · next hc =>
          obtain ⟨h1, h2, h3, h4, h5⟩ := hc
          simp only [isCarriageLine, Bool.and_eq_true, bne_iff_ne] at h5
          rw [List.length_append] at h2
          exact absurd ⟨h3, h4, y, hy, h5.1, h5.2, h1, h2⟩ h
        · cases he
  simp only [exec, execCarriageLine, hx]
  exact congrArg _ (workOn_idle (s := s.receive l ws) hw j)

/-! ### The groups of a line (R123 to R126) -/

/-- R124: the reads of a packet, and the notices that they raise. -/
theorem readSets_spec (g : Fin 16) (n : Nat) : ∀ s : State,
    (s.readSets g n).2 = (takenSets n (s.embed.get g)).2
      ∧ (s.readSets g n).1.embed = s.embed.set g (takenSets n (s.embed.get g)).1
      ∧ (s.readSets g n).1.events = ((takenReports (16 + g.val) (throughEmbed s g) n (s.embed.get g)).foldl
          (fun s ns => s.raiseAll ns) s).events
      ∧ (s.readSets g n).1.eventNo = ((takenReports (16 + g.val) (throughEmbed s g) n (s.embed.get g)).foldl
          (fun s ns => s.raiseAll ns) s).eventNo := by
  induction n with
  | zero => exact fun s => ⟨rfl, (Bank.set_get_self _ _ rfl).symm, rfl, rfl⟩
  | succ n ih =>
    intro s
    obtain ⟨h1, h2, h3, h4⟩ := ih (s.readEmbed g).1
    have he : (s.readEmbed g).1.embed = s.embed.set g ((s.embed.get g).read false).1 := rfl
    have hg : (s.readEmbed g).1.embed.get g = ((s.embed.get g).read false).1 := by rw [he, Bank.get_set_self]
    have hd : throughEmbed (s.readEmbed g).1 g = throughEmbed s g := rfl
    have hn : readNotices (16 + g.val) (s.embed.get g).latch (s.embed.get g).readKind (embedSlipDests s g)
        = readReport (16 + g.val) (throughEmbed s g) (s.embed.get g) := by
      rw [embedSlipDests_eq, readNotices_eq]
    rw [hg] at h1 h2 h3 h4
    have hc := raiseEach_congr (takenReports (16 + g.val) (throughEmbed s g) n ((s.embed.get g).read false).1)
      (s := (s.readEmbed g).1) (u := s.raiseAll (readReport (16 + g.val) (throughEmbed s g) (s.embed.get g)))
      (by rw [← hn]; rfl) (by rw [← hn]; rfl) rfl
    refine ⟨?_, ?_, ?_, ?_⟩
    · exact congrArg (_ :: ·) h1
    · refine h2.trans ?_
      rw [he, Bank.set_set_self]
      rfl
    · exact h3.trans hc.1
    · exact h4.trans hc.2

theorem takenSets_length (n : Nat) : ∀ st : Store, (takenSets n st).2.length = n := by
  induction n with
  | zero => exact fun _ => rfl
  | succ n ih => exact fun st => congrArg (· + 1) (ih _)

/-- R123: what the builder does for a group. -/
theorem groupDeal_of_not {s : State} {l c : Fin 4} {n used : Nat}
    (h : s.plan.get (groupNo l c) ≠ .embed ∨ (s.embed.get (groupNo l c)).state ≠ .flowing
      ∨ n + (s.embCounts.get (groupNo l c)).owed = 0) : s.groupDeal l c n used = .nothing := by
  unfold State.groupDeal
  dsimp only
  split
  · next hc =>
    rw [if_pos]
    have h0 := (h.resolve_left (not_not.mpr hc.1)).resolve_left (not_not.mpr hc.2)
    simp [packetSets, h0]
  · rfl

theorem groupDeal_of {s : State} {l c : Fin 4} {n used : Nat} (hp : s.plan.get (groupNo l c) = .embed)
    (hf : (s.embed.get (groupNo l c)).state = .flowing) (h0 : 0 < n + (s.embCounts.get (groupNo l c)).owed) :
    s.groupDeal l c n used = if used + (7 + 12 * min 4 (n + (s.embCounts.get (groupNo l c)).owed)) ≤ 280
      then .send (min 4 (n + (s.embCounts.get (groupNo l c)).owed)) else .defer := by
  unfold State.groupDeal
  dsimp only
  rw [if_pos ⟨hp, hf⟩, if_neg (by unfold packetSets; omega)]
  rfl

/-- R123 to R126: what the builder makes of a group at a line. -/
theorem dealGroup_spec (l c : Fin 4) (ev : AreaEvent) (n m owed : Nat) (used : List LaneWord) (st : Store)
    (next : Byte) (s : State) (hst : s.embed.get (groupNo l c) = st)
    (hct : s.embCounts.get (groupNo l c) = { next, owed }) (hm : m = min 4 (n + owed)) :
    (s.plan.get (groupNo l c) ≠ .embed ∨ st.state ≠ .flowing ∨ n + owed = 0 →
        s.dealGroup l c ev n used = (s, used))
      ∧ (s.plan.get (groupNo l c) = .embed → st.state = .flowing → 0 < n + owed →
        (used.length + (7 + 12 * m) ≤ 280 →
          ∃ (s1 r : State) (count : Byte) (st' : Store) (sets : List SampleSet),
            takenSets m st = (st', sets) ∧ sets.length = m
            ∧ count = (if ∃ x ∈ sets, x.d = true then next + 1 else next)
            ∧ s.dealGroup l c ev n used = (s1, used ++ (makePacket c count sets).words)
            ∧ s1.embed = s.embed.set (groupNo l c) st'
            ∧ s1.embCounts = s.embCounts.set (groupNo l c) { next := count + 1, owed := n + owed - m }
            ∧ r = (takenReports (16 + (groupNo l c).val) (throughEmbed s (groupNo l c)) m st).foldl
                (fun s ns => s.raiseAll ns) s
            ∧ s1.events = r.events ∧ s1.eventNo = r.eventNo
            ∧ Keeps [.embed, .embCounts, .events] s s1)
        ∧ (280 < used.length + (7 + 12 * m) → n + owed ≤ 8 →
          s.dealGroup l c ev n used = (s.updCount (groupNo l c) fun _ => { next, owed := n + owed }, used))
        ∧ (280 < used.length + (7 + 12 * m) → 8 < n + owed →
          s.dealGroup l c ev n used
            = (((s.updEmbed (groupNo l c) fun st =>
                  { st with sets := st.sets.drop (n + owed - 8), readMark := st.readMark || !st.sets.isEmpty }).updCount
                (groupNo l c) fun _ => { next, owed := 8 }).raiseAs (ev.no + 1) ev.stamp
                  [(.deferLoss, 16 + (groupNo l c).val, n + owed - 8)], used))) := by
  have ho : (s.embCounts.get (groupNo l c)).owed = owed := by rw [hct]
  refine ⟨fun h => ?_, fun hp hf h0 => ⟨fun hfit => ?_, fun hfit h8 => ?_, fun hfit h8 => ?_⟩⟩
  · have := groupDeal_of_not (s := s) (l := l) (c := c) (n := n) (used := used.length) (by rw [hst, ho]; exact h)
    simp only [State.dealGroup, this]
  all_goals
    have hd := groupDeal_of (used := used.length) hp (by rw [hst]; exact hf) (n := n) (by rw [ho]; exact h0)
    rw [ho, ← hm] at hd
  · rw [if_pos hfit] at hd
    obtain ⟨h1, h2, h3, h4⟩ := readSets_spec (groupNo l c) m s
    have hkc : (s.readSets (groupNo l c) m).1.embCounts = s.embCounts := (keeps_readSets _ _ s).embCounts
    rw [hst] at h1 h2 h3 h4
    refine ⟨(s.dealGroup l c ev n used).1, _, packetCount next (takenSets m st).2, (takenSets m st).1,
      (takenSets m st).2, rfl, takenSets_length m st, ?_, ?_, ?_, ?_, rfl, ?_, ?_, ?_⟩
    · simp [packetCount]
    · simp only [State.dealGroup, hd, State.sendPacket, State.placePacket, hkc, h1, hct]
    · simp only [State.dealGroup, hd, State.sendPacket, State.placePacket, State.updCount_embed]
      exact h2
    · simp only [State.dealGroup, hd, State.sendPacket, State.placePacket, State.updCount_embCounts, hkc, h1, hct,
        Bank.upd, takenSets_length]
    · simp only [State.dealGroup, hd, State.sendPacket, State.placePacket, State.updCount_events]
      exact h3
    · simp only [State.dealGroup, hd, State.sendPacket, State.placePacket, State.updCount_eventNo]
      exact h4
    · exact keeps_dealGroup l c ev n used
  · rw [if_neg (by omega)] at hd
    simp only [State.dealGroup, hd, State.deferSets, ho]
    rw [if_pos (by omega), State.updCount_congr (g := fun _ => { next, owed := n + owed }) s (groupNo l c)
      (by rw [hct, Nat.add_comm])]
  · rw [if_neg (by omega)] at hd
    simp only [State.dealGroup, hd, State.deferSets, ho]
    have hpos : decide (0 < n + owed - 8) = true := by simp; omega
    rw [if_neg (by omega), Nat.add_comm owed n, State.updCount_congr (g := fun _ => { next, owed := 8 })
      (s.updEmbed (groupNo l c) fun st => st.discard (n + owed - 8)) (groupNo l c)
      (by rw [State.updEmbed_embCounts, hct])]
    simp only [Store.discard, hpos, Bool.true_and]

/-! ### Reads of a store (R45 to R47) -/

theorem readsNext_eq (n : Nat) : readsNext n = if n < 480 then n + 1 else 480 := rfl

theorem read_spec (st : Store) (b : Bool) (_ : st.state = .flowing) :
    (st.sets = [] →
        st.read false
          = ({ st with readMark := true, reads := if st.reads < 480 then st.reads + 1 else 480, lastFault := true,
                       since := .fill 3 true, latch := true, underflows := satInc st.underflows },
             { ch := st.last.ch.map fun x => { x with v := true }, d := false }))
      ∧ (∀ h rest, st.sets = h :: rest → (st.reads = 480 → 8 < st.fill ∧ st.fill < 56) →
        st.read b
          = ({ st with sets := rest, readMark := false, last := { h with d := h.d || st.readMark },
                       reads := if st.reads < 480 then st.reads + 1 else 480, lastFault := false },
             { h with d := h.d || st.readMark }))
      ∧ (st.reads = 480 → 1 ≤ st.fill → st.fill ≤ 8 →
        st.read b
          = ({ st with reads := 0, corrections := satInc st.corrections, lastFault := false },
             { st.last with d := false }))
      ∧ (∀ h h2 rest, st.sets = h :: h2 :: rest → st.reads = 480 → 56 ≤ st.fill →
        st.read b
          = ({ st with sets := rest, readMark := false, last := { h2 with d := h2.d || (h.d || st.readMark) },
                       reads := 0, corrections := satInc st.corrections, lastFault := false },
             { h2 with d := h2.d || (h.d || st.readMark) })) := by
  refine ⟨fun h => ?_, fun h rest hs hc => ?_, fun hr h1 h8 => ?_, fun h h2 rest hs hr hf => ?_⟩
  · have hk : st.readKind = .underflow := by simp [Store.readKind, Store.fill, h]
    simp only [Store.read, hk, h]
    cases st
    simp only at h
    subst h
    rfl
  · have hk : st.readKind = .normal := by
      have hl : st.sets.length ≠ 0 := by simp [hs]
      unfold Store.readKind
      rw [if_neg hl, if_neg (fun ⟨x, y⟩ => by have := hc x; omega), if_neg (fun ⟨x, y⟩ => by have := hc x; omega)]
    simp only [Store.read, hk, hs]
    rfl
  · have hk : st.readKind = .repeated := by
      unfold Store.readKind
      rw [if_neg (by omega), if_pos ⟨hr, h8⟩]
    simp only [Store.read, hk]
  · have hk : st.readKind = .skipped := by
      unfold Store.readKind
      rw [if_neg (by omega), if_neg (by omega), if_pos ⟨hr, hf⟩]
    simp only [Store.read, hk, hs]
    rfl

/-- R122: which packets are kept. -/
theorem keeps_packet_iff (l : Fin 4) (p : Packet) (s : State) : s.keeps l p = true ↔
    kindGroup p.kind = none ∨ ∃ c, kindGroup p.kind = some c ∧ s.plan.get (groupNo l c) = .pass := by
  unfold State.keeps
  cases kindGroup p.kind with
  | none => simp
  | some c => simp

/-- Settles O22. -/
theorem carriageLineIsBuilt : Obligations.CarriageLineIsBuilt := by
  refine ⟨carriageLine_whole, carriageLine_parts, fun l ws j s h hw => ⟨_, carriageLine_received l ws j s h hw, rfl,
    fun x hx => ⟨{ x with words := x.words ++ ws }, ?_, rfl, rfl, fun hn => ?_, fun hs => ?_⟩, fun hx => ?_⟩,
    dealGroup_spec, read_spec, keeps_packet_iff⟩
  · simp [Relay.receive, hx]
  · simp [RelayLine.area, hn]
  · simp [Relay.presented, Relay.receive, hs, hx]
  · refine State.updRelay_eq_self s l ?_
    cases hr : s.relays.get l with
    | mk input shown waiting output =>
      rw [hr] at hx
      have hx : input = none := hx
      subst hx
      rfl

end Sys2Proof.Machine
end

section
/-! CARRIAGE_LINE: what the parser makes of packets, of the sets that they bring, and of a frame end (R20 to R31, R42,
R44). -/

set_option Elab.async false

namespace Sys2Proof.Machine

/-! ### An accepted packet (R24, R25, R29) -/

/-- R25: the gap of a packet's count, as a claim says it. -/
theorem gap_eq (gs : GroupState) (k : Byte) :
    gs.gap k = match gs.lastCount with | some k0 => decide (k ≠ k0 + 1) | none => false := by
  unfold GroupState.gap
  cases gs.lastCount with
  | none => rfl
  | some c =>
    show (k != c + 1) = decide (k ≠ c + 1)
    rw [decide_not]
    rfl

/-- R25, R28: the sequence count of an accepted packet. -/
theorem checkSequence_spec (s : State) (l : Fin 4) (ev : AreaEvent) (g : Fin 16) (c : Byte) (gap : Bool)
    (hg : (s.groups.get g).gap c = gap) :
    (s.checkSequence l ev g c).groups
        = s.groups.upd g (fun gs => { gs with lastCount := some c, pendingD := gs.pendingD || gap })
      ∧ (s.checkSequence l ev g c).lanes = s.lanes.upd l (fun r =>
          { r with accepted := satInc r.accepted, gaps := if gap then satInc r.gaps else r.gaps })
      ∧ (s.checkSequence l ev g c).faults = s.faults.set l
          (if gap then captureAfter (s.faults.get l) .seqGap ev.line ev.stamp else s.faults.get l)
      ∧ (s.checkSequence l ev g c).events
          = (s.raiseAs ev.no ev.stamp (if gap then laneFaultOf (s.faults.get l) l .seqGap ev.line else [])).events
      ∧ (s.checkSequence l ev g c).strip = s.strip ∧ (s.checkSequence l ev g c).ref = s.ref := by
  cases gap
  · simp only [State.checkSequence, hg, Bool.false_eq_true, if_false, State.reportAccepted, raiseAs_nil]
    refine ⟨rfl, rfl, (Bank.set_get_self _ _ rfl).symm, rfl, rfl, rfl⟩
  · simp only [State.checkSequence, hg, if_true, State.reportAccepted, State.reportGap, State.updLane_updLane]
    refine ⟨rfl, rfl, ?_, rfl, rfl, rfl⟩
    rw [← offeredTo_eq]
    rfl

/-- R31: an accepted packet of an ABSENT group. -/
def State.present (s : State) (no : Nat) (g : Fin 16) : State :=
  if (s.groups.get g).present then s
  else (s.updGroup g fun gs => { gs with present := true, pendingD := true }).raiseAs no s.ref.frameCount
    [(.groupState, g.val, 1)]

/-- R29: an accepted packet at an IDLE store. -/
def State.opened (s : State) (g : Fin 16) : State :=
  if (s.strip.get g).state = .idle then
    (s.updStrip g Store.openIdle).updGroup g fun gs => { gs with pendingD := true }
  else s

theorem markPresent_eq (s : State) (no : Nat) (g : Fin 16) :
    s.markPresent no g = ((s.present no g).opened g).updGroup g fun gs => { gs with seenFrame := true } := rfl

theorem present_spec (s : State) (no : Nat) (g : Fin 16) :
    (s.present no g).groups = s.groups.upd g (fun gs => { gs with
        present := true, pendingD := gs.pendingD || !gs.present })
      ∧ (s.present no g).strip = s.strip
      ∧ (s.present no g).events = (s.raiseAs no s.ref.frameCount
          (if (s.groups.get g).present then [] else [(.groupState, g.val, 1)])).events
      ∧ (s.present no g).lanes = s.lanes ∧ (s.present no g).faults = s.faults := by
  unfold State.present
  split
  · next h =>
    refine ⟨(Bank.upd_eq_self _ _ ?_).symm, rfl, by rw [raiseAs_nil], rfl, rfl⟩
    cases hg : s.groups.get g
    rw [hg] at h
    simp only at h
    simp [h]
  · next h =>
    refine ⟨?_, rfl, rfl, rfl, rfl⟩
    rw [State.raiseAs_groups, State.updGroup_groups]
    exact Bank.upd_congr _ _ (by simp [h])

theorem opened_spec (s : State) (g : Fin 16) :
    (s.opened g).groups = s.groups.upd g (fun gs => { gs with
        pendingD := gs.pendingD || (s.strip.get g).state == .idle })
      ∧ (s.opened g).strip = s.strip.upd g Store.openIdle ∧ (s.opened g).events = s.events
      ∧ (s.opened g).lanes = s.lanes ∧ (s.opened g).faults = s.faults := by
  unfold State.opened
  split
  · next h =>
    refine ⟨?_, rfl, rfl, rfl, rfl⟩
    rw [State.updGroup_groups, State.updStrip_groups]
    exact Bank.upd_congr _ _ (by simp [h])
  · next h =>
    have hb : ((s.strip.get g).state == .idle) = false := beq_eq_false_iff_ne.mpr h
    refine ⟨(Bank.upd_eq_self _ _ ?_).symm, (Bank.upd_eq_self _ _ ?_).symm, rfl, rfl, rfl⟩
    · rw [hb, Bool.or_false]
    · rw [Store.openIdle, if_neg h]

/-- R29, R31: an accepted packet makes its group PRESENT and opens its store. -/
theorem markPresent_spec (s : State) (no : Nat) (g : Fin 16) :
    (s.markPresent no g).groups = s.groups.upd g (fun gs => { gs with
        present := true, pendingD := gs.pendingD || !gs.present || (s.strip.get g).state == .idle,
        seenFrame := true })
      ∧ (s.markPresent no g).strip = s.strip.upd g Store.openIdle
      ∧ (s.markPresent no g).events = (s.raiseAs no s.ref.frameCount
          (if (s.groups.get g).present then [] else [(.groupState, g.val, 1)])).events
      ∧ (s.markPresent no g).lanes = s.lanes ∧ (s.markPresent no g).faults = s.faults := by
  obtain ⟨h1, h2, h3, h4, h5⟩ := present_spec s no g
  obtain ⟨k1, k2, k3, k4, k5⟩ := opened_spec (s.present no g) g
  rw [markPresent_eq]
  refine ⟨?_, k2.trans (by rw [h2]), k3.trans h3, k4.trans h4, k5.trans h5⟩
  rw [State.updGroup_groups, k1, h1, h2, Bank.upd_upd_self, Bank.upd_upd_self]

/-- R24, R25, R29: an accepted packet, before its sets are written. -/
theorem acceptPacket_spec (s : State) (l c : Fin 4) (ev : AreaEvent) (p : Packet) (gap : Bool)
    (hg : (s.groups.get (groupNo l c)).gap (wordByte p.seq) = gap) :
    (s.acceptPacket l ev (groupNo l c) p).groups.get (groupNo l c)
        = { present := true, lastCount := some (wordByte p.seq),
            pendingD := (s.groups.get (groupNo l c)).pendingD || gap || !(s.groups.get (groupNo l c)).present
              || (s.strip.get (groupNo l c)).state == .idle,
            seenFrame := true, seenLine := true }
      ∧ (s.acceptPacket l ev (groupNo l c) p).strip.get (groupNo l c) = (s.strip.get (groupNo l c)).openIdle
      ∧ (∀ g, g ≠ groupNo l c → (s.acceptPacket l ev (groupNo l c) p).groups.get g = s.groups.get g
        ∧ (s.acceptPacket l ev (groupNo l c) p).strip.get g = s.strip.get g)
      ∧ (s.acceptPacket l ev (groupNo l c) p).lanes = s.lanes.upd l (fun r =>
          { r with accepted := satInc r.accepted, gaps := if gap then satInc r.gaps else r.gaps })
      ∧ (s.acceptPacket l ev (groupNo l c) p).faults = s.faults.set l
          (if gap then captureAfter (s.faults.get l) .seqGap ev.line ev.stamp else s.faults.get l)
      ∧ (s.acceptPacket l ev (groupNo l c) p).events = ((s.raiseAs ev.no ev.stamp
            (if gap then laneFaultOf (s.faults.get l) l .seqGap ev.line else [])).raiseAs ev.no s.ref.frameCount
          (if (s.groups.get (groupNo l c)).present then [] else [(.groupState, (groupNo l c).val, 1)])).events := by
  have hg' : ((s.updGroup (groupNo l c) fun gs => { gs with seenLine := true }).groups.get (groupNo l c)).gap
      (wordByte p.seq) = gap := by
    rw [State.updGroup_groups, Bank.get_upd_self]
    exact hg
  obtain ⟨h1, h2, h3, h4, h5, h6⟩ := checkSequence_spec (s.updGroup (groupNo l c) fun gs => { gs with seenLine := true })
    l ev (groupNo l c) (wordByte p.seq) gap hg'
  obtain ⟨k1, k2, k3, k4, k5⟩ := markPresent_spec ((s.updGroup (groupNo l c) fun gs =>
    { gs with seenLine := true }).checkSequence l ev (groupNo l c) (wordByte p.seq)) ev.no (groupNo l c)
  rw [State.updGroup_groups, Bank.upd_upd_self] at h1
  rw [h1, Bank.upd_upd_self, h5] at k1
  rw [h5] at k2
  have hp : (((s.updGroup (groupNo l c) fun gs => { gs with seenLine := true }).checkSequence l ev (groupNo l c)
      (wordByte p.seq)).groups.get (groupNo l c)).present = (s.groups.get (groupNo l c)).present := by
    rw [h1, Bank.get_upd_self]
  rw [State.raiseAs_events, h4, hp, h6] at k3
  simp only [State.acceptPacket]
  refine ⟨?_, ?_, fun g hne => ⟨?_, ?_⟩, k4.trans h2, k5.trans h3, k3⟩
  · rw [k1, Bank.get_upd_self]
    rfl
  · rw [k2, Bank.get_upd_self]
    rfl
  · rw [k1, Bank.get_upd_ne _ _ (Ne.symm hne)]
  · rw [k2, Bank.get_upd_ne _ _ (Ne.symm hne)]
    rfl

/-- R42: an IDLE store is opened. -/
theorem openIdle_eq (st : Store) :
    st.openIdle = if st.state = .idle then { st with state := .priming, sets := [], reads := 0 } else st := rfl

/-- R21, R23 to R25: what the parser makes of a packet. -/
theorem judgePacket_spec (l c : Fin 4) (ev : AreaEvent) (p : Packet) (s : State) (gs : GroupState) (st : Store)
    (hgs : s.groups.get (groupNo l c) = gs) (hst : s.strip.get (groupNo l c) = st) :
    (kindGroup p.kind = none → s.judgePacket l ev p = (s, .foreign, []))
      ∧ (kindGroup p.kind = some c → p.check ≠ p.sum →
        s.judgePacket l ev p
          = (((s.updGroup (groupNo l c) fun gs => { gs with pendingD := true }).updLane l fun r =>
                { r with checksum := satInc r.checksum }).offerFault l .checksum ev, .checksumFailure, []))
      ∧ (kindGroup p.kind = some c → p.check = p.sum → gs.seenLine = true →
        s.judgePacket l ev p
          = ((s.updLane l fun r => { r with malformed := satInc r.malformed }).offerFault l .malformed ev,
             .duplicate, []))
      ∧ (kindGroup p.kind = some c → p.check = p.sum → gs.seenLine = false → ∀ gap : Bool,
        gap = (match gs.lastCount with | some k0 => decide (wordByte p.seq ≠ k0 + 1) | none => false) →
        ∃ t, s.judgePacket l ev p = (t, .accepted, (payloadSets p.payload).map fun x => (groupNo l c, x))
          ∧ t.groups.get (groupNo l c)
              = { present := true, lastCount := some (wordByte p.seq),
                  pendingD := gs.pendingD || gap || !gs.present || st.state == .idle, seenFrame := true,
                  seenLine := true }
          ∧ t.strip.get (groupNo l c)
              = (if st.state = .idle then { st with state := .priming, sets := [], reads := 0 } else st)
          ∧ (∀ g, g ≠ groupNo l c → t.groups.get g = s.groups.get g ∧ t.strip.get g = s.strip.get g)
          ∧ t.lanes = s.lanes.upd l (fun r =>
              { r with accepted := satInc r.accepted, gaps := if gap then satInc r.gaps else r.gaps })
          ∧ t.faults = s.faults.set l
              (if gap then captureAfter (s.faults.get l) .seqGap ev.line ev.stamp else s.faults.get l)
          ∧ t.events = ((s.raiseAs ev.no ev.stamp
                (if gap then laneFaultOf (s.faults.get l) l .seqGap ev.line else [])).raiseAs ev.no s.ref.frameCount
              (if gs.present then [] else [(.groupState, (groupNo l c).val, 1)])).events
          ∧ Keeps [.groups, .strip, .lanes, .faults, .events] s t) := by
  subst hgs hst
  refine ⟨fun hk => ?_, fun hk hc => ?_, fun hk hc hs => ?_, fun hk hc hs gap hg => ?_⟩
  · simp only [State.judgePacket, hk]
  · simp only [State.judgePacket, hk, if_pos hc]
    rfl
  · simp only [State.judgePacket, hk, hc, ne_eq, not_true, if_false, hs, if_true]
    rfl
  · obtain ⟨h1, h2, h3, h4, h5, h6⟩ := acceptPacket_spec s l c ev p gap (by rw [gap_eq, hg])
    refine ⟨s.acceptPacket l ev (groupNo l c) p, ?_, h1, by rw [h2, openIdle_eq], h3, h4, h5, h6,
      (keeps_acceptPacket l ev _ p).mono⟩
    simp [State.judgePacket, hk, hc, hs]

/-! ### Sets that are written (R26, R42, R44) -/

theorem write_spec (st : Store) (x y : SampleSet) (hy : y = { x with d := x.d || st.writeMark }) :
    (st.state = .idle → st.write x = st)
      ∧ (st.state = .priming → st.fill < 64 →
        st.write x
          = { st with state := if st.fill = 31 then .flowing else .priming, sets := st.sets ++ [y],
                      reads := if st.fill = 31 then 0 else st.reads, writeMark := false, lastFault := false })
      ∧ (st.state = .flowing → st.fill < 64 →
        st.write x = { st with sets := st.sets ++ [y], writeMark := false, lastFault := false })
      ∧ (st.state = .priming ∨ st.state = .flowing → 64 ≤ st.fill →
        st.write x = { st with writeMark := true, lastFault := true, since := .fill 3 true, latch := true,
                               overflows := satInc st.overflows }) := by
  subst hy
  have h31 : st.fill + 1 = 32 ↔ st.fill = 31 := by omega
  refine ⟨fun h => ?_, fun h hf => ?_, fun h hf => ?_, fun h hf => ?_⟩
  · simp only [Store.write, h]
  · simp only [Store.write, h, if_pos hf, h31]
    rfl
  · simp only [Store.write, h, if_pos hf]
    rfl
  · have hw : st.write x = { st.faultAccess true with writeMark := true } := by
      rcases h with h | h <;> simp only [Store.write, h, if_neg (Nat.not_lt.mpr hf)]
    rw [hw]
    rfl

/-- R26: a set is written to its group's store. -/
theorem writeSet_spec (g : Fin 16) (x : SampleSet) (s : State) :
    (s.writeSet g x).strip = s.strip.upd g (fun st => st.write { x with d := (s.groups.get g).pendingD })
      ∧ (s.writeSet g x).groups = s.groups.upd g (fun gs => { gs with pendingD := false })
      ∧ (s.writeSet g x).events = (s.raiseAll (writeReport g.val (s.strip.get g))).events
      ∧ Keeps [.strip, .groups, .events] s (s.writeSet g x) := by
  refine ⟨rfl, rfl, ?_, (keeps_writeStrip g _).andThen (keeps_updGroup g _)⟩
  rw [← writeNotices_eq]
  rfl

/-- R26: the first set of a packet carries the pending discontinuity. -/
def marked (pend : Bool) : List SampleSet → List SampleSet
  | [] => []
  | y :: ys => { y with d := pend } :: ys

/-- R26: the sets of a packet, written one after another to its group's store. -/
theorem writeSets_spec (g : Fin 16) (xs : List SampleSet) : ∀ s : State, (∀ y ∈ xs, y.d = false) →
    (s.writeSets (xs.map fun x => (g, x))).strip.get g
        = (marked (s.groups.get g).pendingD xs).foldl Store.write (s.strip.get g)
      ∧ (s.writeSets (xs.map fun x => (g, x))).groups.get g
          = { s.groups.get g with pendingD := (s.groups.get g).pendingD && xs.isEmpty } := by
  induction xs with
  | nil =>
    intro s _
    exact ⟨rfl, by simp [State.writeSets]⟩
  | cons y ys ih =>
    intro s hd
    obtain ⟨h1, h2, -, -⟩ := writeSet_spec g y s
    have hys : ∀ z ∈ ys, z.d = false := fun z hz => hd z (List.mem_cons_of_mem _ hz)
    obtain ⟨i1, i2⟩ := ih (s.writeSet g y) hys
    have hm : marked false ys = ys := by
      cases ys with
      | nil => rfl
      | cons z zs =>
        have := hys z List.mem_cons_self
        cases z
        simp only at this
        subst this
        rfl
    rw [h1, h2, Bank.get_upd_self, Bank.get_upd_self] at i1
    rw [h2, Bank.get_upd_self] at i2
    refine ⟨?_, ?_⟩
    · refine i1.trans ?_
      rw [hm]
      rfl
    · exact i2.trans (by simp)

/-- R42: a store that has room for all the sets written to it. -/
theorem foldl_write (xs : List SampleSet) : ∀ st : Store, st.state = .priming ∨ st.state = .flowing →
    st.writeMark = false → st.fill + xs.length ≤ 64 →
    (xs.foldl Store.write st).sets = st.sets ++ xs
      ∧ (xs.foldl Store.write st).state
          = if st.state = .flowing ∨ st.fill < 32 ∧ 32 ≤ st.fill + xs.length then .flowing else .priming := by
  induction xs with
  | nil =>
    intro st hs _ _
    refine ⟨by simp, ?_⟩
    rcases hs with h | h
    · rw [if_neg]
      · exact h
      · simp [h]
    · rw [if_pos (.inl h)]
      exact h
  | cons x xs ih =>
    intro st hs hm hf
    rw [List.length_cons] at hf
    obtain ⟨-, hp, hfl, -⟩ := write_spec st x x (by rw [hm, Bool.or_false])
    rw [List.foldl_cons]
    rcases hs with h | h
    · have hw := hp h (by omega)
      generalize st.write x = u at hw
      have hu : u.fill = st.fill + 1 := by rw [hw]; exact List.length_append
      by_cases h31 : st.fill = 31
      · have hus : u.state = .flowing := by rw [hw]; exact if_pos h31
        obtain ⟨i1, i2⟩ := ih u (.inr hus) (by rw [hw]) (by omega)
        refine ⟨by rw [i1, hw]; simp, ?_⟩
        rw [i2, if_pos (.inl hus), if_pos (.inr ⟨by omega, by rw [List.length_cons]; omega⟩)]
      · have hus : u.state = .priming := by rw [hw]; exact if_neg h31
        obtain ⟨i1, i2⟩ := ih u (.inl hus) (by rw [hw]) (by omega)
        refine ⟨by rw [i1, hw]; simp, ?_⟩
        have hiff : (u.state = .flowing ∨ u.fill < 32 ∧ 32 ≤ u.fill + xs.length)
            ↔ (st.state = .flowing ∨ st.fill < 32 ∧ 32 ≤ st.fill + (x :: xs).length) := by
          rw [hus, h, List.length_cons, hu]
          constructor
          · rintro (e | e)
            · cases e
            · exact .inr (by omega)
          · rintro (e | e)
            · cases e
            · exact .inr (by omega)
        rw [i2]
        simp only [hiff]
    · have hw := hfl h (by omega)
      generalize st.write x = u at hw
      have hus : u.state = .flowing := by rw [hw]; exact h
      have hu : u.fill = st.fill + 1 := by rw [hw]; exact List.length_append
      obtain ⟨i1, i2⟩ := ih u (.inr hus) (by rw [hw]) (by omega)
      refine ⟨by rw [i1, hw]; simp, ?_⟩
      rw [i2, if_pos (.inl hus), if_pos (.inl h)]

/-! ### The frame end (R30, R31) -/

/-- R30: what a frame end makes of the parser's items of a group. -/
def GroupState.reviewed (gs : GroupState) : GroupState :=
  if gs.present && !gs.seenFrame then { gs with present := false, lastCount := none, pendingD := false,
                                                seenFrame := false }
  else { gs with seenFrame := false }

/-- R30: what a frame end makes of a group's strip store. -/
def GroupState.reviewedStore (gs : GroupState) (st : Store) : Store :=
  if gs.present && !gs.seenFrame then st.flush else st

theorem reviewGroup_spec (s : State) (g : Fin 16) :
    (s.reviewGroup g).groups = s.groups.upd g GroupState.reviewed
      ∧ (s.reviewGroup g).strip = s.strip.upd g (s.groups.get g).reviewedStore := by
  unfold State.reviewGroup State.makeAbsent
  dsimp only
  split
  · next h =>
    simp only [State.updGroup_groups, State.updStrip_groups, State.updGroup_strip, State.updStrip_strip,
      Bank.upd_upd_self]
    refine ⟨Bank.upd_congr _ _ ?_, Bank.upd_congr _ _ ?_⟩
    · unfold GroupState.reviewed
      rw [if_pos h]
    · unfold GroupState.reviewedStore
      rw [if_pos h]
  · next h =>
    rw [State.updGroup_groups, State.updGroup_strip]
    refine ⟨Bank.upd_congr _ _ ?_, (Bank.upd_eq_self _ _ ?_).symm⟩
    · unfold GroupState.reviewed
      rw [if_neg h]
    · unfold GroupState.reviewedStore
      rw [if_neg h]

theorem reviewGroups_spec (l : Fin 4) (cs : List (Fin 4)) : cs.Nodup → ∀ s : State,
    (∀ c ∈ cs, (cs.foldl (fun s c => State.reviewGroup s (groupNo l c)) s).groups.get (groupNo l c)
        = (s.groups.get (groupNo l c)).reviewed
      ∧ (cs.foldl (fun s c => State.reviewGroup s (groupNo l c)) s).strip.get (groupNo l c)
        = (s.groups.get (groupNo l c)).reviewedStore (s.strip.get (groupNo l c)))
    ∧ ∀ g, (∀ c ∈ cs, g ≠ groupNo l c) →
      (cs.foldl (fun s c => State.reviewGroup s (groupNo l c)) s).groups.get g = s.groups.get g
        ∧ (cs.foldl (fun s c => State.reviewGroup s (groupNo l c)) s).strip.get g = s.strip.get g := by
  induction cs with
  | nil =>
    intro _ s
    exact ⟨fun c hc => absurd hc List.not_mem_nil, fun _ _ => ⟨rfl, rfl⟩⟩
  | cons c cs ih =>
    intro hn s
    rw [List.nodup_cons] at hn
    obtain ⟨h1, h2⟩ := reviewGroup_spec s (groupNo l c)
    obtain ⟨i1, i2⟩ := ih hn.2 (s.reviewGroup (groupNo l c))
    have hne : ∀ g, g ≠ groupNo l c → (s.reviewGroup (groupNo l c)).groups.get g = s.groups.get g
        ∧ (s.reviewGroup (groupNo l c)).strip.get g = s.strip.get g := fun g hg => by
      rw [h1, h2, Bank.get_upd_ne _ _ (Ne.symm hg), Bank.get_upd_ne _ _ (Ne.symm hg)]
      exact ⟨rfl, rfl⟩
    refine ⟨fun d hd => ?_, fun g hg => ?_⟩
    · rcases List.mem_cons.mp hd with rfl | hd
      · obtain ⟨j1, j2⟩ := i2 (groupNo l d) fun c' hc' e => hn.1 ((groupNo_inj l d c').mp e ▸ hc')
        rw [List.foldl_cons, j1, j2, h1, h2, Bank.get_upd_self, Bank.get_upd_self]
        exact ⟨rfl, rfl⟩
      · obtain ⟨e1, e2⟩ := hne (groupNo l d) fun e => hn.1 ((groupNo_inj l d c).mp e ▸ hd)
        obtain ⟨j1, j2⟩ := i1 d hd
        rw [List.foldl_cons, j1, j2, e1, e2]
        exact ⟨rfl, rfl⟩
    · obtain ⟨e1, e2⟩ := hne g (hg c List.mem_cons_self)
      obtain ⟨j1, j2⟩ := i2 g fun c' hc' => hg c' (List.mem_cons_of_mem _ hc')
      rw [List.foldl_cons, j1, j2, e1, e2]
      exact ⟨rfl, rfl⟩

/-- The groups and strip stores of a lane after its frame end. -/
theorem frameEnd_groups (s : State) (l : Fin 4) :
    (∀ c, (s.frameEnd l).groups.get (groupNo l c) = (s.groups.get (groupNo l c)).reviewed
      ∧ (s.frameEnd l).strip.get (groupNo l c)
        = (s.groups.get (groupNo l c)).reviewedStore (s.strip.get (groupNo l c)))
    ∧ ∀ g, groupLane g ≠ l → (s.frameEnd l).groups.get g = s.groups.get g
      ∧ (s.frameEnd l).strip.get g = s.strip.get g := by
  obtain ⟨h1, h2⟩ := reviewGroups_spec l four (by decide) s
  simp only [State.frameEnd, State.parserFrameEnd, State.updLane_groups, State.updLane_strip, State.raiseAll_groups,
    State.raiseAll_strip]
  exact ⟨fun c => h1 c (mem_four c), fun g hg => h2 g fun c _ e => hg (by rw [e, groupNo_lane])⟩

theorem keeps_reviewGroups (l : Fin 4) (s : State) :
    Keeps absentParts s (four.foldl (fun s c => State.reviewGroup s (groupNo l c)) s) :=
  Keeps.foldl (fun _ _ => keeps_reviewGroup _) four s

/-- R30, R31: the frame end. -/
theorem frameEnd_spec (l : Fin 4) (s : State) : ∃ t, s.frameEnd l = t
      ∧ (∀ c : Fin 4,
          if (s.groups.get (groupNo l c)).present = true ∧ (s.groups.get (groupNo l c)).seenFrame = false then
            t.groups.get (groupNo l c)
              = { s.groups.get (groupNo l c) with present := false, lastCount := none, pendingD := false,
                                                  seenFrame := false }
            ∧ (t.strip.get (groupNo l c)).state = .idle
            ∧ ((s.strip.get (groupNo l c)).state ≠ .idle → (t.strip.get (groupNo l c)).sets = [])
          else t.groups.get (groupNo l c) = { s.groups.get (groupNo l c) with seenFrame := false }
            ∧ t.strip.get (groupNo l c) = s.strip.get (groupNo l c))
      ∧ (∀ g, groupLane g ≠ l → t.groups.get g = s.groups.get g ∧ t.strip.get g = s.strip.get g)
      ∧ t.lanes = s.lanes.upd l (fun r =>
          { r with index := if r.index + 1 < framesPerSequence r.fmt then r.index + 1 else 0 })
      ∧ t.events = (s.raiseAll ((four.filter fun c => (s.groups.get (groupNo l c)).present
            && !(s.groups.get (groupNo l c)).seenFrame).map fun c => (.groupState, (groupNo l c).val, 0))).events
      ∧ t.eventNo = (if ∃ c : Fin 4, (s.groups.get (groupNo l c)).present = true
            ∧ (s.groups.get (groupNo l c)).seenFrame = false then s.eventNo + 1 else s.eventNo)
      ∧ Keeps [.groups, .strip, .lanes, .events] s t := by
  obtain ⟨hc, ho⟩ := frameEnd_groups s l
  have hk := keeps_reviewGroups l s
  have hr := raiseAll_congr hk.events hk.eventNo (congrArg RefUnit.frameCount hk.ref)
    (s.absentNotices l fun gs => !gs.seenFrame)
  have he : (s.frameEnd l).events = ((four.foldl (fun s c => State.reviewGroup s (groupNo l c)) s).raiseAll
      (s.absentNotices l fun gs => !gs.seenFrame)).events
      ∧ (s.frameEnd l).eventNo = ((four.foldl (fun s c => State.reviewGroup s (groupNo l c)) s).raiseAll
      (s.absentNotices l fun gs => !gs.seenFrame)).eventNo := by
    simp only [State.frameEnd, State.parserFrameEnd, State.updLane_events, State.updLane_eventNo, and_self]
  refine ⟨_, rfl, fun c => ?_, ho, ?_, he.1.trans hr.1, ?_, (keeps_frameEnd l).mono⟩
  · obtain ⟨h1, h2⟩ := hc c
    have hb : ((s.groups.get (groupNo l c)).present && !(s.groups.get (groupNo l c)).seenFrame) = true
        ↔ (s.groups.get (groupNo l c)).present = true ∧ (s.groups.get (groupNo l c)).seenFrame = false := by
      rw [Bool.and_eq_true, Bool.not_eq_true']
    rw [h1, h2]
    split
    · next h =>
      rw [GroupState.reviewed, GroupState.reviewedStore, if_pos (hb.mpr h), if_pos (hb.mpr h)]
      refine ⟨rfl, flush_state _, fun hi => ?_⟩
      rw [Store.flush, if_neg hi]
    · next h =>
      rw [GroupState.reviewed, GroupState.reviewedStore, if_neg (fun e => h (hb.mp e)), if_neg (fun e => h (hb.mp e))]
      exact ⟨rfl, rfl⟩
  · simp only [State.frameEnd, State.parserFrameEnd, State.updLane_lanes, State.raiseAll_lanes, hk.lanes]
  · refine (he.2.trans hr.2.1).trans ?_
    rw [State.raiseAll_eventNo]
    have hi : (s.absentNotices l fun gs => !gs.seenFrame).isEmpty = true ↔ ¬ ∃ c : Fin 4,
        (s.groups.get (groupNo l c)).present = true ∧ (s.groups.get (groupNo l c)).seenFrame = false := by
      simp [State.absentNotices, mem_four]
    by_cases h : ∃ c : Fin 4, (s.groups.get (groupNo l c)).present = true
        ∧ (s.groups.get (groupNo l c)).seenFrame = false
    · rw [if_pos h, if_neg fun e => hi.mp e h]
    · rw [if_neg h, if_pos (hi.mpr h)]

/-! ### One packet of sets -/

theorem findPacket_filler (n : Nat) : findPacket (List.replicate n 0) = .filler := by
  match n with
  | 0 => rfl
  | 1 => rfl
  | 2 => rfl
  | n + 3 => rfl

/-- R20: an area of one packet and filler. -/
theorem walkArea_one (c : Fin 4) (k : Byte) {sets : List SampleSet} (h : sets.length ≤ 4) :
    ∃ e, walkArea (fillArea (makePacket c k sets).words) = ([(0, makePacket c k sets)], e, false) := by
  have hf : ∀ m, walkArea (List.replicate m (0 : LaneWord)) = ([], 0, false) := fun m => by
    rw [walkArea, walkFrom, findPacket_filler]
  refine ⟨0 + (7 + (makePacket c k sets).payload.length), ?_⟩
  rw [fillArea, walkArea_packet (findPacket_makePacket c k _ h), hf]
  rfl

theorem clearSeenLine_groups (s : State) (l c : Fin 4) :
    (s.clearSeenLine l).groups.get (groupNo l c) = { s.groups.get (groupNo l c) with seenLine := false } := by
  simp only [State.clearSeenLine, four, List.foldl, State.updGroup_groups, Bank.get_upd, groupNo_inj]
  match c with
  | 0 => simp
  | 1 => simp
  | 2 => simp
  | 3 => simp

/-- The state in which the packets of an area are judged. -/
def State.cleared (s : State) (l : Fin 4) (ws : List LaneWord) : State :=
  (s.receive l ws).newEvent.newEvent.clearSeenLine l

theorem keeps_cleared (s : State) (l : Fin 4) (ws : List LaneWord) :
    Keeps [.relays, .groups, .events] s (s.cleared l ws) :=
  (((keeps_receive l ws).andThen keeps_newEvent (C := [.relays, .groups, .events])).andThen keeps_newEvent
    (C := [.relays, .groups, .events])).andThen (keeps_clearSeenLine l)

theorem cleared_groups (s : State) (l c : Fin 4) (ws : List LaneWord) :
    (s.cleared l ws).groups.get (groupNo l c) = { s.groups.get (groupNo l c) with seenLine := false } :=
  clearSeenLine_groups (s.receive l ws).newEvent.newEvent l c

/-- R20: the walk of an area of one packet. -/
theorem walked_one {s : State} {l : Fin 4} {n : BitVec 11} {ws area : List LaneWord} {p : Packet} {e : Nat}
    (h : walkArea area = ([(0, p)], e, false)) : (s.walked l n ws area).1
      = ((s.cleared l ws).judgePacket l (s.areaOf n) p).1.writeSets
          ((s.cleared l ws).judgePacket l (s.areaOf n) p).2.2 := by
  simp only [State.walked, State.stripWalk, Walk.finish, Walk.start, h, State.judgeAll, State.endWalk]
  rfl

theorem keeps_writeSets_one (xs : List (Fin 16 × SampleSet)) (s : State) :
    Keeps [.strip, .groups, .events] s (s.writeSets xs) :=
  Keeps.foldl (f := fun s x => s.writeSet x.1 x.2) (fun u x => (writeSet_spec x.1 x.2 u).2.2.2) xs s

/-- R30: the frame end leaves a group that was present in its frame. -/
theorem endLine_seen {s : State} {l c : Fin 4} (ev : AreaEvent)
    (h : (s.groups.get (groupNo l c)).seenFrame = true) :
    (∃ b, (s.endLine l ev).groups.get (groupNo l c) = { s.groups.get (groupNo l c) with seenFrame := b })
      ∧ (s.endLine l ev).strip.get (groupNo l c) = s.strip.get (groupNo l c) := by
  unfold State.endLine
  split
  · obtain ⟨h1, h2⟩ := (frameEnd_groups s l).1 c
    have hb : ¬ ((s.groups.get (groupNo l c)).present && !(s.groups.get (groupNo l c)).seenFrame) = true := by simp [h]
    rw [h1, h2, GroupState.reviewed, GroupState.reviewedStore, if_neg hb, if_neg hb]
    exact ⟨⟨false, rfl⟩, rfl⟩
  · exact ⟨⟨true, by rw [← h]⟩, rfl⟩

theorem marked_length (b : Bool) (xs : List SampleSet) : (marked b xs).length = xs.length := by
  cases xs <;> rfl

/-- R42: an opened store has room for what an open one has, and none of what an IDLE one held. -/
theorem openIdle_facts {st : Store} (hh : st.state ≠ .holding) :
    (st.openIdle.state = .priming ∨ st.openIdle.state = .flowing)
      ∧ (st.openIdle.state = .flowing ↔ st.state = .flowing)
      ∧ st.openIdle.sets = (if st.state = .idle then [] else st.sets) ∧ st.openIdle.writeMark = st.writeMark := by
  unfold Store.openIdle
  split
  · next h => simp [h]
  · next h =>
    refine ⟨?_, Iff.rfl, rfl, rfl⟩
    cases hs : st.state with
    | idle => exact absurd hs h
    | holding => exact absurd hs hh
    | priming => exact .inl rfl
    | flowing => exact .inr rfl

/-- R20 to R29: an area of one audio packet. -/
theorem carriageLine_onePacket (l c : Fin 4) (n : BitVec 11) (k : Byte) (sets base : List SampleSet) (gap pend : Bool)
    (s : State) (gs : GroupState) (st : Store)
    (h : CompletesArea s l n [] (fillArea (makePacket c k sets).words)) (hl : sets.length ≤ 4)
    (hd : ∀ y ∈ sets, y.d = false) (hgs : s.groups.get (groupNo l c) = gs) (hst : s.strip.get (groupNo l c) = st)
    (hm : st.writeMark = false) (hh : st.state ≠ .holding) (hbase : base = (if st.state = .idle then [] else st.sets))
    (hroom : base.length + sets.length ≤ 64)
    (hgap : gap = (match gs.lastCount with | some k0 => decide (k ≠ k0 + 1) | none => false))
    (hpend : pend = (gs.pendingD || gap || !gs.present || st.state == .idle)) :
    ∃ t, exec (.carriageLine l ⟨fillArea (makePacket c k sets).words, none⟩) s = .next t
      ∧ (t.strip.get (groupNo l c)).sets
          = base ++ marked pend sets
      ∧ (t.strip.get (groupNo l c)).state
          = (if st.state = .flowing ∨ base.length < 32 ∧ 32 ≤ base.length + sets.length then .flowing else .priming)
      ∧ (t.groups.get (groupNo l c)).lastCount = some k ∧ (t.groups.get (groupNo l c)).present = true
      ∧ (t.groups.get (groupNo l c)).pendingD = (pend && sets.isEmpty)
      ∧ (t.lanes.get l).accepted = satInc (s.lanes.get l).accepted
      ∧ (t.lanes.get l).gaps = (if gap then satInc (s.lanes.get l).gaps else (s.lanes.get l).gaps)
      ∧ (t.lanes.get l).checksum = (s.lanes.get l).checksum ∧ (t.lanes.get l).malformed = (s.lanes.get l).malformed
      ∧ t.faults.get l
          = (if gap then captureAfter (s.faults.get l) .seqGap n s.ref.frameCount else s.faults.get l) := by
  generalize hp : makePacket c k sets = p at h ⊢
  have hwl : p.words.length ≤ 280 := by
    rw [← hp, makePacket_length]
    omega
  have ha : fillArea p.words = ([] ++ fillArea p.words).take 280 :=
    (List.take_of_length_le (fillArea_length hwl).le).symm
  have hx := carriageLine_built h ha
  obtain ⟨e, hw⟩ := walkArea_one c k hl
  rw [hp] at hw
  generalize hA : fillArea p.words = area at hw hx ⊢
  have hkind : kindGroup p.kind = some c := by rw [← hp]; exact kindGroup_kindWord c
  have hseq : wordByte p.seq = k := by rw [← hp]; exact wordByte_withParity k
  have hpay : payloadSets p.payload = sets := by rw [← hp]; exact payloadSets_flatMap hd
  have hcheck : p.check = p.sum := by rw [← hp]; rfl
  have hck := keeps_cleared s l area
  have hcg : (s.cleared l area).groups.get (groupNo l c) = { gs with seenLine := false } := by
    rw [cleared_groups, hgs]
  obtain ⟨-, -, -, hacc⟩ := judgePacket_spec l c (s.areaOf n) p (s.cleared l area) _ st hcg (by rw [hck.strip, hst])
  obtain ⟨u, hj, hug, hus, -, hul, huf, -, huk⟩ := hacc hkind hcheck rfl gap (by rw [hseq]; exact hgap)
  rw [hpay] at hj
  rw [hseq] at hug
  rw [← hpend] at hug
  have hW : (s.walked l n area area).1 = u.writeSets (sets.map fun x => (groupNo l c, x)) := by rw [walked_one hw, hj]
  obtain ⟨hws, hwg⟩ := writeSets_spec (groupNo l c) sets u hd
  have hwk := keeps_writeSets_one (sets.map fun x => (groupNo l c, x)) u
  rw [hug] at hws hwg
  rw [hus, ← openIdle_eq] at hws
  have hB := keeps_built s l n area area
  rw [hW] at hB
  have hBg : (s.built l n area area).groups.get (groupNo l c)
      = { present := true, lastCount := some k, pendingD := pend && sets.isEmpty, seenFrame := true,
          seenLine := true } := by
    rw [hB.groups, hwg]
  obtain ⟨⟨b, heg⟩, hes⟩ := endLine_seen (s := s.built l n area area) (c := c) (s.areaOf n) (by rw [hBg])
  have hlanes := (Counts.endLine (s.built l n area area) l (s.areaOf n))
  have hlane : ∀ {α : Type} (f : Receiver → α), (∀ (r : Receiver) (i : Nat), f { r with index := i } = f r) →
      f (((s.built l n area area).endLine l (s.areaOf n)).lanes.get l)
        = f { s.lanes.get l with accepted := satInc (s.lanes.get l).accepted,
                                 gaps := if gap then satInc (s.lanes.get l).gaps else (s.lanes.get l).gaps } := by
    intro α f hf
    have h1 : (s.built l n area area).lanes.get l = { s.lanes.get l with
        accepted := satInc (s.lanes.get l).accepted,
        gaps := if gap then satInc (s.lanes.get l).gaps else (s.lanes.get l).gaps } := by
      rw [hB.lanes, hwk.lanes, hul, Bank.get_upd_self, hck.lanes]
    unfold State.endLine
    split
    · obtain ⟨t, ht, -, -, h2, -⟩ := frameEnd_spec l (s.built l n area area)
      rw [ht, h2, Bank.get_upd_self, hf, h1]
    · rw [h1]
  obtain ⟨o1, o2, o3, o4⟩ := openIdle_facts hh
  rw [← hbase] at o3
  have hfill : st.openIdle.fill = base.length := congrArg List.length o3
  obtain ⟨w1, w2⟩ := foldl_write (marked pend sets) st.openIdle o1 (o4.trans hm)
    (by rw [marked_length, hfill]; exact hroom)
  have hstrip : (((s.built l n area area).endLine l (s.areaOf n)).setWork l .idle).strip.get (groupNo l c)
      = (marked pend sets).foldl Store.write st.openIdle := by
    rw [State.setWork_strip, hes, hB.strip, hws]
  have hgroup : (((s.built l n area area).endLine l (s.areaOf n)).setWork l .idle).groups.get (groupNo l c)
      = { present := true, lastCount := some k, pendingD := pend && sets.isEmpty, seenFrame := b,
          seenLine := true } := by
    rw [State.setWork_groups, heg, hBg]
  refine ⟨_, hx, ?_, ?_, ?_, ?_, ?_, ?_, ?_, ?_, ?_, ?_⟩
  · rw [hstrip, w1, o3]
  · rw [hstrip, w2, marked_length, hfill]
    simp only [o2]
  · rw [hgroup]
  · rw [hgroup]
  · rw [hgroup]
  · exact hlane Receiver.accepted fun _ _ => rfl
  · exact hlane Receiver.gaps fun _ _ => rfl
  · exact hlane Receiver.checksum fun _ _ => rfl
  · exact hlane Receiver.malformed fun _ _ => rfl
  · rw [State.setWork_faults, (keeps_endLine l (s.areaOf n)).faults, hB.faults, hwk.faults, huf, Bank.get_set_self,
      hck.faults]
    rfl

/-- R11: the parts of the event, in their order. -/
theorem carriageLine_order (l : Fin 4) (n : BitVec 11) (w0 ws area : List LaneWord) (k : Nat) (s : State)
    (h : CompletesArea s l n w0 ws) (ha : area = (w0 ++ ws).take 280)
    (hk : k = (if n.toNat = 1 ∧ (s.lanes.get l).index = 0 then 0 else (s.builders.get l).acc)
      + setsPerSequence (s.lanes.get l).fmt) :
    ∃ t s2 s3 : State, ParsesTo s l n ws area s2 ∧ Keeps [.relays, .builders, .embed, .embCounts, .events] s2 s3
        ∧ (IsRebuilt s l → ∃ v w, BuildsTo s l n area k s2 v w ∧ s3.events = v.events ∧ s3.eventNo = v.eventNo)
        ∧ (¬ IsRebuilt s l → s3.events = s2.events ∧ s3.eventNo = s2.eventNo)
        ∧ t = (if n.toNat = linesPerFrame (s.lanes.get l).fmt then s3.frameEnd l else s3).setWork l .idle
        ∧ exec (.carriageLine l ⟨ws, none⟩) s = .next t := by
  have hx := carriageLine_built h ha
  obtain ⟨hyes, hno⟩ := built_spec (ws := ws) (area := area) h.1 hk
  have hB := keeps_built s l n ws area
  refine ⟨_, _, s.built l n ws area, parsesTo_walked s l n ws area, hB.mono, fun hr => ?_, fun hr => ?_, rfl, ?_⟩
  · obtain ⟨v, w, hb, he⟩ := hyes hr
    exact ⟨v, w, hb, by rw [he]; rfl, by rw [he]; rfl⟩
  · rw [hno hr]
    exact ⟨rfl, rfl⟩
  · have hfmt : ((s.built l n ws area).lanes.get l).fmt = (s.lanes.get l).fmt := by
      rw [hB.lanes]
      exact walked_fmt s l n ws area
    rw [hx, State.endLine, hfmt]
    rfl

/-- Settles O23. -/
theorem packetReachesStripStore : Obligations.PacketReachesStripStore := by
  refine ⟨fun l c n k sets base gap pend s gs st h1 h2 h3 h4 h5 h6 h7 h8 h9 h10 h11 => ?_, carriageLine_order,
    fun l ev pos p ps s => ⟨rfl, _, _, _, _, _, rfl, rfl, rfl⟩, judgePacket_spec, writeSet_spec, write_spec,
    frameEnd_spec⟩
  obtain ⟨t, ht, hsets, hrest⟩ := carriageLine_onePacket l c n k sets base gap pend s gs st h1 h2 h3 h4 h5 h6 h7 h8 h9
    h10 h11
  exact ⟨t, ht, by rw [hsets]; cases sets <;> rfl, hrest⟩

end Sys2Proof.Machine
end

section
/-! Line 7 in sequence: entry into EMBED, bypass, and the take list in either order with the builder (O24 to O26). -/

set_option Elab.async false

namespace Sys2Proof.Machine

/-! ### The builder's part, branch by branch -/

theorem mem_groupDests (g : Fin 16) (ch : Fin 4) : groupDest g ch ∈ groupDests g :=
  List.mem_map.mpr ⟨ch, mem_four ch, rfl⟩

/-- R133: from ENTERING no group may embed any more, and every one holds. -/
theorem builderSwitchLine_entering {s : State} {l : Fin 4} (h : (s.builders.get l).bypass = .entering) :
    s.builderSwitchLine l = ((s.updBuilder l fun b => { b with phase := .engaged }).updBuilder l fun b =>
      { b with bypass := .inside }).holdLane l := by
  simp only [State.builderSwitchLine, h, State.bypassEnter, State.enterLane]
  rw [if_neg]
  simp [State.canEmbed, State.running, (keeps_holdLane _).builders, Bypass.inBypass]

/-- R132: in bypass nothing but the phase moves. -/
theorem builderSwitchLine_inside {s : State} {l : Fin 4} (h : (s.builders.get l).bypass = .inside) :
    s.builderSwitchLine l = s.updBuilder l fun b => { b with phase := .engaged } := by
  simp only [State.builderSwitchLine, h, State.enterLane]
  rw [if_neg]
  simp [State.canEmbed, State.running, h, Bypass.inBypass]

/-- The stores and counts of group `g` are the same in both states. -/
def SameGroup (g : Fin 16) (s t : State) : Prop := t.embed.get g = s.embed.get g ∧ t.embCounts.get g = s.embCounts.get g

theorem SameGroup.trans {g : Fin 16} {s t u : State} (h : SameGroup g s t) (k : SameGroup g t u) : SameGroup g s u :=
  ⟨k.1.trans h.1, k.2.trans h.2⟩

theorem sameGroup_of {A : List Part} {g : Fin 16} {s t : State} (h : Keeps A s t)
    (h1 : Part.embed ∉ A := by decide) (h2 : Part.embCounts ∉ A := by decide) : SameGroup g s t := by
  obtain ⟨e1, e2⟩ := And.intro (h .embed h1) (h .embCounts h2)
  exact ⟨by rw [show t.embed = s.embed from e1], by rw [show t.embCounts = s.embCounts from e2]⟩

/-- R129: the groups of another lane do not enter. -/
theorem enterLane_other (s : State) {l : Fin 4} {g : Fin 16} (h : groupLane g ≠ l) : SameGroup g s (s.enterLane l) := by
  have hg : ∀ c, groupNo l c ≠ g := fun c e => h (e ▸ groupNo_lane l c)
  have key : ∀ (cs : List (Fin 4)) (u : State), SameGroup g u (cs.foldl (fun s c =>
      if s.plan.get (groupNo l c) = .embed then s.enterEmbed (groupNo l c) else s) u) := by
    intro cs
    induction cs with
    | nil => exact fun u => ⟨rfl, rfl⟩
    | cons c cs ih =>
      intro u
      refine SameGroup.trans ?_ (ih _)
      dsimp only
      split
      · exact ⟨by rw [enterEmbed_embed, if_neg fun e => hg c e.1], by rw [enterEmbed_counts, if_neg fun e => hg c e.1]⟩
      · exact ⟨rfl, rfl⟩
  unfold State.enterLane
  split
  · exact key four s
  · exact ⟨rfl, rfl⟩

/-- R129 to R134: the builder's part leaves the groups of another lane alone. -/
theorem builderSwitchLine_other (s : State) {l : Fin 4} {g : Fin 16} (h : groupLane g ≠ l) :
    SameGroup g s (s.builderSwitchLine l) := by
  have hu : SameGroup g s (s.updBuilder l fun b => { b with phase := .engaged }) := ⟨rfl, rfl⟩
  unfold State.builderSwitchLine
  refine SameGroup.trans ?_ (enterLane_other _ h)
  split
  · exact hu
  · unfold State.bypassEnter
    exact (hu.trans ⟨rfl, rfl⟩).trans (holdLane_other _ h)
  · exact hu
  · unfold State.bypassExit
    have ht := sameGroup_of (g := g) (keeps_triggerAll (s := ((s.updBuilder l fun b => { b with phase :=
      .engaged }).updBuilder l fun b => { b with bypass := .out })) (laneDests l))
    exact ht

/-! ### The switch line without take items -/

/-- With an empty take list, either order is the builder's part alone. -/
theorem switchLine_nil {s : State} {l : Fin 4} (bf : Bool) (h : s.takes.get (laneDomain l) = []) :
    s.switchLine l bf = s.builderSwitchLine l := by
  unfold State.switchLine
  split
  · exact boundary_nil (by rw [(keeps_builderSwitchLine l).takes]; exact h)
  · rw [boundary_nil h]

/-- What follows the line start reads the same receivers and relays. -/
theorem tookLine7_of {A : List Part} {s t u : State} {l : Fin 4} {ws : List LaneWord} (h : TookLine7 s t l ws)
    (k : Keeps A t u) (h1 : Part.lanes ∉ A := by decide) (h2 : Part.relays ∉ A := by decide) : TookLine7 s u l ws := by
  obtain ⟨e1, e2⟩ := And.intro (k .lanes h1) (k .relays h2)
  exact ⟨(show u.lanes = t.lanes from e1).trans h.1, (show u.relays = t.relays from e2).trans h.2⟩

theorem running_of_tookLine7 {s t : State} {l : Fin 4} {ws : List LaneWord} (h : TookLine7 s t l ws)
    (hr : (s.lanes.get l).state = .running) : t.running l = true := by
  simp [State.running, h.1, hr]

/-- Settles O24. -/
theorem switchLineEntersEmbed : Obligations.SwitchLineEntersEmbed := by
  intro l ws bf s hr hw hs ha he hb ht
  obtain ⟨s1, hx, h7, k1⟩ := lineStart_seven l ws bf s hr hw hs ha he
  rw [switchLine_nil bf (by rw [k1.takes]; exact ht)] at hx
  obtain ⟨t, hu, hB, k2, -, -, hg⟩ := builderSwitchLine_spec s1 l (running_of_tookLine7 h7 hr)
  have hother := fun g (h : groupLane g ≠ l) => builderSwitchLine_other s1 h
  rw [hu] at hx hother
  have hb1 : (s1.builders.get l).bypass = .out := by rw [k1.builders]; exact hb
  refine ⟨t, hx, tookLine7_of h7 k2, ?_, fun c => ?_, fun g h => ?_, k1.andThen k2⟩
  · rw [hB, k1.builders]; simp only [hb]
  · obtain ⟨-, -, h1⟩ := hg c
    obtain ⟨e1, e2, e3⟩ := h1 (.inl hb1)
    rw [k1.plan, k1.embed] at e1 e2 e3
    rw [k1.embCounts] at e2
    rw [k1.live] at e3
    split
    · next hc =>
      rw [if_pos hc] at e1 e2
      exact ⟨e1, e2, fun ch hm => e3 hc.1 hc.2 _ (mem_groupDests _ ch) hm⟩
    · next hc =>
      rw [if_neg hc] at e1 e2
      exact ⟨e1, e2⟩
  · have := hother g h
    rw [SameGroup, k1.embed, k1.embCounts] at this
    exact this

theorem toHolding_state {st : Store} (h : st.state = .holding ∨ st.state = .flowing) : st.toHolding.state = .holding := by
  unfold Store.toHolding
  rcases h with h | h <;> simp [h]

/-- Settles O25. -/
theorem switchLineMovesBypass : Obligations.SwitchLineMovesBypass := by
  intro l ws bf s hok hr hw hs ha he ht
  obtain ⟨s1, hx, h7, k1⟩ := lineStart_seven l ws bf s hr hw hs ha he
  rw [switchLine_nil bf (by rw [k1.takes]; exact ht)] at hx
  obtain ⟨t, hu, hB, k2, -, htr, hg⟩ := builderSwitchLine_spec s1 l (running_of_tookLine7 h7 hr)
  refine ⟨fun hb => ?_, fun hb => ?_, fun hb => ?_⟩
  · have hb1 : (s1.builders.get l).bypass = .entering := by rw [k1.builders]; exact hb
    have ke : Keeps [.builders, .embed, .embCounts] s1 t := by
      rw [← hu, builderSwitchLine_entering hb1]
      exact ((keeps_updBuilder _ _).andThen (keeps_updBuilder _ _) (C := [.builders])).andThen (keeps_holdLane _)
    rw [hu] at hx
    refine ⟨t, hx, tookLine7_of h7 k2, ?_, fun c => ?_, k1.andThen ke⟩
    · rw [hB, k1.builders, hb]
    · obtain ⟨h1, -, -⟩ := hg c
      obtain ⟨e1, e2⟩ := h1 hb1
      rw [e1, e2, k1.embed, k1.embCounts]
      exact ⟨toHolding_state (hok.2 _).2.1, (toHolding_facts _).2, rfl, rfl⟩
  · have hb1 : (s1.builders.get l).bypass = .inside := by rw [k1.builders]; exact hb
    have ke : Keeps [.builders] s1 t := by
      rw [← hu, builderSwitchLine_inside hb1]
      exact keeps_updBuilder _ _
    rw [hu] at hx
    refine ⟨t, hx, tookLine7_of h7 k2, ?_, k1.andThen ke⟩
    rw [hB, k1.builders]; simp only [hb]
  · have hb1 : (s1.builders.get l).bypass = .leaving := by rw [k1.builders]; exact hb
    rw [hu] at hx
    refine ⟨t, hx, tookLine7_of h7 k2, ?_, ?_, fun c hp => ?_, k1.andThen k2⟩
    · rw [hB, k1.builders, hb]
    · rw [← k1.live]; exact htr hb1
    · obtain ⟨-, -, h1⟩ := hg c
      obtain ⟨e1, -, -⟩ := h1 (.inr hb1)
      rw [e1, k1.plan]
      split
      · rfl
      · next hn => exact Classical.byContradiction fun hs => hn ⟨hp, hs⟩

end Sys2Proof.Machine
end

section
/-! O26: the take list of a lane at line 7 in sequence, in either order with the builder. -/

set_option Elab.async false

namespace Sys2Proof.Machine

/-! ### What the builder's part leaves of what a take list reads -/

/-- From `s` to `t` nothing that a take list reads or changes has moved but triggers, stores, counts and builders. -/
def OnlyTriggers (s t : State) : Prop :=
  Keeps [.lanes, .relays, .builders, .embed, .embCounts, .engine] s t
    ∧ ∀ d : Fin 96, t.engine.get d = s.engine.get d ∨ t.engine.get d = { s.engine.get d with trigger := true }

theorem OnlyTriggers.trans {s t u : State} (h : OnlyTriggers s t) (k : OnlyTriggers t u) : OnlyTriggers s u := by
  refine ⟨h.1.andThen k.1, fun d => ?_⟩
  rcases h.2 d with h1 | h1 <;> rcases k.2 d with k1 | k1 <;> simp [h1, k1]

theorem OnlyTriggers.xfade {s t : State} (h : OnlyTriggers s t) (d : Fin 96) :
    (t.engine.get d).xfade = (s.engine.get d).xfade := by
  rcases h.2 d with h1 | h1 <;> rw [h1]

theorem OnlyTriggers.trigger {s t : State} (h : OnlyTriggers s t) {d : Fin 96}
    (ht : (s.engine.get d).trigger = true) : (t.engine.get d).trigger = true := by
  rcases h.2 d with h1 | h1 <;> simp [h1, ht]

theorem OnlyTriggers.crossfading {s t : State} (h : OnlyTriggers s t) (d : Fin 96) :
    (t.engine.get d).crossfading = (s.engine.get d).crossfading := crossfading_congr (h.xfade d)

/-- R73, R78: the notices of a boundary read nothing that a builder changes. -/
theorem boundaryNotices_of {s t : State} (h : OnlyTriggers s t) (dom : Fin 5) :
    boundaryNotices t dom = boundaryNotices s dom := by
  have hr : refuser t = refuser s := by funext x; unfold refuser; rw [h.1.owners]
  have hh : holdsBack t = holdsBack s := by
    funext x
    unfold holdsBack
    split
    · exact h.crossfading _
    · rfl
  unfold boundaryNotices
  rw [hr, hh, h.1.takes]

/-- What dealing with a take list comes to reads nothing that a builder changes. -/
theorem dealsWithTakes_of {s u v t : State} {dom : Fin 5} (h1 : OnlyTriggers s u) (h : DealsWithTakes u v dom)
    (h2 : OnlyTriggers v t) : DealsWithTakes s t dom := by
  unfold DealsWithTakes FreeFor at *
  rw [h2.1.live, h2.1.takes, h2.1.monitors, h2.1.plan]
  simp only [h2.xfade]
  simpa only [h1.1.live, h1.1.takes, h1.1.monitors, h1.1.plan, h1.1.owners, h1.xfade, h1.crossfading] using h

/-! ### One boundary -/

/-- R72 to R77: what a boundary makes of the items of its list. -/
theorem boundary_deals {s : State} {dom : Fin 5} (h : takeListOk dom (s.takes.get dom)) :
    DealsWithTakes s (s.boundary dom) dom := by
  obtain ⟨b1, b2, b3, b4, -⟩ := boundary_spec s dom
  obtain ⟨r1, -⟩ := boundary_rest s dom h
  have hb4 : (s.boundary dom).takes.get dom = (s.dealItems (s.takes.get dom)).2.1 := by rw [b4, Bank.get_set_self]
  unfold DealsWithTakes
  rw [b1, b2, b3, hb4, r1]
  refine ⟨fun x d e hx hb => ?_, fun x g m hx hb => ?_⟩
  · obtain ⟨d1, d2, d3⟩ := dealItems_dest _ s h.2 x hx d e hb
    obtain ⟨m1, m2⟩ := dealItems_monitor _ s h.2 x hx d e hb
    exact ⟨fun hf => ⟨(d1 hf).1, (d1 hf).2, m2 (.inl hf)⟩,
      fun hf hc => ⟨(d2 hf hc).1, (d2 hf hc).2, m2 (.inr hc)⟩,
      fun hf hc => ⟨(d3 hf hc).1, (d3 hf hc).2.1, (d3 hf hc).2.2, m1 hf hc⟩⟩
  · obtain ⟨p1, p2, p3⟩ := dealItems_plan _ s h.2 x hx g m hb
    refine ⟨p1, ?_⟩
    by_cases hf : FreeFor s (planItem g) x.stager
    · rw [p2 hf]; exact (if_pos hf).symm
    · rw [p3 hf]; exact (if_neg hf).symm

/-- R72: what has no item in the list is as it was, but for triggers. -/
theorem boundary_untouched {s : State} {dom : Fin 5} (h : takeListOk dom (s.takes.get dom)) {it : Fin 112}
    (hf : findItem (s.takes.get dom) it = none) :
    (∀ d, it = destItem d → (s.boundary dom).live.get d = s.live.get d
        ∧ (s.boundary dom).monitors.get d = s.monitors.get d
        ∧ ((s.boundary dom).engine.get d = s.engine.get d
          ∨ (s.boundary dom).engine.get d = { s.engine.get d with trigger := true }))
      ∧ ∀ g, it = planItem g → (s.boundary dom).plan.get g = s.plan.get g := by
  obtain ⟨b1, b2, b3, -, -⟩ := boundary_spec s dom
  obtain ⟨r1, -⟩ := boundary_rest s dom h
  rw [b1, b2, b3, r1]
  refine ⟨?_, ?_⟩
  · rintro d rfl
    obtain ⟨u1, u2⟩ := dealItems_untouched _ s d (findItem_none hf)
    exact ⟨(dealItems_other _ s d (findItem_none hf)).1, u1, u2⟩
  · rintro g rfl
    exact dealItems_otherPlan _ s g (findItem_none hf)

/-- R77: a group whose items belong to another list keeps its store and counts. -/
theorem boundary_other {s : State} {dom : Fin 5} (h : takeListOk dom (s.takes.get dom)) {g : Fin 16}
    (hg : itemDomain (planItem g) ≠ dom) : SameGroup g s (s.boundary dom) := by
  obtain ⟨-, r2, r3, -⟩ := boundary_rest s dom h
  rw [SameGroup, r2, r3]
  exact dealItems_group_other _ s g fun x hx e => hg ((congrArg itemDomain e).symm.trans (h.1 x hx))

/-! ### The store and the counts of one group -/

/-- R129: a group that enters EMBED. -/
def enteredGroup (x : Store × EmbedCount) : Store × EmbedCount :=
  ({ x.1 with state := .flowing, reads := 0 }, { next := 0, owed := 0 })

/-- R130: a group that leaves EMBED. -/
def leftGroup (x : Store × EmbedCount) : Store × EmbedCount := (x.1.toHolding, { x.2 with owed := 0 })

/-- R129 to R134: what the builder's part makes of a group of mode `p` in bypass state `b`. -/
def builtGroup (b : Bypass) (p : PlanMode) (x : Store × EmbedCount) : Store × EmbedCount :=
  match b with
  | .entering => leftGroup x
  | .inside => x
  | .out | .leaving => if p = .embed ∧ x.1.state ≠ .flowing then enteredGroup x else x

/-- R77: what a boundary makes of a group whose mode goes from `p` to `m`, where it may embed if `ce` says so. -/
def dealtGroup (ce : Bool) (p m : PlanMode) (x : Store × EmbedCount) : Store × EmbedCount :=
  if p ≠ m ∧ m = .embed ∧ ce = true ∧ x.1.state ≠ .flowing then enteredGroup x
  else if p = .embed ∧ m ≠ .embed then leftGroup x else x

/-- What a switch line makes of a group from `x` to `y`, without the triggers. -/
def SwitchedGroup (b : Bypass) (p m : PlanMode) (x y : Store × EmbedCount) : Prop :=
  if b = .entering ∨ m ≠ .embed ∧ p = .embed then y.1.state ≠ .flowing ∧ y.1.sets = x.1.sets ∧ y.2.owed = 0
  else if m = .embed ∧ b ≠ .inside ∧ x.1.state ≠ .flowing then y = enteredGroup x
  else y = x

/-- The bypass state after a switch line. -/
def Bypass.switched : Bypass → Bypass
  | .out => .out
  | .entering => .inside
  | .inside => .inside
  | .leaving => .out

theorem leftGroup_facts (x : Store × EmbedCount) :
    (leftGroup x).1.state ≠ .flowing ∧ (leftGroup x).1.sets = x.1.sets ∧ (leftGroup x).2.owed = 0 :=
  ⟨(toHolding_facts x.1).1, (toHolding_facts x.1).2, rfl⟩

theorem leftGroup_twice (x : Store × EmbedCount) : leftGroup (leftGroup x) = leftGroup x := by
  simp [leftGroup, toHolding_idem]

theorem ite_enteredGroup_sets (c : Prop) [Decidable c] (x : Store × EmbedCount) :
    (if c then enteredGroup x else x).1.sets = x.1.sets := by split <;> rfl

/-- The builder first: its part, and then the list with the bypass that it leaves. -/
theorem switchedGroup_builder (b : Bypass) (p m : PlanMode) (x : Store × EmbedCount) :
    SwitchedGroup b p m x (dealtGroup (!b.switched.inBypass) p m (builtGroup b p x)) := by
  obtain ⟨f1, f2, f3⟩ := leftGroup_facts x
  unfold SwitchedGroup
  by_cases hl : m ≠ .embed ∧ p = .embed
  · rw [if_pos (.inr hl)]
    have hd : ∀ c y, dealtGroup c p m y = leftGroup y := fun c y => by
      rw [dealtGroup, if_neg fun h => hl.1 h.2.1, if_pos ⟨hl.2, hl.1⟩]
    rw [hd]
    obtain ⟨g1, g2, g3⟩ := leftGroup_facts (builtGroup b p x)
    refine ⟨g1, g2.trans ?_, g3⟩
    cases b with
    | entering => exact f2
    | inside => rfl
    | out => exact ite_enteredGroup_sets _ x
    | leaving => exact ite_enteredGroup_sets _ x
  · have hd : ∀ y, dealtGroup false p m y = y := fun y => by
      rw [dealtGroup, if_neg (by simp), if_neg fun h => hl ⟨h.2, h.1⟩]
    have key : (if m = .embed ∧ x.1.state ≠ .flowing then
          dealtGroup true p m (if p = .embed ∧ x.1.state ≠ .flowing then enteredGroup x else x) = enteredGroup x
        else dealtGroup true p m (if p = .embed ∧ x.1.state ≠ .flowing then enteredGroup x else x) = x) := by
      by_cases hm : m = .embed
      · by_cases hp : p = .embed
        · subst hm hp
          by_cases hs : x.1.state = .flowing <;> simp [hs, dealtGroup]
        · by_cases hs : x.1.state = .flowing <;> simp [hs, hp, hm, dealtGroup]
      · have hp : p ≠ .embed := fun h => hl ⟨hm, h⟩
        simp [hm, hp, dealtGroup]
    cases b with
    | entering =>
      rw [if_pos (.inl rfl)]
      show _ ∧ _
      rw [show (!Bypass.entering.switched.inBypass) = false from rfl, hd]
      exact leftGroup_facts x
    | inside => simpa [hl, builtGroup, Bypass.switched, Bypass.inBypass] using hd x
    | out => simpa [hl, builtGroup, Bypass.switched, Bypass.inBypass] using key
    | leaving => simpa [hl, builtGroup, Bypass.switched, Bypass.inBypass] using key

/-- The list first, and then the builder's part with the modes that it leaves. -/
theorem switchedGroup_list (b : Bypass) (p m : PlanMode) (x : Store × EmbedCount) :
    SwitchedGroup b p m x (builtGroup b m (dealtGroup (!b.inBypass) p m x)) := by
  obtain ⟨f1, f2, f3⟩ := leftGroup_facts x
  unfold SwitchedGroup
  by_cases hl : m ≠ .embed ∧ p = .embed
  · have hd : dealtGroup (!b.inBypass) p m x = leftGroup x := by
      rw [dealtGroup, if_neg fun h => hl.1 h.2.1, if_pos ⟨hl.2, hl.1⟩]
    rw [if_pos (.inr hl), hd]
    cases b with
    | entering => rw [builtGroup, leftGroup_twice]; exact ⟨f1, f2, f3⟩
    | inside => exact ⟨f1, f2, f3⟩
    | out => rw [builtGroup, if_neg fun h => hl.1 h.1]; exact ⟨f1, f2, f3⟩
    | leaving => rw [builtGroup, if_neg fun h => hl.1 h.1]; exact ⟨f1, f2, f3⟩
  · have hd : ∀ c, dealtGroup c p m x
        = if p ≠ m ∧ m = .embed ∧ c = true ∧ x.1.state ≠ .flowing then enteredGroup x else x := fun c => by
      unfold dealtGroup
      split
      · rfl
      · rw [if_neg fun h => hl ⟨h.2, h.1⟩]
    rw [hd]
    cases b with
    | entering =>
      rw [if_pos (.inl rfl), builtGroup]
      obtain ⟨g1, g2, g3⟩ := leftGroup_facts
        (if p ≠ m ∧ m = .embed ∧ (!Bypass.entering.inBypass) = true ∧ x.1.state ≠ .flowing then enteredGroup x else x)
      refine ⟨g1, g2.trans ?_, g3⟩
      exact ite_enteredGroup_sets _ x
    | inside => simp [hl, builtGroup, Bypass.inBypass]
    | out =>
      by_cases hm : m = .embed
      · by_cases hp : p = .embed <;> by_cases hs : x.1.state = .flowing <;>
          simp [hm, hp, hs, builtGroup, Bypass.inBypass, enteredGroup]
      · have hp : p ≠ .embed := fun h => hl ⟨hm, h⟩
        simp [hm, hp, builtGroup]
    | leaving =>
      by_cases hm : m = .embed
      · by_cases hs : x.1.state = .flowing <;> simp [hm, hs, builtGroup, Bypass.inBypass]
      · have hp : p ≠ .embed := fun h => hl ⟨hm, h⟩
        simp [hm, hp, builtGroup]

/-! ### The parts of the machine in these terms -/

/-- The store and the counts of a group. -/
def State.groupPart (s : State) (g : Fin 16) : Store × EmbedCount := (s.embed.get g, s.embCounts.get g)

/-- R129 to R134: the builder's part, with triggers as all that it makes of the engine. -/
theorem builderSwitchLine_takes (s : State) (l : Fin 4) (hr : s.running l = true) : ∃ t, s.builderSwitchLine l = t
    ∧ OnlyTriggers s t ∧ Keeps [.builders, .embed, .embCounts, .engine] s t
    ∧ t.builders.get l = { s.builders.get l with phase := .engaged, bypass := (s.builders.get l).bypass.switched }
    ∧ ((s.builders.get l).bypass = .leaving → ∀ n : Fin 16, (s.live.get (laneDest l n)).mode = .pcm →
        (t.engine.get (laneDest l n)).trigger = true)
    ∧ (∀ c, t.groupPart (groupNo l c)
        = builtGroup (s.builders.get l).bypass (s.plan.get (groupNo l c)) (s.groupPart (groupNo l c)))
    ∧ (∀ c, (s.builders.get l).bypass.inBypass = false ∨ (s.builders.get l).bypass = .leaving →
        (s.builders.get l).bypass ≠ .entering → s.plan.get (groupNo l c) = .embed →
        (s.embed.get (groupNo l c)).state ≠ .flowing → ∀ d ∈ groupDests (groupNo l c), (s.live.get d).mode = .pcm →
        (t.engine.get d).trigger = true)
    ∧ ∀ g, groupLane g ≠ l → SameGroup g s t := by
  obtain ⟨t, hu, hB, k2, he, hl, hg⟩ := builderSwitchLine_spec s l hr
  have hother := fun g (h : groupLane g ≠ l) => builderSwitchLine_other s h
  rw [hu] at hother
  refine ⟨t, hu, ⟨k2.mono, he⟩, k2, ?_, hl, fun c => ?_, fun c hb hne hp hs d hd hm => ?_, hother⟩
  · rw [hB]; cases (s.builders.get l).bypass <;> rfl
  · obtain ⟨g1, g2, g3⟩ := hg c
    cases hb : (s.builders.get l).bypass with
    | entering => obtain ⟨e1, e2⟩ := g1 hb; exact Prod.ext e1 e2
    | inside => obtain ⟨e1, e2⟩ := g2 hb; exact Prod.ext e1 e2
    | out =>
      obtain ⟨e1, e2, -⟩ := g3 (.inl hb)
      refine Prod.ext (e1.trans ?_) (e2.trans ?_) <;> · unfold builtGroup State.groupPart; dsimp only; split <;> rfl
    | leaving =>
      obtain ⟨e1, e2, -⟩ := g3 (.inr hb)
      refine Prod.ext (e1.trans ?_) (e2.trans ?_) <;> · unfold builtGroup State.groupPart; dsimp only; split <;> rfl
  · obtain ⟨-, -, g3⟩ := hg c
    refine (g3 ?_).2.2 hp hs d hd hm
    cases h : (s.builders.get l).bypass <;> simp_all [Bypass.inBypass]

/-- R77: the group part of a boundary. -/
theorem boundary_group {s : State} {l : Fin 4} (h : takeListOk (laneDomain l) (s.takes.get (laneDomain l))) (c : Fin 4) :
    (s.boundary (laneDomain l)).groupPart (groupNo l c) = dealtGroup (s.canEmbed l) (s.plan.get (groupNo l c))
      ((s.boundary (laneDomain l)).plan.get (groupNo l c)) (s.groupPart (groupNo l c)) := by
  obtain ⟨-, b2, -⟩ := boundary_spec s (laneDomain l)
  obtain ⟨-, r2, r3, -⟩ := boundary_rest s (laneDomain l) h
  obtain ⟨g1, g2⟩ := dealItems_group _ s (groupNo l c) h.2 _ rfl
  rw [groupNo_lane] at g1 g2
  rw [b2]
  unfold State.groupPart
  rw [r2, r3, g1, g2]
  unfold dealtGroup
  dsimp only
  split
  · rfl
  · split <;> rfl

/-! ### Either order -/

/-- R72 to R78: what the list comes to, whatever part of the builder's work stands before and after it. -/
theorem boundary_between {s u t : State} {dom : Fin 5} (hok : takeListOk dom (s.takes.get dom))
    (h1 : OnlyTriggers s u) (h2 : OnlyTriggers (u.boundary dom) t) :
    DealsWithTakes s t dom
    ∧ (∀ it : Fin 112, findItem (s.takes.get dom) it = none →
        (∀ d, it = destItem d → t.live.get d = s.live.get d ∧ t.monitors.get d = s.monitors.get d
          ∧ (t.engine.get d = s.engine.get d ∨ t.engine.get d = { s.engine.get d with trigger := true }))
        ∧ (∀ g, it = planItem g → t.plan.get g = s.plan.get g))
    ∧ t.events = (s.raiseAll (boundaryNotices s dom)).events
    ∧ (∀ dom', dom' ≠ dom → t.takes.get dom' = s.takes.get dom')
    ∧ Keeps ([.relays, .lanes, .builders] ++ boundaryParts) s t := by
  have hu : takeListOk dom (u.takes.get dom) := by rw [h1.1.takes]; exact hok
  obtain ⟨-, -, -, b4, -⟩ := boundary_spec u dom
  obtain ⟨-, -, -, r4, -⟩ := boundary_rest u dom hu
  have hk : Keeps ([.relays, .lanes, .builders] ++ boundaryParts) s t :=
    ((h1.1.mono (B := [.relays, .lanes, .builders] ++ boundaryParts)).andThen (keeps_boundary (s := u) dom)
      (C := [.relays, .lanes, .builders] ++ boundaryParts)).andThen h2.1
  refine ⟨dealsWithTakes_of h1 (boundary_deals hu) h2, fun it hf => ?_, ?_, fun dom' h => ?_, hk⟩
  · obtain ⟨u1, u2⟩ := boundary_untouched hu (it := it) (by rw [h1.1.takes]; exact hf)
    refine ⟨fun d hd => ?_, fun g hg => ?_⟩
    · obtain ⟨e1, e2, e3⟩ := u1 d hd
      rw [h2.1.live, h2.1.monitors, e1, e2, h1.1.live, h1.1.monitors]
      refine ⟨rfl, rfl, ?_⟩
      rcases h1.2 d with h3 | h3 <;> rcases e3 with e3 | e3 <;> rcases h2.2 d with h4 | h4 <;> simp [h4, e3, h3]
    · rw [h2.1.plan, u2 g hg, h1.1.plan]
  · rw [h2.1.events, r4, boundaryNotices_of h1]
    exact (raiseAll_congr h1.1.events h1.1.eventNo (by rw [h1.1.ref]) _).1
  · rw [h2.1.takes, b4, Bank.get_set, if_neg (Ne.symm h), h1.1.takes]

/-- R72 to R78, R129 to R134: what a switch line makes of a group and of its triggers. -/
def GroupTook (s t : State) (l c : Fin 4) : Prop :=
  SwitchedGroup (s.builders.get l).bypass (s.plan.get (groupNo l c)) (t.plan.get (groupNo l c))
      (s.groupPart (groupNo l c)) (t.groupPart (groupNo l c))
    ∧ ((s.builders.get l).bypass ≠ .entering → (s.builders.get l).bypass ≠ .inside →
        t.plan.get (groupNo l c) = .embed → (s.embed.get (groupNo l c)).state ≠ .flowing →
        ∀ d ∈ groupDests (groupNo l c), (s.live.get d).mode = .pcm → (t.live.get d).mode = .pcm →
          (t.engine.get d).trigger = true)

/-- What belongs to the builder and to the groups of a lane after a switch line. -/
def LaneTook (s t : State) (l : Fin 4) : Prop :=
  t.builders.get l = { s.builders.get l with phase := .engaged, bypass := (s.builders.get l).bypass.switched }
    ∧ ((s.builders.get l).bypass = .leaving → ∀ n : Fin 16, (s.live.get (laneDest l n)).mode = .pcm →
        (t.live.get (laneDest l n)).mode = .pcm → (t.engine.get (laneDest l n)).trigger = true)
    ∧ (∀ c, GroupTook s t l c)
    ∧ ∀ g, groupLane g ≠ l → SameGroup g s t

theorem canEmbed_eq {s : State} {l : Fin 4} (hr : s.running l = true) :
    s.canEmbed l = !(s.builders.get l).bypass.inBypass := by rw [State.canEmbed, hr, Bool.true_and]

/-- The builder's part first. -/
theorem builderFirst_took {s : State} {l : Fin 4} (hr : s.running l = true)
    (hok : takeListOk (laneDomain l) (s.takes.get (laneDomain l))) :
    LaneTook s ((s.builderSwitchLine l).boundary (laneDomain l)) l := by
  obtain ⟨u, hu, h1, k1, hB, hl, hg, htr, ho⟩ := builderSwitchLine_takes s l hr
  rw [hu]
  have hu' : takeListOk (laneDomain l) (u.takes.get (laneDomain l)) := by rw [k1.takes]; exact hok
  have hru : u.running l = true := by rw [State.running, k1.lanes]; exact hr
  obtain ⟨b1, b2, b3, -⟩ := boundary_spec u (laneDomain l)
  have hkeep : ∀ d, (u.engine.get d).trigger = true → (s.live.get d).mode = .pcm →
      ((u.boundary (laneDomain l)).live.get d).mode = .pcm →
      ((u.boundary (laneDomain l)).engine.get d).trigger = true := fun d ht hm hm' => by
    rw [b3]; rw [b1] at hm'
    exact dealItems_trigger _ u d hu'.2 ht (by rw [k1.live]; exact hm) hm'
  refine ⟨by rw [(keeps_boundary _).builders]; exact hB, fun hb n hm hm' => hkeep _ (hl hb n hm) hm hm',
    fun c => ⟨?_, fun hb1 hb2 hp hs d hd hm hm' => ?_⟩, fun g h => (ho g h).trans (boundary_other hu' ?_)⟩
  · rw [boundary_group hu', canEmbed_eq hru, hB, hg, k1.plan]
    exact switchedGroup_builder _ _ _ _
  · by_cases hps : s.plan.get (groupNo l c) = .embed
    · refine hkeep d (htr c ?_ hb1 hps hs d hd hm) hm hm'
      revert hb1 hb2; cases (s.builders.get l).bypass <;> simp [Bypass.inBypass]
    · have he : u.groupPart (groupNo l c) = s.groupPart (groupNo l c) := by
        rw [hg]
        revert hb1 hb2; cases (s.builders.get l).bypass <;> simp [builtGroup, hps]
      rw [b3]; rw [b2] at hp; rw [b1] at hm'
      refine dealItems_enter _ u (groupNo l c) d hu'.2 (by rw [k1.plan]; exact hps) hp ?_ ?_ hd
        (by rw [k1.live]; exact hm) hm'
      · rw [groupNo_lane, canEmbed_eq hru, hB]
        revert hb1 hb2; cases (s.builders.get l).bypass <;> simp [Bypass.inBypass, Bypass.switched]
      · rw [show u.embed.get (groupNo l c) = s.embed.get (groupNo l c) from congrArg Prod.fst he]; exact hs
  · rw [planItem_domain, Ne, laneDomain_inj]; exact h

/-- The take list first. -/
theorem listFirst_took {s : State} {l : Fin 4} (hr : s.running l = true)
    (hok : takeListOk (laneDomain l) (s.takes.get (laneDomain l))) :
    LaneTook s ((s.boundary (laneDomain l)).builderSwitchLine l) l := by
  have kb := keeps_boundary (s := s) (laneDomain l)
  have hrv : (s.boundary (laneDomain l)).running l = true := by rw [State.running, kb.lanes]; exact hr
  obtain ⟨t, ht, h1, k1, hB, hl, hg, htr, ho⟩ := builderSwitchLine_takes _ l hrv
  rw [ht]
  rw [kb.builders] at hB hl hg htr
  obtain ⟨b1, b2, b3, -⟩ := boundary_spec s (laneDomain l)
  refine ⟨hB, fun hb n _ hm => hl hb n (by rw [k1.live] at hm; exact hm), fun c => ⟨?_, fun hb1 hb2 hp hs d hd hm hm' => ?_⟩,
    fun g h => (boundary_other hok ?_).trans (ho g h)⟩
  · rw [hg, boundary_group hok, canEmbed_eq hr, k1.plan]
    exact switchedGroup_list _ _ _ _
  · rw [k1.plan] at hp
    rw [k1.live] at hm'
    have hbo : (s.builders.get l).bypass = .out ∨ (s.builders.get l).bypass = .leaving := by
      revert hb1 hb2; cases (s.builders.get l).bypass <;> simp
    by_cases hv : ((s.boundary (laneDomain l)).embed.get (groupNo l c)).state = .flowing
    · have hgr := boundary_group hok c
      have hmoved : s.plan.get (groupNo l c) ≠ .embed ∧ s.canEmbed l = true := by
        refine Classical.byContradiction fun hn => hs ?_
        have : (s.boundary (laneDomain l)).groupPart (groupNo l c) = s.groupPart (groupNo l c) := by
          rw [hgr, dealtGroup, if_neg fun h => hn ⟨fun e => h.1 (e.trans hp.symm), h.2.2.1⟩, if_neg fun h => h.2 hp]
        rw [← show (s.boundary (laneDomain l)).embed.get (groupNo l c) = s.embed.get (groupNo l c) from
          congrArg Prod.fst this]
        exact hv
      refine h1.trigger ?_
      rw [b3]; rw [b2] at hp; rw [b1] at hm'
      exact dealItems_enter _ s (groupNo l c) d hok.2 hmoved.1 hp (by rw [groupNo_lane]; exact hmoved.2) hs hd hm hm'
    · refine htr c ?_ hb1 hp hv d hd hm'
      rcases hbo with h | h
      · exact .inl (by rw [h]; rfl)
      · exact .inr h
  · rw [planItem_domain, Ne, laneDomain_inj]; exact h

/-- Settles O26: in either order the list stands between two states that differ in nothing it reads. -/
theorem switchLineAppliesTakes : Obligations.SwitchLineAppliesTakes := by
  intro l ws bf s hok hr hw hs ha he
  obtain ⟨s1, hx, h7, k1⟩ := lineStart_seven l ws bf s hr hw hs ha he
  have hr1 := running_of_tookLine7 h7 hr
  have hok1 : takeListOk (laneDomain l) (s1.takes.get (laneDomain l)) := by rw [k1.takes]; exact hok _
  have h1 : OnlyTriggers s s1 := ⟨k1.mono, fun d => .inl (by rw [k1.engine])⟩
  obtain ⟨u, v, hu, hv, ht7, hL⟩ : ∃ u : State, ∃ v : State, OnlyTriggers s u ∧ OnlyTriggers (u.boundary (laneDomain l)) v
      ∧ TookLine7 s v l ws ∧ v = s1.switchLine l bf ∧ LaneTook s1 v l := by
    unfold State.switchLine
    cases bf with
    | true =>
      obtain ⟨u, hu, h2, k2, -⟩ := builderSwitchLine_takes s1 l hr1
      have hL := builderFirst_took hr1 hok1
      rw [if_pos rfl]
      rw [hu] at hL ⊢
      exact ⟨u, _, h1.trans h2, ⟨Keeps.refl _ _, fun d => .inl rfl⟩,
        tookLine7_of (tookLine7_of h7 k2) (keeps_boundary _), rfl, hL⟩
    | false =>
      have kb := keeps_boundary (s := s1) (laneDomain l)
      obtain ⟨v, hv, h2, k2, -⟩ := builderSwitchLine_takes (s1.boundary (laneDomain l)) l
        (by rw [State.running, kb.lanes]; exact hr1)
      have hL := listFirst_took hr1 hok1
      rw [if_neg (by decide)]
      rw [hv] at hL ⊢
      exact ⟨s1, v, h1, h2, tookLine7_of (tookLine7_of h7 kb) k2, rfl, hL⟩
  obtain ⟨hvx, hB, hlv, hG, hO⟩ := hL
  obtain ⟨c1, c2, c3, c4, c5⟩ := boundary_between (hok _) hu hv
  rw [← hvx] at hx
  rw [k1.builders] at hB hlv
  rw [k1.live] at hlv
  refine ⟨v, hx, ht7, c1, c2, ?_, hlv, fun c => ?_, fun g h => ?_, c3, c4, c5⟩
  · rw [hB]; cases (s.builders.get l).bypass <;> rfl
  · obtain ⟨g1, g2⟩ := hG c
    unfold State.groupPart at g1
    rw [k1.builders, k1.plan, k1.embed, k1.embCounts] at g1
    rw [k1.builders, k1.embed, k1.live] at g2
    unfold SwitchedGroup at g1
    split
    · next hc => rw [if_pos hc] at g1; exact g1
    · next hc =>
      rw [if_neg hc] at g1
      split
      · next hm =>
        rw [if_pos hm] at g1
        exact ⟨congrArg Prod.fst g1, congrArg Prod.snd g1, fun ch => g2 (fun e => hc (.inl e)) hm.2.1 hm.1 hm.2.2 _
          (mem_groupDests _ ch)⟩
      · next hm =>
        rw [if_neg hm] at g1
        exact ⟨congrArg Prod.fst g1, congrArg Prod.snd g1⟩
  · have := hO g h
    rw [SameGroup, k1.embed, k1.embCounts] at this
    exact this

end Sys2Proof.Machine
end

section
/-! HOUSE_TICK at the catalogue and the strip stores (O31, O32). -/

set_option Elab.async false

namespace Sys2Proof.Machine

/-! ### The parts of a tick -/

/-- The state in which a tick computes the destinations: the strip stores read, the trackers stepped, and the flags
that the operand names taken. -/
def State.flagged (s : State) (slots : Bank (BitVec 32) 32) (fs : List (Fin 96)) : State :=
  (s.readStrips.stepTrackers (s.tickRecords slots)).completeFlags fs

theorem keeps_flagged (s : State) (slots fs) : Keeps [.strip, .trackers] s (s.flagged slots fs) :=
  (keeps_readStrips.andThen (keeps_stepTrackers _) (C := [.strip, .trackers])).andThen (keeps_completeFlags fs)

/-- R38, R39: the trackers that the engine finds. -/
theorem flagged_trackers (s : State) (slots fs) (n : Fin 96) : (s.flagged slots fs).trackers.get n
    = if n ∈ fs then ((s.trackers.get n).step ((s.tickRecords slots).get (trackerSource n))).complete
      else (s.trackers.get n).step ((s.tickRecords slots).get (trackerSource n)) := by
  obtain ⟨b, hb, h⟩ := completeFlags_spec fs (s.readStrips.stepTrackers (s.tickRecords slots))
  rw [State.flagged, hb, h]
  simp [State.stepTrackers, State.readStrips]

theorem audioTick_strip (s : State) (slots fs) :
    (s.audioTick slots fs).strip = s.strip.map fun st => st.tickRead.1 := by
  simp only [State.audioTick]
  rw [(keeps_raiseEvents _).strip, (keeps_monitorTicks _).strip, (keeps_tickSerial _).strip,
    (keeps_writeEmbeds _).strip, (keeps_appendRecords _).strip, (keeps_applyTicks _).strip,
    (keeps_completeFlags _).strip, (keeps_stepTrackers _).strip]
  rfl

theorem audioTick_trackers (s : State) (slots fs) :
    (s.audioTick slots fs).trackers = (s.flagged slots fs).trackers := by
  simp only [State.audioTick]
  rw [(keeps_raiseEvents _).trackers, (keeps_monitorTicks _).trackers, (keeps_tickSerial _).trackers,
    (keeps_writeEmbeds _).trackers, (keeps_appendRecords _).trackers, (keeps_applyTicks _).trackers]
  rfl

/-- R33 to R35, R137, R138: the histories, the tone count and the serial ports after a tick. -/
theorem audioTick_catalogue (s : State) (slots fs) :
    (s.audioTick slots fs).hist = (s.hist.mapIdx fun n h => h.append ((s.tickRecords slots).get n))
      ∧ (s.audioTick slots fs).tone = (if s.tone < 191 then s.tone + 1 else 0)
      ∧ (s.audioTick slots fs).serial
        = { inStarted := true, sending := some (s.serial.handed.getD (.fill 32 .silent)),
            handed := some (localOutputs (s.flagged slots fs).destTicks) } := by
  have k := (keeps_flagged s slots fs).andThen (keeps_applyTicks (s.flagged slots fs).destTicks)
    (C := [.strip, .trackers, .engine, .free])
  simp only [State.audioTick]
  rw [(keeps_raiseEvents _).hist, (keeps_monitorTicks _).hist, (keeps_tickSerial _).hist, (keeps_writeEmbeds _).hist,
    (keeps_raiseEvents _).tone, (keeps_monitorTicks _).tone, (keeps_tickSerial _).tone, (keeps_writeEmbeds _).tone,
    (keeps_raiseEvents _).serial, (keeps_monitorTicks _).serial]
  unfold State.flagged at *
  refine ⟨?_, ?_, ?_⟩
  · simp only [State.appendRecords, k.hist]
  · simp only [State.appendRecords, k.tone]
  · simp only [State.tickSerial, State.writeEmbeds, State.appendRecords, Serial.tick, k.serial]

/-- R156, R157: what a house tick does before and after the computation, whatever the operand. -/
theorem houseTick_around (slots fs bf) (s : State) : ∃ q t, exec (.houseTick slots fs bf) s = .next t
    ∧ Keeps (.trackers :: frameParts) s q ∧ (∀ n, q.trackers.get n = (s.trackers.get n).complete)
    ∧ Keeps [.ref] (q.audioTick slots fs) t := by
  have hc : ∀ n, s.settleTick.trackers.get n = (s.trackers.get n).complete := fun n => by
    unfold State.settleTick
    dsimp only
    rw [keeps_settleBoundary.trackers, keeps_completeWindows.trackers]
    simp [State.completeBlocks]
  rw [exec_houseTick]
  cases bf with
  | true =>
    have k := (keeps_updRef (s := s.settleTick) RefUnit.tick).andThen keeps_settleBoundary (C := frameParts)
    exact ⟨_, _, rfl, keeps_settleTick.andThen k, fun n => by rw [k.trackers, hc], Keeps.refl _ _⟩
  | false => exact ⟨_, _, rfl, keeps_settleTick, hc, keeps_updRef _⟩

/-! ### The records of a tick -/

/-- R33: the newest records of a tick, by source. -/
theorem tickRecords_get (s : State) (slots) : (s.tickRecords slots).get 96 = toneRecord s.tone
    ∧ (s.tickRecords slots).get 97 = silentSource
    ∧ (∀ i : Fin 32, (s.tickRecords slots).get ⟨64 + i.val, by omega⟩
        = if s.serial.inStarted then { smp := slotSample (slots.get i), d := false } else .silent)
    ∧ ∀ (g : Fin 16) (ch : Fin 4), (s.tickRecords slots).get ⟨g.val * 4 + ch.val, by omega⟩
        = setRecord (s.strip.get g).tickRead.2 ch := by
  unfold State.tickRecords
  refine ⟨?_, ?_, fun i => ?_, fun g ch => ?_⟩
  · simp [tickRecord]
  · simp [tickRecord]
  · have h1 : ¬ 64 + i.val < 64 := by omega
    have h2 : 64 + i.val < 96 := by omega
    simp [tickRecord, h2]
  · have h1 : g.val * 4 + ch.val < 64 := by omega
    have h2 : (⟨(g.val * 4 + ch.val) / 4, by omega⟩ : Fin 16) = g := Fin.ext (by simp only; omega)
    have h3 : (⟨(g.val * 4 + ch.val) % 4, by omega⟩ : Fin 4) = ch := Fin.ext (by simp only; omega)
    simp only [Bank.get_tab, tickRecord, h1, dif_pos, h2, h3, State.stripReads, Bank.get_map]

/-- R38: a tracker takes a record, case by case. -/
theorem Tracker.step_cases (T : Tracker) (r : Record) :
    (r.smp.z = true → T.step r = { T with collecting := true, pos := 0 })
      ∧ (r.smp.z = false → T.collecting = false → T.step r = T)
      ∧ (r.smp.z = false → T.collecting = true → r.d = true → T.step r = { T with collecting := false, pos := 0 })
      ∧ (r.smp.z = false → T.collecting = true → r.d = false →
          T.step r = { T with pos := T.pos + 1, bit1 := if T.pos = 0 then r.smp.c else T.bit1 }) := by
  unfold Tracker.step
  refine ⟨fun h => ?_, fun h h1 => ?_, fun h h1 h2 => ?_, fun h h1 h2 => ?_⟩
  · simp [h]
  · simp [h, h1]
  · simp [h, h1, h2]
  · simp [h, h1, h2]

theorem Tracker.complete_eq (T : Tracker) : T.complete
    = if T.collecting = true ∧ 191 ≤ T.pos then { T with collecting := false, pos := 0, flag := T.bit1 } else T := by
  simp [Tracker.complete, Tracker.due]

/-- Settles O31. -/
theorem houseTickAppends : Obligations.HouseTickAppends := by
  intro slots fs bf s
  obtain ⟨q, t, hx, kq, hq, kt⟩ := houseTick_around slots fs bf s
  obtain ⟨a1, a2, a3⟩ := audioTick_catalogue q slots fs
  rw [← kt.hist] at a1
  rw [← kt.tone, kq.tone] at a2
  rw [← kt.serial, kq.serial] at a3
  have hnew : ∀ n, (t.hist.get n).read 0 = (q.tickRecords slots).get n := fun n => by
    rw [a1, Bank.get_mapIdx, History.read_append_zero]
  obtain ⟨r1, r2, r3, r4⟩ := tickRecords_get q slots
  refine ⟨t, hx, a2, fun n k hk => ?_, ?_, ?_, fun i => ?_, fun g ch hs => ?_, ?_, fun p i k hk => ?_,
    fun n T r hT hr => ⟨T.step r, (T.step_cases r).1, (T.step_cases r).2.1, (T.step_cases r).2.2.1,
      (T.step_cases r).2.2.2, ?_⟩⟩
  · rw [a1, Bank.get_mapIdx, History.read_append_succ _ _ hk, kq.hist]
  · rw [hnew, r1, kq.tone]
  · rw [hnew, r2]; rfl
  · rw [hnew, r3, kq.serial]; rfl
  · rw [hnew, r4, kq.strip, Store.tickRead, if_neg hs]; rfl
  · rw [a3]; rfl
  · refine ⟨_, ?_, portFrame_length _ p, portFrame_getElem _ p i hk⟩
    rw [Serial.frame, a3]; rfl
  · have hr' : (q.tickRecords slots).get (trackerSource n) = r := by rw [← hr, hnew]; rfl
    rw [kt.trackers, audioTick_trackers, flagged_trackers, hr', hq, Tracker.complete_eq (s.trackers.get n), ← hT,
      Tracker.complete_eq]
    by_cases hn : n ∈ fs
    · simp only [hn, if_true, true_and]
    · simp only [hn, if_false, false_and]

/-- Settles O32. -/
theorem houseTickReadsStripStores : Obligations.HouseTickReadsStripStores := by
  intro slots fs bf s g st hst hf
  obtain ⟨q, t, hx, kq, -, kt⟩ := houseTick_around slots fs bf s
  obtain ⟨a1, -, -⟩ := audioTick_catalogue q slots fs
  obtain ⟨-, -, -, r4⟩ := tickRecords_get q slots
  have hread : st.tickRead = ((st.read true).1, some (st.read true).2) := by rw [Store.tickRead, if_pos hf]
  have ht : t.strip.get g = (st.read true).1 := by
    rw [kt.strip, audioTick_strip, Bank.get_map, kq.strip, hst, hread]
  obtain ⟨-, n2, n3, n4⟩ := read_spec st true hf
  refine ⟨t, (st.read true).2, hx, fun ch => ?_, fun h => ?_, fun h rest hs hc => ?_, fun h h1 h8 => ?_,
    fun h h2 rest hs hr h56 => ?_⟩
  · rw [kt.hist, a1, Bank.get_mapIdx, History.read_append_zero, r4, kq.strip, hst, hread]
    rfl
  · have hk : st.readKind = .underflow := by simp [Store.readKind, Store.fill, h]
    rw [ht]
    simp only [Store.read, hk, h]
    exact ⟨by rw [← h]; rfl, rfl⟩
  · rw [ht, n2 h rest hs hc]; exact ⟨rfl, rfl⟩
  · rw [ht, n3 h h1 h8]; exact ⟨rfl, rfl⟩
  · rw [ht, n4 h h2 rest hs hr h56]; exact ⟨rfl, rfl⟩

end Sys2Proof.Machine
end

section
/-! HOUSE_TICK as a whole, and what it leaves to the commands of the completions (O33). -/

set_option Elab.async false

namespace Sys2Proof.Machine

/-! ### States without a completion that waits -/

/-- No crossfade and no soft entry of a destination is complete. -/
def DestState.calm (st : DestState) : Prop := (∀ x, st.xfade = some x → x.inFlight = true) ∧ ∀ j, st.j = some j → j < 32

theorem DestState.calm_end (st : DestState) : st.endCrossfade.endSoftEntry.calm := by
  have hx : ∀ x, st.endCrossfade.xfade = some x → x.inFlight = true := by
    intro x h
    unfold DestState.endCrossfade at h
    split at h
    · next y hy =>
      split at h
      · next hf => rw [hy] at h; injection h with h; exact h ▸ hf
      · cases h
    · next hn => rw [hn] at h; cases h
  unfold DestState.endSoftEntry
  split
  · next j hj =>
    split
    · exact ⟨hx, fun _ hn => (nomatch hn)⟩
    · next hlt => exact ⟨hx, fun i h => by rw [hj] at h; injection h with h; omega⟩
  · next hn => exact ⟨hx, fun i h => by rw [hn] at h; cases h⟩

theorem DestState.end_of_calm {st : DestState} (h : st.calm) : st.endCrossfade.endSoftEntry = st := by
  obtain ⟨h1, h2⟩ := h
  have hx : st.endCrossfade = st := by
    unfold DestState.endCrossfade
    split
    · next x hx => rw [if_pos (h1 x hx)]
    · rfl
  rw [hx]
  unfold DestState.endSoftEntry
  split
  · next j hj => rw [if_neg (by have := h2 j hj; omega)]
  · rfl

theorem rampLength_pos {r : Fin 4} (h : r ≠ 0) : 0 < rampLength r := by revert r; decide

/-- R75: an application leaves no complete crossfade behind. -/
theorem DestState.calm_apply {st : DestState} (h : st.calm) (old new : Entry) : (st.apply old new).calm := by
  unfold DestState.apply
  split
  · exact ⟨fun _ hn => (nomatch hn), fun _ hn => (nomatch hn)⟩
  · split
    · exact h
    · split
      · exact ⟨fun _ hn => (nomatch hn), h.2⟩
      · next hr =>
        refine ⟨fun x hx => ?_, h.2⟩
        injection hx with hx
        subst hx
        simpa [Crossfade.inFlight] using rampLength_pos hr

theorem takeSafe_calm : TakeSafe fun s => ∀ d, (s.engine.get d).calm where
  reads s t h hs d := by
    have : t.engine = s.engine := h .engine (by decide)
    exact this ▸ hs d
  trigger s d hs := by
    intro d'
    rw [trigger_engine]
    split
    · exact hs d'
    · exact hs d'
  applyEntry s dom x d e _ _ _ hs := by
    intro d'
    simp only [State.applyEntry, State.updMonitor_engine, State.updDest_engine, Bank.get_upd]
    split
    · exact DestState.calm_apply (hs d') _ _
    · exact hs d'
  setTakes s dom ys _ _ hs := hs

/-- Nothing of an earlier tick waits for its step, part by part (assumption 8). -/
def AtRest (s : State) : Prop :=
  (∀ n, (s.trackers.get n).complete = s.trackers.get n) ∧ (∀ d, (s.engine.get d).calm)
    ∧ (∀ d, (s.monitors.get d).due = false) ∧ s.ref.boundaryDue = false

theorem Tracker.complete_twice (T : Tracker) : T.complete.complete = T.complete := by
  unfold Tracker.complete
  split
  · rfl
  · rfl

theorem settleBoundary_ref_due (s : State) : s.settleBoundary.ref.boundaryDue = false := by
  unfold State.settleBoundary
  split
  · rw [State.frameBoundary, keeps_houseBoundary.ref]; rfl
  · next h => simpa using h

/-- A boundary leaves the rest settled, and none due. -/
theorem atRest_settleBoundary {s : State} (h1 : ∀ n, (s.trackers.get n).complete = s.trackers.get n)
    (h2 : ∀ d, (s.engine.get d).calm) (h3 : ∀ d, (s.monitors.get d).due = false) : AtRest s.settleBoundary := by
  refine ⟨?_, takeSafe_calm.settleBoundary h2, ?_, settleBoundary_ref_due s⟩
  · rw [keeps_settleBoundary.trackers]; exact h1
  · exact (takeSafe_monitors (Q := fun m => m.due = false) fun m h => (markChanged_due m).trans h).settleBoundary h3

theorem atRest_settleTick (s : State) : AtRest s.settleTick := by
  rw [settleTick_eq]
  refine atRest_settleBoundary (fun n => ?_) (fun d => ?_) fun d => ?_
  · rw [keeps_completeWindows.trackers]
    simp only [State.endTransitions, State.completeBlocks, Bank.get_map]
    exact Tracker.complete_twice _
  · rw [keeps_completeWindows.engine]
    simp only [State.endTransitions, Bank.get_map]
    exact DestState.calm_end _
  · rw [completeWindows_monitors, Bank.get_map]
    exact settle_not_due _

theorem Bank.map_eq_self {α : Type} {n : Nat} (b : Bank α n) {f : α → α} (h : ∀ i, f (b.get i) = b.get i) :
    b.map f = b := Bank.ext_get fun i => by rw [Bank.get_map, h]

theorem endTransitions_of_atRest {s : State} (h : AtRest s) : s.endTransitions = s := by
  obtain ⟨h1, h2, -, -⟩ := h
  have e : s.endTransitions = { s with trackers := s.trackers.map Tracker.complete,
                                       engine := s.engine.map fun st => st.endCrossfade.endSoftEntry } := rfl
  rw [e, Bank.map_eq_self _ h1, Bank.map_eq_self _ fun d => DestState.end_of_calm (h2 d)]

theorem completeWindows_of_not_due {s : State} (h : ∀ d, (s.monitors.get d).due = false) : s.completeWindows = s := by
  have h1 : s.monitors.map Monitor.settle = s.monitors := Bank.map_eq_self _ fun d => by simp [Monitor.settle, h d]
  have h2 : (List.finRange 96).flatMap (fun d => (s.monitors.get d).settleNotices d.val) = [] := by
    simp [Monitor.settleNotices, h]
  rw [State.completeWindows, h1, h2, raiseAllAt_nil]

/-- Assumption 8: a state is settled exactly if nothing waits in any of its parts. -/
theorem settled_iff (s : State) : Settled s ↔ AtRest s := by
  constructor
  · intro h
    rw [← show s.settleTick = s from h]
    exact atRest_settleTick s
  · intro h
    rw [Settled, settleTick_eq, endTransitions_of_atRest h, completeWindows_of_not_due h.2.2.1, State.settleBoundary,
      if_neg (by simp [h.2.2.2])]

/-! ### The commands of the completions -/

theorem Bank.foldl_upd {α : Type} {n : Nat} (f : α → α) (l : List (Fin n)) : ∀ b : Bank α n, l.Nodup →
    ∀ i, (l.foldl (fun b j => b.upd j f) b).get i = if i ∈ l then f (b.get i) else b.get i := by
  induction l with
  | nil => intro b _ i; simp
  | cons j l ih =>
    intro b hn i
    obtain ⟨hj, hn⟩ := List.nodup_cons.mp hn
    rw [List.foldl_cons, ih _ hn]
    by_cases h : j = i
    · subst h; simp [hj]
    · simp [h, Ne.symm h]

theorem Bank.foldl_upd_finRange {α : Type} {n : Nat} (f : α → α) (b : Bank α n) :
    (List.finRange n).foldl (fun b j => b.upd j f) b = b.map f :=
  Bank.ext_get fun i => by rw [Bank.foldl_upd f _ b (List.nodup_finRange n), if_pos (List.mem_finRange i), Bank.get_map]

theorem foldl_updTracker (f : Tracker → Tracker) (l : List (Fin 96)) : ∀ s : State,
    l.foldl (fun s n => s.updTracker n f) s = { s with trackers := l.foldl (fun b n => b.upd n f) s.trackers } := by
  induction l with
  | nil => exact fun _ => rfl
  | cons n l ih => exact fun s => ih _

theorem foldl_updDest (f : DestState → DestState) (l : List (Fin 96)) : ∀ s : State,
    l.foldl (fun s n => s.updDest n f) s = { s with engine := l.foldl (fun b n => b.upd n f) s.engine } := by
  induction l with
  | nil => exact fun _ => rfl
  | cons n l ih => exact fun s => ih _

theorem Runs.append {cs ds : List Instr} : ∀ {s u t : State}, Runs cs s u → Runs ds u t → Runs (cs ++ ds) s t := by
  induction cs with
  | nil => intro s u t h k; exact (show u = s from h) ▸ k
  | cons c cs ih =>
    rintro s u t ⟨v, hv, h⟩ k
    exact ⟨v, hv, ih h k⟩

theorem Runs.map {α : Type} {c : α → Instr} {f : State → α → State} (h : ∀ x s, exec (c x) s = .next (f s x))
    (xs : List α) : ∀ s : State, Runs (xs.map c) s (xs.foldl f s) := by
  induction xs with
  | nil => exact fun _ => rfl
  | cons x xs ih => exact fun s => ⟨f s x, h x s, ih _⟩

/-- What the next tick settles first is what the commands of the completions do, one after another. -/
theorem runs_completions (s : State) : Runs completions s s.settleTick := by
  have h1 := Runs.map (c := .channelStatusBlockComplete) (f := fun s n => s.updTracker n Tracker.complete)
    (fun _ _ => rfl) (List.finRange 96) s
  rw [foldl_updTracker, Bank.foldl_upd_finRange] at h1
  have h2 := Runs.map (c := .crossfadeEnd) (f := fun s n => s.updDest n DestState.endCrossfade)
    (fun _ _ => rfl) (List.finRange 96) { s with trackers := s.trackers.map Tracker.complete }
  rw [foldl_updDest, Bank.foldl_upd_finRange] at h2
  have h3 := Runs.map (c := .softEntryComplete) (f := fun s n => s.updDest n DestState.endSoftEntry)
    (fun _ _ => rfl) (List.finRange 96)
    { s with trackers := s.trackers.map Tracker.complete, engine := s.engine.map DestState.endCrossfade }
  rw [foldl_updDest, Bank.foldl_upd_finRange] at h3
  have he : (s.engine.map DestState.endCrossfade).map DestState.endSoftEntry
      = s.engine.map fun st => st.endCrossfade.endSoftEntry := Bank.ext_get fun d => by simp
  have h4 : Runs [.windowComplete, .houseFrameBoundary] s.endTransitions s.settleTick :=
    ⟨_, rfl, _, rfl, rfl⟩
  refine ((h1.append h2).append h3).append ?_
  have e : s.endTransitions = { s with
      trackers := s.trackers.map Tracker.complete
      engine := (s.engine.map DestState.endCrossfade).map DestState.endSoftEntry } := by rw [he]; rfl
  rw [e] at h4
  exact h4

/-! ### The tick itself -/

/-- R113, R140, R156: the embed stores, the monitors, the reference unit and the events after a computation. -/
theorem audioTick_rest (s : State) (slots fs) :
    (s.audioTick slots fs).embed
        = (s.embed.mapIdx fun g st => st.write (outputSet (s.flagged slots fs).destTicks g))
      ∧ (s.audioTick slots fs).monitors = (s.monitors.mapIdx fun d m =>
          m.tick ((s.flagged slots fs).destTick d).out.value ((s.flagged slots fs).destTick d).clamp
            ((s.flagged slots fs).destTick d).suspended)
      ∧ (s.audioTick slots fs).ref = { s.ref with tickCount := s.ref.frameCount }
      ∧ (s.audioTick slots fs).events
          = ((s.tickNotices (s.flagged slots fs).destTicks).foldl (fun s ns => s.raiseAll ns) s).events := by
  have k := (keeps_flagged s slots fs).andThen (keeps_applyTicks (s.flagged slots fs).destTicks)
    (C := [.strip, .trackers, .engine, .free])
  have k1 := k.andThen (keeps_appendRecords (s.tickRecords slots))
    (C := [.strip, .trackers, .engine, .free, .hist, .tone, .serial])
  have k2 := (k1.andThen (keeps_writeEmbeds (s.flagged slots fs).destTicks)
    (C := [.strip, .trackers, .engine, .free, .hist, .tone, .serial, .embed])).andThen
      (keeps_tickSerial (s.flagged slots fs).destTicks)
      (C := [.strip, .trackers, .engine, .free, .hist, .tone, .serial, .embed])
  have k3 := k2.andThen (keeps_monitorTicks (s.flagged slots fs).destTicks)
    (C := [.strip, .trackers, .engine, .free, .hist, .tone, .serial, .embed, .monitors, .ref])
  simp only [State.audioTick]
  rw [(keeps_raiseEvents _).embed, (keeps_monitorTicks _).embed, (keeps_tickSerial _).embed,
    (keeps_raiseEvents _).monitors, (keeps_raiseEvents _).ref]
  unfold State.flagged at *
  refine ⟨?_, ?_, ?_, ?_⟩
  · simp only [State.writeEmbeds, k1.embed]
  · rw [State.monitorTicks, k2.monitors]
    simp only [State.destTicks, Bank.get_tab]
  · simp only [State.monitorTicks, k2.ref]
  · exact (raiseEach_congr _ k3.events k3.eventNo (by simp only [State.monitorTicks, k2.ref])).1

/-- R53, R54, R116: the notices of a tick. -/
theorem tickNotices_eq {q : State} (outs : Bank TickOut 96) : q.tickNotices outs
    = ((List.finRange 16).map fun g => if (q.strip.get g).state = .flowing then
        readReport g.val (throughStrip q g) (q.strip.get g) else [])
      ++ [(List.finRange 96).flatMap fun d => (outs.get d).notices]
      ++ ((List.finRange 16).map fun g => writeReport (16 + g.val) (q.embed.get g)) := by
  unfold State.tickNotices engineNotices
  congr 1
  · congr 1
    · refine List.map_congr_left fun g _ => ?_
      simp only [State.stripNotices, readNotices_eq, stripSlipDests_eq]
    · rw [Bank.list_eq_ofFn, List.ofFn_eq_map, List.flatMap_map]
  · exact List.map_congr_left fun g _ => writeNotices_eq _ _

/-- R44, R49: a write of a set without mark to an embed store. -/
theorem write_embed_cases (st : Store) (ch : Bank Sample 4) :
    (st.state = .holding → st.write { ch, d := false }
        = { st with sets := st.sets.drop (st.fill - 31) ++ [{ ch, d := st.writeMark }], writeMark := false,
                    lastFault := false })
      ∧ (st.state = .flowing → st.fill < 64 → st.write { ch, d := false }
        = { st with sets := st.sets ++ [{ ch, d := st.writeMark }], writeMark := false, lastFault := false })
      ∧ (st.state = .flowing → 64 ≤ st.fill → st.write { ch, d := false }
        = { st with writeMark := true, lastFault := true, since := .fill 3 true, latch := true,
                    overflows := satInc st.overflows }) := by
  refine ⟨fun h => ?_, fun h hf => ?_, fun h hf => ?_⟩
  · simp [Store.write, h, SampleSet.orD]
  · simp [Store.write, h, hf, SampleSet.orD]
  · simp [Store.write, h, Nat.not_lt.mpr hf, Store.faultAccess]

/-- The frame lengths of Table 8-3. -/
theorem houseFrames_eq : ∀ f : Fin 8,
    (List.range (framesPerSequence f)).map (fun k => houseFrameLength f (k + 1)) = houseFrames f := by decide

/-- R157: a tick of a settled state that takes no boundary before it computes. -/
theorem houseTick_settled {slots fs bf} {s : State} (h : Settled s) (hb : bf = true → s.ref.t + 1 < s.ref.frameEnd) :
    ∃ q t, exec (.houseTick slots fs bf) s = .next t ∧ Keeps [.ref] s q ∧ Keeps [.ref] (q.audioTick slots fs) t
      ∧ q.ref.frameCount = s.ref.frameCount
      ∧ t.ref = { s.ref with t := s.ref.t + 1, boundaryDue := decide (s.ref.frameEnd ≤ s.ref.t + 1),
                             tickCount := s.ref.frameCount } := by
  rw [exec_houseTick, show s.settleTick = s from h]
  cases bf with
  | true =>
    have hd : decide (s.ref.frameEnd ≤ s.ref.t + 1) = false := by simpa using hb rfl
    have hq : (s.updRef RefUnit.tick).settleBoundary = s.updRef RefUnit.tick := by
      rw [State.settleBoundary, if_neg (by simp [RefUnit.tick, hd])]
    rw [if_pos rfl, hq]
    refine ⟨_, _, rfl, keeps_updRef _, Keeps.refl _ _, rfl, ?_⟩
    rw [(audioTick_rest _ _ _).2.2.1]
    rfl
  | false =>
    rw [if_neg (by decide)]
    refine ⟨s, _, rfl, Keeps.refl _ _, keeps_updRef _, rfl, ?_⟩
    rw [State.updRef_ref, (audioTick_rest _ _ _).2.2.1]
    rfl

/-- A reference unit put back as it was. -/
theorem updRef_restored (s : State) (f : RefUnit → RefUnit) {r : RefUnit} (h : s.ref = r) :
    s = { s.updRef f with ref := r } := by subst h; rfl

/-- Settles O33. -/
theorem houseTickComputes : Obligations.HouseTickComputes := by
  refine ⟨fun slots fs bf s h hb => ?_, fun slots fs s h hl => ?_, fun slots fs bf s =>
    ⟨s.settleTick, runs_completions s, (settled_iff _).mpr (atRest_settleTick s), ?_⟩, houseFrames_eq⟩
  · obtain ⟨q, t, hx, kq, kt, hfc, href⟩ := houseTick_settled (slots := slots) (fs := fs) h hb
    obtain ⟨a1, a2, -, a4⟩ := audioTick_rest q slots fs
    obtain ⟨-, -, a5⟩ := audioTick_catalogue q slots fs
    have htr : t.trackers = (q.flagged slots fs).trackers := by rw [kt.trackers, audioTick_trackers]
    have kf := kq.andThen (keeps_flagged q slots fs) (C := [.ref, .strip, .trackers])
    have hd : ∀ d, (q.flagged slots fs).destTick d = ({ s with trackers := t.trackers } : State).destTick d := fun d =>
      destTick_congr (u := { s with trackers := t.trackers }) kf.live kf.engine htr.symm kf.hist kf.free d
    have hout : (q.flagged slots fs).destTicks
        = .tab fun d => ({ s with trackers := t.trackers } : State).destTick d := by
      unfold State.destTicks; rw [funext hd]
    rw [hout] at a1 a4 a5
    simp only [hd] at a2
    refine ⟨t, _, _, _, hx, rfl, fun d => ?_, by rw [kt.serial, a5], fun n => ?_, fun g st x hg hxs => ?_,
      fun d m o mag hm ho hmag => ?_, href, rfl, ?_, ?_⟩
    · rw [kt.engine, audioTick_engine, Bank.get_map]
      exact congrArg TickOut.dest (show ((q.flagged slots fs).destTicks.get d) = _ by rw [hout, Bank.get_tab])
    · simp [localOutputs]
    · have he : t.embed.get g = st.write { ch := x.ch, d := false } := by
        rw [kt.embed, a1, Bank.get_mapIdx, kq.embed, hg, hxs]
        simp [outputSet]
      obtain ⟨w1, w2, w3⟩ := write_embed_cases st x.ch
      have hx' : x = { ch := x.ch, d := st.writeMark } := by rw [hxs]
      rw [he, hx']
      exact ⟨w1, w2, w3⟩
    · refine monitor_tick_spec m o mag (by rw [hmag, magnitude_eq]) _ ?_
      rw [kt.monitors, a2, Bank.get_mapIdx, kq.monitors, hm, ho]
    · have hth : ∀ g, throughStrip q g = throughStrip s g := fun g => by unfold throughStrip; rw [kq.live]
      rw [kt.events, a4, tickNotices_eq, kq.strip, kq.embed]
      simp only [hth, Bank.get_tab]
      exact (raiseEach_congr _ kq.events kq.eventNo hfc).1
    · exact (kq.andThen (keeps_audioTick slots fs) (C := audioParts)).andThen kt
  · have hs : s.settleTick = s := h
    have htick : (s.updRef fun r => { r with t := r.t + 1, boundaryDue := true }) = s.updRef RefUnit.tick :=
      State.updRef_congr _ (by
        have : decide (s.ref.frameEnd ≤ s.ref.t + 1) = true := decide_eq_true hl
        simp [RefUnit.tick, this])
    obtain ⟨h1, h2, h3, -⟩ := (settled_iff s).mp h
    have hu : Settled (s.updRef RefUnit.tick).settleBoundary :=
      (settled_iff _).mpr (atRest_settleBoundary h1 h2 h3)
    have hx : exec (.houseTick slots fs true) s
        = .next ((s.updRef RefUnit.tick).settleBoundary.audioTick slots fs) := by
      rw [exec_houseTick, if_pos rfl, hs]
    refine ⟨_, _, by rw [htick]; rfl, hu, by rw [exec_houseTick, if_neg (by decide), hu], ?_⟩
    rw [hx]
    exact congrArg _ (updRef_restored _ _ (audioTick_rest _ _ _).2.2.1)
  · rw [exec_houseTick, exec_houseTick, show s.settleTick.settleTick = s.settleTick from
      (settled_iff _).mpr (atRest_settleTick s)]

end Sys2Proof.Machine
end

section
/-! The destination engine at one tick: PCM, blocked and DATA destinations, the arithmetic, and what completions do
(O34 to O37, O39). -/

set_option Elab.async false

namespace Sys2Proof.Machine

/-! ### Which kind of tick a destination has -/

theorem destTick_data {s : State} {d : Fin 96} (h : (s.live.get d).mode = .data) :
    s.destTick d = s.dataTick d (s.live.get d) (s.engine.get d) := by simp only [State.destTick, h]

/-- R93: a PCM destination that weights no flagged source. -/
theorem destTick_open {s : State} {d : Fin 96} {xf} (h : (s.live.get d).mode = .pcm)
    (hx : advanceCrossfade (s.engine.get d).xfade = xf)
    (hn : ∀ n ∈ weightedSources (s.live.get d) xf, s.nonAudio n = false) :
    s.destTick d = s.openTick d (s.live.get d) (s.engine.get d) xf := by
  simp only [State.destTick, h, hx, filter_nonAudio_nil hn]

/-- R106: one that does. -/
theorem destTick_blocked {s : State} {d : Fin 96} {xf} (h : (s.live.get d).mode = .pcm)
    (hx : advanceCrossfade (s.engine.get d).xfade = xf)
    (hn : ∃ n ∈ weightedSources (s.live.get d) xf, s.nonAudio n = true) :
    s.destTick d = blockedTick d (s.engine.get d) xf ((weightedSources (s.live.get d) xf).filter s.nonAudio) := by
  obtain ⟨n, hn, hf⟩ := hn
  have hm : n ∈ (weightedSources (s.live.get d) xf).filter s.nonAudio := List.mem_filter.mpr ⟨hn, hf⟩
  simp only [State.destTick, h, hx]
  generalize (weightedSources (s.live.get d) xf).filter s.nonAudio = fs at *
  cases fs with
  | nil => cases hm
  | cons a as => rfl

/-! ### Sides, weights and triggers -/

/-- R90 to R93: the product of a side. -/
theorem side_eq (s : State) (e : Entry) : s.side e = sideSum s e := by
  cases h : e.secondary <;> (rw [State.side, sideProduct_eq, sideSum, h]; rfl)

/-- R98: a mark is read exactly from a source of a side with weight. -/
theorem readsMark_iff (s : State) (live : Entry) (xf : Option Crossfade) : s.readsMark live xf = true
    ↔ ∃ e ∈ weightedEntries live xf, ∃ n ∈ e.sources, ((s.hist.get n).read e.delay.val).d = true := by
  simp only [State.readsMark, List.any_eq_true, State.tap]

theorem weightedEntries_steady (live : Entry) : weightedEntries live none = [live] := by
  simp [weightedEntries, tickRamp]

theorem weightedEntries_crossfade (live : Entry) (x : Crossfade) : weightedEntries live (some x)
    = (if rampFactor x.i x.len < 1024 then [x.old] else []) ++ (if 0 < rampFactor x.i x.len then [live] else []) := rfl

theorem advanceCrossfade_eq (x : Option Crossfade) : advanceCrossfade x
    = match x with
      | some x => if x.i < x.len then some { x with i := x.i + 1 } else none
      | none => none := by
  cases x <;> simp [advanceCrossfade, Crossfade.inFlight]

/-! ### Arithmetic -/

theorem saturate_eq (y : Int) : saturate y = if 8388607 < y then 8388607 else if y < -8388608 then -8388608 else y := rfl

theorem clamps_iff (y : Int) : clamps y = true ↔ 8388607 < y ∨ y < -8388608 := by simp [clamps]

/-- R97: soft entry at a tick, case by case. -/
theorem softEntryStep_cases (j : Option Nat) : softEntryStep true j = (some 0, 0)
    ∧ ((∀ i, j = some i → 32 ≤ i) → softEntryStep false j = (none, 1024))
    ∧ ∀ i, j = some i → i < 32 → softEntryStep false j = (some (i + 1), 32 * (i + 1)) := by
  refine ⟨rfl, fun h => ?_, fun i h hi => ?_⟩
  · cases j with
    | none => rfl
    | some i =>
      have : ¬ i < 32 := by have := h i rfl; omega
      simp [softEntryStep, this]
  · simp [softEntryStep, h, hi]

/-- Settles O37. -/
theorem arithmeticFacts : Obligations.ArithmeticFacts := by
  refine ⟨fun y => ?_, fun y h1 h2 => ?_, fun q e => ⟨?_, ?_⟩, fun n hn => ?_, fun i n h => ?_, fun r p _ => ?_,
    fun j hj => ?_, fun j => rfl, rfl⟩
  · unfold saturate; split
    · omega
    · split <;> omega
  · unfold saturate; rw [if_neg (by omega), if_neg (by omega)]
  · exact Int.mul_ediv_self_le (by decide)
  · have := Int.lt_mul_ediv_self_add (x := q * e + 2 ^ 39) (k := 2 ^ 40) (by decide)
    unfold rounded
    rw [Int.mul_add, Int.mul_one]
    exact this
  · exact Nat.mul_div_cancel 1024 hn
  · unfold rampFactor
    rcases Nat.eq_zero_or_pos n with hn | hn
    · subst hn; simp
    · exact (Nat.div_le_iff_le_mul_add_pred hn).mpr (by nlinarith)
  · unfold mix; ring
  · exact (softEntryStep_cases (some j)).2.2 j rfl hj

/-! ### PCM destinations -/

/-- Settles O34. -/
theorem pcmDestinationMixes : Obligations.PcmDestinationMixes := by
  rintro s d live st q sides xf trig rfl rfl hm hq hna htrig
  have hw : advanceCrossfade (s.engine.get d).xfade = xf ∧ s.weightedTerm (s.live.get d) xf = q
      ∧ weightedEntries (s.live.get d) xf = sides := by
    rw [advanceCrossfade_eq]
    rcases hq with ⟨h, rfl, rfl, rfl⟩ | ⟨x, r, hx, hi, rfl, rfl, rfl, rfl⟩
    · refine ⟨?_, by rw [State.weightedTerm, side_eq], weightedEntries_steady _⟩
      cases hx : (s.engine.get d).xfade with
      | none => rfl
      | some x => exact if_neg (Nat.not_lt.mpr (h x hx))
    · refine ⟨by rw [hx]; exact if_pos hi, ?_, weightedEntries_crossfade _ _⟩
      simp only [State.weightedTerm, mix, side_eq, rampFactor]
  obtain ⟨hxf, rfl, hs⟩ := hw
  have ho := destTick_open hm hxf fun n hn => by
    obtain ⟨e, he, hne⟩ := List.mem_flatMap.mp hn
    exact hna e (hs ▸ he) n hne
  have ht : ((s.engine.get d).trigger || (s.engine.get d).blocked || s.readsMark (s.live.get d) xf) = true ↔ trig := by
    rw [htrig, ← hs, ← readsMark_iff, Bool.or_eq_true, Bool.or_eq_true, or_assoc]
  rw [ho]
  obtain ⟨j1, j2, j3⟩ := softEntryStep_cases (s.engine.get d).j
  refine ⟨_, _, rfl, fun h => ?_, fun h hj => ?_, fun h j hj hlt => ?_, rfl, rfl, rfl, rfl, rfl, rfl, clamps_iff _, rfl⟩
  · simp only [State.openTick, ht.mpr h, j1, and_self]
  · have hf := Bool.eq_false_iff.mpr (fun e => h (ht.mp e))
    simp only [State.openTick, hf, j2 hj, and_self]
  · have hf := Bool.eq_false_iff.mpr (fun e => h (ht.mp e))
    simp only [State.openTick, hf, j3 j hj hlt, and_self]

/-- R116: the lowest-numbered of the sources of a list. -/
theorem lowestSource_spec {ns : List (Fin 98)} (h : ns ≠ []) :
    ∃ m ∈ ns, (∀ n ∈ ns, m.val ≤ n.val) ∧ lowestSource ns = m.val := by
  unfold lowestSource
  cases hm : (ns.map fun n => n.val).min? with
  | none =>
    rw [List.min?_eq_none_iff, List.map_eq_nil_iff] at hm
    exact absurd hm h
  | some k =>
    obtain ⟨h1, h2⟩ := List.min?_eq_some_iff.mp hm
    obtain ⟨m, hmem, rfl⟩ := List.mem_map.mp h1
    exact ⟨m, hmem, fun n hn => h2 _ (List.mem_map.mpr ⟨n, hn, rfl⟩), rfl⟩

/-- R116: the cause of NONPCM_CLEARED at a PCM destination none of whose weighted sources is flagged. -/
theorem clearedCause_spec {s : State} (d : Fin 96) (st : DestState) {ws : List (Fin 98)}
    (hn : ∀ n ∈ ws, s.nonAudio n = false) :
    (st.resetMark = true → s.clearedCause d st ws = 2)
      ∧ (st.resetMark = false → s.clearedCause d st ws = 0 ∨ s.clearedCause d st ws = 1)
      ∧ (st.resetMark = false → (∀ n ∈ st.blockers, n ∈ ws) → s.clearedCause d st ws = 0)
      ∧ (st.resetMark = false → st.blockers ≠ [] → (∀ n ∈ st.blockers, s.nonAudio n = true) →
          s.clearedCause d st ws = 1) := by
  unfold State.clearedCause
  refine ⟨fun h => if_pos h, fun h => ?_, fun h hb => ?_, fun h hne hb => ?_⟩
  · rw [if_neg (by simp [h])]
    split
    · exact .inl rfl
    · split
      · exact .inr rfl
      · split
        · exact .inl rfl
        · exact .inr rfl
  · rw [if_neg (by simp [h]), if_pos (by simpa using hb)]
  · have hall : ¬ (st.blockers.all fun n => ws.contains n) = true := by
      intro hc
      obtain ⟨b, hbm⟩ := List.exists_mem_of_ne_nil _ hne
      have hw : b ∈ ws := by simpa using List.all_eq_true.mp hc b hbm
      exact absurd (hb b hbm) (by simp [hn b hw])
    rw [if_neg (by simp [h]), if_neg hall, if_pos (by simpa using hb)]

/-- Settles O35. -/
theorem dataSourcesBlock : Obligations.DataSourcesBlock := by
  rintro s d st xf ws hm rfl hxf rfl
  have hx := (advanceCrossfade_eq (s.engine.get d).xfade).trans hxf.symm
  by_cases hf : ∃ n ∈ weightedSources (s.live.get d) xf, s.nonAudio n = true
  · have hb := destTick_blocked hm hx hf
    have hne : (weightedSources (s.live.get d) xf).filter s.nonAudio ≠ [] := by
      obtain ⟨n, hn, h⟩ := hf
      exact List.ne_nil_of_mem (List.mem_filter.mpr ⟨hn, h⟩)
    rw [hb]
    refine ⟨rfl, rfl, rfl, rfl, rfl, fun _ => ⟨rfl, rfl, rfl, rfl, rfl, rfl, rfl, fun h => ?_, fun h => ?_⟩, fun h => ?_⟩
    · simp only [blockedTick, h, if_true]
    · obtain ⟨m, hmem, hmin, hl⟩ := lowestSource_spec hne
      obtain ⟨h1, h2⟩ := List.mem_filter.mp hmem
      refine ⟨m, h1, h2, fun n hn hf => hmin n (List.mem_filter.mpr ⟨hn, hf⟩), ?_⟩
      simp [blockedTick, h, hl]
    · obtain ⟨n, hn, hc⟩ := hf
      rw [h n hn] at hc
      cases hc
  · have hn : ∀ n ∈ weightedSources (s.live.get d) xf, s.nonAudio n = false := fun n hn =>
      Bool.eq_false_iff.mpr fun e => hf ⟨n, hn, e⟩
    have ho := destTick_open hm hx hn
    rw [ho]
    refine ⟨rfl, rfl, rfl, rfl, rfl, fun h => absurd h hf, fun _ => ⟨fun h => ?_, fun h => ?_⟩⟩
    · simp [State.openTick, h]
    · have ht : ((s.engine.get d).trigger || (s.engine.get d).blocked || s.readsMark (s.live.get d) xf) = true := by
        simp [h]
      have hz : rounded (s.weightedTerm (s.live.get d) xf) 0 = 0 := by simp [rounded]
      have hj : softEntryStep ((s.engine.get d).trigger || (s.engine.get d).blocked || s.readsMark (s.live.get d) xf)
          (s.engine.get d).j = (some 0, 0) := by rw [ht]; rfl
      have hc : (s.openTick d (s.live.get d) (s.engine.get d) xf).notices
          = [(.nonpcmCleared, d.val, s.clearedCause d (s.engine.get d) (weightedSources (s.live.get d) xf))] := by
        simp only [State.openTick, h, if_true]
      refine ⟨?_, rfl, rfl, ?_, ?_, _, hc, clearedCause_spec d _ hn⟩
      · simp only [State.openTick, hj, hz]; rfl
      · simp only [State.openTick, hj]
      · simp only [State.openTick, hj]

/-! ### DATA destinations -/

/-- Settles O36. -/
theorem dataDestinationCopies : Obligations.DataDestinationCopies := by
  rintro s d r hm rfl
  rw [destTick_data hm]
  refine ⟨rfl, rfl, rfl, rfl, rfl, rfl, _, rfl, fun h => by simp [h],
    fun h => ⟨s.dataCause d (s.engine.get d), by simp only [h, if_true], ?_⟩⟩
  unfold State.dataCause
  refine ⟨fun h => if_pos h, fun h => ?_, fun h hb => ?_⟩
  · rw [if_neg (by simp [h])]
    split
    · exact .inr rfl
    · split
      · exact .inl rfl
      · exact .inr rfl
  · rw [if_neg (by simp [h]), if_pos (by simpa using hb)]

/-! ### Completions -/

/-- Settles O39. -/
theorem completionsAct : Obligations.CompletionsAct := by
  refine ⟨fun s d x hx hi => ?_, fun s d j hj h32 => ?_, fun s n hc hp => ?_⟩
  · refine congrArg _ (State.updDest_congr _ d ?_)
    simp [DestState.endCrossfade, hx, Crossfade.inFlight, hi]
  · refine congrArg _ (State.updDest_congr _ d ?_)
    simp [DestState.endSoftEntry, hj, h32]
  · refine congrArg _ (State.updTracker_congr _ n ?_)
    simp [Tracker.complete, Tracker.due, hc, hp]

end Sys2Proof.Machine
end

section
/-! The level monitors: the completion of windows, MON_SET and METER_READ (O40, O41). -/

set_option Elab.async false

namespace Sys2Proof.Machine

/-! ### Windows -/

/-- The notices of a completion name their monitor. -/
theorem settleNotices_subject {m : Monitor} {k : Nat} {x : Pending} (h : x ∈ m.settleNotices k) : x.2.1 = k := by
  unfold Monitor.settleNotices Monitor.windowNotices at h
  split at h
  · rcases List.mem_append.mp h with h | h
    · split at h
      · rw [List.mem_singleton.mp h]
      · split at h
        · rw [List.mem_singleton.mp h]
        · cases h
    · split at h
      · rw [List.mem_singleton.mp h]
      · cases h
  · cases h

/-- The numbers below `d`, `d`, and the numbers above it. -/
theorem finRange_split {n : Nat} (d : Fin n) : ∃ before after : List (Fin n),
    List.finRange n = before ++ d :: after ∧ (∀ i ∈ before, i < d) ∧ ∀ i ∈ after, d < i := by
  obtain ⟨before, after, h⟩ := List.append_of_mem (List.mem_finRange d)
  have hp := List.pairwise_lt_finRange n
  rw [h, List.pairwise_append, List.pairwise_cons] at hp
  obtain ⟨-, ⟨h2, -⟩, h3⟩ := hp
  exact ⟨before, after, h, fun i hi => h3 i hi d List.mem_cons_self, h2⟩

/-- R143: the silence count and state of a quiet window. -/
theorem silence_of_quiet {m : Monitor} (h : m.silenceCount ≤ m.ns) (hq : m.peak < m.silenceAt ∧ m.changed = false) :
    m.nextCount = min m.ns (m.silenceCount + 1)
      ∧ (m.nextSilent = true ↔ m.silent = true ∨ m.ns ≤ m.silenceCount + 1) := by
  have hw : m.quietWindow = true := by simp [Monitor.quietWindow, hq]
  refine ⟨?_, by simp [Monitor.nextSilent, hw]⟩
  rw [Monitor.nextCount, if_pos hw]
  split <;> omega

/-- R143: those of any other window. -/
theorem silence_of_loud {m : Monitor} (hq : m.silenceAt ≤ m.peak ∨ m.changed = true) :
    m.nextCount = 0 ∧ m.nextSilent = false := by
  have hw : m.quietWindow = false := by
    rcases hq with h | h
    · simp [Monitor.quietWindow, h]
    · simp [Monitor.quietWindow, h]
  simp [Monitor.nextCount, Monitor.nextSilent, hw]

theorem loudWindow_iff (m : Monitor) : m.loudWindow = true ↔ m.overloadAt ≤ m.peak ∨ m.clip = true := by
  simp [Monitor.loudWindow]

theorem complete_of_due {m : Monitor} (h : m.activity = .measuring) (ht : 480 ≤ m.ticks) : m.settle = m.complete := by
  rw [Monitor.settle, if_pos (by simp [Monitor.due, h, ht])]

theorem due_false_of {m : Monitor} (h : m.activity ≠ .measuring ∨ m.ticks < 480) : m.due = false := by
  rcases h with h | h
  · simp [Monitor.due, h]
  · simp [Monitor.due, h]

/-- Settles O40. -/
theorem windowCompletes : Obligations.WindowCompletes := by
  rintro s d m rfl ha ht hc
  obtain ⟨before, after, hsplit, hb, hf⟩ := finRange_split d
  have hset : s.completeWindows.monitors.get d = (s.monitors.get d).complete := by
    rw [completeWindows_monitors, Bank.get_map, complete_of_due ha ht]
  refine ⟨_, _, rfl, hset, keeps_completeWindows, fun i hi => ?_, rfl, rfl, rfl, loudWindow_iff _, rfl, fun l => ?_,
    rfl, rfl, rfl, rfl, ha, rfl, rfl, rfl, rfl, rfl, rfl, rfl, silence_of_quiet hc, silence_of_loud,
    before.flatMap (fun i => (s.monitors.get i).settleNotices i.val),
    after.flatMap (fun i => (s.monitors.get i).settleNotices i.val), (s.monitors.get d).settleNotices d.val, ?_,
    fun x hx => ?_, fun x hx => ?_, ?_⟩
  · rw [completeWindows_monitors, Bank.get_map, Monitor.settle, if_neg (by simp [due_false_of hi])]
  · simp [Monitor.complete, Monitor.openWindow]
  · rw [State.completeWindows, hsplit, List.flatMap_append, List.flatMap_cons, ← List.append_assoc]
    rfl
  · obtain ⟨i, hi, hx⟩ := List.mem_flatMap.mp hx
    rw [settleNotices_subject hx]
    exact hb i hi
  · obtain ⟨i, hi, hx⟩ := List.mem_flatMap.mp hx
    rw [settleNotices_subject hx]
    exact hf i hi
  · rw [Monitor.settleNotices, if_pos (by simp [Monitor.due, ha, ht])]
    simp only [Monitor.windowNotices, Monitor.complete, Monitor.openWindow, Bool.and_eq_true, Bool.or_eq_true,
      Bool.not_eq_true', beq_iff_eq, and_assoc]
    exact congrArg₂ _ (if_congr Iff.rfl rfl (if_congr Iff.rfl rfl rfl)) (if_congr Iff.rfl rfl rfl)

/-! ### MON_SET -/

/-- R148: the table of effects of MON_SET. -/
theorem Monitor.set_spec (m : Monitor) (x : MonSettings) :
    ((m.set x).enable = x.enable ∧ (m.set x).overloadEvent = x.overloadEvent ∧ (m.set x).edge = x.edge
      ∧ (m.set x).silenceAt = x.silenceAt ∧ (m.set x).overloadAt = x.overloadAt ∧ (m.set x).ns = x.ns
      ∧ (m.set x).silenceCount = 0)
    ∧ (m.set x).activity
        = (if x.enable then (if m.activity = .suspended then .suspended else .measuring) else .idle)
    ∧ (m.activity ≠ .idle → x.enable = true → (m.set x).silent = m.silent)
    ∧ (m.activity ≠ .idle → x.enable = false → (m.set x).silent = false)
    ∧ (m.activity = .idle → x.enable = true → (m.set x).silent = false)
    ∧ ((m.set x).activity = .measuring →
        (m.set x).ticks = 0 ∧ (m.set x).peak = 0 ∧ (m.set x).clip = false ∧ (m.set x).changed = false)
    ∧ (m.activity ≠ .idle → (m.set x).overloaded = false ∧ (m.set x).pendingChanged = false)
    ∧ (m.activity = .idle → x.enable = true → (m.set x).overloaded = false)
    ∧ (m.activity = .idle → x.enable = false →
        (m.set x).silent = m.silent ∧ (m.set x).overloaded = m.overloaded
          ∧ (m.set x).pendingChanged = m.pendingChanged)
    ∧ (m.set x).lastPeak = m.lastPeak ∧ (m.set x).lastClip = m.lastClip ∧ (m.set x).lastChanged = m.lastChanged
    ∧ (m.set x).lastOverloaded = m.lastOverloaded ∧ (m.set x).holds = m.holds := by
  unfold Monitor.set
  cases ha : m.activity with
  | idle =>
    cases he : x.enable with
    | true => simp [Monitor.withSettings, Monitor.openWindow, he]
    | false => simp [Monitor.withSettings, he, ha]
  | measuring =>
    cases he : x.enable with
    | true => simp [Monitor.withSettings, Monitor.openWindow, he, ha]
    | false => simp [Monitor.withSettings, Monitor.openWindow, he]
  | suspended =>
    cases he : x.enable with
    | true => simp [Monitor.withSettings, he, ha]
    | false => simp [Monitor.withSettings, he]

/-- What MON_SET does with a destination and settings in range. -/
theorem monSet_of_head {s : State} {l : Line} {ticket : Byte} {b : Byte} {rest : List Byte} {d : Fin 96}
    {x : MonSettings} (h : HeadIs s l 0x38 ticket (b :: rest)) (hd : below? 96 b = some d) (hx : settings? rest = some x) :
    exec (.monSet l) s = .next ((s.setMonitor d x).answer l ticket .ok []) := by
  have hr := execute_of_head (f := monSetAnswer) h (fun hc => absurd hc (by decide))
  simp only [monSetAnswer, hd, hx] at hr
  exact congrArg _ hr

/-- A command frame stays at the head of a queue that nothing has touched. -/
theorem headIs_of {A : List Part} {s t : State} {l : Line} {code ticket : Byte} {ps : List Byte}
    (h : HeadIs s l code ticket ps) (k : Keeps A s t) (hp : Part.ports ∉ A := by decide) : HeadIs t l code ticket ps := by
  have e : t.ports = s.ports := k .ports hp
  obtain ⟨rest, hq⟩ := h
  exact ⟨rest, by rw [State.port, e]; exact hq⟩

theorem param1_ofNat {n m : Nat} (h : m < n) (hn : n ≤ 256) : param1? n [BitVec.ofNat 8 m] = some ⟨m, h⟩ :=
  below_ofNat h hn

theorem param1_none {n : Nat} {b : Byte} (h : n ≤ b.toNat) : param1? n [b] = none := below_none h

/-- Settles O41. -/
theorem monitorCommandsAct : Obligations.MonitorCommandsAct := by
  refine ⟨fun l ticket flags a2 a1 a0 b2 b1 b0 n1 n0 d s m h hf ha hb hn1 hn2 => ?_, fun l ticket d s m h hm => ?_,
    fun l ticket b flags a2 a1 a0 b2 b1 b0 n1 n0 s => ⟨fun h hb => ?_, fun h hb => ?_⟩⟩
  · have hd : below? 96 (BitVec.ofNat 8 d.val) = some d := below_ofNat d.isLt (by decide)
    have hx : settings? [flags, a2, a1, a0, b2, b1, b0, n1, n0] = some
        { enable := flags.getLsbD 0, overloadEvent := flags.getLsbD 1,
          edge := EdgeSelect.ofBits (flags.extractLsb' 2 2), silenceAt := ofBytes [a2, a1, a0],
          overloadAt := ofBytes [b2, b1, b0], ns := ofBytes [n1, n0] } := by
      unfold settings?
      dsimp only
      rw [if_pos ⟨hf, ha, hb, hn1, hn2⟩]
    refine ⟨⟨s.completeWindows, rfl, ?_⟩, fun hm hdue => ?_⟩
    · have hu : ∀ d, (s.completeWindows.monitors.get d).due = false := fun d => by
        rw [completeWindows_monitors, Bank.get_map]; exact settle_not_due _
      rw [monSet_of_head h hd hx, monSet_of_head (headIs_of h keeps_completeWindows) hd hx, State.setMonitor,
        State.setMonitor, completeWindows_of_not_due hu]
    · rw [monSet_of_head h hd hx, State.setMonitor, completeWindows_of_not_due hdue]
      obtain ⟨⟨s1, s2, s3, s4, s5, s6, s7⟩, hrest⟩ := Monitor.set_spec m
        { enable := flags.getLsbD 0, overloadEvent := flags.getLsbD 1,
          edge := EdgeSelect.ofBits (flags.extractLsb' 2 2), silenceAt := ofBytes [a2, a1, a0],
          overloadAt := ofBytes [b2, b1, b0], ns := ofBytes [n1, n0] }
      exact ⟨_, _, rfl, State.updMonitor_congr _ d (by rw [hm]), s1, s2, s3, s4, s5, s6, s7, hrest⟩
  · have hr := execute_of_head (f := meterReadAnswer l) h (fun hc => absurd hc (by decide))
    simp only [meterReadAnswer, param1_ofNat d.isLt (show 96 ≤ 256 by decide), hm] at hr
    exact congrArg _ hr
  · have hr := execute_of_head (f := meterReadAnswer l) h (fun hc => absurd hc (by decide))
    simp only [meterReadAnswer, param1_none hb] at hr
    exact congrArg _ hr
  · have hr := execute_of_head (f := monSetAnswer) h (fun hc => absurd hc (by decide))
    have hi : monSetAnswer [b, flags, a2, a1, a0, b2, b1, b0, n1, n0] s = s.invalid := by
      unfold monSetAnswer
      dsimp only
      rcases Nat.lt_or_ge b.toNat 96 with hlt | hge
      · have hs : settings? [flags, a2, a1, a0, b2, b1, b0, n1, n0] = none := by
          unfold settings?
          dsimp only
          rw [if_neg (by omega)]
        rw [hs]
        cases below? 96 b <;> rfl
      · rw [below_none hge]
    rw [hi] at hr
    exact congrArg _ hr

end Sys2Proof.Machine
end

section
/-! The reference unit, house frame boundaries and fallback control (O42 to O46). -/

set_option Elab.async false

namespace Sys2Proof.Machine

/-! ### The commands as functions of the state -/

theorem exec_houseFrameBoundary (s : State) : exec .houseFrameBoundary s = .next s.settleBoundary := rfl
theorem exec_hfpPulse (s : State) : exec .hfpPulse s = .next s.hfpPulse := rfl
theorem exec_fbkAsserted (s : State) : exec .fbkAsserted s = .next s.assertFbk := rfl

/-! ### The word clock -/

/-- R155: with no change of state due, the reference unit has none to take first. -/
theorem settleRef_of_not_due {s : State} (h1 : s.ref.lockDue = false) (h2 : s.ref.holdoverDue = false) :
    s.settleRef = s := by
  have hl : s.enterLock = s := by rw [State.enterLock, if_neg (by simp [h1])]
  rw [State.settleRef, hl, State.enterHoldover, if_neg (by simp [h2])]

theorem judgeGood_of_not_due {s : State} (h1 : s.ref.lockDue = false) (h2 : s.ref.holdoverDue = false) (i : Nat) :
    s.judgeGood i = s.updRef fun r => r.goodInterval i := by rw [State.judgeGood, settleRef_of_not_due h1 h2]

theorem judgeNonGood_of_not_due {s : State} (h1 : s.ref.lockDue = false) (h2 : s.ref.holdoverDue = false) :
    s.judgeNonGood = s.updRef RefUnit.nonGoodInterval := by rw [State.judgeNonGood, settleRef_of_not_due h1 h2]

/-- R155: a bad or missing interval, in LOCKED and out of it. -/
theorem nonGoodInterval_eq (r : RefUnit) : r.nonGoodInterval
    = { r with good := if r.state = .locked then r.good else 0,
               nonGood := if r.state = .locked then r.nonGood + 1 else r.nonGood } := by
  unfold RefUnit.nonGoodInterval
  cases h : r.state <;> simp

/-- R154: an edge that closes an interval. -/
theorem wckEdge_closes {s : State} (h : s.ref.intervalOpen = true) (i : Nat) : exec (.wckEdge i) s
    = .next ((s.closeInterval i).updRef fun r => { r with edgeSeen := true, intervalOpen := true }) := by
  have : s.wckEdge i = (s.closeInterval i).updRef fun r => { r with edgeSeen := true, intervalOpen := true } := by
    rw [State.wckEdge, if_pos h]
  exact congrArg _ this

theorem judge_good {i : Nat} (h1 : 20000000 ≤ i) (h2 : i ≤ 21700000) : judge i = .good := if_pos ⟨h1, h2⟩

theorem judge_bad {i : Nat} (h1 : i < 20000000 ∨ 21700000 < i) (h2 : i < 31250000) : judge i = .bad := by
  rw [judge, if_neg (by omega), if_pos h2]

theorem judge_missing {i : Nat} (h : 31250000 ≤ i) : judge i = .missing := by
  rw [judge, if_neg (by omega), if_neg (by omega)]

/-- A change of the reference unit that keeps the count commutes with raising a notice. -/
theorem raise_updRef (s : State) (k : NoticeKind) (a b : Nat) (f : RefUnit → RefUnit)
    (h : (f s.ref).frameCount = s.ref.frameCount) : (s.raise k a b).updRef f = (s.updRef f).raise k a b := by
  simp only [State.raise, State.raiseAll, State.raiseAllAt, State.raiseAs, State.updRef, h]

/-- R155: the second of two missing intervals in LOCKED, where the first brought the count to 2. -/
theorem judgeNonGood_of_holdover {s : State} (hs : s.ref.state = .locked) (hn : 2 ≤ s.ref.nonGood) :
    s.judgeNonGood = (s.updRef fun r => { r with state := .holdover, good := 0, nonGood := 0 }).raise
      .refState 0 (1 + 2 * 4) := by
  have hl : s.enterLock = s := by rw [State.enterLock, if_neg (by simp [RefUnit.lockDue, hs])]
  rw [State.judgeNonGood, State.settleRef, hl, State.enterHoldover, if_pos (by simp [RefUnit.holdoverDue, hs, hn]),
    State.raiseRefState, raise_updRef _ _ _ _ _ (by rw [nonGoodInterval_eq]), State.updRef_updRef, hs]
  congr 1

/-- Settles O42. -/
theorem wordClockMovesTheReference : Obligations.WordClockMovesTheReference := by
  intro s
  refine ⟨fun i h => ?_, fun i ho h1 h2 hlo hhi hs => ?_, fun i ho h1 h2 hlo hhi hs => ?_, fun i ho h1 h2 hb hlt => ?_,
    fun i ho h1 h2 h31 => ⟨fun h52 => ?_, fun h52 hs => ?_, fun h52 hs hn => ?_, fun h52 hs hn => ?_⟩,
    fun he h1 h2 => ?_, fun hs hg => ?_, fun hs hn => ?_⟩
  · have : s.wckEdge i = s.updRef fun r => { r with edgeSeen := true, intervalOpen := true } := by
      rw [State.wckEdge, if_neg (by simp [h])]
    exact congrArg _ this
  · rw [wckEdge_closes ho, State.closeInterval, judge_good hlo hhi, judgeGood_of_not_due h1 h2, State.updRef_updRef]
    refine congrArg _ (State.updRef_congr _ ?_)
    simp only [RefUnit.goodInterval]
  · rw [wckEdge_closes ho, State.closeInterval, judge_good hlo hhi, judgeGood_of_not_due h1 h2, State.updRef_updRef]
    refine congrArg _ (State.updRef_congr _ ?_)
    simp only [RefUnit.goodInterval, hs]
  · rw [wckEdge_closes ho, State.closeInterval, judge_bad hb hlt, judgeNonGood_of_not_due h1 h2, State.updRef_updRef]
    exact congrArg _ (State.updRef_congr _ (by simp only [nonGoodInterval_eq]))
  · rw [wckEdge_closes ho, State.closeInterval, judge_missing h31, if_pos h52, judgeNonGood_of_not_due h1 h2,
      State.updRef_updRef]
    exact congrArg _ (State.updRef_congr _ (by simp only [nonGoodInterval_eq]))
  · have e1 : (s.updRef RefUnit.nonGoodInterval).ref.state = s.ref.state := by simp [nonGoodInterval_eq]
    have e2 : (s.updRef RefUnit.nonGoodInterval).ref.good = 0 := by simp [nonGoodInterval_eq, hs]
    rw [wckEdge_closes ho, State.closeInterval, judge_missing h31, if_neg (by omega), judgeNonGood_of_not_due h1 h2,
      judgeNonGood_of_not_due (by rw [RefUnit.lockDue, e2]; simp) (by rw [RefUnit.holdoverDue, e1]; simp [hs]),
      State.updRef_updRef, State.updRef_updRef]
    exact congrArg _ (State.updRef_congr _ (by simp [nonGoodInterval_eq, hs]))
  · have e1 : (s.updRef RefUnit.nonGoodInterval).ref.state = .locked := by simp [nonGoodInterval_eq, hs]
    have e2 : (s.updRef RefUnit.nonGoodInterval).ref.nonGood = 1 := by simp [nonGoodInterval_eq, hs, hn]
    rw [wckEdge_closes ho, State.closeInterval, judge_missing h31, if_neg (by omega), judgeNonGood_of_not_due h1 h2,
      judgeNonGood_of_not_due (by rw [RefUnit.lockDue, e1]; rfl) (by rw [RefUnit.holdoverDue, e2]; simp),
      State.updRef_updRef, State.updRef_updRef]
    exact congrArg _ (State.updRef_congr _ (by simp [nonGoodInterval_eq, hs, hn]))
  · have e1 : (s.updRef RefUnit.nonGoodInterval).ref.state = .locked := by simp [nonGoodInterval_eq, hs]
    have e2 : 2 ≤ (s.updRef RefUnit.nonGoodInterval).ref.nonGood := by simp [nonGoodInterval_eq, hs, hn]
    rw [wckEdge_closes ho, State.closeInterval, judge_missing h31, if_neg (by omega), judgeNonGood_of_not_due h1 h2,
      judgeNonGood_of_holdover e1 e2, raise_updRef _ _ _ _ _ rfl, State.updRef_updRef, State.updRef_updRef]
    refine congrArg _ (congrArg (fun u => State.raise u .refState 0 (1 + 2 * 4)) (State.updRef_congr _ ?_))
    simp [nonGoodInterval_eq, hs]
  · have : s.wckMissing = s.updRef fun r => { r with
        intervalOpen := false, good := if r.state = .locked then r.good else 0,
        nonGood := if r.state = .locked then r.nonGood + 1 else r.nonGood } := by
      rw [State.wckMissing, if_pos he, judgeNonGood_of_not_due h1 h2, State.updRef_updRef]
      exact State.updRef_congr _ (by simp only [nonGoodInterval_eq])
    exact congrArg _ this
  · have : s.enterLock = (s.updRef fun r => { r with
        state := .locked, good := 0, nonGood := 0, period480 := r.recent.sum }).raise .refState 0
          (s.ref.state.code + 1 * 4) := if_pos (by simp [RefUnit.lockDue, hs, hg])
    exact congrArg _ this
  · have : s.enterHoldover = (s.updRef fun r => { r with state := .holdover, good := 0, nonGood := 0 }).raise
        .refState 0 (1 + 2 * 4) := by
      rw [State.enterHoldover, if_pos (by simp [RefUnit.holdoverDue, hs, hn]), State.raiseRefState, hs]
      rfl
    exact congrArg _ this

/-! ### House frame boundaries -/

theorem setHfp_ref (s : State) (b : Bool) : (s.setHfp b).ref = { s.ref with hfp := b } := by
  unfold State.setHfp
  split
  · next h => rw [← h]
  · rfl

/-- R158: the events of a change of the HFP state. -/
theorem setHfp_events (s : State) (b : Bool) : (s.setHfp b).events
      = (if s.ref.hfp = b then s else s.raise .refState 1 (hfpCode s.ref.hfp + hfpCode b * 4)).events
    ∧ (s.setHfp b).eventNo
      = (if s.ref.hfp = b then s else s.raise .refState 1 (hfpCode s.ref.hfp + hfpCode b * 4)).eventNo := by
  unfold State.setHfp
  split
  · exact ⟨rfl, rfl⟩
  · exact ⟨rfl, rfl⟩

theorem boundaryRaises_keeps (s u : State) : Keeps [.events] u (boundaryRaises s u) :=
  Keeps.foldl (fun v _ => keeps_raiseAll (s := v) _) _ u

/-- R159, R72: a boundary at the reference unit and the track map. -/
theorem frameBoundary_spec {s : State} (hok : TakesOk s) : DealsWithHouseTakes s s.frameBoundary
    ∧ ∀ r : State, r.events = s.events → r.eventNo = s.eventNo → r.ref.frameCount = s.ref.frameCount + 1 →
      s.frameBoundary.events = (boundaryRaises s r).events
        ∧ s.frameBoundary.eventNo = (boundaryRaises s r).eventNo := by
  have ku := keeps_updRef (s := s) RefUnit.newFrame
  have hu : TakesOk (s.updRef RefUnit.newFrame) := fun dom => by rw [ku.takes]; exact hok dom
  obtain ⟨h1, h2⟩ := houseBoundary_spec (s.updRef RefUnit.newFrame) hu
  refine ⟨dealsWithHouseTakes_of ku h1 (Keeps.refl [] _), fun r e1 e2 e3 => ?_⟩
  have := h2 r e1 e2 e3
  rwa [boundaryRaises_of ku hok] at this

theorem frameBoundary_ref (s : State) : s.frameBoundary.ref = s.ref.newFrame := by
  rw [State.frameBoundary, keeps_houseBoundary.ref, State.updRef_ref]

/-- R157: no boundary waits after one. -/
theorem settleBoundary_of_not_due {s : State} (h : s.ref.boundaryDue = false) : s.settleBoundary = s := by
  rw [State.settleBoundary, if_neg (by simp [h])]

theorem settleBoundary_of_due {s : State} (h : s.ref.boundaryDue = true) :
    s.settleBoundary = (s.setHfp false).frameBoundary := if_pos h

/-- Settles O43. -/
theorem framePulseIsGuarded : Obligations.FramePulseIsGuarded := by
  refine ⟨fun s hb ht => ?_, fun s hb ht => ?_, fun s hb => ?_, by decide⟩
  · have hp : s.hfpPulse = s.frameBoundary.setHfp true := by
      unfold State.hfpPulse
      rw [settleBoundary_of_not_due hb]
      exact if_pos ht
    have hx : exec .hfpPulse s = .next (s.frameBoundary.setHfp true) := by rw [exec_hfpPulse, hp]
    have hr : (s.frameBoundary.setHfp true).ref = { s.ref.newFrame with hfp := true } := by
      rw [setHfp_ref, frameBoundary_ref]
    have he := (setHfp_events s.frameBoundary true).1
    rw [frameBoundary_ref] at he
    refine ⟨_, hx, by rw [hr]; rfl, by rw [hr]; rfl, by rw [hr]; rfl, by rw [hr], by rw [hr]; rfl,
      by rw [hr]; rfl, keeps_frameBoundary.andThen (keeps_setHfp true), fun hok => ?_, fun hok =>
      ⟨_, rfl, fun h => ?_, fun h => ?_⟩⟩
    · exact dealsWithHouseTakes_of (Keeps.refl [] s) (frameBoundary_spec hok).1 (keeps_setHfp true)
    · rw [he, if_pos (show s.ref.newFrame.hfp = true from h)]
      exact ((frameBoundary_spec hok).2 (s.updRef fun r => { r with frameCount := r.frameCount + 1 }) rfl rfl rfl).1
    · have h0 : s.ref.newFrame.hfp = false := h
      obtain ⟨e1, e2⟩ := (frameBoundary_spec hok).2
        (s.updRef fun r => { r with frameCount := r.frameCount + 1 }) rfl rfl rfl
      rw [he, if_neg (by rw [h0]; decide), h0]
      refine (raiseAll_congr e1 e2 ?_ _).1
      rw [frameBoundary_ref, (boundaryRaises_keeps _ _).ref]
      rfl
  · have hx : s.hfpPulse = s.setHfp true := by
      unfold State.hfpPulse
      rw [settleBoundary_of_not_due hb]
      exact if_neg (Nat.not_le.mpr ht)
    rw [exec_hfpPulse, hx]
    refine ⟨fun h => by rw [State.setHfp, if_pos h], fun h => ?_⟩
    rw [State.setHfp, if_neg (by simp [h]), h]
    rfl
  · have hs := settleBoundary_of_due hb
    have hr : s.settleBoundary.ref = ({ s.ref with hfp := false } : RefUnit).newFrame := by
      rw [hs, frameBoundary_ref, setHfp_ref]
    refine ⟨_, rfl, by rw [hr]; rfl, by rw [hr]; exact (by decide : 0 < 480), ?_⟩
    have : s.settleBoundary.settleBoundary = s.settleBoundary := settleBoundary_of_not_due (by rw [hr]; rfl)
    have hp : s.hfpPulse = s.settleBoundary.hfpPulse := by unfold State.hfpPulse; rw [this]
    rw [exec_hfpPulse, exec_hfpPulse, hp]

/-- Settles O44. -/
theorem boundaryDealsWithHouseTakes : Obligations.BoundaryDealsWithHouseTakes := by
  intro s hok hb
  have hs : exec .houseFrameBoundary s = .next (s.setHfp false).frameBoundary := by
    rw [exec_houseFrameBoundary, settleBoundary_of_due hb]
  have kh := keeps_setHfp (s := s) false
  have hok' : TakesOk (s.setHfp false) := fun dom => by rw [kh.takes]; exact hok dom
  have hr : (s.setHfp false).frameBoundary.ref = ({ s.ref with hfp := false } : RefUnit).newFrame := by
    rw [frameBoundary_ref, setHfp_ref]
  obtain ⟨h1, h2⟩ := frameBoundary_spec hok'
  refine ⟨_, hs, by rw [hr]; rfl, by rw [hr]; rfl, by rw [hr]; rfl, by rw [hr]; rfl,
    kh.andThen keeps_frameBoundary, dealsWithHouseTakes_of kh h1 (Keeps.refl [] _), _, rfl, ?_⟩
  obtain ⟨e1, e2⟩ := setHfp_events s false
  have hq : (if s.ref.hfp then s.raise .refState 1 (1 + 0 * 4) else s)
      = if s.ref.hfp = false then s else s.raise .refState 1 (hfpCode s.ref.hfp + hfpCode false * 4) := by
    cases h : s.ref.hfp <;> rfl
  have hf : (if s.ref.hfp then s.raise .refState 1 (1 + 0 * 4) else s).ref = s.ref := by split <;> rfl
  rw [hq] at hf ⊢
  rw [← boundaryRaises_of kh hok]
  refine (h2 _ ?_ ?_ ?_).1
  · rw [State.updRef_events, e1]
  · rw [State.updRef_eventNo, e2]
  · rw [State.updRef_ref, hf, setHfp_ref]

/-! ### Fallback control -/

/-- What a trip does to the builders and to their stores reads nothing of the level, the state or the events. -/
theorem tripsBuilders_of {A B : List Part} {s u v t : State} (hs : Keeps A s u) (h : TripsBuilders u v)
    (ht : Keeps B v t) (hA : ∀ p ∈ A, p ∈ [Part.fallback, .events] := by decide)
    (hB : ∀ p ∈ B, p ∈ [Part.fallback, .events] := by decide) : TripsBuilders s t := by
  have ks := hs.mono hA
  have kt := ht.mono hB
  unfold TripsBuilders at *
  rw [kt.builders, kt.embed, kt.embCounts]
  simpa only [ks.builders, ks.embed, ks.embCounts, ks.lanes] using h

/-- R162: the entry into TRIPPED from a state that differs from `s` in the level alone, and its notices. -/
theorem trip_spec {s u : State} (ku : Keeps [.fallback] s u) (ns : List Pending) :
    (u.trip.raiseAll ns).fallback = { u.fallback with state := .tripped }
      ∧ (u.trip.raiseAll ns).events = (s.raiseAll ns).events
      ∧ TripsBuilders s (u.trip.raiseAll ns)
      ∧ Keeps [.fallback, .builders, .embed, .embCounts, .events] s (u.trip.raiseAll ns) := by
  have k1 := ku.andThen (keeps_setFallback FallbackState.tripped) (C := [.fallback])
  have k2 : Keeps [.builders, .embed, .embCounts] (u.setFallback .tripped) u.trip := keeps_tripAll
  have k3 := k1.andThen k2 (C := [.fallback, .builders, .embed, .embCounts])
  refine ⟨?_, ?_, tripsBuilders_of k1 (tripAll_spec _) (keeps_raiseAll ns), k3.andThen (keeps_raiseAll ns)⟩
  · rw [(keeps_raiseAll ns).fallback, k2.fallback]
    rfl
  · exact (raiseAll_congr k3.events k3.eventNo (by rw [k3.ref]) ns).1

/-- Settles O45. -/
theorem fallbackInputTrips : Obligations.FallbackInputTrips := by
  intro s
  refine ⟨fun h => ?_, fun h => ?_, rfl⟩
  · have hx : s.assertFbk = (State.trip { s with fallback := { s.fallback with fbk := true } }).raiseAll
        [fallbackNotice .armed .tripped 0 0] := by simp only [State.assertFbk, h]
    have ku : Keeps [.fallback] s { s with fallback := { s.fallback with fbk := true } } := by
      intro p hp
      cases p with
      | fallback => exact absurd (by decide) hp
      | events => exact ⟨rfl, rfl⟩
      | _ => rfl
    obtain ⟨t1, t2, t3, t4⟩ := trip_spec ku [fallbackNotice .armed .tripped 0 0]
    exact ⟨_, by rw [exec_fbkAsserted, hx], t1, t2, t3, t4⟩
  · rw [exec_fbkAsserted]
    unfold State.assertFbk
    cases hs : s.fallback.state with
    | armed => exact absurd hs h
    | disarmed => rfl
    | tripped => rfl

theorem mem_laneDests_iff (l k : Fin 4) (n : Fin 16) : laneDest k n ∈ laneDests l ↔ k = l := by
  refine ⟨fun h => ?_, fun h => h ▸ mem_laneDests k n⟩
  obtain ⟨m, -, hm⟩ := List.mem_map.mp h
  have := congrArg Fin.val hm
  simp only [laneDest] at this
  exact Fin.ext (by omega)

theorem localDest_not_mem (l : Fin 4) (n : Fin 32) : localDest n ∉ laneDests l := by
  intro h
  obtain ⟨m, -, hm⟩ := List.mem_map.mp h
  have := congrArg Fin.val hm
  simp only [laneDest, localDest] at this
  omega

/-- R134: a release at the engine. -/
theorem releaseLane_engine (s : State) (l : Fin 4) (d : Fin 96) : (s.releaseLane l).engine.get d
    = if d ∈ laneDests l ∧ (s.live.get d).mode = .pcm ∧ (s.builders.get l).bypass = .inside ∧ s.running l = false then
        { s.engine.get d with trigger := true } else s.engine.get d := by
  unfold State.releaseLane
  split <;> rename_i h
  · simp [h]
  · simp [h]
  · cases hr : s.running l
    · simp only [Bool.false_eq_true, if_false, State.bypassExit, triggerAll_engine, h, and_true]
      rfl
    · simp
  · simp [h]

/-- R134, R162: the release of the four builders at a destination of lane `k`. -/
theorem releaseAll_engine (s : State) (k : Fin 4) (n : Fin 16) : s.releaseAll.engine.get (laneDest k n)
    = if (s.live.get (laneDest k n)).mode = .pcm ∧ (s.builders.get k).bypass = .inside ∧ s.running k = false then
        { s.engine.get (laneDest k n) with trigger := true } else s.engine.get (laneDest k n) := by
  have hr : ∀ (u : State) (k m : Fin 4), (u.releaseLane k).running m = u.running m := by
    intro u k m; unfold State.running; rw [(keeps_releaseLane k).lanes]
  have hl : ∀ (u : State) (k : Fin 4), (u.releaseLane k).live = u.live := fun u k => (keeps_releaseLane k).live
  simp only [State.releaseAll, four, List.foldl, releaseLane_engine, hl, hr, releaseLane_builders, mem_laneDests_iff,
    Bank.get_upd]
  match k with
  | 0 => simp
  | 1 => simp
  | 2 => simp
  | 3 => simp

/-- R134: the local destinations get no trigger. -/
theorem releaseAll_local (s : State) (n : Fin 32) :
    s.releaseAll.engine.get (localDest n) = s.engine.get (localDest n) := by
  simp [State.releaseAll, four, releaseLane_engine, localDest_not_mem]

/-- Settles O46. -/
theorem fallbackCommandsAct : Obligations.FallbackCommandsAct := by
  intro l ticket ps s
  refine ⟨fun h => ?_, fun h => ?_⟩
  · have hx := execute_of_head (f := fun _ s => fallbackArmAnswer l s) h (fun hc => absurd hc (by decide))
    refine ⟨fun hs hf => ?_, fun hs hf => ?_, fun hs => ?_⟩
    · have ha : s.armFallback l = { s with fallback := { state := .armed, fbk := false } }.raise .fallbackState 0
          (0 + 1 * 4 + 1 * 16 + lineCode l * 64) := by
        simp only [State.armFallback, hs, hf, Bool.false_eq_true, if_false, State.setFallback]
        rfl
      simp only [fallbackArmAnswer, ha] at hx
      exact congrArg _ hx
    · have ha : s.armFallback l = s.trip.raiseAll [(.fallbackState, 0, 0 + 1 * 4 + 1 * 16 + lineCode l * 64),
          (.fallbackState, 0, 1 + 2 * 4)] := by
        simp only [State.armFallback, hs, hf, if_true]
        rfl
      obtain ⟨t1, t2, t3, t4⟩ := trip_spec (Keeps.refl [.fallback] s)
        [(.fallbackState, 0, 0 + 1 * 4 + 1 * 16 + lineCode l * 64), (.fallbackState, 0, 1 + 2 * 4)]
      simp only [hf] at t1
      simp only [fallbackArmAnswer, ha, t1] at hx
      exact ⟨_, congrArg _ hx, t1, t2, t3, t4⟩
    · have ha : s.armFallback l = s := by
        unfold State.armFallback
        cases hf : s.fallback.state with
        | disarmed => exact absurd hf hs
        | armed => rfl
        | tripped => rfl
      simp only [fallbackArmAnswer, ha] at hx
      exact congrArg _ hx
  · have hx := execute_of_head (f := fun _ s => fallbackDisarmAnswer .c s) h (fun _ => rfl)
    refine ⟨fun hs => ?_, fun hs => ?_, fun hs => ?_⟩
    · have ha : s.disarmFallback .c = (s.setFallback .disarmed).releaseAll.raiseAll
          [(.fallbackState, 0, 2 + 0 * 4 + 2 * 16 + 3 * 64)] := by
        simp only [State.disarmFallback, hs]
        rfl
      have k1 := keeps_setFallback (s := s) FallbackState.disarmed
      have k2 := keeps_releaseAll (s := s.setFallback .disarmed)
      have k3 := k1.andThen k2 (C := [.fallback, .builders, .engine])
      have kr := keeps_raiseAll (s := (s.setFallback .disarmed).releaseAll)
        [(.fallbackState, 0, 2 + 0 * 4 + 2 * 16 + 3 * 64)]
      have hfb : (s.setFallback .disarmed).releaseAll.fallback = { s.fallback with state := .disarmed } := by
        rw [k2.fallback]; rfl
      simp only [fallbackDisarmAnswer, ha, kr.fallback, hfb] at hx
      have hrun : ∀ k, (s.setFallback .disarmed).running k = s.running k := fun k => rfl
      refine ⟨_, congrArg _ hx, by rw [kr.fallback, hfb], (raiseAll_congr k3.events k3.eventNo (by rw [k3.ref]) _).1,
        fun k => ?_, fun k hb hr n => ?_, fun k hb n => ?_, fun n => ?_, k3.andThen kr⟩
      · rw [kr.builders, releaseAll_builders, hrun, k1.builders]
        cases hb : (s.builders.get k).bypass <;> simp [Bypass.released, State.running]
      · rw [kr.engine, releaseAll_engine, hrun, k1.live, k1.builders, k1.engine]
        by_cases hm : (s.live.get (laneDest k n)).mode = .pcm
        · simp [hm, hb, State.running, hr]
        · simp [hm]
      · rw [kr.engine, releaseAll_engine, hrun, k1.live, k1.builders, k1.engine, if_neg]
        rintro ⟨-, h1, h2⟩
        rcases hb with hb | hb
        · exact hb h1
        · simp [State.running, hb] at h2
      · rw [kr.engine, releaseAll_local, k1.engine]
    · have ha : s.disarmFallback .c = { s with fallback := { s.fallback with state := .disarmed } }.raise
          .fallbackState 0 (1 + 0 * 4 + 2 * 16 + 3 * 64) := by
        simp only [State.disarmFallback, hs]
        rfl
      simp only [fallbackDisarmAnswer, ha] at hx
      exact congrArg _ hx
    · have ha : s.disarmFallback .c = s := by simp only [State.disarmFallback, hs]
      simp only [fallbackDisarmAnswer, ha, hs] at hx
      exact congrArg _ hx

end Sys2Proof.Machine
end

section
/-! The control line ports: frames, their judgement, and responses (O47 to O50). -/

set_option Elab.async false

namespace Sys2Proof.Machine

/-! ### The commands as functions of the state -/

theorem exec_selectAsserted (l : Line) (s : State) : exec (.selectAsserted l) s = .next (s.updPort l Port.select) := rfl

theorem exec_commandFrameEnd (l : Line) (bits) (s : State) :
    exec (.commandFrameEnd l bits) s = .next (s.updPort l fun p => (p.clockAll bits).endFrame l) := rfl

theorem exec_responseDelivered (l : Line) (bits) (s : State) :
    exec (.responseDelivered l bits) s = .next (s.updPort l fun p => p.clockAll bits) := rfl

theorem port_updPort (s : State) (l : Line) (f : Port → Port) : (s.updPort l f).port l = f (s.port l) := by
  rw [State.updPort_port, if_pos rfl]

/-! ### Sums and codes -/

/-- The sum of bytes as a byte is their sum modulo 256. -/
theorem foldl_add_toNat (bs : List Byte) : ∀ a : Byte,
    (bs.foldl (fun a b => a + b) a).toNat = (a.toNat + (bs.map fun b => b.toNat).sum) % 256 := by
  induction bs with
  | nil => intro a; simp; omega
  | cons b bs ih =>
    intro a
    rw [List.foldl_cons, ih, List.map_cons, List.sum_cons, BitVec.toNat_add]
    omega

/-- R172: a check byte makes the sum a multiple of 256. -/
theorem closed_sum (bs : List Byte) : ((closed bs).map fun b => b.toNat).sum % 256 = 0 := by
  have h := foldl_add_toNat (closed bs) 0
  rw [sum_closed] at h
  simpa using h.symm

theorem reservedToC_iff : ∀ code : Byte, reservedToC code = true
    ↔ code = 0x16 ∨ code = 0x20 ∨ code = 0x22 ∨ code = 0x51 ∨ code = 0x52 := by decide

theorem closed_length (bs : List Byte) : (closed bs).length = bs.length + 1 := by simp [closed]

/-! ### Frames that are judged -/

/-- R168: the five checks of three bytes and more. -/
theorem judgeFrame_cons (l : Line) (code ticket plen : Byte) (rest : List Byte) (n : Nat) :
    judgeFrame l (code :: ticket :: plen :: rest) n
      = if 24 < plen.toNat ∨ n ≠ 4 + plen.toNat then .refused .length ticket
        else if (code :: ticket :: plen :: rest).foldl (fun a b => a + b) 0 ≠ 0 then .refused .check ticket
        else (paramLength? code).elim (.refused .unknown ticket) fun range =>
          if reservedToC code ∧ l ≠ .c then .refused .notAllowed ticket
          else if lengthFits plen.toNat range then .passed { code, ticket, params := rest.take plen.toNat }
          else .refused .invalid ticket := by
  unfold judgeFrame
  dsimp only
  cases paramLength? code <;> rfl

/-- R168: a frame that meets the five checks. -/
theorem judgeFrame_passed {l : Line} {f : Frame} {range : Nat × Nat} (hlen : f.params.length ≤ 24)
    (hr : paramLength? f.code = some range) (h1 : range.1 ≤ f.params.length) (h2 : f.params.length ≤ range.2)
    (hc : reservedToC f.code = true → l = .c) : judgeFrame l f.bytes f.bytes.length = .passed f := by
  have hn : (BitVec.ofNat 8 f.params.length).toNat = f.params.length := toNat_ofNat_byte (by omega)
  have hL : f.bytes.length = 4 + f.params.length := by simp [Frame.bytes, closed_length]; omega
  have hsum : f.bytes.foldl (fun a b => a + b) 0 = 0 := sum_closed _
  obtain ⟨k, hk⟩ : ∃ k, f.bytes = f.code :: f.ticket :: BitVec.ofNat 8 f.params.length :: (f.params ++ [k]) := ⟨_, rfl⟩
  rw [hL]
  rw [hk] at hsum ⊢
  have hnot : ¬ (reservedToC f.code = true ∧ l ≠ .c) := fun h => h.2 (hc h.1)
  rw [judgeFrame_cons, hn, if_neg (by omega), if_neg (not_not_intro hsum), hr, Option.elim_some, if_neg hnot,
    if_pos (by simp [lengthFits, h1, h2]), List.take_left' rfl]

/-- R166, R168: the release of select after whole bytes of a frame that is judged. -/
theorem endFrame_whole {p : Port} {l : Line} (h1 : p.selected = true) (h2 : p.skip = false) (h3 : p.bits = [])
    (h4 : p.length ≠ 0) :
    (∀ st ticket, judgeFrame l p.stored p.length = .refused st ticket → p.endFrame l = p.noFrame.place ticket st [])
      ∧ ∀ f, judgeFrame l p.stored p.length = .passed f → p.endFrame l = p.noFrame.enqueue f := by
  rw [Port.endFrame, if_pos h1, if_neg (by simp [h2]), if_neg (by simp [h3]), if_neg h4]
  exact ⟨fun st ticket h => by rw [h], fun f h => by rw [h]⟩

theorem outgoing_none {p : Port} (h : p.slot = none) :
    p.outgoing = { bytes := [0x5A, 0, 0, 0, 0xA6], ofResponse := false, current := true } := by
  rw [Port.outgoing, h]; rfl

theorem outgoing_some {p : Port} {r : Response} (h : p.slot = some r) :
    p.outgoing = { bytes := r.bytes (if p.delivered then 0xA6 else 0xA5), ofResponse := true, current := true } := by
  rw [Port.outgoing, h]

/-- Settles O47. -/
theorem framesReachTheQueue : Obligations.FramesReachTheQueue := by
  intro l f range s hsel hlen hr h1 h2 hc
  have hp1 : (s.updPort l Port.select).port l = { s.port l with
      selected := true, skip := false, bits := [], length := 0, stored := [], copy := some (s.port l).outgoing } := by
    rw [port_updPort, Port.select, if_neg (by simp [hsel])]
  have hL : f.bytes.length = 4 + f.params.length := by simp [Frame.bytes, closed_length]; omega
  have hj := judgeFrame_passed hlen hr h1 h2 hc
  obtain ⟨d, hd⟩ := Port.clockAll_bytes f.bytes (p := (s.updPort l Port.select).port l)
    (by rw [hp1]) (by rw [hp1]) (by rw [hp1]) (by rw [hp1]; simp; omega)
  have he := endFrame_whole (p := ((s.updPort l Port.select).port l).clockAll (bitsOf f.bytes)) (l := l)
    (by rw [hd, hp1]) (by rw [hd, hp1]) (by rw [hd, hp1])
    (by rw [hd, hp1]; exact (by omega : 0 + f.bytes.length ≠ 0))
  rw [hd, hp1] at he
  simp only [Nat.zero_add, List.nil_append] at he
  have ht : (((s.updPort l Port.select).updPort l fun p => (p.clockAll (bitsOf f.bytes)).endFrame l).port l)
      = ({ s.port l with selected := false, skip := false, bits := [], length := 0, stored := [], copy := none,
                         delivered := d } : Port).enqueue f := by
    rw [port_updPort, hd, hp1]
    simp only [Nat.zero_add, List.nil_append]
    exact he.2 f hj
  refine ⟨_, _, exec_selectAsserted l s, exec_commandFrameEnd l _ _, by rw [hp1], by rw [hp1], fun h => ?_,
    fun r h => ?_, ?_, ?_, fun h => ?_, fun h => ?_⟩
  · exact ⟨_, by rw [hp1], by rw [outgoing_none h], by rw [outgoing_none h]⟩
  · refine ⟨_, by rw [hp1], ?_, ?_, by rw [outgoing_some h], by rw [outgoing_some h]⟩
    · rw [outgoing_some h]; exact ⟨_, rfl⟩
    · rw [outgoing_some h]; exact closed_sum _
  · rw [ht, Port.enqueue]; split <;> rfl
  · rw [ht, Port.enqueue]; split <;> rfl
  · rw [ht, Port.enqueue, if_pos h]; exact ⟨rfl, rfl⟩
  · rw [ht, Port.enqueue, if_neg (Nat.not_lt.mpr h)]; exact ⟨rfl, rfl⟩

/-! ### Frames that are not queued -/

/-- R168: a whole frame whose judgement refuses it. -/
theorem frameEnd_refused {l : Line} {s : State} (h1 : (s.port l).selected = true) (h2 : (s.port l).skip = false)
    (h3 : (s.port l).bits = []) (h4 : (s.port l).length ≠ 0) {st : Status} {ticket : Byte}
    (hj : judgeFrame l (s.port l).stored (s.port l).length = .refused st ticket) :
    exec (.commandFrameEnd l []) s = .next (s.updPort l fun p => p.noFrame.place ticket st []) := by
  rw [exec_commandFrameEnd]
  refine congrArg _ (State.updPort_congr s l ?_)
  rw [show (s.port l).clockAll [] = s.port l from rfl, (endFrame_whole h1 h2 h3 h4).1 st ticket hj]

/-- Settles O48: the cases are the checks of R168 in their order. -/
theorem badFramesAreNotQueued : Obligations.BadFramesAreNotQueued := by
  intro l s h1 h2
  refine ⟨fun hb => ?_, fun hb => ⟨fun h0 => ?_, fun b hlen hst => ?_, fun b ticket hlen hst => ?_,
    fun code ticket plen rest hlen hst => ⟨fun hl => ?_, fun hp hl => ⟨fun hsum => ?_, fun hsum => ⟨fun hn => ?_,
      fun range hr => ⟨fun hres hlc => ?_, fun hres hrange => ?_⟩⟩⟩⟩⟩⟩
  · have he : ((s.port l).clockAll []).endFrame l = { (s.port l).noFrame with framing := true } := by
      rw [show (s.port l).clockAll [] = s.port l from rfl, Port.endFrame, if_pos h1, if_neg (by simp [h2]), if_pos hb]
    refine ⟨_, exec_commandFrameEnd l _ _, ?_, ?_, ?_, ?_, ?_, ?_, keeps_updPort _ _⟩ <;> rw [port_updPort, he] <;> rfl
  · rw [exec_commandFrameEnd]
    refine congrArg _ (State.updPort_congr s l ?_)
    rw [show (s.port l).clockAll [] = s.port l from rfl, Port.endFrame, if_pos h1, if_neg (by simp [h2]),
      if_neg (by simp [hb]), if_pos h0]
  · exact frameEnd_refused h1 h2 hb (by omega) (by rw [hst]; rfl)
  · exact frameEnd_refused h1 h2 hb (by omega) (by rw [hst]; rfl)
  · refine frameEnd_refused h1 h2 hb hlen ?_
    rw [hst, judgeFrame_cons, if_pos hl]
  all_goals
    refine frameEnd_refused h1 h2 hb hlen ?_
    rw [hst] at hsum ⊢
    rw [judgeFrame_cons, if_neg (by omega)]
  · exact if_pos hsum
  · rw [if_neg (not_not_intro hsum), hn, Option.elim_none]
  · rw [if_neg (not_not_intro hsum), hr, Option.elim_some, if_pos ⟨(reservedToC_iff code).mpr hres, hlc⟩]
  · rw [if_neg (not_not_intro hsum), hr, Option.elim_some]
    have hnot : ¬ (reservedToC code = true ∧ l ≠ .c) := fun h => h.2 (hres ((reservedToC_iff code).mp h.1))
    have hfit : lengthFits plen.toNat range = false := by
      rw [lengthFits, Bool.and_eq_false_iff, decide_eq_false_iff_not, decide_eq_false_iff_not]
      omega
    simp [hnot, hfit]

/-! ### Responses -/

/-- R166, R175: one clock period of a frame that is judged. -/
theorem clock_facts {p : Port} (h1 : p.selected = true) (h2 : p.skip = false) (h7 : p.bits.length ≤ 7) (b : Bool) :
    (p.clock b).selected = true ∧ (p.clock b).skip = false ∧ (p.clock b).bits.length ≤ 7
      ∧ (p.clock b).copy = p.copy ∧ (p.clock b).slot = p.slot ∧ (p.clock b).queue = p.queue
      ∧ (p.clock b).clocked = p.clocked + 1
      ∧ ∀ c, p.copy = some c → (p.clock b).delivered
          = ((c.ofResponse && c.current && (p.clocked + 1 == c.bytes.length * 8)) || p.delivered) := by
  have hs : (p.shift b).selected = true ∧ (p.shift b).skip = false ∧ (p.shift b).bits.length ≤ 7
      ∧ (p.shift b).copy = p.copy ∧ (p.shift b).slot = p.slot ∧ (p.shift b).queue = p.queue
      ∧ (p.shift b).clocked = p.clocked + 1 := by
    rcases Nat.lt_or_ge p.bits.length 7 with hlt | hge
    · rw [Port.shift_short hlt]
      exact ⟨h1, h2, by simp; omega, rfl, rfl, rfl, by simp [Port.clocked]; omega⟩
    · rw [Port.shift_full (by omega)]
      exact ⟨h1, h2, by simp, rfl, rfl, rfl, by simp [Port.clocked]; omega⟩
  have hc : p.clock b = { p.shift b with delivered := (p.shift b).delivers || p.delivered } := by
    simp [Port.clock, h1, h2]
  obtain ⟨s1, s2, s3, s4, s5, s6, s7⟩ := hs
  rw [hc]
  refine ⟨s1, s2, s3, s4, s5, s6, s7, fun c hcopy => ?_⟩
  simp only [Port.delivers, s4, hcopy, s7]

/-- R166, R175: several clock periods; a response is delivered by the one that completes its copy alone. -/
theorem clockAll_facts (bits : List Bool) : ∀ {p : Port} {c : OutCopy}, p.selected = true → p.skip = false →
    p.bits.length ≤ 7 → p.copy = some c →
    (p.clockAll bits).selected = true ∧ (p.clockAll bits).copy = some c ∧ (p.clockAll bits).slot = p.slot
      ∧ (p.clockAll bits).queue = p.queue ∧ (p.clockAll bits).clocked = p.clocked + bits.length
      ∧ (c.ofResponse = true → bits ≠ [] → p.clocked + bits.length = c.bytes.length * 8 →
          (p.clockAll bits).delivered = (c.current || p.delivered)) := by
  induction bits with
  | nil => exact fun h1 _ _ hc => ⟨h1, hc, rfl, rfl, rfl, fun _ h => absurd rfl h⟩
  | cons b bits ih =>
    intro p c h1 h2 h7 hc
    obtain ⟨s1, s2, s3, s4, s5, s6, s7, s8⟩ := clock_facts h1 h2 h7 b
    obtain ⟨t1, t2, t3, t4, t5, t6⟩ := ih s1 s2 s3 (s4.trans hc)
    have hd := s8 c hc
    refine ⟨t1, t2, t3.trans s5, t4.trans s6, t5.trans (by rw [s7, List.length_cons]; omega), fun hr _ hl => ?_⟩
    rw [List.length_cons] at hl
    cases hb : bits with
    | nil =>
      subst hb
      show (p.clock b).delivered = _
      rw [hd, hr, beq_iff_eq.mpr (show p.clocked + 1 = c.bytes.length * 8 from by simpa using hl)]
      simp
    | cons b2 bs =>
      have hne : (p.clocked + 1 == c.bytes.length * 8) = false := by
        rw [beq_eq_false_iff_ne, ← hl, hb, List.length_cons]; omega
      rw [hne, Bool.and_false, Bool.false_or] at hd
      rw [← hb, ← hd]
      exact t6 hr (by rw [hb]; simp) (by rw [s7]; omega)

/-- R166: the bits of bytes, one by one. -/
theorem bitsOf_getElem (bs : List Byte) (n : Nat) :
    (bs.getD (n / 8) 0).getMsbD (n % 8) = ((bitsOf bs)[n]?).getD false := by
  have h := getElem?_flatMap_blocks (f := fun b : Byte => (List.range 8).map fun i => b.getMsbD i) (n := 8)
    (by simp) bs (n / 8) (n % 8) (Nat.mod_lt _ (by decide))
  rw [show 8 * (n / 8) + n % 8 = n by omega] at h
  rw [bitsOf, h, List.getD_eq_getElem?_getD]
  cases bs[n / 8]? with
  | none => simp
  | some b => simp [Nat.mod_lt]

/-- Settles O49. -/
theorem responsesAreDelivered : Obligations.ResponsesAreDelivered := by
  refine ⟨fun l bits s c h1 h2 h7 hc => ⟨fun i hi => ?_, fun hr hne hl => ?_⟩, fun p hp => ?_⟩
  · obtain ⟨t1, t2, -, -, t5, -⟩ := clockAll_facts (bits.take i) h1 h2 h7 hc
    rw [List.length_take, Nat.min_eq_left hi] at t5
    rw [Port.dataOut, if_pos t1, t2, t5]
    exact congrArg some (bitsOf_getElem _ _)
  · obtain ⟨-, -, t3, t4, -, t6⟩ := clockAll_facts bits h1 h2 h7 hc
    refine ⟨_, exec_responseDelivered l bits s, ?_, ?_, ?_, keeps_updPort _ _⟩ <;> rw [port_updPort]
    · exact t6 hr hne hl
    · exact t3
    · exact t4
  · rw [Port.dataOut, if_neg (by simp [hp])]

/-- R173: the fields of a status byte. -/
theorem statusByte_fields (st : Status) (overwrite dropped : Bool) :
    (statusByte st overwrite dropped).toNat % 64 = st.code ∧ (statusByte st overwrite dropped).getLsbD 6 = overwrite
      ∧ (statusByte st overwrite dropped).getLsbD 7 = dropped := by
  revert st overwrite dropped
  intro st
  cases st <;> decide

/-- Settles O50. -/
theorem responsesArePlaced : Obligations.ResponsesArePlaced := by
  intro s l ticket st payload
  obtain ⟨f1, f2, f3⟩ := statusByte_fields st ((s.port l).slot.isSome && !(s.port l).delivered) (s.port l).drop
  have hp : (s.answer l ticket st payload).port l
      = { (s.port l).place ticket st payload with queue := (s.port l).queue.tail } := by
    rw [answer_port, if_pos rfl]
  refine ⟨{ ticket, status := statusByte st ((s.port l).slot.isSome && !(s.port l).delivered) (s.port l).drop, payload },
    ?_, rfl, rfl, f1, f2, f3, ?_, ?_, ?_, fun l' hl => ?_, keeps_answer _ _ _ _⟩
  · rw [hp]; rfl
  · rw [hp]; rfl
  · rw [hp]; rfl
  · rw [hp]
  · rw [answer_port, if_neg (Ne.symm hl)]

end Sys2Proof.Machine
end

section
/-! The commands of the track map: staging and protection (O52, O54). -/

set_option Elab.async false

namespace Sys2Proof.Machine

/-! ### Commands with an answer -/

/-- R171: a command whose block takes the frame at the head. -/
theorem next_execute_of_head {s u : State} {l : Line} {code ticket : Byte} {ps payload : List Byte}
    {f : List Byte → State → Answer} {st : Status} (h : HeadIs s l code ticket ps)
    (hl : reservedToC code = true → l = .c) (hf : f ps s = (u, st, payload)) :
    (.next (s.execute l code f) : Host.Outcome State Fault Refusal) = .next (u.answer l ticket st payload) := by
  rw [execute_of_head h hl, hf]

theorem tag_none {t : Byte} (h : 16 ≤ t.toNat) : tag? t = none := by rw [tag?, if_neg (by omega)]

theorem planGroup_none {b : Byte} (h : b.toNat < 96 ∨ 112 ≤ b.toNat) : planGroup? b = none := by
  rw [planGroup?, dif_neg (by omega)]

theorem planMode_none {m : Byte} (h : 3 ≤ m.toNat) : PlanMode.ofCode? m = none := by
  unfold PlanMode.ofCode?
  rw [if_neg (by rintro rfl; revert h; decide), if_neg (by rintro rfl; revert h; decide),
    if_neg (by rintro rfl; revert h; decide)]

/-- R61: bytes that no entry within the DATA rule has spell none. -/
theorem entry?_none {bs : List Byte} (h : ∀ e : Entry, e.stageable = true → bs ≠ entryBytes e) : entry? bs = none := by
  cases he : entry? bs with
  | none => rfl
  | some e => exact absurd (entryBytes_entry? he).symm (h e (entry?_stageable he))

/-- R80: another line protects the item. -/
theorem barred_of_owner {s : State} {it : Fin 112} {l o : Line} (h : s.owners.get it = some o) (hl : o ≠ l) :
    s.barredBy it l = some o := by
  rw [State.barredBy, h]
  exact if_neg hl

/-! ### Staging (R61 to R63) -/

section
variable (s : State) (l : Line)

theorem mapStageAnswer_eq (d : Fin 96) (tag : BitVec 4) {e : Entry} (he : e.stageable = true) :
    mapStageAnswer l (BitVec.ofNat 8 d.val :: BitVec.ofNat 8 tag.toNat :: entryBytes e) s = s.stageEntry l d tag e := by
  simp only [mapStageAnswer, below_ofNat d.isLt (show 96 ≤ 256 by decide), tag_ofNat, entry?_entryBytes he]

/-- R61: a parameter of MAP_STAGE out of range. -/
theorem mapStageAnswer_invalid {b t : Byte} {es : List Byte}
    (h : below? 96 b = none ∨ tag? t = none ∨ entry? es = none) : mapStageAnswer l (b :: t :: es) s = s.invalid := by
  unfold mapStageAnswer
  dsimp only
  split
  · next hd ht he =>
    rcases h with h | h | h
    · cases h.symm.trans hd
    · cases h.symm.trans ht
    · cases h.symm.trans he
  · rfl

theorem planStageAnswer_eq (g : Fin 16) (tag : BitVec 4) (m : PlanMode) :
    planStageAnswer l [BitVec.ofNat 8 (96 + g.val), BitVec.ofNat 8 tag.toNat, BitVec.ofNat 8 m.code] s
      = s.stageMode l g tag m := by
  simp only [planStageAnswer, planGroup_ofNat, tag_ofNat, planMode_ofCode]

/-- R62: a parameter of PLAN_STAGE out of range. -/
theorem planStageAnswer_invalid {b t m : Byte}
    (h : planGroup? b = none ∨ tag? t = none ∨ PlanMode.ofCode? m = none) :
    planStageAnswer l [b, t, m] s = s.invalid := by
  unfold planStageAnswer
  dsimp only
  split
  · next hd ht he =>
    rcases h with h | h | h
    · cases h.symm.trans hd
    · cases h.symm.trans ht
    · cases h.symm.trans he
  · rfl

variable {s l}

theorem stageEntry_free {d : Fin 96} (tag : BitVec 4) (e : Entry) (h : FreeFor s (destItem d) l) :
    s.stageEntry l d tag e
      = ({ s with stagedDest := s.stagedDest.set d (some { body := e, tag := tag, stager := l }) },
          if (s.stagedDest.get d).isSome then .replaced else .ok, []) := by
  rw [State.stageEntry, barred_none h]; rfl

theorem stageEntry_barred {d : Fin 96} {o : Line} (tag : BitVec 4) (e : Entry) (h : s.owners.get (destItem d) = some o)
    (hl : o ≠ l) : s.stageEntry l d tag e = s.protectedBy o := by
  rw [State.stageEntry, barred_of_owner h hl]

theorem stageMode_free {g : Fin 16} (tag : BitVec 4) (m : PlanMode) (h : FreeFor s (planItem g) l) :
    s.stageMode l g tag m
      = ({ s with stagedPlan := s.stagedPlan.set g (some { body := m, tag := tag, stager := l }) },
          if (s.stagedPlan.get g).isSome then .replaced else .ok, []) := by
  rw [State.stageMode, barred_none h]; rfl

theorem stageMode_barred {g : Fin 16} {o : Line} (tag : BitVec 4) (m : PlanMode)
    (h : s.owners.get (planItem g) = some o) (hl : o ≠ l) : s.stageMode l g tag m = s.protectedBy o := by
  rw [State.stageMode, barred_of_owner h hl]

theorem mapDropAnswer_eq (it : Fin 112) (h : FreeFor s it l) :
    mapDropAnswer l [BitVec.ofNat 8 it.val] s = (s.unstage it, .ok, [BitVec.ofNat 8 (bit (s.isStaged it))]) := by
  simp only [mapDropAnswer, param1_ofNat it.isLt (show 112 ≤ 256 by decide), barred_none h]
  rfl

theorem mapDropAnswer_barred {it : Fin 112} {o : Line} (h : s.owners.get it = some o) (hl : o ≠ l) :
    mapDropAnswer l [BitVec.ofNat 8 it.val] s = s.protectedBy o := by
  simp only [mapDropAnswer, param1_ofNat it.isLt (show 112 ≤ 256 by decide), barred_of_owner h hl]

end

theorem unstage_dest (s : State) (d : Fin 96) :
    s.unstage (destItem d) = { s with stagedDest := s.stagedDest.set d none } := by
  rw [State.unstage, dif_pos (show (destItem d).val < 96 from d.isLt)]
  rfl

theorem planItem_not_lt (g : Fin 16) : ¬ (planItem g).val < 96 := by simp [planItem]

theorem planItem_sub (g : Fin 16) (h : (planItem g).val - 96 < 16) : (⟨(planItem g).val - 96, h⟩ : Fin 16) = g :=
  Fin.ext (by simp [planItem])

theorem unstage_plan (s : State) (g : Fin 16) :
    s.unstage (planItem g) = { s with stagedPlan := s.stagedPlan.set g none } := by
  rw [State.unstage, dif_neg (planItem_not_lt g), planItem_sub]

theorem isStaged_dest (s : State) (d : Fin 96) : s.isStaged (destItem d) = (s.stagedDest.get d).isSome := by
  rw [State.isStaged, dif_pos (show (destItem d).val < 96 from d.isLt)]
  rfl

theorem isStaged_plan (s : State) (g : Fin 16) : s.isStaged (planItem g) = (s.stagedPlan.get g).isSome := by
  rw [State.isStaged, dif_neg (planItem_not_lt g), planItem_sub]

theorem byte_bit (b : Bool) : BitVec.ofNat 8 (bit b) = if b then 1 else 0 := by cases b <;> rfl

/-- Settles O52. -/
theorem stagingAct : Obligations.StagingAct := by
  intro l ticket s
  refine ⟨fun d tag e h => ⟨fun he hf => ?_, fun o he ho hl => ?_, fun he => ?_⟩,
    fun g tag m h => ⟨fun hf => ?_, fun o ho hl => ?_⟩, fun d h hf => ?_, fun g h hf => ?_, fun it o h ho hl => ?_,
    fun b h hb => ?_, fun b t es h hb => ?_, fun b t m h hb => ?_⟩
  · exact next_execute_of_head h (absurd · (by decide))
      ((mapStageAnswer_eq s l d tag he).trans (stageEntry_free tag e hf))
  · exact next_execute_of_head h (absurd · (by decide))
      ((mapStageAnswer_eq s l d tag he).trans (stageEntry_barred tag e ho hl))
  · exact next_execute_of_head h (absurd · (by decide))
      (mapStageAnswer_invalid s l (.inr (.inr (by rw [entry?_entryBytes_eq, he]; rfl))))
  · exact next_execute_of_head h (absurd · (by decide))
      ((planStageAnswer_eq s l g tag m).trans (stageMode_free tag m hf))
  · exact next_execute_of_head h (absurd · (by decide))
      ((planStageAnswer_eq s l g tag m).trans (stageMode_barred tag m ho hl))
  · have he := mapDropAnswer_eq (destItem d) hf
    rw [unstage_dest, isStaged_dest, byte_bit] at he
    exact next_execute_of_head h (absurd · (by decide)) he
  · have he := mapDropAnswer_eq (planItem g) hf
    rw [unstage_plan, isStaged_plan, byte_bit] at he
    exact next_execute_of_head h (absurd · (by decide)) he
  · exact next_execute_of_head h (absurd · (by decide)) (mapDropAnswer_barred ho hl)
  · refine next_execute_of_head (f := mapDropAnswer l) h (absurd · (by decide)) ?_
    simp only [mapDropAnswer, param1_none hb]
    rfl
  · exact next_execute_of_head h (absurd · (by decide))
      (mapStageAnswer_invalid s l (hb.imp below_none (.imp tag_none entry?_none)))
  · refine next_execute_of_head h (absurd · (by decide)) (planStageAnswer_invalid s l ?_)
    rcases hb with hb | hb | hb | hb
    · exact .inl (planGroup_none (.inl hb))
    · exact .inl (planGroup_none (.inr hb))
    · exact .inr (.inl (tag_none hb))
    · exact .inr (.inr (planMode_none hb))

/-! ### Protection (R81 to R83) -/

/-- R83: what freeing items leaves of the owners. -/
theorem foldl_setOwner_none (its : List (Fin 112)) : ∀ (s : State) (i : Fin 112),
    (its.foldl (fun s it => s.setOwner it none) s).owners.get i = if i ∈ its then none else s.owners.get i := by
  induction its with
  | nil => intro s i; simp
  | cons it its ih =>
    intro s i
    rw [List.foldl_cons, ih]
    by_cases hi : i ∈ its
    · simp [hi]
    · by_cases he : i = it
      · subst he; simp [State.setOwner]
      · simp [State.setOwner, hi, he, Ne.symm he]

theorem keeps_freeOwners (its : List (Fin 112)) (s : State) :
    Keeps [.owners] s (its.foldl (fun s it => s.setOwner it none) s) :=
  Keeps.foldl (fun _ _ => keeps_setOwner _ _) its s

/-- R83: an item without an owner is free already. -/
theorem setOwner_free {s : State} {it : Fin 112} (h : s.owners.get it = none) : s.setOwner it none = s := by
  rw [State.setOwner, Bank.set_get_self _ _ h]

/-- R83: FORCE_RELEASE of one item. -/
theorem freeItems_owned {s : State} {it : Fin 112} {o : Line} (h : s.owners.get it = some o) :
    s.freeItems [it] = (s.setOwner it none).raise .protectForced it.val (lineCode o) := by
  simp [State.freeItems, State.forcedNotices, h, State.raise]

theorem freeItems_free {s : State} {it : Fin 112} (h : s.owners.get it = none) : s.freeItems [it] = s := by
  simp [State.freeItems, State.forcedNotices, h, raiseAll_nil, setOwner_free h]

theorem forceReleaseAnswer_one (it : Fin 112) (s : State) :
    forceReleaseAnswer [BitVec.ofNat 8 it.val] s = (s.freeItems [it], .ok, byte (s.ownedAmong [it])) := by
  have hne : BitVec.ofNat 8 it.val ≠ (0xFF : Byte) := fun h => by
    have := congrArg BitVec.toNat h
    rw [toNat_ofNat_byte (by omega)] at this
    have h2 : it.val = 255 := this
    omega
  simp only [forceReleaseAnswer, forcedItems?, if_neg hne, below_ofNat it.isLt (show 112 ≤ 256 by decide),
    Option.map_some]

/-- R83: all items freed, with PROTECT_FORCED of each owned one. -/
theorem freeItems_all (s : State) : (∀ i, (s.freeItems (List.finRange 112)).owners.get i = none)
    ∧ Keeps [.owners, .events] s (s.freeItems (List.finRange 112))
    ∧ (s.freeItems (List.finRange 112)).events = (s.raiseAll (s.forcedNotices (List.finRange 112))).events := by
  have hk := keeps_freeOwners (List.finRange 112) s
  refine ⟨fun i => ?_, hk.andThen (keeps_raiseAll _),
    (raiseAll_congr hk.events hk.eventNo (congrArg RefUnit.frameCount hk.ref) _).1⟩
  rw [State.freeItems, State.raiseAll_owners, foldl_setOwner_none, if_pos (List.mem_finRange i)]

section
variable (l : Line) {s : State}

theorem protectAnswer_free (it : Fin 112) (h : FreeFor s it l) :
    protectAnswer l [BitVec.ofNat 8 it.val] s = (s.setOwner it (some l), .ok, [BitVec.ofNat 8 (lineCode l)]) := by
  simp only [protectAnswer, param1_ofNat it.isLt (show 112 ≤ 256 by decide), barred_none h]
  rfl

theorem protectAnswer_barred {it : Fin 112} {o : Line} (h : s.owners.get it = some o) (hl : o ≠ l) :
    protectAnswer l [BitVec.ofNat 8 it.val] s = s.protectedBy o := by
  simp only [protectAnswer, param1_ofNat it.isLt (show 112 ≤ 256 by decide), barred_of_owner h hl]

theorem releaseAnswer_eq (it : Fin 112) : releaseAnswer l [BitVec.ofNat 8 it.val] s
    = if s.owners.get it = some l then (s.setOwner it none, .ok, []) else (s, .notOwner, []) := by
  simp only [releaseAnswer, param1_ofNat it.isLt (show 112 ≤ 256 by decide)]

/-- R81 to R83: an item number out of range. -/
theorem protection_invalid {b : Byte} (h : 112 ≤ b.toNat) : protectAnswer l [b] s = s.invalid
    ∧ releaseAnswer l [b] s = s.invalid ∧ (b ≠ 0xFF → forceReleaseAnswer [b] s = s.invalid) := by
  refine ⟨?_, ?_, fun hb => ?_⟩
  · simp only [protectAnswer, param1_none h]
  · simp only [releaseAnswer, param1_none h]
  · simp only [forceReleaseAnswer, forcedItems?, if_neg hb, below_none h, Option.map_none]

end

/-- Settles O54. -/
theorem protectionAct : Obligations.ProtectionAct := by
  intro l ticket it s
  refine ⟨fun h => ⟨fun hf => ?_, fun o ho hl => ?_⟩, fun h => ⟨fun ho => ?_, fun ho => ?_⟩,
    fun h => ⟨fun o ho => ?_, fun ho => ?_⟩, fun h => ?_, fun b hb => ⟨fun h => ?_, fun h => ?_, fun h hne => ?_⟩⟩
  · exact next_execute_of_head h (absurd · (by decide)) (protectAnswer_free l it hf)
  · exact next_execute_of_head h (absurd · (by decide)) (protectAnswer_barred l ho hl)
  · exact next_execute_of_head h (absurd · (by decide)) ((releaseAnswer_eq l it).trans (if_pos ho))
  · exact next_execute_of_head h (absurd · (by decide)) ((releaseAnswer_eq l it).trans (if_neg ho))
  · have he := forceReleaseAnswer_one it s
    rw [freeItems_owned ho, show s.ownedAmong [it] = 1 by simp [State.ownedAmong, ho]] at he
    exact next_execute_of_head h (fun _ => rfl) he
  · have he := forceReleaseAnswer_one it s
    rw [freeItems_free ho, show s.ownedAmong [it] = 0 by simp [State.ownedAmong, ho]] at he
    exact next_execute_of_head h (fun _ => rfl) he
  · obtain ⟨h1, h2, h3⟩ := freeItems_all s
    refine ⟨_, _, next_execute_of_head h (fun _ => rfl) (f := forceReleaseAnswer) rfl, h1, h2, h3.trans ?_, rfl⟩
    rw [State.forcedNotices, List.filterMap_eq_flatMap_toList]
    refine congrArg (fun f => (s.raiseAll ((List.finRange 112).flatMap f)).events) (funext fun i => ?_)
    cases s.owners.get i <;> rfl
  · exact next_execute_of_head h (absurd · (by decide)) (protection_invalid l hb).1
  · exact next_execute_of_head h (absurd · (by decide)) (protection_invalid l hb).2.1
  · exact next_execute_of_head h (fun _ => rfl) ((protection_invalid l hb).2.2 hne)

end Sys2Proof.Machine
end

section
/-! The commands that read (O55), and those of the stores and of the event queues (O56, O57). -/

set_option Elab.async false

namespace Sys2Proof.Machine

/-! ### The fields of payloads -/

theorem stagedEntryBytes_some (r : Staged Entry) : stagedEntryBytes (some r)
    = entryBytes r.body ++ [BitVec.ofNat 8 (r.tag.toNat + lineCode r.stager * 16 + 128)] := rfl

theorem stagedModeBytes_some (r : Staged PlanMode) : stagedModeBytes (some r)
    = byte r.body.code ++ [BitVec.ofNat 8 (r.tag.toNat + lineCode r.stager * 16 + 128)] := rfl

theorem takeEntryBytes_dest {x : TakeItem} {d : Fin 96} {e : Entry} (h : x.body = .dest d e) : takeEntryBytes (some x)
    = entryBytes e ++ [BitVec.ofNat 8 (x.tag.toNat + lineCode x.stager * 16 + bit x.held * 64 + 128)] := by
  obtain ⟨body, tag, stager, held⟩ := x
  subst h
  rfl

theorem takeModeBytes_plan {x : TakeItem} {g : Fin 16} {m : PlanMode} (h : x.body = .plan g m) : takeModeBytes (some x)
    = byte m.code ++ [BitVec.ofNat 8 (x.tag.toNat + lineCode x.stager * 16 + bit x.held * 64 + 128)] := by
  obtain ⟨body, tag, stager, held⟩ := x
  subst h
  rfl

theorem capturePayload_none : ∃ p, capturePayload none = 0 :: p ∧ p.length = 7 := ⟨_, rfl, rfl⟩

/-- R161: the deviation in ppm is a neighbour of the exact one. -/
theorem periodDeviation_near (p : Nat) : 10000 * periodDeviation p - 10000 < (p : Int) - 10000000000
    ∧ (p : Int) - 10000000000 < 10000 * periodDeviation p + 10000 := by
  unfold periodDeviation
  dsimp only
  split
  · omega
  · split <;> omega

/-! ### Reading (R17, R86, R87, R161, R186) -/

section
variable (s : State)

theorem mapReadAnswer_eq (d : Fin 96) : mapReadAnswer [BitVec.ofNat 8 d.val] s = (s, .ok, s.mapPayload d) := by
  simp only [mapReadAnswer, param1_ofNat d.isLt (show 96 ≤ 256 by decide)]

theorem planReadAnswer_eq (g : Fin 16) :
    planReadAnswer [BitVec.ofNat 8 (96 + g.val)] s = (s, .ok, s.planPayload g) := by
  simp only [planReadAnswer, planGroup_ofNat]

theorem laneStatusAnswer_eq (k : Fin 4) : laneStatusAnswer [BitVec.ofNat 8 k.val] s = (s, .ok, s.lanePayload k) := by
  simp only [laneStatusAnswer, param1_ofNat k.isLt (show 4 ≤ 256 by decide)]

theorem faultReadAnswer_eq (k : Fin 4) :
    faultReadAnswer [BitVec.ofNat 8 k.val] s = (s, .ok, capturePayload (s.faults.get k)) := by
  simp only [faultReadAnswer, param1_ofNat k.isLt (show 4 ≤ 256 by decide)]

/-- R188: a number that names nothing to read. -/
theorem reads_invalid {b : Byte} : (96 ≤ b.toNat → mapReadAnswer [b] s = s.invalid)
    ∧ (b.toNat < 96 ∨ 112 ≤ b.toNat → planReadAnswer [b] s = s.invalid)
    ∧ (4 ≤ b.toNat → laneStatusAnswer [b] s = s.invalid) ∧ (4 ≤ b.toNat → faultReadAnswer [b] s = s.invalid) := by
  refine ⟨fun h => ?_, fun h => ?_, fun h => ?_, fun h => ?_⟩
  · simp only [mapReadAnswer, param1_none h]
  · simp only [planReadAnswer, planGroup_none h]
  · simp only [laneStatusAnswer, param1_none h]
  · simp only [faultReadAnswer, param1_none h]

end

/-- R17: the format byte. -/
theorem formatCode_bytes (r : Receiver) : byte r.formatCode = r.format.elim [0xFF] fun f => byte f.val := by
  unfold Receiver.formatCode
  cases r.format <;> rfl

theorem lastLineCode_bytes (r : Receiver) :
    be16 r.lastLineCode = r.lastLine.elim [0xFF, 0xFF] fun n => be16 n.toNat := by
  unfold Receiver.lastLineCode
  cases r.lastLine <;> rfl

theorem alignmentByte_eq (r : Receiver) : r.alignmentByte
    = if r.state = .seeking then r.frames + (if r.expected = none then 2 else 0) else 2 := by
  unfold Receiver.alignmentByte
  cases r.expected <;> rfl

/-- Settles O55. -/
theorem readsAnswer : Obligations.ReadsAnswer := by
  intro l ticket s
  refine ⟨fun d h => ?_, fun g h => ?_, fun k h => ?_, fun ps h => ?_, fun k h => ⟨fun c hc => ?_, fun hc => ?_⟩,
    fun b => ⟨fun h hb => ?_, fun h hb => ?_, fun h hb => ?_, fun h hb => ?_⟩⟩
  · refine ⟨_, _, next_execute_of_head h (absurd · (by decide)) (mapReadAnswer_eq s d), stagedEntryBytes_length _,
      takeEntryBytes_length _, fun r hr => ?_, fun hr => ?_, fun x e hx he => ?_, fun hx => ?_⟩
    · rw [hr]; exact stagedEntryBytes_some r
    · rw [hr]; rfl
    · rw [State.takeItem, hx]; exact takeEntryBytes_dest he
    · rw [State.takeItem, hx]; rfl
  · refine ⟨_, _, next_execute_of_head h (absurd · (by decide)) (planReadAnswer_eq s g), stagedModeBytes_length _,
      takeModeBytes_length _, fun r hr => ?_, fun hr => ?_, fun x m hx hm => ?_, fun hx => ?_⟩
    · rw [hr]; exact stagedModeBytes_some r
    · rw [hr]; rfl
    · rw [State.takeItem, hx]; exact takeModeBytes_plan hm
    · rw [State.takeItem, hx]; rfl
  · have he := laneStatusAnswer_eq s k
    simp only [State.lanePayload, alignmentByte_eq] at he
    refine ⟨_, _, next_execute_of_head h (absurd · (by decide)) he, (formatCode_bytes _).trans ?_,
      (lastLineCode_bytes _).trans ?_⟩
    · cases (s.lanes.get k).format <;> rfl
    · cases (s.lanes.get k).lastLine <;> rfl
  · exact ⟨_, next_execute_of_head (f := fun _ s => (s, .ok, s.refPayload)) h (absurd · (by decide)) rfl,
      periodDeviation_near _⟩
  · have he := faultReadAnswer_eq s k
    rw [hc] at he
    exact next_execute_of_head h (absurd · (by decide)) he
  · obtain ⟨p, hp, hlen⟩ := capturePayload_none
    have he := faultReadAnswer_eq s k
    rw [hc, hp] at he
    exact ⟨p, next_execute_of_head h (absurd · (by decide)) he, hlen⟩
  · exact next_execute_of_head h (absurd · (by decide)) ((reads_invalid s).1 hb)
  · exact next_execute_of_head h (absurd · (by decide)) ((reads_invalid s).2.1 hb)
  · exact next_execute_of_head h (absurd · (by decide)) ((reads_invalid s).2.2.1 hb)
  · exact next_execute_of_head h (absurd · (by decide)) ((reads_invalid s).2.2.2 hb)

/-! ### The stores (R55, R56) -/

theorem store_strip (s : State) (g : Fin 16) (h : g.val < 32) : s.store ⟨g.val, h⟩ = s.strip.get g := by
  rw [State.store, dif_pos g.isLt]

theorem updStore_strip (s : State) (g : Fin 16) (h : g.val < 32) (f : Store → Store) :
    s.updStore ⟨g.val, h⟩ f = s.updStrip g f := by
  rw [State.updStore, dif_pos g.isLt]

theorem fin_sub_16 (g : Fin 16) (h : 16 + g.val - 16 < 16) : (⟨16 + g.val - 16, h⟩ : Fin 16) = g :=
  Fin.ext (Nat.add_sub_cancel_left ..)

theorem store_embed (s : State) (g : Fin 16) (h : 16 + g.val < 32) : s.store ⟨16 + g.val, h⟩ = s.embed.get g := by
  rw [State.store, dif_neg (Nat.not_lt.mpr (Nat.le_add_right ..))]
  exact congrArg _ (fin_sub_16 g _)

theorem updStore_embed (s : State) (g : Fin 16) (h : 16 + g.val < 32) (f : Store → Store) :
    s.updStore ⟨16 + g.val, h⟩ f = s.updEmbed g f := by
  rw [State.updStore, dif_neg (Nat.not_lt.mpr (Nat.le_add_right ..))]
  exact congrArg (s.updEmbed · f) (fin_sub_16 g _)

section
variable (l : Line) (s : State) {n : Nat}

theorem storeClearAnswer_eq (h : n < 32) :
    storeClearAnswer [BitVec.ofNat 8 n] s = (s.updStore ⟨n, h⟩ Store.clear, .ok, []) := by
  simp only [storeClearAnswer, param1_ofNat h (show 32 ≤ 256 by decide)]

theorem storeStatusAnswer_eq (h : n < 32) : storeStatusAnswer l [BitVec.ofNat 8 n] s
    = (s.updStore ⟨n, h⟩ fun st => st.clearSince l, .ok, (s.store ⟨n, h⟩).payload ⟨n, h⟩ l) := by
  simp only [storeStatusAnswer, param1_ofNat h (show 32 ≤ 256 by decide)]

theorem storeCommands_invalid {b : Byte} (h : 32 ≤ b.toNat) :
    storeClearAnswer [b] s = s.invalid ∧ storeStatusAnswer l [b] s = s.invalid := by
  refine ⟨?_, ?_⟩
  · simp only [storeClearAnswer, param1_none h]
  · simp only [storeStatusAnswer, param1_none h]

end

/-- Settles O56. -/
theorem storeCommandsAct : Obligations.StoreCommandsAct := by
  intro l ticket g s
  have h1 : g.val < 32 := by omega
  have h2 : 16 + g.val < 32 := by omega
  refine ⟨fun h => ?_, fun h => ?_, fun b h hb => ?_, fun st h hst => ?_, fun st h hst => ?_, fun b h hb => ?_⟩
  · have he := storeClearAnswer_eq s h1
    rw [updStore_strip] at he
    exact next_execute_of_head h (absurd · (by decide)) he
  · have he := storeClearAnswer_eq s h2
    rw [updStore_embed] at he
    exact next_execute_of_head h (absurd · (by decide)) he
  · exact next_execute_of_head h (absurd · (by decide)) (storeCommands_invalid l s hb).1
  · have he := storeStatusAnswer_eq l s h1
    rw [updStore_strip, store_strip, hst] at he
    exact next_execute_of_head h (absurd · (by decide)) he
  · have he := storeStatusAnswer_eq l s h2
    rw [updStore_embed, store_embed, hst] at he
    exact next_execute_of_head h (absurd · (by decide)) he
  · exact next_execute_of_head h (absurd · (by decide)) (storeCommands_invalid l s hb).2

/-! ### The event queues (R180, R182) -/

section
variable {l : Line} {s : State}

theorem takeOffers_queue : (s.takeOffers l).eventQueue l = (s.eventQueue l).turn := by
  rw [State.takeOffers, State.updEvents_eventQueue, if_pos rfl]

/-- A change of the queue after its turn. -/
theorem takeOffers_updEvents (f : EventQueue → EventQueue) :
    (s.takeOffers l).updEvents l f = s.updEvents l fun _ => f (s.eventQueue l).turn := by
  rw [State.takeOffers, State.updEvents_updEvents]
  exact State.updEvents_congr s l rfl

theorem takeOffers_eq : s.takeOffers l = s.updEvents l fun _ => (s.eventQueue l).turn := State.updEvents_congr s l rfl

theorem eventSubscribeAnswer_eq {m : Byte} (h : m.toNat < 32) : eventSubscribeAnswer l [m] (s.takeOffers l)
    = (s.updEvents l fun _ => { (s.eventQueue l).turn with subs := m.setWidth 5 }, .ok,
        [(s.eventQueue l).subs.setWidth 8, m]) := by
  simp only [eventSubscribeAnswer, if_pos h, takeOffers_queue, takeOffers_updEvents, EventQueue.turn_subs, byte,
    BitVec.ofNat_toNat, List.singleton_append]

theorem eventSubscribeAnswer_invalid {m : Byte} (h : 32 ≤ m.toNat) : eventSubscribeAnswer l [m] (s.takeOffers l)
    = (s.updEvents l fun _ => (s.eventQueue l).turn, .invalid, []) := by
  simp only [eventSubscribeAnswer, if_neg (Nat.not_lt.mpr h)]
  rw [takeOffers_eq]
  rfl

theorem eventFetchAnswer_cons {n : Notice} {rest : List Notice} (h : (s.eventQueue l).turn.notices = n :: rest) :
    eventFetchAnswer l (s.takeOffers l)
      = (s.updEvents l fun _ => { (s.eventQueue l).turn with notices := rest }, .ok, n.payload rest.length) := by
  simp only [eventFetchAnswer, takeOffers_queue, h, takeOffers_updEvents]

theorem eventFetchAnswer_nil (h : (s.eventQueue l).turn.notices = []) :
    eventFetchAnswer l (s.takeOffers l) = (s.updEvents l fun _ => (s.eventQueue l).turn, .ok, []) := by
  simp only [eventFetchAnswer, takeOffers_queue, h]
  rw [takeOffers_eq]

end

/-- Settles O57. -/
theorem eventCommandsAct : Obligations.EventCommandsAct := by
  rintro l ticket q s rfl
  refine ⟨fun m h hm => ?_, fun m h hm => ?_, fun ps n rest h hn => ?_, fun ps h hn => ?_⟩
  · exact next_execute_of_head (f := fun ps s => eventSubscribeAnswer l ps (s.takeOffers l)) h (absurd · (by decide))
      (eventSubscribeAnswer_eq hm)
  · exact next_execute_of_head (f := fun ps s => eventSubscribeAnswer l ps (s.takeOffers l)) h (absurd · (by decide))
      (eventSubscribeAnswer_invalid hm)
  · exact next_execute_of_head (f := fun _ s => eventFetchAnswer l (s.takeOffers l)) h (absurd · (by decide))
      (eventFetchAnswer_cons hn)
  · exact next_execute_of_head (f := fun _ s => eventFetchAnswer l (s.takeOffers l)) h (absurd · (by decide))
      (eventFetchAnswer_nil hn)

end Sys2Proof.Machine
end

section
/-! Notices and the taking of offers (O58). -/

set_option Elab.async false

namespace Sys2Proof.Machine

/-! ### The offers on their way -/

namespace EventQueue

/-- R181: an offer does not read what is on its way. -/
theorem offer_with_coming (q : EventQueue) (c : List Offer) (n : Notice) :
    ({ q with coming := c } : EventQueue).offer n = { q.offer n with coming := c } := by
  unfold offer subscribed
  dsimp only
  split
  · split <;> rfl
  · rfl

theorem offer_coming (q : EventQueue) (n : Notice) : (q.offer n).coming = q.coming := by rw [offer_eq]

/-- R179: the first offer of an event is the one that is taken. -/
theorem takeFrom_first {q : EventQueue} {pre post : List Offer} {x : Offer} (h : q.coming = pre ++ x :: post)
    (hp : ∀ y ∈ pre, y.event ≠ x.event) :
    q.takeFrom x.event = ({ q with coming := pre ++ post } : EventQueue).offer x.notice := by
  have hn : ∀ y ∈ pre, ¬ (y.event == x.event) = true := fun y hy => by simpa using hp y hy
  have hf : q.coming.find? (fun y => y.event == x.event) = some x := by
    rw [h, List.find?_append, List.find?_eq_none.mpr hn, Option.none_or, List.find?_cons_of_pos (by simp)]
  have he : q.coming.eraseP (fun y => y.event == x.event) = pre ++ post := by
    rw [h, List.eraseP_append_right _ hn, List.eraseP_cons_of_pos (by simp)]
  simp only [takeFrom, hf, he]

/-- Of an event without an offer on its way nothing is taken. -/
theorem takeFrom_absent {q : EventQueue} {e : Nat} (h : ∀ y ∈ q.coming, y.event ≠ e) : q.takeFrom e = q := by
  have hf : q.coming.find? (fun y => y.event == e) = none :=
    List.find?_eq_none.mpr fun y hy => by simpa using h y hy
  simp only [takeFrom, hf]

/-- Taking all, when the first offer is named. -/
theorem takeAll_cons {q : EventQueue} {x : Offer} {xs : List Offer} (h : q.coming = x :: xs) :
    q.takeAll = (({ q with coming := xs } : EventQueue).offer x.notice).takeAll := by
  simp only [takeAll, h, List.map_cons, List.foldl_cons, offer_with_coming]

/-- R179: taking all is taking from the events in the order of their offers. -/
theorem takeAll_eq_foldl (xs : List Offer) : ∀ q : EventQueue, q.coming = xs →
    q.takeAll = (xs.map fun x => x.event).foldl takeFrom q := by
  induction xs with
  | nil => exact fun q h => take_of_coming_nil h none
  | cons x xs ih =>
    intro q h
    have hf : q.takeFrom x.event = ({ q with coming := xs } : EventQueue).offer x.notice :=
      takeFrom_first (pre := []) h (fun y hy => nomatch hy)
    rw [takeAll_cons h, List.map_cons, List.foldl_cons, hf]
    exact ih _ (by rw [offer_coming])

/-! ### What becomes of an offer -/

theorem offer_unsubscribed {q : EventQueue} {n : Notice} (h : q.subs.getLsbD n.kind.cls = false) : q.offer n = q := by
  rw [offer, subscribed, if_neg (by simp only [h, Bool.false_eq_true, not_false_eq_true])]

theorem offer_room {q : EventQueue} {n : Notice} (h : q.subs.getLsbD n.kind.cls = true) (hl : q.notices.length < 32) :
    q.offer n = { q with notices := q.notices ++ [n] } := by
  rw [offer, subscribed, if_pos h, if_pos hl]

theorem offer_full {q : EventQueue} {n tail : Notice} {init : List Notice} (h : q.subs.getLsbD n.kind.cls = true)
    (hq : q.notices = init ++ [tail]) (hl : init.length = 31) :
    q.offer n = { q with notices := init ++ [{ tail with mark := true }] } := by
  rw [offer, subscribed, if_pos h, if_neg (by simp [hq, hl]), hq, markTail_append]

end EventQueue

/-- Settles O58. -/
theorem noticesAreOffered : Obligations.NoticesAreOffered := by
  refine ⟨fun s k a b l => ⟨Pending.stamped (k, a, b) s.ref.frameCount, rfl, rfl, rfl, rfl, rfl,
      raiseAll_eventQueue s _ l, rfl, fun ht hc hs => raise_ev s k a b l hc ht hs⟩,
    fun q => ⟨fun h => EventQueue.turn_of_coming_nil h, fun h => EventQueue.turn_of_turns_nil h,
      fun tk ts h hc => EventQueue.turn_of_turns_cons h hc⟩,
    fun q r pre post e n hq hp hr => ?_, fun q e es => ⟨rfl, fun h => EventQueue.takeFrom_absent h, rfl,
      EventQueue.takeAll_eq_foldl _ q rfl, q.take_none_coming⟩, fun q => q.ev_iff⟩
  have ht : q.take (some [e]) = r.offer n := by
    rw [hr]
    exact EventQueue.takeFrom_first (x := { event := e, notice := n }) hq hp
  rw [ht]
  subst hr
  exact ⟨fun h => EventQueue.offer_unsubscribed h, fun h hl => EventQueue.offer_room h hl,
    fun init tail h hn hl => EventQueue.offer_full h hn hl⟩

end Sys2Proof.Machine
end

section
/-! The commands that set up a lane, a capture record and the house format (O59). -/

set_option Elab.async false

namespace Sys2Proof.Machine

/-! ### What is left of an event -/

theorem exec_carriageLine_nil (s : State) (l : Fin 4) :
    exec (.carriageLine l ⟨[], none⟩) s = .next (s.finishWork l) := by
  rw [carriageLine_of_quiet (not_raisesArea_nil s l)]
  exact congrArg (fun u : State => Host.Outcome.next (u.finishWork l)) (receive_nil s l)

/-! ### LANE_FORMAT (R15) -/

section
variable {s : State} {k : Fin 4} {f : Fin 8}

theorem laneFormatAnswer_eq (s : State) (k : Fin 4) (f : Fin 8) :
    laneFormatAnswer [BitVec.ofNat 8 k.val, BitVec.ofNat 8 f.val] s = (s.setLaneFormat k f, .ok, []) := by
  simp only [laneFormatAnswer, below_ofNat k.isLt (show 4 ≤ 256 by decide), below_ofNat f.isLt (show 8 ≤ 256 by decide)]

theorem laneFormatAnswer_invalid {b f : Byte} (h : 4 ≤ b.toNat ∨ 8 ≤ f.toNat) :
    laneFormatAnswer [b, f] s = s.invalid := by
  rcases h with h | h
  · simp only [laneFormatAnswer, below_none h]
  · simp only [laneFormatAnswer, below_none h]
    cases below? 4 b <;> rfl

theorem setLaneFormat_idle (h : (s.lanes.get k).state ≠ .running) : s.setLaneFormat k f
    = (s.updLane k fun r => { r with state := .seeking, format := some f, frames := 0, expected := none, index := 0,
                                     timer := false, inFrame := false }).raise .laneState
        k.val ((s.lanes.get k).state.code + 1 * 4) := by
  rw [State.setLaneFormat, if_neg h]
  rfl

/-- R13, R15: the exit of a RUNNING lane that LANE_FORMAT brings about. -/
def State.exitSetup (s : State) (k : Fin 4) (f : Fin 8) : State :=
  ((s.updLane k fun r => { r with state := .seeking }).leaveRunning k).updLane k fun r =>
    { r with state := .seeking, format := some f, frames := 0, expected := none, index := 0, timer := false,
             inFrame := false }

theorem setLaneFormat_running (h : (s.lanes.get k).state = .running) : s.setLaneFormat k f
    = ((s.finishWork k).exitSetup k f).raiseAll ((s.finishWork k).exitNotices k .seeking) := by
  rw [State.setLaneFormat, if_pos h]
  rfl

theorem exitSetup_lanes (s : State) (k : Fin 4) (f : Fin 8) : (s.exitSetup k f).lanes
    = s.lanes.upd k fun r => { r with state := .seeking, format := some f, frames := 0, expected := none, index := 0,
                                      timer := false, inFrame := false } := by
  simp only [State.exitSetup, State.updLane_lanes, leaveRunning_lanes, Bank.upd_upd_self]

/-- The exit itself raises nothing. -/
theorem keeps_exitSetup (s : State) (k : Fin 4) (f : Fin 8) :
    Keeps [.lanes, .groups, .strip, .builders, .embed, .embCounts, .engine] s (s.exitSetup k f) :=
  ((keeps_updLane k _).andThen (keeps_leaveRunning k)
    (C := [.lanes, .groups, .strip, .builders, .embed, .embCounts, .engine])).andThen (keeps_updLane k _)

/-- R15: LANE_FORMAT of a lane that is RUNNING, with nothing left of an event. -/
theorem setLaneFormat_left (hr : (s.lanes.get k).state = .running) (hw : NothingLeft s k) (hst : StoresOk s) :
    ∃ t, s.setLaneFormat k f = t
      ∧ (t.lanes.get k).state = .seeking ∧ (t.lanes.get k).format = some f ∧ (t.lanes.get k).frames = 0
      ∧ (t.lanes.get k).expected = none ∧ (t.lanes.get k).timer = false
      ∧ CountersKept s t k ∧ (t.lanes.get k).lastLine = (s.lanes.get k).lastLine
      ∧ t.events = (s.raiseAll (s.absentNotices k (fun _ => true) ++ [(.laneState, k.val, 2 + 1 * 4)])).events
      ∧ LeftRunning s t k ∧ Keeps exitParts s t := by
  have ht : s.setLaneFormat k f = (s.exitSetup k f).raiseAll (s.exitNotices k .seeking) := by
    rw [setLaneFormat_running hr, finishWork_idle hw]
  have hk : Keeps exitParts s ((s.exitSetup k f).raiseAll (s.exitNotices k .seeking)) :=
    ((keeps_exitSetup s k f).mono (B := exitParts)).andThen (keeps_raiseAll _)
  have hl : ((s.exitSetup k f).raiseAll (s.exitNotices k .seeking)).lanes.get k = { s.lanes.get k with
      state := .seeking, format := some f, frames := 0, expected := none, index := 0, timer := false,
      inFrame := false } := by
    rw [State.raiseAll_lanes, exitSetup_lanes, Bank.get_upd_self]
  have ho : ∀ j, j ≠ k → ((s.exitSetup k f).raiseAll (s.exitNotices k .seeking)).lanes.get j = s.lanes.get j :=
    fun j hj => by rw [State.raiseAll_lanes, exitSetup_lanes, Bank.get_upd_ne _ _ (Ne.symm hj)]
  refine ⟨_, ht, ?_⟩
  rw [CountersKept, hl]
  refine ⟨rfl, rfl, rfl, rfl, rfl, ⟨rfl, rfl, rfl, rfl⟩, rfl, ?_, ?_, hk⟩
  · have hx := keeps_exitSetup s k f
    exact (raiseAll_congr hx.events hx.eventNo (congrArg RefUnit.frameCount hx.ref) _).1
  · exact leftRunning_of_exit hst (Keeps.refl [] s) (fun _ _ => rfl) (f := fun r => { r with state := .seeking })
      ((keeps_updLane k _).andThen (keeps_raiseAll _) (C := [.lanes, .events])) (congrArg Receiver.index hl) ho

/-- R15: what is left of an area is taken before LANE_FORMAT. -/
theorem setLaneFormat_finishWork (hr : (s.lanes.get k).state = .running) :
    (s.finishWork k).setLaneFormat k f = s.setLaneFormat k f := by
  have hl : (s.finishWork k).lanes.get k = (s.lanes.get k).counting ((s.finishWork k).lanes.get k) :=
    (Counts.finishWork s k).2
  have hr' : ((s.finishWork k).lanes.get k).state = .running := by
    rw [hl]
    exact hr
  rw [setLaneFormat_running hr, setLaneFormat_running hr', finishWork_idle (finishWork_work s k)]

end

/-! ### FAULT_CLEAR and REF_FORMAT (R160, R186) -/

theorem faultClearAnswer_eq (k : Fin 4) (s : State) :
    faultClearAnswer [BitVec.ofNat 8 k.val] s = (s.setFault k none, .ok, []) := by
  simp only [faultClearAnswer, param1_ofNat k.isLt (show 4 ≤ 256 by decide)]

theorem refFormatAnswer_eq (f : Fin 8) (s : State) :
    refFormatAnswer [BitVec.ofNat 8 f.val] s = (s.setHouseFormat f, .ok, []) := by
  simp only [refFormatAnswer, param1_ofNat f.isLt (show 8 ≤ 256 by decide)]

/-- R160: a boundary that waits is taken before REF_FORMAT. -/
theorem setHouseFormat_settle (s : State) (f : Fin 8) : s.settleBoundary.setHouseFormat f = s.setHouseFormat f := by
  rw [State.setHouseFormat, settleBoundary_of_not_due (settleBoundary_ref_due s)]
  rfl

theorem setHouseFormat_not_due {s : State} (f : Fin 8) (h : s.ref.boundaryDue = false) :
    s.setHouseFormat f = s.updRef fun r => { r with format := f, k := 1 } := by
  rw [State.setHouseFormat, settleBoundary_of_not_due h]

/-- Settles O59. -/
theorem setupCommandsAct : Obligations.SetupCommandsAct := by
  refine ⟨fun ticket k f s h => ⟨fun hr => ?_, fun hr hw hst => ?_, fun hr => ?_⟩, fun l ticket k s h => ?_,
    fun ticket f s h hb => ?_, fun ticket f s h hb => ?_,
    fun l ticket b f s => ⟨fun h hb => ?_, fun h hb => ?_, fun h hb => ?_⟩⟩
  · have he := laneFormatAnswer_eq s k f
    rw [setLaneFormat_idle hr] at he
    exact next_execute_of_head h (fun _ => rfl) he
  · obtain ⟨t, ht, hrest⟩ := setLaneFormat_left (f := f) hr hw hst
    have he := laneFormatAnswer_eq s k f
    rw [ht] at he
    exact ⟨t, next_execute_of_head h (fun _ => rfl) he, hrest⟩
  · refine ⟨_, exec_carriageLine_nil s k, ?_⟩
    have he := laneFormatAnswer_eq (s.finishWork k) k f
    rw [setLaneFormat_finishWork hr] at he
    exact (next_execute_of_head h (fun _ => rfl) (laneFormatAnswer_eq s k f)).trans
      (next_execute_of_head (headIs_of h (keeps_finishWork k)) (fun _ => rfl) he).symm
  · exact next_execute_of_head h (absurd · (by decide)) (faultClearAnswer_eq k s)
  · have he := refFormatAnswer_eq f s
    rw [setHouseFormat_not_due f hb] at he
    exact next_execute_of_head h (fun _ => rfl) he
  · have hk : Keeps frameParts s s.settleBoundary := keeps_settleBoundary
    refine ⟨_, exec_houseFrameBoundary s, settleBoundary_ref_due s, hk.ports, ?_⟩
    have he := refFormatAnswer_eq f s.settleBoundary
    rw [setHouseFormat_settle] at he
    exact (next_execute_of_head h (fun _ => rfl) (refFormatAnswer_eq f s)).trans
      (next_execute_of_head (headIs_of h hk) (fun _ => rfl) he).symm
  · refine next_execute_of_head (f := faultClearAnswer) h (absurd · (by decide)) ?_
    simp only [faultClearAnswer, param1_none hb]
    rfl
  · exact next_execute_of_head h (fun _ => rfl) (laneFormatAnswer_invalid hb)
  · refine next_execute_of_head (f := refFormatAnswer) h (fun _ => rfl) ?_
    simp only [refFormatAnswer, param1_none hb]
    rfl

end Sys2Proof.Machine
end

section
/-! PATH_RESET, handed to all blocks or to one (O60). -/

set_option Elab.async false

namespace Sys2Proof.Machine

/-! ### The handing to blocks (R165) -/

section
variable {s : State} {b : ResetBlock}

theorem handReset_new (h : b ∉ s.handed) : s.handReset b = (s.resetBlock b).setHanded (b :: s.handed) := if_neg h

theorem handReset_old (h : b ∈ s.handed) : s.handReset b = s := if_pos h

theorem foldl_handReset_old (bs : List ResetBlock) (h : ∀ b ∈ bs, b ∈ s.handed) : bs.foldl State.handReset s = s := by
  induction bs with
  | nil => rfl
  | cons b bs ih =>
    rw [List.foldl_cons, handReset_old (h b List.mem_cons_self)]
    exact ih fun b hb => h b (List.mem_cons_of_mem _ hb)

theorem mem_allBlocks (b : ResetBlock) : b ∈ allBlocks := by cases b <;> decide

theorem resetDone_iff (s : State) : s.resetDone = true ↔ ∀ b, b ∈ s.handed := by
  rw [State.resetDone, List.all_eq_true]
  refine ⟨fun h b => ?_, fun h b _ => ?_⟩
  · simpa using h b (mem_allBlocks b)
  · simpa using h b

/-- R165: some block has not taken the reset. -/
theorem pathResetAnswer_left {bs : List ResetBlock} {t : State} (ht : bs.foldl State.handReset s = t)
    (h : ∃ b, b ∉ t.handed) : pathResetAnswer bs s = (t, none) := by
  obtain ⟨b, hb⟩ := h
  have hd : ¬ t.resetDone = true := fun hd => hb ((resetDone_iff t).mp hd b)
  simp only [pathResetAnswer, ht, if_neg hd]

/-- R165: every block has taken the reset. -/
theorem pathResetAnswer_done {bs : List ResetBlock} {t : State} (ht : bs.foldl State.handReset s = t)
    (h : ∀ b, b ∈ t.handed) :
    pathResetAnswer bs s = ((t.setHanded []).raise .pathResetDone 0 0, some (.ok, [])) := by
  simp only [pathResetAnswer, ht, if_pos ((resetDone_iff t).mpr h)]

theorem exec_pathReset (bs : List ResetBlock) {ticket : Byte} {ps : List Byte} (h : HeadIs s .c 0x52 ticket ps) :
    exec (.pathReset ⟨.c, bs⟩) s = .next (State.conclude .c ticket (pathResetAnswer bs s)) :=
  congrArg Host.Outcome.next
    (executePart_of_head (g := fun _ s => pathResetAnswer bs s) h (fun _ => rfl))

end

/-- Table 8-5: what each block makes of the reset. -/
theorem resetBlock_of_resetTo {b : ResetBlock} {s u : State} (h : ResetTo b s u) : s.resetBlock b = u := by
  cases b with
  | lanes => exact h.symm
  | strip => exact h.symm
  | catalogue => exact h.symm
  | trackMap => exact h.symm
  | engine => exact h.symm
  | embed => exact h.symm
  | monitors =>
    obtain ⟨v, hv, ht⟩ := h
    injection hv with hv
    subst hv
    exact ht.symm

/-! ### The reset at all blocks -/

/-- Table 8-5: the reset at every block, with no rebuilding in progress. -/
def State.resetPath (s : State) : State :=
  s.lanesReset.stripReset.catalogueReset.takesReset.engineReset.embedReset.monitorsReset

theorem finishBuilds_of_none {s : State} (h : ∀ l, (s.work.get l).isBuilding = false) : s.finishBuilds = s := by
  have hb : ∀ l, s.finishBuild l = s := fun l => by rw [State.finishBuild, if_neg (by simp [h l])]
  simp only [State.finishBuilds, four, List.foldl_cons, List.foldl_nil, hb]

section
variable {s : State} (hw : ∀ l, (s.work.get l).isBuilding = false)
include hw

theorem resetBlock_embed : s.resetBlock .embed = s.embedReset := congrArg State.embedReset (finishBuilds_of_none hw)

theorem resetBlock_work (b : ResetBlock) : (s.resetBlock b).work = s.work := by
  cases b with
  | embed => rw [resetBlock_embed hw]; rfl
  | _ => rfl

/-- The reset of a block does not read which blocks have taken it. -/
theorem resetBlock_setHanded (b : ResetBlock) (hs : List ResetBlock) :
    (s.setHanded hs).resetBlock b = (s.resetBlock b).setHanded hs := by
  cases b with
  | embed => rw [resetBlock_embed hw, resetBlock_embed (s := s.setHanded hs) hw]; rfl
  | _ => rfl

end

/-- R165: blocks that have not taken the reset take it in their order, one after another. -/
theorem foldl_handReset_new (bs : List ResetBlock) : ∀ {s : State} {hs : List ResetBlock},
    (∀ l, (s.work.get l).isBuilding = false) → bs.Nodup → (∀ b ∈ bs, b ∉ hs) →
    bs.foldl State.handReset (s.setHanded hs) = (bs.foldl State.resetBlock s).setHanded (bs.reverse ++ hs) := by
  induction bs with
  | nil => exact fun _ _ _ => rfl
  | cons b bs ih =>
    intro s hs hw hn hd
    obtain ⟨hb, hn⟩ := List.nodup_cons.mp hn
    have h1 : (s.setHanded hs).handReset b = (s.resetBlock b).setHanded (b :: hs) := by
      rw [handReset_new (hd b List.mem_cons_self), resetBlock_setHanded hw]
      rfl
    have h2 := ih (s := s.resetBlock b) (hs := b :: hs) (fun l => by rw [resetBlock_work hw]; exact hw l) hn
      fun x hx hxs => (List.mem_cons.mp hxs).elim (fun e => hb (e ▸ hx)) (hd x (List.mem_cons_of_mem _ hx))
    rw [List.foldl_cons, h1, h2, List.reverse_cons, List.append_assoc]
    rfl

theorem setHanded_eq_self {s : State} {hs : List ResetBlock} (h : s.handed = hs) : s.setHanded hs = s := by
  rw [← h]; rfl

theorem foldl_resetBlock {s : State} (hw : ∀ l, (s.work.get l).isBuilding = false) :
    allBlocks.foldl State.resetBlock s = s.resetPath :=
  congrArg (fun u => State.monitorsReset u)
    (resetBlock_embed (s := s.lanesReset.stripReset.catalogueReset.takesReset.engineReset) hw)

/-- R165: the reset at all blocks of a PATH_RESET that no block has taken yet. -/
theorem pathResetAnswer_all {s : State} (h : s.handed = []) (hw : ∀ l, (s.work.get l).isBuilding = false) :
    pathResetAnswer allBlocks s = (s.resetPath.raise .pathResetDone 0 0, some (.ok, [])) := by
  have hf := foldl_handReset_new allBlocks (hs := []) hw (by decide) (fun _ _ h => nomatch h)
  rw [setHanded_eq_self h, foldl_resetBlock hw] at hf
  have hd : ∀ b, b ∈ (s.resetPath.setHanded (allBlocks.reverse ++ [])).handed := fun b =>
    List.mem_append_left _ (List.mem_reverse.mpr (mem_allBlocks b))
  rw [pathResetAnswer_done hf hd]
  exact congrArg (fun u : State => (u.raise .pathResetDone 0 0, some (Status.ok, ([] : List Byte))))
    (setHanded_eq_self (s := s.resetPath) h)

theorem keeps_resetPath (s : State) : Keeps [.lanes, .strip, .embed, .hist, .trackers, .takes, .engine, .builders,
    .embCounts, .monitors, .events] s s.resetPath := by
  intro p hp
  cases p with
  | lanes | strip | embed | hist | trackers | takes | engine | builders | embCounts | monitors | events => simp at hp
  | _ => rfl

/-! ### What the reset clears (Table 8-5) -/

theorem resetPath_engine (s : State) (d : Fin 96) : s.resetPath.engine.get d = { s.engine.get d with
    xfade := none, resetMark := (s.engine.get d).blocked,
    trigger := if (s.live.get d).mode = .pcm then true else (s.engine.get d).trigger } := by
  show ((s.engine.map _).mapIdx _).get d = _
  rw [Bank.get_mapIdx, Bank.get_map]
  rfl

theorem resetPath_monitors (s : State) (d : Fin 96) : s.resetPath.monitors.get d
    = { s.completeWindows.monitors.get d with
        ticks := 0, peak := 0, clip := false, changed := false, pendingChanged := false, silenceCount := 0,
        silent := false, overloaded := false, holds := .fill 3 0 } := by
  show (s.completeWindows.monitors.map Monitor.pathReset).get d = _
  rw [Bank.get_map]
  rfl

theorem resetPath_stores (s : State) (g : Fin 16) :
    s.resetPath.strip.get g = .reset .idle
      ∧ s.resetPath.embed.get g = { s.resetPath.strip.get g with state := .holding }
      ∧ s.resetPath.embCounts.get g = .reset := by
  have h1 : s.resetPath.strip.get g = .reset .idle := Bank.get_fill ..
  rw [h1]
  exact ⟨rfl, Bank.get_fill .., Bank.get_fill ..⟩

/-- R34: an emptied history reads as the reset record everywhere. -/
theorem resetPath_hist (s : State) (n : Fin 98) (k : Nat) : (s.resetPath.hist.get n).read k = Record.silent := by
  rw [show s.resetPath.hist.get n = [] from Bank.get_fill ..]
  rfl

/-- Settles O60. -/
theorem pathResetClearsTheAudioPath : Obligations.PathResetClearsTheAudioPath := by
  intro ticket ps s h
  refine ⟨fun hh hw => ?_, fun b u hu hb => ⟨fun hl => ?_, fun hl => ?_⟩, fun bs hbs hl => ?_⟩
  · have hx := exec_pathReset allBlocks h
    rw [pathResetAnswer_all hh hw] at hx
    have he : (s.resetPath.raise .pathResetDone 0 0).events = (s.completeWindows.raise .pathResetDone 0 0).events :=
      (raiseAll_congr (s := s.resetPath) (u := s.completeWindows) rfl rfl rfl _).1
    exact ⟨_, _, hx, rfl, he, completeWindows_of_not_due, (keeps_resetPath s).andThen (keeps_raise _ _ _),
      fun l => Bank.get_map .., fun g => resetPath_stores s g, fun n k => resetPath_hist s n k,
      fun n => Bank.get_fill .., fun dom => Bank.get_map .., resetPath_engine s, fun l => Bank.get_map ..,
      resetPath_monitors s⟩
  · have ht : [b].foldl State.handReset s = u.setHanded (b :: s.handed) := by
      rw [List.foldl_cons, handReset_new hb, resetBlock_of_resetTo hu, List.foldl_nil]
    obtain ⟨b', hne, hb'⟩ := hl
    rw [exec_pathReset [b] h, pathResetAnswer_left ht ⟨b', by simp [State.setHanded, hne, hb']⟩]
    rfl
  · have ht : [b].foldl State.handReset s = u.setHanded (b :: s.handed) := by
      rw [List.foldl_cons, handReset_new hb, resetBlock_of_resetTo hu, List.foldl_nil]
    have hd : ∀ b', b' ∈ (u.setHanded (b :: s.handed)).handed := fun b' => by
      by_cases hne : b' = b
      · exact hne ▸ List.mem_cons_self
      · exact List.mem_cons_of_mem _ (hl b' hne)
    rw [exec_pathReset [b] h, pathResetAnswer_done ht hd]
    rfl
  · rw [exec_pathReset bs h, pathResetAnswer_left (foldl_handReset_old bs hbs) hl]
    rfl

end Sys2Proof.Machine
end

section
/-! MAP_TAKE: the staged records of a tag become take items (O53). -/

set_option Elab.async false

namespace Sys2Proof.Machine

/-! ### The items of a tag (R66) -/

/-- R66: the take item of a destination whose staged record has the tag. -/
def State.destTake? (s : State) (tag : BitVec 4) (d : Fin 96) : Option TakeItem :=
  (s.stagedDest.get d).bind fun r =>
    if r.tag = tag then some { body := .dest d r.body, tag := r.tag, stager := r.stager, held := false } else none

/-- R66: the take item of a plan group whose staged record has the tag. -/
def State.planTake? (s : State) (tag : BitVec 4) (g : Fin 16) : Option TakeItem :=
  (s.stagedPlan.get g).bind fun r =>
    if r.tag = tag then some { body := .plan g r.body, tag := r.tag, stager := r.stager, held := false } else none

section
variable {s : State} {tag : BitVec 4} {x : TakeItem}

theorem taggedItems_eq (s : State) (tag : BitVec 4) : s.taggedItems tag
    = (List.finRange 96).filterMap (s.destTake? tag) ++ (List.finRange 16).filterMap (s.planTake? tag) := by
  unfold State.taggedItems
  congr 2
  · funext d
    rw [State.destTake?]
    cases s.stagedDest.get d <;> rfl
  · funext g
    rw [State.planTake?]
    cases s.stagedPlan.get g <;> rfl

theorem destTake?_eq_some {d : Fin 96} : s.destTake? tag d = some x ↔ ∃ r, s.stagedDest.get d = some r ∧ r.tag = tag
    ∧ x = { body := .dest d r.body, tag := tag, stager := r.stager, held := false } := by
  simp only [State.destTake?, Option.bind_eq_some_iff, Option.ite_none_right_eq_some, Option.some.injEq]
  refine exists_congr fun r => and_congr_right fun _ => and_congr_right fun ht => ?_
  rw [ht]
  exact eq_comm

theorem planTake?_eq_some {g : Fin 16} : s.planTake? tag g = some x ↔ ∃ r, s.stagedPlan.get g = some r ∧ r.tag = tag
    ∧ x = { body := .plan g r.body, tag := tag, stager := r.stager, held := false } := by
  simp only [State.planTake?, Option.bind_eq_some_iff, Option.ite_none_right_eq_some, Option.some.injEq]
  refine exists_congr fun r => and_congr_right fun _ => and_congr_right fun ht => ?_
  rw [ht]
  exact eq_comm

theorem takeItem_eq_iff {body : TakeBody} {stager : Line} : x = { body, tag, stager, held := false }
    ↔ x.held = false ∧ x.tag = tag ∧ x.body = body ∧ x.stager = stager := by
  constructor
  · rintro rfl
    exact ⟨rfl, rfl, rfl, rfl⟩
  · obtain ⟨b, t, st, h⟩ := x
    rintro ⟨rfl, rfl, rfl, rfl⟩
    rfl

theorem mem_taggedItems :
    x ∈ s.taggedItems tag ↔ (∃ d, s.destTake? tag d = some x) ∨ ∃ g, s.planTake? tag g = some x := by
  rw [taggedItems_eq, List.mem_append, List.mem_filterMap, List.mem_filterMap]
  simp only [List.mem_finRange, true_and]

theorem item_of_destTake {d : Fin 96} (h : s.destTake? tag d = some x) : x.body.item = destItem d := by
  obtain ⟨r, -, -, rfl⟩ := destTake?_eq_some.mp h
  rfl

theorem item_of_planTake {g : Fin 16} (h : s.planTake? tag g = some x) : x.body.item = planItem g := by
  obtain ⟨r, -, -, rfl⟩ := planTake?_eq_some.mp h
  rfl

/-- R66: the items of a tag are in ascending order. -/
theorem taggedItems_pairwise (s : State) (tag : BitVec 4) :
    (s.taggedItems tag).Pairwise fun x y => x.body.item.val < y.body.item.val := by
  rw [taggedItems_eq, List.pairwise_append]
  refine ⟨(List.pairwise_lt_finRange 96).filterMap _ fun d d' hd x hx y hy => ?_,
    (List.pairwise_lt_finRange 16).filterMap _ fun g g' hg x hx y hy => ?_, fun x hx y hy => ?_⟩
  · rw [item_of_destTake hx, item_of_destTake hy]
    exact hd
  · rw [item_of_planTake hx, item_of_planTake hy]
    exact Nat.add_lt_add_left hg 96
  · obtain ⟨d, -, hd⟩ := List.mem_filterMap.mp hx
    obtain ⟨g, -, hg⟩ := List.mem_filterMap.mp hy
    rw [item_of_destTake hd, item_of_planTake hg]
    exact Nat.lt_of_lt_of_le d.isLt (Nat.le_add_right ..)

theorem taggedItems_nodup (s : State) (tag : BitVec 4) : ((s.taggedItems tag).map fun x => x.body.item).Nodup := by
  rw [List.nodup_iff_pairwise_ne, List.pairwise_map]
  exact (taggedItems_pairwise s tag).imp fun h e => Nat.ne_of_lt h (congrArg Fin.val e)

theorem mem_taggedItems_iff : x ∈ s.taggedItems tag ↔ x.held = false ∧ x.tag = tag
    ∧ ((∃ d r, s.stagedDest.get d = some r ∧ r.tag = tag ∧ x.body = .dest d r.body ∧ x.stager = r.stager)
      ∨ ∃ g r, s.stagedPlan.get g = some r ∧ r.tag = tag ∧ x.body = .plan g r.body ∧ x.stager = r.stager) := by
  simp only [mem_taggedItems, destTake?_eq_some, planTake?_eq_some, takeItem_eq_iff]
  constructor
  · rintro (⟨d, r, h1, h2, h3, h4, h5, h6⟩ | ⟨g, r, h1, h2, h3, h4, h5, h6⟩)
    · exact ⟨h3, h4, .inl ⟨d, r, h1, h2, h5, h6⟩⟩
    · exact ⟨h3, h4, .inr ⟨g, r, h1, h2, h5, h6⟩⟩
  · rintro ⟨h3, h4, ⟨d, r, h1, h2, h5, h6⟩ | ⟨g, r, h1, h2, h5, h6⟩⟩
    · exact .inl ⟨d, r, h1, h2, h3, h4, h5, h6⟩
    · exact .inr ⟨g, r, h1, h2, h3, h4, h5, h6⟩

/-- R66: a destination without a record of the tag is the target of none of its items. -/
theorem item_ne_dest {d : Fin 96} (h : ∀ r, s.stagedDest.get d = some r → r.tag ≠ tag) (hx : x ∈ s.taggedItems tag) :
    x.body.item ≠ destItem d := by
  rcases mem_taggedItems.mp hx with ⟨d', hd⟩ | ⟨g, hg⟩
  · rw [item_of_destTake hd]
    rintro e
    obtain ⟨r, hr, ht, -⟩ := destTake?_eq_some.mp hd
    exact h r (destItem_inj.mp e ▸ hr) ht
  · rw [item_of_planTake hg]
    exact destItem_ne.symm

theorem item_ne_plan {g : Fin 16} (h : ∀ r, s.stagedPlan.get g = some r → r.tag ≠ tag) (hx : x ∈ s.taggedItems tag) :
    x.body.item ≠ planItem g := by
  rcases mem_taggedItems.mp hx with ⟨d, hd⟩ | ⟨g', hg⟩
  · rw [item_of_destTake hd]
    exact destItem_ne
  · rw [item_of_planTake hg]
    rintro e
    obtain ⟨r, hr, ht, -⟩ := planTake?_eq_some.mp hg
    exact h r (planItem_inj.mp e ▸ hr) ht

end

/-! ### Joining the take lists (R66, R67) -/

/-- R67: the list of domain `dom` after the items `xs` have joined. -/
def joinedList (items xs : List TakeItem) (dom : Fin 5) : List TakeItem :=
  (items.filter fun y => !(xs.any fun x => x.body.item == y.body.item && itemDomain x.body.item == dom))
    ++ xs.filter fun x => itemDomain x.body.item == dom

theorem joinedList_cons_ne (items xs : List TakeItem) {x : TakeItem} {dom : Fin 5} (h : itemDomain x.body.item ≠ dom) :
    joinedList items (x :: xs) dom = joinedList items xs dom := by
  have hb : (itemDomain x.body.item == dom) = false := beq_eq_false_iff_ne.mpr h
  simp [joinedList, hb]

theorem joinedList_cons_eq (items : List TakeItem) {x : TakeItem} {xs : List TakeItem} {dom : Fin 5}
    (h : itemDomain x.body.item = dom) (hx : ∀ y ∈ xs, y.body.item ≠ x.body.item) :
    joinedList items (x :: xs) dom = joinedList (dropItem items x.body.item ++ [x]) xs dom := by
  have hb : (itemDomain x.body.item == dom) = true := beq_iff_eq.mpr h
  have hn : (xs.any fun y => y.body.item == x.body.item && itemDomain y.body.item == dom) = false := by
    simp only [List.any_eq_false, Bool.and_eq_true, beq_iff_eq, not_and]
    exact fun y hy e => absurd e (hx y hy)
  simp only [joinedList, dropItem, List.filter_append, List.filter_filter, List.any_cons, List.filter_cons, hb, hn,
    Bool.and_true, Bool.not_or, if_true, Bool.not_false, List.filter_nil, List.append_assoc, List.singleton_append]
  congr 1
  refine List.filter_congr fun y _ => ?_
  rw [Bool.and_comm, bne, Bool.beq_comm]

/-- R66, R67: what the take lists are after items of different targets have joined. -/
theorem foldl_joinTake_takes (xs : List TakeItem) (dom : Fin 5) : ∀ u : State,
    (xs.map fun x => x.body.item).Nodup →
    (xs.foldl State.joinTake u).takes.get dom = joinedList (u.takes.get dom) xs dom := by
  induction xs with
  | nil => intro u _; simp [joinedList]
  | cons x xs ih =>
    intro u hn
    obtain ⟨hx, hn⟩ := List.nodup_cons.mp hn
    have hx' : ∀ y ∈ xs, y.body.item ≠ x.body.item := fun y hy e => hx (List.mem_map.mpr ⟨y, hy, e⟩)
    rw [List.foldl_cons, ih _ hn, State.joinTake]
    simp only [State.setTakes_takes, Bank.get_set]
    split
    · next h =>
      rw [joinedList_cons_eq _ h hx', h]
    · next h => rw [joinedList_cons_ne _ _ h]

/-- R65: the item that has joined for a target is the one that its list holds for it. -/
theorem findItem_joinedList {items xs : List TakeItem} {x : TakeItem} {it : Fin 112}
    (hn : (xs.map fun x => x.body.item).Nodup) (hx : x ∈ xs) (hi : x.body.item = it) :
    findItem (joinedList items xs (itemDomain it)) it = some x := by
  subst hi
  have h1 : (items.filter fun y => !(xs.any fun z => z.body.item == y.body.item
      && itemDomain z.body.item == itemDomain x.body.item)).find? (fun y => y.body.item == x.body.item) = none := by
    rw [List.find?_eq_none]
    intro y hy he
    have hne := (List.mem_filter.mp hy).2
    rw [Bool.not_eq_true', List.any_eq_false] at hne
    exact hne x hx (by simpa using (beq_iff_eq.mp he).symm)
  have h2 : (xs.filter fun z => itemDomain z.body.item == itemDomain x.body.item).find?
      (fun y => y.body.item == x.body.item) = some x := by
    cases hf : (xs.filter fun z => itemDomain z.body.item == itemDomain x.body.item).find?
        (fun y => y.body.item == x.body.item) with
    | none =>
      exact absurd (beq_self_eq_true _)
        (List.find?_eq_none.mp hf x (List.mem_filter.mpr ⟨hx, beq_self_eq_true _⟩))
    | some y =>
      have hy := (List.mem_filter.mp (List.mem_of_find?_eq_some hf)).1
      have he : (y.body.item == x.body.item) = true :=
        List.find?_some (p := fun y : TakeItem => y.body.item == x.body.item) hf
      rw [List.inj_on_of_nodup_map hn hy hx (beq_iff_eq.mp he)]
  rw [findItem, joinedList, List.find?_append, h1, h2]
  rfl

/-- R67: a target that no item has joined for keeps what its list held for it. -/
theorem findItem_joinedList_of_ne {items xs : List TakeItem} {it : Fin 112} (dom : Fin 5)
    (h : ∀ x ∈ xs, x.body.item ≠ it) : findItem (joinedList items xs dom) it = findItem items it := by
  have h2 : (xs.filter fun z => itemDomain z.body.item == dom).find? (fun y => y.body.item == it) = none :=
    List.find?_eq_none.mpr fun y hy he => h y (List.mem_filter.mp hy).1 (beq_iff_eq.mp he)
  rw [findItem, joinedList, List.find?_append, h2, Option.or_none, List.find?_filter]
  refine congrArg (List.find? · items) (funext fun y => ?_)
  by_cases hy : y.body.item = it
  · have hn : ∀ x ∈ xs, x.body.item = it → itemDomain x.body.item ≠ dom := fun x hx e => absurd e (h x hx)
    simpa [hy] using hn
  · simp [hy]

/-! ### MAP_TAKE -/

section
variable (s : State) (tag : BitVec 4)

/-- The items join, before their event raises anything. -/
def State.joinTag (s : State) (tag : BitVec 4) : State := (s.taggedItems tag).foldl State.joinTake (s.unstageTag tag)

theorem keeps_joinTag : Keeps [.stagedDest, .stagedPlan, .takes] s (s.joinTag tag) :=
  (keeps_unstageTag tag).andThen (Keeps.foldl (fun _ _ => keeps_joinTake _) _ _)

theorem takeTag_eq : s.takeTag tag = (s.joinTag tag).raiseAll (s.supersededNotices (s.taggedItems tag)) := rfl

theorem takeTag_takes (dom : Fin 5) :
    (s.takeTag tag).takes.get dom = joinedList (s.takes.get dom) (s.taggedItems tag) dom := by
  rw [takeTag_eq, State.raiseAll_takes, State.joinTag]
  exact foldl_joinTake_takes _ dom (s.unstageTag tag) (taggedItems_nodup s tag)

theorem takeTag_staged : (s.takeTag tag).stagedDest = (s.unstageTag tag).stagedDest
    ∧ (s.takeTag tag).stagedPlan = (s.unstageTag tag).stagedPlan := by
  have hk : Keeps [.takes] (s.unstageTag tag) (s.joinTag tag) := Keeps.foldl (fun _ _ => keeps_joinTake _) _ _
  rw [takeTag_eq, State.raiseAll_stagedDest, State.raiseAll_stagedPlan]
  exact ⟨hk.stagedDest, hk.stagedPlan⟩

theorem takeTag_stagedDest (d : Fin 96) :
    (s.takeTag tag).stagedDest.get d = (s.stagedDest.get d).filter fun r => r.tag != tag := by
  rw [(takeTag_staged s tag).1, State.unstageTag, Bank.get_map]

theorem takeTag_stagedPlan (g : Fin 16) :
    (s.takeTag tag).stagedPlan.get g = (s.stagedPlan.get g).filter fun r => r.tag != tag := by
  rw [(takeTag_staged s tag).2, State.unstageTag, Bank.get_map]

theorem takeTag_events :
    (s.takeTag tag).events = (s.raiseAll (s.supersededNotices (s.taggedItems tag))).events := by
  have hk := keeps_joinTag s tag
  rw [takeTag_eq]
  exact (raiseAll_congr hk.events hk.eventNo (congrArg RefUnit.frameCount hk.ref) _).1

/-- R67: how many items are superseded. -/
theorem supersedes_eq (xs : List TakeItem) : s.supersedes xs
    = (xs.filter fun x => (s.takes.get (itemDomain x.body.item)).any fun y => y.body.item == x.body.item).length := by
  simp only [State.supersedes, findItem, List.isSome_find?]

theorem mapTakeAnswer_eq : mapTakeAnswer [BitVec.ofNat 8 tag.toNat] s
    = (s.takeTag tag, .ok, [BitVec.ofNat 8 (s.taggedItems tag).length,
        BitVec.ofNat 8 (s.supersedes (s.taggedItems tag))]) := by
  simp only [mapTakeAnswer, tag_ofNat]
  rfl

theorem mapTakeAnswer_invalid {b : Byte} (h : 16 ≤ b.toNat) : mapTakeAnswer [b] s = s.invalid := by
  simp only [mapTakeAnswer, tag_none h]

end

/-- R66: a staged record without the tag stays. -/
theorem filter_tag_ne {α : Type} {o : Option (Staged α)} {tag : BitVec 4} (h : ∀ r, o = some r → r.tag ≠ tag) :
    (o.filter fun r => r.tag != tag) = o := by
  cases o with
  | none => rfl
  | some r => simp [Option.filter, h r rfl]

theorem bit_mul (b : Bool) (n : Nat) : bit b * n = if b then n else 0 := by cases b <;> simp [bit]

/-- Settles O53. -/
theorem mapTakeMovesATag : Obligations.MapTakeMovesATag := by
  refine ⟨fun l ticket b s h hb => next_execute_of_head h (absurd · (by decide)) (mapTakeAnswer_invalid s hb),
    fun l ticket tag s h => ?_⟩
  have hn := taggedItems_nodup s tag
  refine ⟨s.takeTag tag, _, s.taggedItems tag, next_execute_of_head h (absurd · (by decide)) (mapTakeAnswer_eq s tag),
    keeps_takeTag tag, fun d r hr ht => ⟨?_, ?_⟩, fun g r hr ht => ⟨?_, ?_⟩, fun d hd => ⟨?_, ?_⟩,
    fun g hg => ⟨?_, ?_⟩, fun x => mem_taggedItems_iff, taggedItems_pairwise s tag, takeTag_takes s tag, ?_, ?_⟩
  · rw [takeTag_stagedDest, hr]
    simp [Option.filter, ht]
  · rw [takeTag_takes]
    have hx := destTake?_eq_some.mpr ⟨r, hr, ht, rfl⟩
    exact findItem_joinedList hn (mem_taggedItems.mpr (.inl ⟨d, hx⟩)) (item_of_destTake hx)
  · rw [takeTag_stagedPlan, hr]
    simp [Option.filter, ht]
  · rw [takeTag_takes]
    have hx := planTake?_eq_some.mpr ⟨r, hr, ht, rfl⟩
    exact findItem_joinedList hn (mem_taggedItems.mpr (.inr ⟨g, hx⟩)) (item_of_planTake hx)
  · rw [takeTag_stagedDest, filter_tag_ne hd]
  · rw [takeTag_takes, findItem_joinedList_of_ne _ fun x hx => item_ne_dest hd hx]
  · rw [takeTag_stagedPlan, filter_tag_ne hg]
  · rw [takeTag_takes, findItem_joinedList_of_ne _ fun x hx => item_ne_plan hg hx]
  · rw [takeTag_events, State.supersededNotices, List.filterMap_eq_flatMap_toList]
    refine congrArg (fun f => (s.raiseAll ((s.taggedItems tag).flatMap f)).events) (funext fun x => ?_)
    simp only [findItem, supersededDetail, bit_mul]
    cases (s.takes.get (itemDomain x.body.item)).find? fun y => y.body.item == x.body.item <;> rfl
  · rw [supersedes_eq]

end Sys2Proof.Machine
end
